-- ==== Sys2Proof/Word.lean ====
section
/-! DEFINITION. Words of the SLIP codec block (00_scope.md R6): bytes, 16- and 32-bit unsigned words, byte
sequences. No quantity of the block is signed. -/

namespace Sys2Proof

/-- `Byte` of R6: an unsigned 8-bit value, the unit of every transfer (R32, D40). -/
abbrev Byte := BitVec 8

/-- `u16` of R6. -/
abbrev U16 := BitVec 16

/-- `u32` of R6. -/
abbrev U32 := BitVec 32

/-- `Bytes` of R6: a finite sequence of bytes. -/
abbrev Bytes := List Byte

end Sys2Proof
end

