-- ==== Sys2Proof/Machine/Bytes.lean ====
section
/-! DEFINITION. Byte order and the arithmetic of 00_scope.md R6 and 43_flash_sequencer.md R117: every multi-byte
quantity is little-endian (R39, R54), nothing is signed, `ceil_div` and the like are computed as integers. -/

namespace Sys2Proof.Machine

/-- `le16(v)` of R6. -/
def le16 (v : U16) : Bytes := [v.extractLsb' 0 8, v.extractLsb' 8 8]

/-- `le32(v)` of R6. -/
def le32 (v : U32) : Bytes :=
  [v.extractLsb' 0 8, v.extractLsb' 8 8, v.extractLsb' 16 8, v.extractLsb' 24 8]

/-- The 16-bit value whose little-endian bytes are `b0 b1`. -/
def word16 (b0 b1 : Byte) : U16 := b1 ++ b0

/-- The 32-bit value whose little-endian bytes are `b0 b1 b2 b3`. -/
def word32 (b0 b1 b2 b3 : Byte) : U32 := b3 ++ b2 ++ b1 ++ b0

/-- `s[i]` of R6; every use is at an index below the length. -/
def byteAt (s : Bytes) (i : Nat) : Byte := s.getD i 0#8

/-- `get_le(s, off, 2)` of R6. -/
def getLe16 (s : Bytes) (off : Nat) : U16 := word16 (byteAt s off) (byteAt s (off + 1))

/-- `get_le(s, off, 4)` of R6. -/
def getLe32 (s : Bytes) (off : Nat) : U32 :=
  word32 (byteAt s off) (byteAt s (off + 1)) (byteAt s (off + 2)) (byteAt s (off + 3))

/-- `zext_32` of a byte (R54). -/
def zext32 (b : Byte) : U32 := b.setWidth 32

/-- `ceil_div(a, b)` of R6: the least integer q with q*b >= a, as integers; `b` is never 0 here (R117). -/
def ceilDiv (a b : Nat) : Nat := (a + b - 1) / b

/-- `address & ~0x3FF` (R110, R117 (b)): bits 9:0 cleared. -/
def alignDown (a : U32) : U32 := a &&& ~~~0x3FF#32

/-- `(v & ~mask) | val` of R113, at 16 bits. -/
def patchWord (v val mask : U16) : U16 := (v &&& ~~~mask) ||| val

end Sys2Proof.Machine
end

