-- ==== Sys2Proof/Config.lean ====
section
/-! DEFINITION. The configuration record of 00_scope.md R4, and the one open function of the spec. The default
values stand in Machine/Params.lean; the constraints R4 puts on a configuration in Machine/Flags.lean. -/

namespace Sys2Proof

/-- Which `ERASE_SIZE_FN` (R137) the block is built with. The spec leaves the parameter OPEN and names two
candidates for tests and claims; `unspecified` is the open parameter itself (log 13). -/
inductive EraseSizeFn where
  /-- R137 (a): whole sectors covering the image -/
  | eraseCover
  /-- R137 (b): the formula of the originating firmware, from general knowledge -/
  | eraseRomWorkaround
  /-- the OPEN parameter: `Config.eraseSizeFn`, of which nothing is known -/
  | unspecified
deriving DecidableEq, Repr

/-- The parameters of R4 that are not fixed by DOC. Fixed ones are definitions of Machine/Params.lean. A configuration
is an input: no step changes it (R10, R23; log 2). `clkW`, `respBodyCap` and `bodyWord` are `CLK_W`, `RESP_BODY_CAP`
and `BODY_WORD` (log 20). -/
structure Config where
  retriesPerBaud  : Nat
  retriesPerReset : Nat
  pctStep         : Nat
  dirRequest      : Byte
  dirResponse     : Byte
  opcFlashBegin   : Byte
  opcFlashData    : Byte
  opcFlashEnd     : Byte
  opcMemBegin     : Byte
  opcMemEnd       : Byte
  opcMemData      : Byte
  opcSync         : Byte
  opcWriteReg     : Byte
  opcReadReg      : Byte
  syncMarker      : Vector Byte 4
  syncFill        : Byte
  imageMagic      : Byte
  tDefault        : U32
  tErase          : U32
  tBlock          : U32
  baudList        : List Nat
  clkW            : Nat
  respBodyCap     : Nat
  bodyWord        : Nat
  eraseFn         : EraseSizeFn
  sectorSize      : Nat
  parmVal         : U16
  parmMask        : U16
deriving DecidableEq, Repr

/-- FREE VALUE (log 13). `ERASE_SIZE_FN` of R137, from the image size and the target address: "A model ... assumes
of it only that it is total and depends on its two operands alone". It has no body, so nothing can be proved of its
values. -/
opaque Config.eraseSizeFn : U32 → U32 → U32

end Sys2Proof
end

