-- ==== Sys2Proof/Machine/Params.lean ====
section
/-! DEFINITION. The numerals of 00_scope.md R4: the parameters DOC fixes, and the default configuration. Those that R4
marks "from general knowledge, not in source" are marked so here too (log 1). -/

namespace Sys2Proof.Machine

/-- `SLIP_END` -/
def slipEND : Byte := 0xC0#8
/-- `SLIP_ESC` -/
def slipESC : Byte := 0xDB#8
/-- `SLIP_ESC_END` -/
def slipESCEND : Byte := 0xDC#8
/-- `SLIP_ESC_ESC` -/
def slipESCESC : Byte := 0xDD#8
/-- `HDR_LEN` -/
def hdrLen : Nat := 8
/-- `BLOCK_SIZE` -/
def blockSize : Nat := 1024
/-- The block buffer's size: 16 bytes of body header and one block (R17). -/
def blkLen : Nat := 1040
/-- Where the block's data begin in the buffer (R17). -/
def blkData : Nat := 16
/-- `CHK_SEED` -/
def chkSeed : Byte := 0xEF#8
/-- `SYNC_PAYLOAD_LEN` -/
def syncPayloadLen : Nat := 36
/-- The fill bytes of the Sync payload, after its 4 marker bytes. -/
def syncFillLen : Nat := 32
/-- `SYNC_EXTRA_READS` -/
def syncExtraReads : Nat := 10
/-- `BLOCK_ATTEMPTS` -/
def blockAttempts : Nat := 3
/-- `REPLY_BODY_LEN` -/
def replyBodyLen : U16 := 2#16
/-- `T_SYNC` in ms -/
def tSync : U32 := 5000#32
/-- `CONNECT_INTERVAL` in ms -/
def connectInterval : Nat := 50
/-- `RESET_SETTLE` in ms -/
def resetSettle : Nat := 500
/-- `BLOCK_INTERVAL` in ms -/
def blockInterval : Nat := 15
/-- The longest body the `len` field can declare (R54). -/
def maxBodyLen : Nat := 65535

/-- R4's default configuration. From general knowledge, by R4's own mark (PRESUMED, log 1): the direction bytes, the
nine opcodes, the Sync bytes, the image magic, the three timeouts, the baud list, `BODY_WORD`, the sector size. The erase-size
function has no default (log 13). -/
def defaultConfig : Config where
  retriesPerBaud  := 3
  retriesPerReset := 3
  pctStep         := 5
  dirRequest      := 0x00#8
  dirResponse     := 0x01#8
  opcFlashBegin   := 0x02#8
  opcFlashData    := 0x03#8
  opcFlashEnd     := 0x04#8
  opcMemBegin     := 0x05#8
  opcMemEnd       := 0x06#8
  opcMemData      := 0x07#8
  opcSync         := 0x08#8
  opcWriteReg     := 0x09#8
  opcReadReg      := 0x0A#8
  syncMarker      := #v[0x07#8, 0x07#8, 0x12#8, 0x20#8]
  syncFill        := 0x55#8
  imageMagic      := 0xE9#8
  tDefault        := 500#32
  tErase          := 15000#32
  tBlock          := 200#32
  baudList        := [460800, 230400, 115200, 74880]
  clkW            := 32
  respBodyCap     := 2
  bodyWord        := 4
  eraseFn         := .unspecified
  sectorSize      := 4096
  parmVal         := 0x0000#16
  parmMask        := 0x0000#16

end Sys2Proof.Machine
end

