-- ==== Sys2Proof/Syntax.lean ====
section
/-! DEFINITION. The instructions: one constructor per row of spec/opcode_table.json (30_encoding.md R50, R65). A row
is a raw code or a frame on the wire (formats SLIP1, SLIP2, REQ, RSP) or an operation of the engine (format OP). -/

namespace Sys2Proof

/-- The image source a BEGIN_UPLOAD names (R36, R131): the size `ImgSize()` reports and the bytes `ImgRead` returns.
A source that keeps its contract has `data.length = size`; a failing medium has not (R36, U8; log 22). -/
structure ImageSource where
  size : U32
  data : Bytes
deriving DecidableEq, Repr

/-- One constructor per row of spec/opcode_table.json. -/
inductive Instr where
  -- SLIP1 and SLIP2: raw codes on the receive wire (R51)
  /-- `C0`: the frame delimiter -/
  | slipEnd
  /-- `DB DC`: the logical byte 0xC0 -/
  | slipEscEnd
  /-- `DB DD`: the logical byte 0xDB -/
  | slipEscEsc
  /-- `DB` and a byte other than `DC`, `DD` (R74) -/
  | slipEscBad (second : Byte)
  /-- a byte other than `C0`, `DB` stands for itself -/
  | slipLit (v : Byte)
  -- REQ: request headers and their bodies (R53, R57 to R61)
  | syncReq
  | flashBeginReq (totalSize address : U32)
  /-- `chk8` is the header's check byte, the one field of a request header (R65) -/
  | flashDataReq (chk8 : Byte) (blockIndex : U32) (data : Bytes)
  | flashEndReq (stay : Bool)
  | memBeginReq (chk : U32) (body : Bytes)
  | memEndReq (chk : U32) (body : Bytes)
  | memDataReq (chk : U32) (body : Bytes)
  | writeRegReq (chk : U32) (body : Bytes)
  | readRegReq (chk : U32) (body : Bytes)
  -- RSP: response headers (R56, R85, R86)
  | rsp (op : Byte) (value : U32) (body : Bytes)
  | rspStray (value : U32) (body : Bytes)
  | rspSync (value : U32) (body0 body1 : Byte)
  | rspFlashBegin (value : U32) (body0 body1 : Byte)
  | rspFlashData (value : U32) (body0 body1 : Byte)
  | rspFlashEnd (value : U32) (body0 body1 : Byte)
  -- OP: the 17 operations, in the order of R50, operands as in R9
  | slipEnc (s : Bytes)
  | slipWrap (s : Bytes)
  | slipRawwrap (s : Bytes)
  | slipDec
  | slipDecall (t : Bytes)
  | chk (s : Bytes)
  | hdr (dir op : Byte) (n : U16) (chk : U32)
  | send (op : Byte) (payload : Bytes) (chk : U32)
  | recv (op : Byte) (timeout : U32)
  | cmd (op : Byte) (payload : Bytes) (chk timeout : U32)
  | parse (f : Bytes)
  | sync (timeout : U32)
  | fbegin (address totalSize : U32)
  | fdata (idx : U32) (val mask : U16)
  | fend (reboot : Bool)
  | beginUpload (image : ImageSource) (addr : U32)
  | step
deriving DecidableEq, Repr

/-- The three surfaces a transaction arrives on, each with an alphabet of its own (R65: the formats OP, SLIP1 and
SLIP2, REQ and RSP share bit patterns; log 4, log 10). -/
inductive Lane where
  /-- the invocation surface: operations, by the ordinal of R50 -/
  | call
  /-- the receive wire, raw: SLIP codes -/
  | wire
  /-- the frame level: 8-byte headers and their bodies, before stuffing -/
  | header
deriving DecidableEq, Repr

/-- A transaction (or several, one after the other) as bytes, the first byte first, on its lane. -/
structure PortWord where
  lane  : Lane
  bytes : Bytes
deriving DecidableEq, Repr

/-- Why the decoder reads no instruction from some bytes. -/
inductive DecodeError where
  /-- the bytes end inside the instruction -/
  | truncated
  /-- an ordinal above 16 on the call lane: R50 lists 17 operations -/
  | noSuchOperation (ordinal : Byte)
  /-- a header no row of the table matches -/
  | noSuchHeader (dir op : Byte)
  /-- a request header whose fixed `len` or `chk` is not the row's, or a body that is not laid out as the row's (R57 to
  R60, R65) -/
  | notSendable (op : Byte)
  /-- a Boolean operand that is neither 0 nor 1 (R115) -/
  | badFlag
deriving DecidableEq, Repr

end Sys2Proof
end

