-- ==== Sys2Proof/Machine/State.lean ====
section
/-! DEFINITION. The state of the block and of its environment as plain data (10_state.md R10 to R25), the outcomes and
results operations give, why a step can stop, and the state after reset. -/

namespace Sys2Proof.Machine

/-- R160: the ten result codes, in DOC's order (which is their number). -/
inductive ResultCode where
  | success | timeout | connectFailed | badReply | fileReadError | emptyFile
  | responseHeaderError | slipFrameError | slipStateError | slipDataError
deriving DecidableEq, Repr

/-- R12: `orch_state`. Its numeric encoding is abstract (R11, D34). -/
inductive OrchState where
  | idle | resetting | connecting | erasing | uploading | done
deriving DecidableEq, Repr

/-- R13: `sync_phase`. -/
inductive SyncPhase where
  | idle | first | extra | flush
deriving DecidableEq, Repr

/-- R15: `rx_state`. -/
inductive RxState where
  | awaitingStart | readingHeader | readingBody | awaitingEnd | complete
deriving DecidableEq, Repr

/-- R74: the five outcomes of the decoder. -/
inductive DecOutcome where
  | byte (v : Byte) | noData | frameBoundary | escPending | badEscape
deriving DecidableEq, Repr

/-- R75: what SLIP.DECALL returns. -/
inductive DecodeAll where
  | decoded (out : Bytes) | frameBoundary | badEscape | truncated
deriving DecidableEq, Repr

/-- R87: what PARSE returns. -/
inductive ParseResult where
  | parsed (dir op : Byte) (chk : U32) (body : Bytes) | slipFrameError | slipDataError
deriving DecidableEq, Repr

/-- R20, R37: which mode the two lines select. -/
inductive GpioMode where
  | run | upload
deriving DecidableEq, Repr

/-- R8, R20: "every interface call appends itself". Reads are recorded with what they returned (log 23). -/
inductive Event where
  | rxAvail (n : Nat)
  | rxByte (r : Option Byte)
  | txByte (b : Byte)
  | txBlock (buf : Bytes)
  | reopen (baud : Nat)
  | now (t : Nat)
  | imgSize (n : U32)
  | imgRead (off n got : Nat)
  | imgRelease
  | gpioEnter
  | gpioLeave
  | progress (p : Nat)
deriving DecidableEq, Repr

/-- What the environment does between two interface calls (R31): the clock advances by `ms`, the peer appends `rx`.
The MODEL's own (log 3). -/
structure EnvAct where
  ms : Nat
  rx : Bytes
deriving DecidableEq, Repr

/-- When the three timestamps of the block were taken, on the clock's whole count: `last_attempt`, `last_reset` (R11),
`rx_start` (R15). The MODEL's own (log 29): what U12 speaks of and no register shows. -/
structure Stamps where
  attempt : Nat
  reset   : Nat
  rx      : Nat
deriving DecidableEq, Repr

/-- R20: the environment's state. `now` is the clock's whole count of milliseconds; the block sees it modulo 2^`CLK_W`
(R38). The MODEL's own are `script`, what the clock and the peer will do, one entry before each interface call (log 3),
`stamps`, and `overrun`: a timestamp was tested more than 2^`CLK_W` - 1 ms after it was taken (U12; log 29). -/
structure Env where
  rxq    : Bytes
  txs    : Bytes
  baud   : Option Nat
  now    : Nat
  img    : ImageSource
  gpio   : Option GpioMode
  events : List Event
  script : List EnvAct
  stamps : Stamps
  overrun : Bool
deriving DecidableEq, Repr

/-- R11: the session registers. The two timestamps are `CLK_W` bits wide: numbers below 2^`CLK_W` (log 20). -/
structure Session where
  imageSize    : U32
  targetAddr   : U32
  blockIdx     : U32
  baudAttempt  : U32
  resetAttempt : U32
  lastAttempt  : Nat
  lastReset    : Nat
  result       : ResultCode
  nextReport   : U32
  resultValid  : Bool
deriving DecidableEq, Repr

/-- R14 (`rx_active`), R15 (the receive machine), R16 (`esc_pending`). `resp_body` holds `RESP_BODY_CAP` bytes, and
`start` is `CLK_W` bits wide (log 20). -/
structure Receiver where
  active     : Bool
  state      : RxState
  hdr        : Vector Byte 8
  hdrIdx     : Nat
  bodyLen    : U16
  bodyIdx    : U16
  respBody   : Bytes
  respValue  : U32
  start      : Nat
  timeout    : U32
  expected   : Byte
  escPending : Bool
deriving DecidableEq, Repr

/-- An operation that ends in a RECV and can so be suspended, when it is called by itself. -/
inductive UnitOp where
  | recv | cmd | sync | fbegin | fdata | fend
deriving DecidableEq, Repr

/-- What the last operation returned: the return port of the invocation surface (R19, R131, R132) and of the units.
The MODEL's own (log 12). -/
inductive Ret where
  /-- nothing has been called yet -/
  | nothing
  | bytes (b : Bytes)
  | byte (b : Byte)
  | outcome (o : DecOutcome)
  | decodeAll (r : DecodeAll)
  | parse (r : ParseResult)
  /-- SEND returns without a value -/
  | sent
  /-- RECV, CMD, SYNC, FBEGIN, FDATA, FEND have returned; RECV's values stand in the receive registers -/
  | code (r : ResultCode)
  | started
  | failed (r : ResultCode)
  | inProgress (percent : Nat)
  | done (r : ResultCode)
deriving DecidableEq, Repr

/-- The block buffer (R17, R32): a byte space of indices 0..1039, as (index, byte) cells with indices strictly rising;
an unlisted index reads as 0x00, and no entry holds 0x00 (log 21). -/
abbrev Memory := List Host.Cell

/-- The machine (R10, R20). `cfg`, `port`, `ret` and `unitCall` are the MODEL's own fields (log 2, log 4, log 12). -/
structure State where
  /-- R4: the configuration inputs; no step writes them -/
  cfg        : Config
  session    : Session
  orch       : OrchState
  syncPhase  : SyncPhase
  syncExtra  : Nat
  syncStatus : ResultCode
  blkAttempt : Nat
  rx         : Receiver
  blk        : Memory
  chk8       : Byte
  env        : Env
  /-- the transactions still to come, the next one first -/
  port       : List PortWord
  ret        : Ret
  /-- the operation that waits for the pending RECV, when no state action of STEP called it -/
  unitCall   : Option UnitOp
deriving DecidableEq, Repr

/-- Why the machine stops with a fault. -/
inductive Fault where
  /-- Raised by STEP alone, in a state no run reaches: a RECV is pending (`rx_active` = 1) and no operation waits for
  it, so R132's "continue the operation that called it" has nothing to continue (log 18). Safe: the model stops. -/
  | orphanReceive
deriving DecidableEq, Repr

/-- Why the machine refuses an instruction. -/
inductive Refusal where
  /-- Raised by exec's arm of an instruction that has no meaning yet. Safe. -/
  | notModelled (mnemonic : String)
  /-- Raised by `step`: the bytes at the port are no instruction (log 28). Safe. -/
  | undecodable (why : DecodeError)
  /-- Raised by BEGIN_UPLOAD while a session is in progress: U1, treatment "refuse" (R131; log 16). Safe. -/
  | sessionInProgress
  /-- Raised by STEP in `idle` when no BEGIN_UPLOAD has been made: U2, treatment "refuse" (R133; log 16). Safe. -/
  | noSession
  /-- Raised by every operation that reads the configuration, when it breaks R4's constraints: U9, treatment "refuse"
  (log 15). Safe. -/
  | illegalConfiguration
  /-- Raised by STEP in `erasing` when `EraseCover` does not fit 32 bits: U15, treatment "refuse" (R137; log 14). Safe. -/
  | eraseCoverOverflow
  /-- Raised by STEP and the operations that end in a RECV when a timestamp is tested more than 2^`CLK_W` - 1 ms after
  it was taken: U12, treatment "refuse" (R174; log 29). Safe. -/
  | clockOverrun
  /-- Raised by a frame whose body is longer than its `len` field can say: R54, "must be at most 65535" (log 24). Safe. -/
  | bodyTooLong
deriving DecidableEq, Repr

/-- The session registers after reset: R25 gives `result_valid` = 0; the others are unspecified (log 5). -/
def Session.reset : Session where
  imageSize    := 0#32
  targetAddr   := 0#32
  blockIdx     := 0#32
  baudAttempt  := 0#32
  resetAttempt := 0#32
  lastAttempt  := 0
  lastReset    := 0
  result       := .success
  nextReport   := 0#32
  resultValid  := false

/-- The receive machine after reset: R25 gives `rx_active`, `rx_state` and `esc_pending`; the others are unspecified
(log 5). -/
def Receiver.reset : Receiver where
  active     := false
  state      := .awaitingStart
  hdr        := Vector.replicate 8 0#8
  hdrIdx     := 0
  bodyLen    := 0#16
  bodyIdx    := 0#16
  respBody   := List.replicate defaultConfig.respBodyCap 0#8
  respValue  := 0#32
  start      := 0
  timeout    := 0#32
  expected   := 0#8
  escPending := false

/-- The environment where the model starts. DESIGN CHOICE: R191 leaves it open, but for `TXS`, which is empty, and R31
leaves open what the clock and the peer do next; here both are silent, `script` being empty, so from this environment the
clock never advances and no byte comes unasked (log 6). -/
def Env.reset : Env where
  rxq    := []
  txs    := []
  baud   := none
  now    := 0
  img    := { size := 0#32, data := [] }
  gpio   := none
  events := []
  script := []
  stamps := { attempt := 0, reset := 0, rx := 0 }
  overrun := false

/-- The machine right after reset (R25, R190): no session, no RECV pending, nothing on the wire. -/
def State.reset : State where
  cfg        := defaultConfig
  session    := Session.reset
  orch       := .idle
  syncPhase  := .idle
  syncExtra  := 0
  syncStatus := .success
  blkAttempt := 0
  rx         := Receiver.reset
  blk        := []
  chk8       := 0#8
  env        := Env.reset
  port       := []
  ret        := .nothing
  unitCall   := none

end Sys2Proof.Machine
end

