-- ==== Sys2Proof/Machine/Operands.lean ====
section
/-! DEFINITION. Operand forms: every pure function from operands to bytes the spec gives. The SLIP byte alphabet and
the frame (R51, R52, R70 to R75), the header and the checksum (R53, R54, R80, R82), the command bodies (R57 to R60),
the parser (R87), the erase size (R137). -/

namespace Sys2Proof.Machine

/-- The raw bytes a logical byte is sent as (R51). -/
def stuffByte (b : Byte) : Bytes :=
  if b = slipEND then [slipESC, slipESCEND]
  else if b = slipESC then [slipESC, slipESCESC]
  else [b]

/-- SLIP.ENC of R70. -/
def slipEncode (s : Bytes) : Bytes := s.flatMap stuffByte

/-- SLIP.WRAP of R71. -/
def slipWrapped (s : Bytes) : Bytes := [slipEND] ++ slipEncode s ++ [slipEND]

/-- SLIP.RAWWRAP of R72. -/
def slipRawWrapped (s : Bytes) : Bytes := [slipEND] ++ s ++ [slipEND]

/-- Puts a decoded byte before what the rest decodes to; an error stays. -/
def DecodeAll.cons (b : Byte) : DecodeAll → DecodeAll
  | .decoded out => .decoded (b :: out)
  | e => e

/-- SLIP.DECALL of R75. -/
def slipDecodeAll : Bytes → DecodeAll
  | [] => .decoded []
  | [b] =>
    if b = slipEND then .frameBoundary
    else if b = slipESC then .truncated
    else .decoded [b]
  | b :: c :: t =>
    if b = slipEND then .frameBoundary
    else if b ≠ slipESC then DecodeAll.cons b (slipDecodeAll (c :: t))
    else if c = slipESCEND then DecodeAll.cons slipEND (slipDecodeAll t)
    else if c = slipESCESC then DecodeAll.cons slipESC (slipDecodeAll t)
    else .badEscape

/-- CHK of R80: the XOR fold of the bytes, from the seed. -/
def chkFold (s : Bytes) : Byte := s.foldl (fun c b => c ^^^ b) chkSeed

/-- HDR of R82. -/
def hdrBytes (dir op : Byte) (n : U16) (chk : U32) : Bytes := [dir, op] ++ le16 n ++ le32 chk

/-- Header and body of a frame before stuffing: `len` is the body's length (R52, R54). -/
def frameContent (dir op : Byte) (chk : U32) (body : Bytes) : Bytes :=
  hdrBytes dir op (BitVec.ofNat 16 body.length) chk ++ body

/-- PARSE of R87. -/
def parseFrame (f : Bytes) : ParseResult :=
  if f.length < 2 ∨ byteAt f 0 ≠ slipEND ∨ byteAt f (f.length - 1) ≠ slipEND then .slipFrameError
  else
    match slipDecodeAll ((f.drop 1).take (f.length - 2)) with
    | .frameBoundary => .slipFrameError
    | .badEscape => .slipDataError
    | .truncated => .slipDataError
    | .decoded s =>
      if s.length < 8 then .slipFrameError
      else if s.length ≠ 8 + (getLe16 s 2).toNat then .slipFrameError
      else .parsed (byteAt s 0) (byteAt s 1) (getLe32 s 4) (s.drop 8)

/-- The 36-byte Sync payload of R57. -/
def syncPayload (c : Config) : Bytes := c.syncMarker.toList ++ List.replicate syncFillLen c.syncFill

/-- `block_count` of R110: as integers, no wrap; at most 0x400000. -/
def blockCount (totalSize : U32) : U32 := BitVec.ofNat 32 (ceilDiv totalSize.toNat blockSize)

/-- The FlashBegin body of R58 and R110. -/
def flashBeginBody (address totalSize : U32) : Bytes :=
  le32 totalSize ++ le32 (blockCount totalSize) ++ le32 1024#32 ++ le32 (alignDown address)

/-- The 16 bytes before a block's data in the FlashData body (R59). -/
def flashDataBodyHeader (idx : U32) : Bytes := le32 1024#32 ++ le32 idx ++ le32 0#32 ++ le32 0#32

/-- The FlashEnd body of R60: the word 0 means reboot now, 1 means stay. -/
def flashEndBody (stay : Bool) : Bytes := le32 (if stay then 1#32 else 0#32)

/-- `EraseCover` of R137 (a), as an integer; defined where it fits 32 bits. -/
def eraseCover (sector : Nat) (size : U32) : Nat := ceilDiv size.toNat sector * sector

/-- `EraseRomWorkaround` of R137 (b), with 16 sectors per erase block. -/
def eraseRomWorkaround (sector : Nat) (size addr : U32) : Nat :=
  let num := ceilDiv size.toNat sector
  let start := addr.toNat / sector
  let head := min (16 - start % 16) num
  if num < 2 * head then (num + 1) / 2 * sector else (num - head) * sector

/-- The erase size of R136 and R137 by the configuration; none where `EraseCover` does not fit 32 bits (U15; log 14). -/
def eraseSize (c : Config) (size addr : U32) : Option U32 :=
  match c.eraseFn with
  | .eraseCover =>
    if size.toNat ≤ 2 ^ 32 - c.sectorSize then some (BitVec.ofNat 32 (eraseCover c.sectorSize size)) else none
  | .eraseRomWorkaround => some (BitVec.ofNat 32 (eraseRomWorkaround c.sectorSize size addr))
  | .unspecified => some (Config.eraseSizeFn size addr)

/-- `n_blocks` of R11: not a register, recomputed where used. -/
def nBlocks (imageSize : U32) : Nat := ceilDiv imageSize.toNat blockSize

/-- `(100 * block_idx) div n_blocks` of R19, R117 (g), R138. -/
def percentOf (blockIdx imageSize : U32) : Nat := 100 * blockIdx.toNat / nBlocks imageSize

end Sys2Proof.Machine
end

