-- ==== Sys2Proof/WellFormed.lean ====
section
/-! DEFINITION. Which terms of `Instr` are instructions: the operand ranges the spec gives (R51, R54, R58, R59, R65)
and, for a byte string operand, a length its 32-bit count can hold. -/

namespace Sys2Proof

/-- A byte string whose length the encoder's 32-bit count holds (log 11). -/
def Bytes.countable (s : Bytes) : Bool := s.length < 2 ^ 32

/-- R54, R83: a payload or body is at most 65535 bytes long. -/
def Bytes.fitsBody (s : Bytes) : Bool := s.length ≤ Machine.maxBodyLen

/-- R65: the rows RSP.SYNC, RSP.FLASH_BEGIN, RSP.FLASH_DATA and RSP.FLASH_END (these four opcodes with a body of two
bytes) and RSP.STRAY (opcode zero) are more specific than RSP. -/
def isPlainResponse (op : Byte) (len : Nat) : Bool :=
  op != 0x00#8 && !(len == 2 && (op == 0x08#8 || op == 0x02#8 || op == 0x03#8 || op == 0x04#8))

/-- The well-formed instructions. `SLIP.ESC_BAD` yields to the two valid escapes and `SLIP.LIT` to `SLIP.END` and the
escapes (R65). -/
def Instr.wf : Instr → Bool
  | .slipEnd | .slipEscEnd | .slipEscEsc => true
  | .slipEscBad second => second != Machine.slipESCEND && second != Machine.slipESCESC
  | .slipLit v => v != Machine.slipEND && v != Machine.slipESC
  | .syncReq => true
  | .flashBeginReq _ address => address == Machine.alignDown address
  | .flashDataReq _ _ data => data.length == Machine.blockSize
  | .flashEndReq _ => true
  | .memBeginReq _ body => Bytes.fitsBody body
  | .memEndReq _ body => Bytes.fitsBody body
  | .memDataReq _ body => Bytes.fitsBody body
  | .writeRegReq _ body => Bytes.fitsBody body
  | .readRegReq _ body => Bytes.fitsBody body
  | .rsp op _ body => Bytes.fitsBody body && isPlainResponse op body.length
  | .rspStray _ body => Bytes.fitsBody body
  | .rspSync _ _ _ | .rspFlashBegin _ _ _ | .rspFlashData _ _ _ | .rspFlashEnd _ _ _ => true
  | .slipEnc s => Bytes.countable s
  | .slipWrap s => Bytes.countable s
  | .slipRawwrap s => Bytes.countable s
  | .slipDec => true
  | .slipDecall t => Bytes.countable t
  | .chk s => Bytes.countable s
  | .hdr _ _ _ _ => true
  | .send _ payload _ => Bytes.fitsBody payload
  | .recv _ _ => true
  | .cmd _ payload _ _ => Bytes.fitsBody payload
  | .parse f => Bytes.countable f
  | .sync _ | .fbegin _ _ | .fdata _ _ _ | .fend _ => true
  | .beginUpload image _ => Bytes.countable image.data
  | .step => true

end Sys2Proof
end

