-- ==== Sys2Proof/Decode.lean ====
section
/-! DEFINITION. The decoder, total on any bytes of any lane, and the encoder. The wire lane's codes are R51's; the
header lane's are the 8-byte headers of R53 and spec/opcode_table.json (R65), with the rows' default numerals; the call
lane's are the ordinals of R50 with operands laid out by the model (R50: "no operation has a hardware encoding";
log 11). Operand readers take a continuation, so that decoding is one expression per row. -/

namespace Sys2Proof

open Machine

/-- An instruction and the bytes that follow it, or why there is none. -/
abbrev Decoded := Except DecodeError (Instr × Bytes)

/-- Reads one byte. -/
def takeByte (s : Bytes) (k : Byte → Bytes → Decoded) : Decoded :=
  match s with
  | b :: r => k b r
  | [] => .error .truncated

/-- Reads a little-endian 16-bit word. -/
def take16 (s : Bytes) (k : U16 → Bytes → Decoded) : Decoded :=
  match s with
  | b0 :: b1 :: r => k (word16 b0 b1) r
  | _ => .error .truncated

/-- Reads a little-endian 32-bit word. -/
def take32 (s : Bytes) (k : U32 → Bytes → Decoded) : Decoded :=
  match s with
  | b0 :: b1 :: b2 :: b3 :: r => k (word32 b0 b1 b2 b3) r
  | _ => .error .truncated

/-- Reads exactly n bytes. -/
def takeN (n : Nat) (s : Bytes) (k : Bytes → Bytes → Decoded) : Decoded :=
  if s.length < n then .error .truncated else k (s.take n) (s.drop n)

/-- Reads a counted byte string: a 32-bit count and that many bytes. -/
def takeCounted (s : Bytes) (k : Bytes → Bytes → Decoded) : Decoded :=
  take32 s fun n r => takeN n.toNat r k

/-- Reads a Boolean byte. -/
def takeBool (s : Bytes) (k : Bool → Bytes → Decoded) : Decoded :=
  takeByte s fun b r => if b = 0#8 then k false r else if b = 1#8 then k true r else .error .badFlag

/-- The wire lane (R51). A `DB` takes the byte after it, whatever that is (R74 (a)). -/
def decodeWire (s : Bytes) : Decoded :=
  takeByte s fun b r =>
    if b = slipEND then .ok (.slipEnd, r)
    else if b = slipESC then
      takeByte r fun c r' =>
        if c = slipESCEND then .ok (.slipEscEnd, r')
        else if c = slipESCESC then .ok (.slipEscEsc, r')
        else .ok (.slipEscBad c, r')
    else .ok (.slipLit b, r)

/-- A header with `dir` = 0x00 (R57 to R61), and its body by byte offset. `len` and `chk` of the four requests the block
sends are fixed by their rows, but for the low byte of FlashData's `chk`; so is all of a body that is no operand, and a
body that differs there is not one the block can send (R57 to R60, R65). -/
def decodeRequest (op : Byte) (len : U16) (chk : U32) (r : Bytes) : Decoded :=
  if op = 0x08#8 then
    if len = 36#16 ∧ chk = 0#32 then
      takeN syncPayloadLen r fun payload r =>
        if payload = syncPayload defaultConfig then .ok (.syncReq, r) else .error (.notSendable op)
    else .error (.notSendable op)
  else if op = 0x02#8 then
    if len = 16#16 ∧ chk = 0#32 then
      take32 r fun total r => take32 r fun count r => take32 r fun size r => take32 r fun addr r =>
        if count = blockCount total ∧ size = 1024#32 ∧ addr = alignDown addr then .ok (.flashBeginReq total addr, r)
        else .error (.notSendable op)
    else .error (.notSendable op)
  else if op = 0x03#8 then
    if len = 1040#16 ∧ chk = zext32 (chk.extractLsb' 0 8) then
      take32 r fun size r => take32 r fun idx r => take32 r fun r0 r => take32 r fun r1 r =>
        takeN blockSize r fun data r =>
          if size = 1024#32 ∧ r0 = 0#32 ∧ r1 = 0#32 then .ok (.flashDataReq (chk.extractLsb' 0 8) idx data, r)
          else .error (.notSendable op)
    else .error (.notSendable op)
  else if op = 0x04#8 then
    if len = 4#16 ∧ chk = 0#32 then
      take32 r fun flag r =>
        if flag = 0#32 then .ok (.flashEndReq false, r) else if flag = 1#32 then .ok (.flashEndReq true, r)
        else .error (.notSendable op)
    else .error (.notSendable op)
  else if op = 0x05#8 then takeN len.toNat r fun body r => .ok (.memBeginReq chk body, r)
  else if op = 0x06#8 then takeN len.toNat r fun body r => .ok (.memEndReq chk body, r)
  else if op = 0x07#8 then takeN len.toNat r fun body r => .ok (.memDataReq chk body, r)
  else if op = 0x09#8 then takeN len.toNat r fun body r => .ok (.writeRegReq chk body, r)
  else if op = 0x0A#8 then takeN len.toNat r fun body r => .ok (.readRegReq chk body, r)
  else .error (.noSuchHeader 0x00#8 op)

/-- Reads the two body bytes of a response a command accepts (R56). -/
def takeReply (r : Bytes) (k : Byte → Byte → Bytes → Decoded) : Decoded :=
  takeByte r fun b0 r => takeByte r fun b1 r => k b0 b1 r

/-- A header with `dir` = 0x01 (R56, R85, R86), the more specific rows first. -/
def decodeResponse (op : Byte) (len : U16) (value : U32) (r : Bytes) : Decoded :=
  if op = 0x00#8 then takeN len.toNat r fun body r => .ok (.rspStray value body, r)
  else if op = 0x08#8 ∧ len = 2#16 then takeReply r fun b0 b1 r => .ok (.rspSync value b0 b1, r)
  else if op = 0x02#8 ∧ len = 2#16 then takeReply r fun b0 b1 r => .ok (.rspFlashBegin value b0 b1, r)
  else if op = 0x03#8 ∧ len = 2#16 then takeReply r fun b0 b1 r => .ok (.rspFlashData value b0 b1, r)
  else if op = 0x04#8 ∧ len = 2#16 then takeReply r fun b0 b1 r => .ok (.rspFlashEnd value b0 b1, r)
  else takeN len.toNat r fun body r => .ok (.rsp op value body, r)

/-- The header lane (R53): `dir`, `op`, `len`, `chk`, then what the row carries. -/
def decodeHeader (s : Bytes) : Decoded :=
  takeByte s fun dir r => takeByte r fun op r => take16 r fun len r => take32 r fun chk r =>
    if dir = 0x00#8 then decodeRequest op len chk r
    else if dir = 0x01#8 then decodeResponse op len chk r
    else .error (.noSuchHeader dir op)

/-- The call lane: R50's ordinal, then the operands in R9's order. -/
def decodeCall (s : Bytes) : Decoded :=
  takeByte s fun ordinal r =>
    match ordinal.toNat with
    | 0 => takeCounted r fun s r => .ok (.slipEnc s, r)
    | 1 => takeCounted r fun s r => .ok (.slipWrap s, r)
    | 2 => takeCounted r fun s r => .ok (.slipRawwrap s, r)
    | 3 => .ok (.slipDec, r)
    | 4 => takeCounted r fun t r => .ok (.slipDecall t, r)
    | 5 => takeCounted r fun s r => .ok (.chk s, r)
    | 6 => takeByte r fun dir r => takeByte r fun op r => take16 r fun n r => take32 r fun c r => .ok (.hdr dir op n c, r)
    | 7 => takeByte r fun op r => take16 r fun n r => takeN n.toNat r fun p r => take32 r fun c r => .ok (.send op p c, r)
    | 8 => takeByte r fun op r => take32 r fun t r => .ok (.recv op t, r)
    | 9 => takeByte r fun op r => take16 r fun n r => takeN n.toNat r fun p r => take32 r fun c r => take32 r fun t r =>
        .ok (.cmd op p c t, r)
    | 10 => takeCounted r fun f r => .ok (.parse f, r)
    | 11 => take32 r fun t r => .ok (.sync t, r)
    | 12 => take32 r fun a r => take32 r fun n r => .ok (.fbegin a n, r)
    | 13 => take32 r fun idx r => take16 r fun v r => take16 r fun m r => .ok (.fdata idx v m, r)
    | 14 => takeBool r fun b r => .ok (.fend b, r)
    | 15 => take32 r fun size r => takeCounted r fun data r => take32 r fun addr r =>
        .ok (.beginUpload { size := size, data := data } addr, r)
    | 16 => .ok (.step, r)
    | _ => .error (.noSuchOperation ordinal)

/-- The decoder. -/
def decode (lane : Lane) (s : Bytes) : Decoded :=
  match lane with
  | .call => decodeCall s
  | .wire => decodeWire s
  | .header => decodeHeader s

/-- A counted byte string: its length as 32 bits, then its bytes. -/
def counted (s : Bytes) : Bytes := le32 (BitVec.ofNat 32 s.length) ++ s

/-- A Boolean operand's byte. -/
def boolByte (b : Bool) : Byte := if b then 1#8 else 0#8

/-- A header (R53) of the table, from its four fields. -/
def headerBytes (dir op : Byte) (len : U16) (chk : U32) : Bytes := [dir, op] ++ le16 len ++ le32 chk

/-- A header whose `len` is its body's length, and the body. -/
def headerAndBody (dir op : Byte) (chk : U32) (body : Bytes) : Bytes :=
  headerBytes dir op (BitVec.ofNat 16 body.length) chk ++ body

/-- The encoder: the lane of an instruction and its bytes there, from the same tables. -/
def encode : Instr → PortWord
  | .slipEnd => ⟨.wire, [slipEND]⟩
  | .slipEscEnd => ⟨.wire, [slipESC, slipESCEND]⟩
  | .slipEscEsc => ⟨.wire, [slipESC, slipESCESC]⟩
  | .slipEscBad second => ⟨.wire, [slipESC, second]⟩
  | .slipLit v => ⟨.wire, [v]⟩
  | .syncReq => ⟨.header, headerBytes 0x00#8 0x08#8 36#16 0#32 ++ syncPayload defaultConfig⟩
  | .flashBeginReq total addr => ⟨.header, headerBytes 0x00#8 0x02#8 16#16 0#32 ++ flashBeginBody addr total⟩
  | .flashDataReq chk8 idx data =>
    ⟨.header, headerBytes 0x00#8 0x03#8 1040#16 (zext32 chk8) ++ (flashDataBodyHeader idx ++ data)⟩
  | .flashEndReq stay => ⟨.header, headerBytes 0x00#8 0x04#8 4#16 0#32 ++ flashEndBody stay⟩
  | .memBeginReq chk body => ⟨.header, headerAndBody 0x00#8 0x05#8 chk body⟩
  | .memEndReq chk body => ⟨.header, headerAndBody 0x00#8 0x06#8 chk body⟩
  | .memDataReq chk body => ⟨.header, headerAndBody 0x00#8 0x07#8 chk body⟩
  | .writeRegReq chk body => ⟨.header, headerAndBody 0x00#8 0x09#8 chk body⟩
  | .readRegReq chk body => ⟨.header, headerAndBody 0x00#8 0x0A#8 chk body⟩
  | .rsp op value body => ⟨.header, headerAndBody 0x01#8 op value body⟩
  | .rspStray value body => ⟨.header, headerAndBody 0x01#8 0x00#8 value body⟩
  | .rspSync value b0 b1 => ⟨.header, headerAndBody 0x01#8 0x08#8 value [b0, b1]⟩
  | .rspFlashBegin value b0 b1 => ⟨.header, headerAndBody 0x01#8 0x02#8 value [b0, b1]⟩
  | .rspFlashData value b0 b1 => ⟨.header, headerAndBody 0x01#8 0x03#8 value [b0, b1]⟩
  | .rspFlashEnd value b0 b1 => ⟨.header, headerAndBody 0x01#8 0x04#8 value [b0, b1]⟩
  | .slipEnc s => ⟨.call, 0#8 :: counted s⟩
  | .slipWrap s => ⟨.call, 1#8 :: counted s⟩
  | .slipRawwrap s => ⟨.call, 2#8 :: counted s⟩
  | .slipDec => ⟨.call, [3#8]⟩
  | .slipDecall t => ⟨.call, 4#8 :: counted t⟩
  | .chk s => ⟨.call, 5#8 :: counted s⟩
  | .hdr dir op n c => ⟨.call, [6#8, dir, op] ++ le16 n ++ le32 c⟩
  | .send op p c => ⟨.call, [7#8, op] ++ le16 (BitVec.ofNat 16 p.length) ++ p ++ le32 c⟩
  | .recv op t => ⟨.call, [8#8, op] ++ le32 t⟩
  | .cmd op p c t => ⟨.call, [9#8, op] ++ le16 (BitVec.ofNat 16 p.length) ++ p ++ le32 c ++ le32 t⟩
  | .parse f => ⟨.call, 10#8 :: counted f⟩
  | .sync t => ⟨.call, 11#8 :: le32 t⟩
  | .fbegin a n => ⟨.call, 12#8 :: (le32 a ++ le32 n)⟩
  | .fdata idx v m => ⟨.call, 13#8 :: (le32 idx ++ le16 v ++ le16 m)⟩
  | .fend b => ⟨.call, [14#8, boolByte b]⟩
  | .beginUpload image addr => ⟨.call, 15#8 :: (le32 image.size ++ counted image.data ++ le32 addr)⟩
  | .step => ⟨.call, [16#8]⟩

/-- Which lane a word of spec/opcode_table.json belongs to, by its width and value (R65; log 10): 8-bit words are the
OP ordinals of R50, else raw codes (`SLIP.LIT` has the lowest priority); 16-bit words with a first byte `DB` are the
escapes; all others are headers. -/
def tableLane (nbits w : Nat) : Lane :=
  if nbits ≤ 8 then (if w ≤ 16 then .call else .wire)
  else if nbits ≤ 16 ∧ w % 256 = 0xDB then .wire
  else .header

/-- The bytes the table fixes in the body of a request header, up to the last of them (R57 to R59): operands are zero. -/
def tableBody (w : Nat) : Bytes :=
  match w % 65536 with
  | 0x0800 => syncPayload defaultConfig
  | 0x0200 => flashBeginBody 0#32 0#32
  | 0x0300 => flashDataBodyHeader 0#32
  | _ => []

/-- Zero bytes enough for whatever follows the word: the data of FLASH_DATA.REQ, and what a header's `len` announces
(R53). -/
def tablePad (w : Nat) : Nat := 1024 + w / 65536 % 65536

/-- The bytes of a table word, the least significant first (R65), what the row fixes after it, and zeros (log 10). -/
def tableBytes (nbits w : Nat) : Bytes :=
  (List.range (nbits / 8)).map (fun i => BitVec.ofNat 8 (w >>> (8 * i))) ++
    (if nbits = 64 then tableBody w else []) ++ List.replicate (tablePad w) 0#8

/-- The table's numbering given to the decoder: bit 0 is the least significant bit of the first byte. -/
def decodeTableWord (nbits w : Nat) : Option Instr :=
  match decode (tableLane nbits w) (tableBytes nbits w) with
  | .ok (i, _) => some i
  | .error _ => none

end Sys2Proof
end

