-- ==== Sys2Proof/Machine/Flags.lean ====
section
/-! DEFINITION. The flag-like computations and tests of the block. It has no arithmetic condition codes (R22); what it
has is `esc_pending` and the decoder's outcome (R16, R74), the timed conditions (R171, R174), the validation of a
response (R85, R86), the gates of the orchestrator (R131, R134, R135), and the constraints on a configuration (R4, U9). -/

namespace Sys2Proof.Machine

/-- Elapsed time of R174: `(t - t0) mod 2^CLK_W`, as an unsigned number of milliseconds. -/
def elapsed (w t t0 : Nat) : Nat := (t + (2 ^ w - t0 % 2 ^ w)) % 2 ^ w

/-- A timeout fires when elapsed > limit (R84, R174). -/
def timedOut (w t t0 : Nat) (limit : U32) : Bool := elapsed w t t0 > limit.toNat

/-- An interval is satisfied when elapsed >= limit (R174). -/
def intervalMet (w t t0 limit : Nat) : Bool := elapsed w t t0 ≥ limit

/-- R135: both the inter-attempt and the post-reset interval have passed. -/
def connectGate (w t lastAttempt lastReset : Nat) : Bool :=
  intervalMet w t lastAttempt connectInterval && intervalMet w t lastReset resetSettle

/-- R138: the inter-block interval has passed. -/
def blockGate (w t lastAttempt : Nat) : Bool := intervalMet w t lastAttempt blockInterval

/-- R74: what the first raw byte of a decode means, with `esc_pending` = 0; none is an escape byte, whose meaning the
next byte decides. -/
def firstByteOutcome (r : Byte) : Option DecOutcome :=
  if r = slipEND then some .frameBoundary
  else if r = slipESC then none
  else some (.byte r)

/-- R74: what the raw byte after an escape byte means, whatever it is. -/
def escapedOutcome (r : Byte) : DecOutcome :=
  if r = slipESCEND then .byte slipEND
  else if r = slipESCESC then .byte slipESC
  else .badEscape

/-- R85: the response flag and the echoed opcode are tested, and nothing else (R89). -/
def headerAccepted (c : Config) (hdr : Vector Byte 8) (expected : Byte) : Bool :=
  hdr[0] == c.dirResponse && hdr[1] == expected

/-- R86: CMD turns a Success with a body length other than 2 into BadReply. -/
def replyStatus (st : ResultCode) (bodyLen : U16) : ResultCode :=
  if st = .success ∧ bodyLen ≠ replyBodyLen then .badReply else st

/-- R102: the flush goes on while a RECV is a Success with a two-byte body. -/
def flushGoesOn (st : ResultCode) (bodyLen : U16) : Bool := st == .success && bodyLen == replyBodyLen

/-- R101: another extra read is made. -/
def extraReadDue (st : ResultCode) (syncExtra : Nat) : Bool :=
  decide (syncExtra < syncExtraReads) && st == .responseHeaderError

/-- R114: another attempt is made for the block. -/
def retryDue (st : ResultCode) (blkAttempt : Nat) : Bool := st != .success && decide (blkAttempt < blockAttempts)

/-- R134, R117 (i): the index into the baud list, from `baud_attempt` after its increment. -/
def baudIndex (c : Config) (baudAttempt : U32) : Nat := (baudAttempt.toNat - 1) / c.retriesPerBaud

/-- R113: the four conditions of the first-block patch. -/
def patchApplies (c : Config) (idx targetAddr : U32) (firstByte : Byte) (mask : U16) : Bool :=
  idx == 0#32 && targetAddr == 0#32 && firstByte == c.imageMagic && mask != 0#16

/-- The nine opcodes of R55. -/
def opcodes (c : Config) : List Byte :=
  [c.opcFlashBegin, c.opcFlashData, c.opcFlashEnd, c.opcMemBegin, c.opcMemEnd, c.opcMemData, c.opcSync, c.opcWriteReg,
   c.opcReadReg]

/-- A byte the SLIP alphabet sends as it is (R51). -/
def isPlainByte (b : Byte) : Bool := b != slipEND && b != slipESC

/-- The constraints R4 puts on a configuration, its tables' and its list's; outside them the block is refused (U9;
log 15). `BODY_WORD` is 4 because R17, R58 to R60 and R112 lay every body out in 32-bit words (log 20). -/
def legalConfig (c : Config) : Bool :=
  decide (c.baudList ≠ [] ∧ c.baudList.Pairwise (· > ·) ∧ c.bodyWord = 4 ∧
    1 ≤ c.retriesPerBaud ∧ 1 ≤ c.retriesPerReset ∧ 1 ≤ c.pctStep ∧ c.pctStep ≤ 100 ∧
    (opcodes c).Nodup ∧ 0x00#8 ∉ opcodes c ∧ c.dirResponse ≠ c.dirRequest ∧
    isPlainByte c.dirRequest ∧ isPlainByte c.opcSync ∧ c.syncMarker.toList.all isPlainByte ∧ isPlainByte c.syncFill)

/-- R131: BEGIN_UPLOAD is legal in `idle` and `done`. -/
def mayBegin (o : OrchState) : Bool := o == .idle || o == .done

end Sys2Proof.Machine
end

