-- ==== Sys2Proof/Machine/Ops.lean ====
section
/-! DEFINITION. The named operations meanings are written over: the interface primitives (R8, R30 to R38), the block
buffer (R17, R32), the decoder on the transport (R74), sending (R83), one poll of the receive machine (R84, R85), the
fatal path Finish (R139, R165), and the shared guards. -/

namespace Sys2Proof.Machine

/-! ### The environment's turn (R31; log 3) -/

/-- The milliseconds the next environment action advances the clock by. -/
def turnMs (script : List EnvAct) : Nat :=
  match script with
  | a :: _ => a.ms
  | [] => 0

/-- The bytes the peer appends in the next environment action. -/
def turnRx (script : List EnvAct) : Bytes :=
  match script with
  | a :: _ => a.rx
  | [] => []

/-- The environment acts once: the clock advances and the peer appends. It never removes bytes from `RXQ` and never
touches `TXS`, `baud`, `gpio_mode` or `IMG` (R31). -/
def Env.turn (e : Env) : Env :=
  { e with now := e.now + turnMs e.script, rxq := e.rxq ++ turnRx e.script, script := e.script.tail }

/-- The environment acts n times, once before each of n interface calls that read neither clock nor `RXQ`. -/
def Env.turns (n : Nat) (e : Env) : Env :=
  { e with
    now := e.now + ((e.script.take n).map EnvAct.ms).sum
    rxq := e.rxq ++ (e.script.take n).flatMap EnvAct.rx
    script := e.script.drop n }

/-- An interface call appends itself to the history (R20). -/
def Env.record (ev : Event) (e : Env) : Env := { e with events := e.events ++ [ev] }

/-! ### The interface primitives of R8, each after an environment turn -/

/-- `RxAvail()` (R33). No rule calls it. -/
def Env.rxAvail (e : Env) : Nat × Env :=
  let e1 := e.turn
  (e1.rxq.length, e1.record (.rxAvail e1.rxq.length))

/-- `RxByte()` (R33): pops the oldest byte, or answers none and changes nothing. -/
def Env.rxByte (e : Env) : Option Byte × Env :=
  let e1 := e.turn
  (e1.rxq.head?, { e1 with rxq := e1.rxq.tail }.record (.rxByte e1.rxq.head?))

/-- `TxByte(b)` (R34). -/
def Env.txByte (b : Byte) (e : Env) : Env :=
  let e1 := e.turn
  { e1 with txs := e1.txs ++ [b] }.record (.txByte b)

/-- One `TxByte` for each byte, in index order (R83). Written as one update, since no `TxByte` reads what the
environment does between them; Laws/Env.lean proves it equal to the calls one after the other. -/
def Env.txBytes (bs : Bytes) (e : Env) : Env :=
  let e1 := e.turns bs.length
  { e1 with txs := e1.txs ++ bs, events := e1.events ++ bs.map Event.txByte }

/-- `TxBlock(buf)` (R34): one contiguous write. -/
def Env.txBlock (buf : Bytes) (e : Env) : Env :=
  let e1 := e.turn
  { e1 with txs := e1.txs ++ buf }.record (.txBlock buf)

/-- `Reopen(baud)` (R35): sets the link speed and discards buffered bytes. -/
def Env.reopen (baud : Nat) (e : Env) : Env :=
  let e1 := e.turn
  { e1 with baud := some baud, rxq := [] }.record (.reopen baud)

/-- `Now()` (R38): the clock's `CLK_W` bits. -/
def Env.readClock (w : Nat) (e : Env) : Nat × Env :=
  let e1 := e.turn
  (e1.now % 2 ^ w, e1.record (.now (e1.now % 2 ^ w)))

/-- `ImgSize()` (R36). -/
def Env.imgSize (e : Env) : U32 × Env :=
  let e1 := e.turn
  (e1.img.size, e1.record (.imgSize e1.img.size))

/-- `ImgRead(off, n)` (R36): up to n bytes from offset off, short at the end; no side effect on the image. -/
def Env.imgRead (off n : Nat) (e : Env) : Bytes × Env :=
  let e1 := e.turn
  let got := (e1.img.data.drop off).take n
  (got, e1.record (.imgRead off n got.length))

/-- `ImgRelease()` (R36). -/
def Env.imgRelease (e : Env) : Env := e.turn.record .imgRelease

/-- `GpioEnter()` (R37). -/
def Env.gpioEnter (e : Env) : Env := { e.turn with gpio := some .upload }.record .gpioEnter

/-- `GpioLeave()` (R37). -/
def Env.gpioLeave (e : Env) : Env := { e.turn with gpio := some .run }.record .gpioLeave

/-- `Progress(p)` (R8, R138). -/
def Env.progress (p : Nat) (e : Env) : Env := e.turn.record (.progress p)

/-- The peer puts raw bytes on the wire: they are appended to `RXQ` (R31 (a)). Not an interface call of the block. -/
def Env.arrive (bs : Bytes) (e : Env) : Env := { e with rxq := e.rxq ++ bs }

/-! ### Timestamps taken and tested (U12; log 29). None is an interface call, and none changes what the block sees. -/

/-- `last_attempt` has just been taken. -/
def Env.markAttempt (e : Env) : Env := { e with stamps := { e.stamps with attempt := e.now } }

/-- `last_reset` has just been taken. -/
def Env.markReset (e : Env) : Env := { e with stamps := { e.stamps with reset := e.now } }

/-- `rx_start` has just been taken. -/
def Env.markRx (e : Env) : Env := { e with stamps := { e.stamps with rx := e.now } }

/-- A timestamp taken at `since` is tested: it is too old when more than 2^`CLK_W` - 1 ms have passed (U12). -/
def Env.tested (w since : Nat) (e : Env) : Env := { e with overrun := e.overrun || decide (2 ^ w ≤ e.now - since) }

/-! ### The block buffer (R17, R32; log 21) -/

/-- One byte of the buffer; an unlisted index reads as 0x00. -/
def Memory.read (m : Memory) (a : Nat) : Byte :=
  match m with
  | [] => 0#8
  | (k, x) :: t => if a = k then x else Memory.read t a

/-- The entries of bytes from index a on: the bytes 0x00 have none. -/
def Memory.cells (a : Nat) (bs : Bytes) : Memory :=
  match bs with
  | [] => []
  | b :: t => if b = 0#8 then Memory.cells (a + 1) t else (a, b) :: Memory.cells (a + 1) t

/-- `blk[a .. a+len(bs)) <- bs`. The entries below and above the stored bytes stay. -/
def Memory.writeBytes (m : Memory) (a : Nat) (bs : Bytes) : Memory :=
  m.takeWhile (fun c => decide (c.1 < a)) ++ Memory.cells a bs ++ m.dropWhile (fun c => decide (c.1 < a + bs.length))

/-- n bytes from index a on, from entries with indices from a on. -/
def Memory.readFrom (m : Memory) (a : Nat) (n : Nat) : Bytes :=
  match n, m with
  | 0, _ => []
  | n + 1, [] => 0#8 :: Memory.readFrom [] (a + 1) n
  | n + 1, (k, x) :: t =>
    if a = k then x :: Memory.readFrom t (a + 1) n else 0#8 :: Memory.readFrom ((k, x) :: t) (a + 1) n

/-- `blk[a .. a+n)`, in one pass over the entries; Laws/Memory.lean proves it the n bytes `Memory.read` gives. -/
@[irreducible] def Memory.readBytes (m : Memory) (a n : Nat) : Bytes :=
  Memory.readFrom (m.dropWhile fun c => decide (c.1 < a)) a n

/-- The canonical form: indices strictly rising and below 1040, no entry 0x00. -/
def Memory.wf (m : Memory) : Bool :=
  match m with
  | [] => true
  | (k, x) :: t => decide (k < blkLen) && x != 0#8 && t.all (fun c => decide (k < c.1)) && Memory.wf t

/-- The 16-bit little-endian value at an index (the patch reads one, R112). -/
def Memory.read16 (m : Memory) (a : Nat) : U16 := word16 (Memory.read m a) (Memory.read m (a + 1))

/-- Writes a 16-bit value, little-endian (R112). -/
def Memory.write16 (m : Memory) (a : Nat) (v : U16) : Memory := Memory.writeBytes m a (le16 v)

/-- Writes a 32-bit value, little-endian (the body header words, R112). -/
def Memory.write32 (m : Memory) (a : Nat) (v : U32) : Memory := Memory.writeBytes m a (le32 v)

/-- The 1024 data bytes of the buffer. -/
def blockData (m : Memory) : Bytes := Memory.readBytes m blkData blockSize

/-- The whole buffer, as it is sent. -/
def blockBody (m : Memory) : Bytes := Memory.readBytes m 0 blkLen

/-! ### Guards -/

/-- U9: outside the constraints of R4 the block is refused (log 15). -/
def whenLegal (s : State) (k : Host.Outcome State Fault Refusal) : Host.Outcome State Fault Refusal :=
  if legalConfig s.cfg then k else .refused .illegalConfiguration

/-- U12: the model's step is not defined where a timestamp was tested too late (log 29). -/
def whenPunctual (s : State) : Host.Outcome State Fault Refusal :=
  if s.env.overrun then .refused .clockOverrun else .next s

/-- R54: a body longer than 65535 bytes cannot be expressed (log 24). -/
def whenFits (body : Bytes) (k : Host.Outcome State Fault Refusal) : Host.Outcome State Fault Refusal :=
  if body.length ≤ maxBodyLen then k else .refused .bodyTooLong

/-- The result of an operation stands at the return port. -/
def State.answer (s : State) (r : Ret) : State := { s with ret := r }

/-- The peer puts raw bytes on the wire (log 7). -/
def State.arrive (s : State) (bs : Bytes) : State := { s with env := s.env.arrive bs }

/-- The peer puts a stuffed frame on the wire (R56: "always SLIP-stuffed by the peer"; log 7). -/
def State.arriveFrame (s : State) (dir op : Byte) (chk : U32) (body : Bytes) : State :=
  s.arrive (slipWrapped (frameContent dir op chk body))

/-! ### SLIP.DEC on the transport (R74) -/

/-- The second half of SLIP.DEC, with `esc_pending` = 1: the byte after the escape, if it is there. -/
def decodeEscaped (s : State) : DecOutcome × State :=
  let (r, e) := s.env.rxByte
  match r with
  | none => (.escPending, { s with env := e })
  | some b => (escapedOutcome b, { s with env := e, rx := { s.rx with escPending := false } })

/-- SLIP.DEC of R74: one logical byte from the transport; it consumes 0, 1 or 2 raw bytes and never blocks. -/
def slipDecode (s : State) : DecOutcome × State :=
  if s.rx.escPending then decodeEscaped s
  else
    let (r, e) := s.env.rxByte
    match r with
    | none => (.noData, { s with env := e })
    | some b =>
      match firstByteOutcome b with
      | some o => (o, { s with env := e })
      | none => decodeEscaped { s with env := e, rx := { s.rx with escPending := true } }

/-! ### SEND (R83) -/

/-- SEND of R83: the Sync opcode goes out unstuffed in one block write, every other stuffed, byte by byte. -/
def sendFrame (op : Byte) (payload : Bytes) (chk : U32) (s : State) : State :=
  let content := frameContent s.cfg.dirRequest op chk payload
  if op = s.cfg.opcSync then { s with env := s.env.txBlock (slipRawWrapped content) }
  else { s with env := s.env.txBytes (slipWrapped content) }

/-! ### RECV (R84): its beginning, and one poll -/

/-- The statements of RECV before its poll label. -/
def beginRecv (op : Byte) (timeout : U32) (s : State) : State :=
  let (t, e) := s.env.readClock s.cfg.clkW
  { s with
    env := e.markRx
    rx := { s.rx with
      expected := op, timeout := timeout, state := .awaitingStart, hdrIdx := 0, bodyIdx := 0#16, bodyLen := 0#16
      escPending := false, start := t, active := true } }

/-- What one poll of a RECV comes to. -/
inductive Poll where
  /-- the suspension point: no byte to go on with -/
  | wait (s : State)
  /-- a byte was consumed and the frame is not complete -/
  | again (s : State)
  /-- RECV has returned or raised this code -/
  | ended (r : ResultCode) (s : State)

/-- RECV's exit, by return or by raise: `rx_active <- 0` (R84, R163). -/
def endRecv (r : ResultCode) (s : State) : Poll := .ended r { s with rx := { s.rx with active := false } }

/-- A header byte is stored; the eighth gives `body_len` and `resp_value` (R84). -/
def storeHeaderByte (c : Byte) (rx : Receiver) : Receiver :=
  let hdr := rx.hdr.setIfInBounds rx.hdrIdx c
  let idx := rx.hdrIdx + 1
  if idx = hdrLen then
    let len := getLe16 hdr.toList 2
    { rx with
      hdr := hdr, hdrIdx := idx, bodyLen := len, respValue := getLe32 hdr.toList 4
      state := if len ≠ 0#16 then .readingBody else .awaitingEnd }
  else { rx with hdr := hdr, hdrIdx := idx }

/-- `resp_body[k] <- c`. The bytes come in the order of their indices, so k is at most the length (R15, R84). -/
def storeAt (k : Nat) (c : Byte) (bs : Bytes) : Bytes := bs.take k ++ c :: bs.drop (k + 1)

/-- A body byte is kept among the first `RESP_BODY_CAP` and counted (R84). -/
def storeBodyByte (cap : Nat) (c : Byte) (rx : Receiver) : Receiver :=
  let idx := rx.bodyIdx + 1#16
  { rx with
    respBody := if rx.bodyIdx.toNat < cap then storeAt rx.bodyIdx.toNat c rx.respBody else rx.respBody
    bodyIdx := idx
    state := if idx = rx.bodyLen then .awaitingEnd else rx.state }

/-- A poll in `reading_header` or `reading_body`: one SLIP.DEC, and `store` for a logical byte (R84). -/
def pollDecoded (store : Byte → Receiver → Receiver) (s : State) : Poll :=
  let (o, s1) := slipDecode s
  match o with
  | .noData | .escPending => .wait s1
  | .frameBoundary => endRecv .slipFrameError s1
  | .badEscape => endRecv .slipDataError s1
  | .byte c => .again { s1 with rx := store c s1.rx }

/-- A poll in `awaiting_start`: a raw byte other than 0xC0 is dropped (R84, D13). -/
def pollStart (s : State) : Poll :=
  let (r, e) := s.env.rxByte
  let s1 := { s with env := e }
  match r with
  | none => .wait s1
  | some b => .again (if b = slipEND then { s1 with rx := { s1.rx with state := .readingHeader } } else s1)

/-- A poll in `awaiting_end`: the end marker completes the frame, whose header is then validated (R84, R85). -/
def pollEnd (s : State) : Poll :=
  let (r, e) := s.env.rxByte
  let s1 := { s with env := e }
  match r with
  | none => .wait s1
  | some b =>
    if b = slipEND then
      endRecv (if headerAccepted s1.cfg s1.rx.hdr s1.rx.expected then .success else .responseHeaderError)
        { s1 with rx := { s1.rx with state := .complete } }
    else endRecv .slipFrameError s1

/-- A poll reads the clock, and tests it against `rx_start` (R84). -/
def State.atPoll (s : State) : State :=
  let e := (s.env.readClock s.cfg.clkW).2
  { s with env := e.tested s.cfg.clkW e.stamps.rx }

/-- One poll of the pending RECV (R84): the clock first, then the case over `rx_state`. A poll that finds `complete` is
the pseudocode's "any other value" (U3; log 17). -/
def poll (s : State) : Poll :=
  let t := (s.env.readClock s.cfg.clkW).1
  let s1 := s.atPoll
  if timedOut s1.cfg.clkW t s1.rx.start s1.rx.timeout then endRecv .timeout s1
  else
    match s1.rx.state with
    | .awaitingStart => pollStart s1
    | .readingHeader => pollDecoded storeHeaderByte s1
    | .readingBody => pollDecoded (storeBodyByte s1.cfg.respBodyCap) s1
    | .awaitingEnd => pollEnd s1
    | .complete => endRecv .slipStateError s1

/-- CMD up to its RECV's poll label (R86): the request is written, then the response is awaited. -/
def beginCmd (op : Byte) (payload : Bytes) (chk timeout : U32) (s : State) : State :=
  beginRecv op timeout (sendFrame op payload chk s)

/-! ### The fatal path: the block's trap entry (R139, R165) -/

/-- Finish(r) of R139: `result` and `result_valid` are written, the image released, the lines restored, the
continuations cleared, `orch_state` is `done`. Nothing is saved and there is no return from it (R165). -/
def finish (r : ResultCode) (s : State) : State :=
  { s with
    session := { s.session with result := r, resultValid := true }
    env := s.env.imgRelease.gpioLeave
    rx := { s.rx with active := false }
    syncPhase := .idle
    orch := .done }

/-- Finish(r); return Done(r). -/
def finishDone (r : ResultCode) (s : State) : State := (finish r s).answer (.done r)

/-- `percent` of R19: the share of blocks sent in `uploading`, 0 in `resetting`, `connecting` and `erasing`. DESIGN
CHOICE: 0 in `idle` and `done` too, where R19 gives none; there only an operation called by itself suspends (log 12). -/
def percent (s : State) : Nat :=
  if s.orch = .uploading then percentOf s.session.blockIdx s.session.imageSize else 0

/-- return InProgress(percent). -/
def State.inProgress (s : State) : State := s.answer (.inProgress (percent s))

end Sys2Proof.Machine
end

