-- ==== Sys2Proof/Machine/Sequencing.lean ====
section
/-! DEFINITION. How an operation that ends in a RECV goes on when that RECV returns (R132: "continue the operation that
called it ... and then the state action that called that"): SYNC's stages (R100 to R102), FDATA's attempts (R112, R114),
the tails of the state actions (R135, R136, R138), and the poll loop that drives them. The nesting STEP >
SYNC/FBEGIN/FDATA > CMD > RECV is fixed (R140), so no stack is needed. -/

namespace Sys2Proof.Machine

/-- Who waits for the pending RECV: an operation called by itself (log 12), or the state action of R135, R136, R138. -/
inductive Caller where
  | unit (op : UnitOp)
  | connecting
  | erasing
  | uploading
deriving DecidableEq, Repr

/-- The operation a caller has in progress. -/
def Caller.op : Caller → UnitOp
  | .unit op => op
  | .connecting => .sync
  | .erasing => .fbegin
  | .uploading => .fdata

/-- Who waits for the pending RECV, from the registers: none where no operation could (log 18). -/
def callerOf (s : State) : Option Caller :=
  match s.unitCall with
  | some op => if op = .sync ∧ s.syncPhase = .idle then none else some (.unit op)
  | none =>
    match s.orch with
    | .connecting => if s.syncPhase = .idle then none else some .connecting
    | .erasing => some .erasing
    | .uploading => some .uploading
    | .idle | .resetting | .done => none

/-- What an operation does when its RECV has returned. -/
inductive OpStep where
  /-- it has begun another RECV -/
  | again (s : State)
  /-- it returns this code -/
  | finished (st : ResultCode) (s : State)

/-! ### SYNC (R100 to R102) -/

/-- SYNC up to its first poll (R100). -/
def beginSync (timeout : U32) (s : State) : State :=
  beginCmd s.cfg.opcSync (syncPayload s.cfg) 0#32 timeout { s with syncPhase := .first }

/-- SYNC's while loop (R101) and what follows it: another extra read with the same timeout (which `rx_timeout` still
holds), else the flush after a Success (R102), else the return. -/
def syncDecide (st : ResultCode) (s : State) : OpStep :=
  if extraReadDue st s.syncExtra then .again (beginRecv s.cfg.opcSync s.rx.timeout s)
  else if st = .success then
    .again (beginRecv s.cfg.opcSync s.cfg.tDefault { s with syncStatus := st, syncPhase := .flush })
  else .finished st { s with syncPhase := .idle }

/-- SYNC after one of its RECVs. In `s_idle` no SYNC is in progress; `callerOf` names none then. -/
def syncContinue (st : ResultCode) (s : State) : OpStep :=
  match s.syncPhase with
  | .first => syncDecide (replyStatus st s.rx.bodyLen) { s with syncExtra := 0, syncPhase := .extra }
  | .extra => syncDecide st { s with syncExtra := s.syncExtra + 1 }
  | .flush =>
    if flushGoesOn st s.rx.bodyLen then .again (beginRecv s.cfg.opcSync s.cfg.tDefault s)
    else .finished s.syncStatus { s with syncPhase := .idle }
  | .idle => .finished st s

/-! ### FBEGIN, FDATA, FEND (R110, R112, R115) -/

/-- FBEGIN's timeout (R110). -/
def eraseTimeout (c : Config) (totalSize : U32) : U32 := if totalSize = 0#32 then c.tDefault else c.tErase

/-- FBEGIN up to its first poll (R110). -/
def beginFbegin (address totalSize : U32) (s : State) : State :=
  beginCmd s.cfg.opcFlashBegin (flashBeginBody address totalSize) 0#32 (eraseTimeout s.cfg totalSize) s

/-- The first-block patch on the buffer (R112, R113): the two bytes at data offset 2. -/
def patchBlock (c : Config) (idx targetAddr : U32) (val mask : U16) (m : Memory) : Memory :=
  if patchApplies c idx targetAddr (Memory.read m blkData) mask then
    Memory.write16 m (blkData + 2) (patchWord (Memory.read16 m (blkData + 2)) val mask)
  else m

/-- One attempt of FDATA (R112, R114): the same buffer and checksum each time. -/
def fdataAttempt (s : State) : State :=
  beginCmd s.cfg.opcFlashData (blockBody s.blk) (zext32 s.chk8) s.cfg.tBlock { s with blkAttempt := s.blkAttempt + 1 }

/-- The buffer, checksum and attempt count FDATA prepares (R112): patch, checksum over the 1024 bytes as they will be
sent, body header. -/
def prepareBlock (idx : U32) (val mask : U16) (s : State) : State :=
  let patched := patchBlock s.cfg idx s.session.targetAddr val mask s.blk
  { s with
    chk8 := chkFold (blockData patched)
    blk := Memory.write32 (Memory.write32 (Memory.write32 (Memory.write32 patched 0 1024#32) 4 idx) 8 0#32) 12 0#32
    blkAttempt := 0 }

/-- FDATA up to its first poll (R112). -/
def beginFdata (idx : U32) (val mask : U16) (s : State) : State := fdataAttempt (prepareBlock idx val mask s)

/-- FDATA after an attempt's CMD (R114). -/
def fdataContinue (st : ResultCode) (s : State) : OpStep :=
  let st1 := replyStatus st s.rx.bodyLen
  if retryDue st1 s.blkAttempt then .again (fdataAttempt s) else .finished st1 s

/-- FEND up to its first poll (R115): the flag is inverted. -/
def beginFend (reboot : Bool) (s : State) : State :=
  beginCmd s.cfg.opcFlashEnd (flashEndBody (!reboot)) 0#32 s.cfg.tDefault s

/-- How each operation goes on when its RECV has returned `st` (R163). -/
def opContinue (op : UnitOp) (st : ResultCode) (s : State) : OpStep :=
  match op with
  | .recv => .finished st s
  | .cmd => .finished (replyStatus st s.rx.bodyLen) s
  | .sync => syncContinue st s
  | .fbegin => .finished (replyStatus st s.rx.bodyLen) s
  | .fdata => fdataContinue st s
  | .fend => .finished (replyStatus st s.rx.bodyLen) s

/-! ### The tails of the state actions -/

/-- An operation called by itself returns its code. -/
def unitReturn (st : ResultCode) (s : State) : State := { s with unitCall := none }.answer (.code st)

/-- `connecting` after SYNC (R135). -/
def connectingTail (st : ResultCode) (s : State) : State :=
  let (t, e) := s.env.readClock s.cfg.clkW
  let s1 := { s with env := e.markAttempt, session := { s.session with lastAttempt := t } }
  if st = .success then { s1 with orch := .erasing }.inProgress
  else
    let n := s1.session.resetAttempt + 1#32
    let s2 := { s1 with session := { s1.session with resetAttempt := n } }
    (if n.toNat ≥ s2.cfg.retriesPerReset then { s2 with orch := .resetting } else s2).inProgress

/-- `erasing` after FBEGIN (R136). -/
def erasingTail (st : ResultCode) (s : State) : State :=
  let s1 := { s with session := { s.session with result := st } }
  if st ≠ .success then finishDone st s1
  else { s1 with session := { s1.session with blockIdx := 0#32 }, orch := .uploading }.answer (.inProgress 0)

/-- `uploading` after a block has succeeded (R138): the index, the progress report, the last block. -/
def blockDone (s : State) : State :=
  let idx := s.session.blockIdx + 1#32
  let p := percentOf idx s.session.imageSize
  let s1 := { s with session := { s.session with blockIdx := idx } }
  let s2 :=
    if p ≥ s1.session.nextReport.toNat then
      { s1 with
        env := s1.env.progress p
        session := { s1.session with nextReport := s1.session.nextReport + BitVec.ofNat 32 s1.cfg.pctStep } }
    else s1
  if idx.toNat = nBlocks s2.session.imageSize then finishDone .success s2 else s2.answer (.inProgress p)

/-- `uploading` after FDATA (R138). -/
def uploadingTail (st : ResultCode) (s : State) : State :=
  let (t, e) := s.env.readClock s.cfg.clkW
  let s1 := { s with env := e.markAttempt, session := { s.session with lastAttempt := t, result := st } }
  if st ≠ .success then finishDone st s1 else blockDone s1

/-- An operation's code goes to whoever called it. -/
def deliver (c : Caller) (st : ResultCode) (s : State) : State :=
  match c with
  | .unit _ => unitReturn st s
  | .connecting => connectingTail st s
  | .erasing => erasingTail st s
  | .uploading => uploadingTail st s

/-! ### The poll loop -/

/-- The bytes there are and will be: every poll that goes on consumes one. -/
def bytesToCome (e : Env) : Nat := e.rxq.length + (e.script.flatMap EnvAct.rx).length

/-- Polls enough for any loop from s (log 19): one for each byte, and one for each RECV that can end without one. -/
def pollBudget (s : State) : Nat := bytesToCome s.env + 8

/-- RECV's poll loop (R84) and what its callers do when it returns, up to the next suspension point or to the end of the
operation and of its state action (R132). `fuel` only makes the recursion structural (log 19). -/
def pollLoop : Nat → Caller → State → State
  | 0, _, s => s.inProgress
  | n + 1, c, s =>
    match poll s with
    | .wait s1 => s1.inProgress
    | .again s1 => pollLoop n c s1
    | .ended st s1 =>
      match opContinue c.op st s1 with
      | .again s2 => pollLoop n c s2
      | .finished st2 s2 => deliver c st2 s2

/-- Polls the RECV just begun or resumed, for its caller. -/
def await (c : Caller) (s : State) : State := pollLoop (pollBudget s) c s

/-- Runs an operation called by itself: `start` brings it to its first poll. -/
def runUnit (op : UnitOp) (start : State → State) (s : State) : Host.Outcome State Fault Refusal :=
  whenPunctual (await (.unit op) (start { s with unitCall := some op }))

end Sys2Proof.Machine
end

