-- ==== Sys2Proof/Machine/FlashSequencer.lean ====
section
/-! DEFINITION. Meanings of the Flash Sequencer's operations: FBEGIN, FDATA, FEND (R110 to R116). -/

namespace Sys2Proof.Machine

/-- `FBEGIN address, total_size` (R110). -/
def execFbegin (address totalSize : U32) (s : State) : Host.Outcome State Fault Refusal :=
  whenLegal s (runUnit .fbegin (beginFbegin address totalSize) s)

/-- `FDATA idx, val, mask` (R112): the data are `blk[16..1039]`, the address the session's `target_addr`. -/
def execFdata (idx : U32) (val mask : U16) (s : State) : Host.Outcome State Fault Refusal :=
  whenLegal s (runUnit .fdata (beginFdata idx val mask) s)

/-- `FEND reboot` (R115). Never issued by STEP (R116). -/
def execFend (reboot : Bool) (s : State) : Host.Outcome State Fault Refusal :=
  whenLegal s (runUnit .fend (beginFend reboot) s)

end Sys2Proof.Machine
end

