-- ==== Sys2Proof/Machine/Frames.lean ====
section
/-! DEFINITION. Meanings of the frame rows. The four requests the block sends are transmitted as SEND does (R57 to R60,
R83; log 9). The five opcodes it never sends have no request meaning (R61), and no more has a FlashData request whose
check byte is not its data's (R59); a frame with such a header is one the peer sends back (R62; log 8). A response is
the peer's frame (R56; log 7). -/

namespace Sys2Proof.Machine

/-- A request frame is written to the transport (R52, R83). -/
def transmit (op : Byte) (body : Bytes) (chk : U32) (s : State) : Host.Outcome State Fault Refusal :=
  whenLegal s (.next ((sendFrame op body chk s).answer .sent))

/-- The peer's frame arrives: a response (R56) or an echoed request (R62). -/
def receive (dir op : Byte) (chk : U32) (body : Bytes) (s : State) : Host.Outcome State Fault Refusal :=
  whenLegal s (whenFits body (.next (s.arriveFrame dir op chk body)))

/-- `SYNC.REQ` (R57): 46 raw bytes, in one block write. -/
def execSyncReq (s : State) : Host.Outcome State Fault Refusal :=
  transmit s.cfg.opcSync (syncPayload s.cfg) 0#32 s

/-- `FLASH_BEGIN.REQ` (R58). -/
def execFlashBeginReq (totalSize address : U32) (s : State) : Host.Outcome State Fault Refusal :=
  transmit s.cfg.opcFlashBegin (flashBeginBody address totalSize) 0#32 s

/-- `FLASH_DATA.REQ` (R59). The block sends it with `chk = zext_32(CHK(data))` alone; with another check byte it is a
frame of the peer (R62; log 8). -/
def execFlashDataReq (chk8 : Byte) (blockIndex : U32) (data : Bytes) (s : State) : Host.Outcome State Fault Refusal :=
  if chk8 = chkFold data ∧ data.length = blockSize then
    transmit s.cfg.opcFlashData (flashDataBodyHeader blockIndex ++ data) (zext32 chk8) s
  else receive s.cfg.dirRequest s.cfg.opcFlashData (zext32 chk8) (flashDataBodyHeader blockIndex ++ data) s

/-- `FLASH_END.REQ` (R60). -/
def execFlashEndReq (stay : Bool) (s : State) : Host.Outcome State Fault Refusal :=
  transmit s.cfg.opcFlashEnd (flashEndBody stay) 0#32 s

/-- `MEM_BEGIN.REQ` (R61, R62): never sent; a frame with this header arrives. -/
def execMemBeginReq (chk : U32) (body : Bytes) (s : State) : Host.Outcome State Fault Refusal :=
  receive s.cfg.dirRequest s.cfg.opcMemBegin chk body s

/-- `MEM_END.REQ` (R61, R62). -/
def execMemEndReq (chk : U32) (body : Bytes) (s : State) : Host.Outcome State Fault Refusal :=
  receive s.cfg.dirRequest s.cfg.opcMemEnd chk body s

/-- `MEM_DATA.REQ` (R61, R62). -/
def execMemDataReq (chk : U32) (body : Bytes) (s : State) : Host.Outcome State Fault Refusal :=
  receive s.cfg.dirRequest s.cfg.opcMemData chk body s

/-- `WRITE_REG.REQ` (R61, R62). -/
def execWriteRegReq (chk : U32) (body : Bytes) (s : State) : Host.Outcome State Fault Refusal :=
  receive s.cfg.dirRequest s.cfg.opcWriteReg chk body s

/-- `READ_REG.REQ` (R61, R62). -/
def execReadRegReq (chk : U32) (body : Bytes) (s : State) : Host.Outcome State Fault Refusal :=
  receive s.cfg.dirRequest s.cfg.opcReadReg chk body s

/-- `RSP` (R56): a response with any opcode and body. -/
def execRsp (op : Byte) (value : U32) (body : Bytes) (s : State) : Host.Outcome State Fault Refusal :=
  receive s.cfg.dirResponse op value body s

/-- `RSP.STRAY` (R85): opcode zero, which no expected opcode equals. -/
def execRspStray (value : U32) (body : Bytes) (s : State) : Host.Outcome State Fault Refusal :=
  receive s.cfg.dirResponse 0x00#8 value body s

/-- `RSP.SYNC` (R86): the response CMD accepts for Sync. -/
def execRspSync (value : U32) (body0 body1 : Byte) (s : State) : Host.Outcome State Fault Refusal :=
  receive s.cfg.dirResponse s.cfg.opcSync value [body0, body1] s

/-- `RSP.FLASH_BEGIN` (R86). -/
def execRspFlashBegin (value : U32) (body0 body1 : Byte) (s : State) : Host.Outcome State Fault Refusal :=
  receive s.cfg.dirResponse s.cfg.opcFlashBegin value [body0, body1] s

/-- `RSP.FLASH_DATA` (R86). -/
def execRspFlashData (value : U32) (body0 body1 : Byte) (s : State) : Host.Outcome State Fault Refusal :=
  receive s.cfg.dirResponse s.cfg.opcFlashData value [body0, body1] s

/-- `RSP.FLASH_END` (R86). -/
def execRspFlashEnd (value : U32) (body0 body1 : Byte) (s : State) : Host.Outcome State Fault Refusal :=
  receive s.cfg.dirResponse s.cfg.opcFlashEnd value [body0, body1] s

end Sys2Proof.Machine
end

