-- ==== Sys2Proof/Machine/Orchestrator.lean ====
section
/-! DEFINITION. Meanings of the Upload Orchestrator's operations: BEGIN_UPLOAD (R131) and STEP, one definition per state
of the session (R132 to R139). -/

namespace Sys2Proof.Machine

/-- The statements of R131 for an image that is not empty. -/
def startSession (size addr : U32) (s : State) : State :=
  { s with
    session := { s.session with
      imageSize := size, targetAddr := addr, blockIdx := 0#32, baudAttempt := 0#32, resetAttempt := 0#32
      nextReport := BitVec.ofNat 32 s.cfg.pctStep, result := .success, resultValid := false }
    blkAttempt := 0
    syncPhase := .idle
    rx := { s.rx with active := false, escPending := false, state := .awaitingStart }
    unitCall := none
    orch := .resetting }

/-- R131's `EmptyFile`: no session is created. -/
def rejectEmpty (s : State) : State :=
  { s with session := { s.session with result := .emptyFile, resultValid := true }, orch := .idle }

/-- `BEGIN_UPLOAD image, addr` (R131). The image becomes the one the `Img*` calls reach; `ImgSize()` is the only
interface call. During a session it is refused (U1). -/
def execBeginUpload (image : ImageSource) (addr : U32) (s : State) : Host.Outcome State Fault Refusal :=
  whenLegal s <|
    if mayBegin s.orch then
      let (size, e) := { s.env with img := image }.imgSize
      let s1 := { s with env := e }
      if size = 0#32 then .next ((rejectEmpty s1).answer (.failed .emptyFile))
      else .next ((startSession size addr s1).answer .started)
    else .refused .sessionInProgress

/-- STEP in `idle` (R133). -/
def stepIdle (s : State) : Host.Outcome State Fault Refusal :=
  if s.session.resultValid then .next (s.answer (.done s.session.result)) else .refused .noSession

/-- STEP in `resetting` (R134). -/
def stepResetting (s : State) : State :=
  let n := s.session.baudAttempt + 1#32
  let s1 := { s with session := { s.session with baudAttempt := n } }
  match s1.cfg.baudList[baudIndex s1.cfg n]? with
  | none => finishDone .connectFailed s1
  | some baud =>
    let (t, e) := (s1.env.reopen baud).gpioEnter.readClock s1.cfg.clkW
    { s1 with
      env := e.markReset.markAttempt
      session := { s1.session with lastReset := t, lastAttempt := t, resetAttempt := 0#32 }
      orch := .connecting }.answer (.inProgress 0)

/-- STEP in `connecting` (R135): both intervals, then one SYNC. -/
def stepConnecting (s : State) : State :=
  let (t, e) := s.env.readClock s.cfg.clkW
  let s1 := { s with
    env := (e.tested s.cfg.clkW e.stamps.attempt).tested s.cfg.clkW e.stamps.reset, unitCall := none }
  if connectGate s1.cfg.clkW t s1.session.lastAttempt s1.session.lastReset then await .connecting (beginSync tSync s1)
  else s1.answer (.inProgress 0)

/-- STEP in `erasing` (R136, R137). -/
def stepErasing (s : State) : Host.Outcome State Fault Refusal :=
  match eraseSize s.cfg s.session.imageSize s.session.targetAddr with
  | none => .refused .eraseCoverOverflow
  | some es => whenPunctual (await .erasing (beginFbegin s.session.targetAddr es { s with unitCall := none }))

/-- The fetched bytes and the zero padding stand in the buffer (R138). -/
def fillBlock (got : Bytes) (m : Memory) : Memory :=
  Memory.writeBytes m blkData (got ++ List.replicate (blockSize - got.length) 0#8)

/-- STEP in `uploading` (R138): the interval, the fetch, FDATA. -/
def stepUploading (s : State) : State :=
  let (t, e) := s.env.readClock s.cfg.clkW
  let s1 := { s with env := e.tested s.cfg.clkW e.stamps.attempt, unitCall := none }
  if blockGate s1.cfg.clkW t s1.session.lastAttempt then
    let off := s1.session.blockIdx.toNat * blockSize
    let want := min blockSize (s1.session.imageSize.toNat - off)
    let (got, e2) := s1.env.imgRead off blockSize
    let s2 := { s1 with env := e2 }
    if got.length ≠ want then finishDone .fileReadError s2
    else
      await .uploading
        (beginFdata s2.session.blockIdx s2.cfg.parmVal s2.cfg.parmMask { s2 with blk := fillBlock got s2.blk })
  else s1.inProgress

/-- `STEP` (R132): the pending RECV is resumed, else the action of `orch_state` runs. -/
def execStep (s : State) : Host.Outcome State Fault Refusal :=
  whenLegal s <|
    if s.rx.active then
      match callerOf s with
      | some c => whenPunctual (await c s)
      | none => .fault .orphanReceive
    else
      match s.orch with
      | .idle => stepIdle s
      | .resetting => .next (stepResetting s)
      | .connecting => whenPunctual (stepConnecting s)
      | .erasing => stepErasing s
      | .uploading => whenPunctual (stepUploading s)
      | .done => .next (s.answer (.done s.session.result))

end Sys2Proof.Machine
end

