-- ==== Sys2Proof/Machine/PacketProtocol.lean ====
section
/-! DEFINITION. Meanings of the Packet Protocol's operations: CHK, HDR, SEND, RECV, CMD, PARSE (R80 to R89). -/

namespace Sys2Proof.Machine

/-- `CHK s` (R80). Pure. -/
def execChk (b : Bytes) (s : State) : Host.Outcome State Fault Refusal := .next (s.answer (.byte (chkFold b)))

/-- `HDR dir, op, n, chk` (R82). Pure. -/
def execHdr (dir op : Byte) (n : U16) (chk : U32) (s : State) : Host.Outcome State Fault Refusal :=
  .next (s.answer (.bytes (hdrBytes dir op n chk)))

/-- `SEND op, payload, chk` (R83). -/
def execSend (op : Byte) (payload : Bytes) (chk : U32) (s : State) : Host.Outcome State Fault Refusal :=
  whenLegal s (whenFits payload (.next ((sendFrame op payload chk s).answer .sent)))

/-- `RECV op, timeout` (R84, R85), up to its first suspension or its end. -/
def execRecv (op : Byte) (timeout : U32) (s : State) : Host.Outcome State Fault Refusal :=
  whenLegal s (runUnit .recv (beginRecv op timeout) s)

/-- `CMD op, payload, chk, timeout` (R86). -/
def execCmd (op : Byte) (payload : Bytes) (chk timeout : U32) (s : State) : Host.Outcome State Fault Refusal :=
  whenLegal s (whenFits payload (runUnit .cmd (beginCmd op payload chk timeout) s))

/-- `PARSE f` (R87). Pure. -/
def execParse (f : Bytes) (s : State) : Host.Outcome State Fault Refusal := .next (s.answer (.parse (parseFrame f)))

end Sys2Proof.Machine
end

