-- ==== Sys2Proof/Machine/SlipCodec.lean ====
section
/-! DEFINITION. Meanings of the Slip Codec: the five SLIP byte codes (R51, R74) and its five operations (R70 to R75).
A byte code's instruction is the peer's act of putting that code on the wire (R31 (a); log 7); what the block makes of
it is SLIP.DEC's and RECV's. -/

namespace Sys2Proof.Machine

/-- `SLIP.END` (R51): the delimiter arrives. -/
def execSlipEnd (s : State) : Host.Outcome State Fault Refusal := .next (s.arrive [slipEND])

/-- `SLIP.ESC_END` (R51): the two bytes of the logical 0xC0 arrive. -/
def execSlipEscEnd (s : State) : Host.Outcome State Fault Refusal := .next (s.arrive [slipESC, slipESCEND])

/-- `SLIP.ESC_ESC` (R51): the two bytes of the logical 0xDB arrive. -/
def execSlipEscEsc (s : State) : Host.Outcome State Fault Refusal := .next (s.arrive [slipESC, slipESCESC])

/-- `SLIP.ESC_BAD` (R51, R74): an escape byte and a byte it does not combine with arrive. -/
def execSlipEscBad (second : Byte) (s : State) : Host.Outcome State Fault Refusal :=
  .next (s.arrive [slipESC, second])

/-- `SLIP.LIT` (R51): a byte that stands for itself arrives. -/
def execSlipLit (v : Byte) (s : State) : Host.Outcome State Fault Refusal := .next (s.arrive [v])

/-- `SLIP.ENC s` (R70). Pure. -/
def execSlipEnc (b : Bytes) (s : State) : Host.Outcome State Fault Refusal := .next (s.answer (.bytes (slipEncode b)))

/-- `SLIP.WRAP s` (R71). Pure. -/
def execSlipWrap (b : Bytes) (s : State) : Host.Outcome State Fault Refusal := .next (s.answer (.bytes (slipWrapped b)))

/-- `SLIP.RAWWRAP s` (R72). Pure. -/
def execSlipRawwrap (b : Bytes) (s : State) : Host.Outcome State Fault Refusal :=
  .next (s.answer (.bytes (slipRawWrapped b)))

/-- `SLIP.DEC` (R74). -/
def execSlipDec (s : State) : Host.Outcome State Fault Refusal :=
  let (o, s1) := slipDecode s
  .next (s1.answer (.outcome o))

/-- `SLIP.DECALL t` (R75). Pure. -/
def execSlipDecall (t : Bytes) (s : State) : Host.Outcome State Fault Refusal :=
  .next (s.answer (.decodeAll (slipDecodeAll t)))

end Sys2Proof.Machine
end

