-- ==== Sys2Proof/Machine/Synchronizer.lean ====
section
/-! DEFINITION. Meaning of the Synchronizer's operation SYNC (R100 to R104). -/

namespace Sys2Proof.Machine

/-- `SYNC timeout` (R100): one Sync request, up to ten extra reads, the flush. -/
def execSync (timeout : U32) (s : State) : Host.Outcome State Fault Refusal :=
  whenLegal s (runUnit .sync (beginSync timeout) s)

end Sys2Proof.Machine
end

