-- ==== Sys2Proof/Machine/Dispatch.lean ====
section
/-! DEFINITION. The dispatch: one arm per row of spec/opcode_table.json, in its order. -/

namespace Sys2Proof.Machine

def exec (i : Instr) (s : State) : Host.Outcome State Fault Refusal :=
  match i with
  | .slipEnd => Sys2Proof.Machine.execSlipEnd s
  | .slipEscEnd => Sys2Proof.Machine.execSlipEscEnd s
  | .slipEscEsc => Sys2Proof.Machine.execSlipEscEsc s
  | .slipEscBad second => Sys2Proof.Machine.execSlipEscBad second s
  | .slipLit v => Sys2Proof.Machine.execSlipLit v s
  | .syncReq => Sys2Proof.Machine.execSyncReq s
  | .flashBeginReq totalSize address => Sys2Proof.Machine.execFlashBeginReq totalSize address s
  | .flashDataReq chk8 blockIndex data => Sys2Proof.Machine.execFlashDataReq chk8 blockIndex data s
  | .flashEndReq stay => Sys2Proof.Machine.execFlashEndReq stay s
  | .memBeginReq chk body => Sys2Proof.Machine.execMemBeginReq chk body s
  | .memEndReq chk body => Sys2Proof.Machine.execMemEndReq chk body s
  | .memDataReq chk body => Sys2Proof.Machine.execMemDataReq chk body s
  | .writeRegReq chk body => Sys2Proof.Machine.execWriteRegReq chk body s
  | .readRegReq chk body => Sys2Proof.Machine.execReadRegReq chk body s
  | .rsp op value body => Sys2Proof.Machine.execRsp op value body s
  | .rspStray value body => Sys2Proof.Machine.execRspStray value body s
  | .rspSync value body0 body1 => Sys2Proof.Machine.execRspSync value body0 body1 s
  | .rspFlashBegin value body0 body1 => Sys2Proof.Machine.execRspFlashBegin value body0 body1 s
  | .rspFlashData value body0 body1 => Sys2Proof.Machine.execRspFlashData value body0 body1 s
  | .rspFlashEnd value body0 body1 => Sys2Proof.Machine.execRspFlashEnd value body0 body1 s
  | .slipEnc b => Sys2Proof.Machine.execSlipEnc b s
  | .slipWrap b => Sys2Proof.Machine.execSlipWrap b s
  | .slipRawwrap b => Sys2Proof.Machine.execSlipRawwrap b s
  | .slipDec => Sys2Proof.Machine.execSlipDec s
  | .slipDecall t => Sys2Proof.Machine.execSlipDecall t s
  | .chk b => Sys2Proof.Machine.execChk b s
  | .hdr dir op n chk => Sys2Proof.Machine.execHdr dir op n chk s
  | .send op payload chk => Sys2Proof.Machine.execSend op payload chk s
  | .recv op timeout => Sys2Proof.Machine.execRecv op timeout s
  | .cmd op payload chk timeout => Sys2Proof.Machine.execCmd op payload chk timeout s
  | .parse f => Sys2Proof.Machine.execParse f s
  | .sync timeout => Sys2Proof.Machine.execSync timeout s
  | .fbegin address totalSize => Sys2Proof.Machine.execFbegin address totalSize s
  | .fdata idx val mask => Sys2Proof.Machine.execFdata idx val mask s
  | .fend reboot => Sys2Proof.Machine.execFend reboot s
  | .beginUpload image addr => Sys2Proof.Machine.execBeginUpload image addr s
  | .step => Sys2Proof.Machine.execStep s

end Sys2Proof.Machine
end

