-- ==== Sys2Proof/Machine/Fetch.lean ====
section
/-! DEFINITION. Where the next transaction stands (log 4): the block fetches no instructions (R11, R45), so what is
asked of it next stands at the port, and a program is a sequence of host calls and wire transactions there. -/

namespace Sys2Proof.Machine

/-- The first transaction of the port, without the empty words before it: its lane, its bytes, the words after it. -/
def nextWord (port : List PortWord) : Option (Lane × Bytes × List PortWord) :=
  match port with
  | [] => none
  | ⟨_, []⟩ :: more => nextWord more
  | ⟨lane, b :: bs⟩ :: more => some (lane, b :: bs, more)

/-- The port after a transaction: what is left of its word comes first. -/
def pushRest (lane : Lane) (rest : Bytes) (more : List PortWord) : List PortWord :=
  match rest with
  | [] => more
  | b :: bs => ⟨lane, b :: bs⟩ :: more

/-- Nobody calls (R130, U16): the engine does not run, the environment goes on (log 25). -/
def idleTurn (s : State) : State := { s with env := s.env.turn }

end Sys2Proof.Machine
end

