-- ==== Sys2Proof/Machine/Step.lean ====
section
/-! DEFINITION. One step: the next transaction at the port is decoded and executed (log 4). -/

namespace Sys2Proof.Machine

/-- The bytes at the port are decoded on their lane; the instruction runs with the port moved past them. With an empty
port only the environment takes a turn; bytes that are no instruction are refused (log 25, log 28). -/
def step (s : State) : Host.Outcome State Fault Refusal :=
  match nextWord s.port with
  | none => .next (idleTurn s)
  | some (lane, bytes, more) =>
    match decode lane bytes with
    | .error why => .refused (.undecodable why)
    | .ok (i, rest) => exec i { s with port := pushRest lane rest more }

/-- The word of spec/opcode_table.json, with zeros above it, at the front of the port (log 4, log 10). -/
def State.withFetchWord (s : State) (nbits w : Nat) : State :=
  { s with port := ⟨tableLane nbits w, tableBytes nbits w⟩ :: s.port }

end Sys2Proof.Machine
end

