-- ==== Sys2Proof/Safety.lean ====
section
/-! DEFINITION. The terms claims are made in: what a step may leave unchanged, the invariant of the registers, the edges
of `orch_state`, and the vocabulary of the statements about streams, blocks and sessions. -/

namespace Sys2Proof.Machine

/-- t differs from s at most in the receive machine and the environment. -/
def SameButRx (s t : State) : Prop := { t with rx := s.rx, env := s.env } = s

/-- t differs from s at most in the environment. -/
def SameButEnv (s t : State) : Prop := { t with env := s.env } = s

/-- The environment's parts only STEP in `resetting` and Finish, and BEGIN_UPLOAD's host, may change (R31, R35, R37). -/
def SameLines (e f : Env) : Prop := f.baud = e.baud ∧ f.gpio = e.gpio ∧ f.img = e.img

/-- A session exists and is not over: `orch_state` is `resetting`, `connecting`, `erasing` or `uploading` (U1). -/
def inSession (o : OrchState) : Bool :=
  match o with
  | .resetting | .connecting | .erasing | .uploading => true
  | .idle | .done => false

/-- The edges of R140's table that STEP takes. -/
def stepEdge (a b : OrchState) : Bool :=
  match a, b with
  | .resetting, .connecting | .resetting, .done
  | .connecting, .connecting | .connecting, .erasing | .connecting, .resetting
  | .erasing, .uploading | .erasing, .done
  | .uploading, .uploading | .uploading, .done
  | .done, .done => true
  | _, _ => false

/-- What the receive registers hold while a RECV is pending (R15, R84): the counts fit the state, and once the header
is in, `body_len` and `resp_value` are its fields. -/
def receiverInv (rx : Receiver) : Prop :=
  match rx.state with
  | .awaitingStart => rx.hdrIdx = 0 ∧ rx.bodyIdx = 0#16 ∧ rx.bodyLen = 0#16
  | .readingHeader => rx.hdrIdx < 8 ∧ rx.bodyIdx = 0#16
  | .readingBody =>
    rx.hdrIdx = 8 ∧ rx.bodyIdx.toNat < rx.bodyLen.toNat ∧
      rx.bodyLen = getLe16 rx.hdr.toList 2 ∧ rx.respValue = getLe32 rx.hdr.toList 4
  | .awaitingEnd =>
    rx.hdrIdx = 8 ∧ rx.bodyIdx = rx.bodyLen ∧
      rx.bodyLen = getLe16 rx.hdr.toList 2 ∧ rx.respValue = getLe32 rx.hdr.toList 4
  | .complete => False

/-- The invariant of the registers: the ranges R13 to R15 give them, what a pending RECV implies, what `orch_state` says
of the session registers. It does not hold of every state, but of reset, and every step keeps it. -/
structure RegisterInv (s : State) : Prop where
  /-- the block buffer is in its canonical form -/
  buffer : Memory.wf s.blk = true
  /-- R15 -/
  headerCount : s.rx.hdrIdx ≤ 8
  /-- R13, R101 -/
  extraReads : s.syncExtra ≤ 10 ∧ (s.syncPhase = .extra → s.syncExtra < 10)
  /-- R14, R114 -/
  attempts : s.blkAttempt ≤ 3
  /-- R84: the pending RECV is in one of four states -/
  pending : s.rx.active = true → receiverInv s.rx
  /-- R132: an operation waits for the pending RECV -/
  caller : s.rx.active = true → callerOf s ≠ none
  /-- R112, R138: the block being sent carries the session's block index -/
  index : s.rx.active = true → s.unitCall = none → s.orch = .uploading →
    Memory.readBytes s.blk 4 4 = le32 s.session.blockIdx
  /-- R171: what a session's pending RECV expects, and how long it waits -/
  limit : s.rx.active = true → s.unitCall = none →
    match s.orch with
    | .connecting =>
      s.rx.expected = s.cfg.opcSync ∧ s.rx.timeout = if s.syncPhase = .flush then s.cfg.tDefault else 5000#32
    | .erasing =>
      s.rx.expected = s.cfg.opcFlashBegin ∧ ∃ es, eraseSize s.cfg s.session.imageSize s.session.targetAddr = some es ∧
        s.rx.timeout = if es.toNat > 0 then s.cfg.tErase else s.cfg.tDefault
    | .uploading => s.rx.expected = s.cfg.opcFlashData ∧ s.rx.timeout = s.cfg.tBlock
    | .idle | .resetting | .done => True
  /-- R131: no session has an empty image -/
  image : inSession s.orch = true → s.session.imageSize ≠ 0#32
  /-- R138: there is a block to send -/
  block : s.orch = .uploading → s.session.blockIdx.toNat < nBlocks s.session.imageSize
  /-- R15 -/
  kept : s.rx.respBody.length = s.cfg.respBodyCap
  /-- R174, U12: no timestamp has been tested too late, and none is of the future -/
  punctual : s.env.overrun = false ∧ s.env.stamps.attempt ≤ s.env.now ∧ s.env.stamps.reset ≤ s.env.now ∧
    s.env.stamps.rx ≤ s.env.now
  /-- R84: `rx_start` is the clock's reading when the pending RECV began -/
  started : s.rx.active = true → s.rx.start = s.env.stamps.rx % 2 ^ s.cfg.clkW
  /-- R134, R135: the timestamps the intervals are measured from are the clock's readings when they were taken -/
  timed : s.orch = .connecting ∨ s.orch = .erasing ∨ s.orch = .uploading →
    s.session.lastAttempt = s.env.stamps.attempt % 2 ^ s.cfg.clkW ∧
      s.session.lastReset = s.env.stamps.reset % 2 ^ s.cfg.clkW
  /-- R131, R139: `result` is valid when the session is over, and not before -/
  valid : (s.orch = .done → s.session.resultValid = true) ∧ (inSession s.orch = true → s.session.resultValid = false)
  /-- R131, R133: in `idle` the one valid result is EmptyFile -/
  empty : s.orch = .idle → s.session.resultValid = true → s.session.result = .emptyFile
  /-- R102: the flush follows a success -/
  flushed : s.syncPhase = .flush → s.syncStatus = .success
  /-- R160: SlipStateError is never raised -/
  codes : s.session.result ≠ .slipStateError

/-- SLIP.DEC repeated until it returns something else than a byte (R75), at most n times: the bytes, the last outcome. -/
def decodeStream (n : Nat) (s : State) : Bytes × DecOutcome :=
  match n with
  | 0 => ([], (slipDecode s).1)
  | n + 1 =>
    match slipDecode s with
    | (.byte v, s1) => let (out, o) := decodeStream n s1; (v :: out, o)
    | (o, _) => ([], o)

/-- A quiet environment: the clock stands still and the peer sends nothing more. -/
abbrev Quiet (s : State) : Prop := s.env.script = []

/-- By how many milliseconds the clock advances in all the turns to come. -/
def slack (e : Env) : Nat := (e.script.map EnvAct.ms).sum

/-- U12 is kept clear of: however far the clock still advances, what was taken at `since` (or is taken from now on) is
tested within 2^`CLK_W` - 1 ms (R174). -/
abbrev Punctual (s : State) (since : Nat) : Prop :=
  s.env.overrun = false ∧ slack s.env + (s.env.now - since) < 2 ^ s.cfg.clkW

/-- No byte arrives in any of the turns to come. -/
abbrev NoMoreBytes (e : Env) : Prop := e.script.flatMap EnvAct.rx = []

/-- The bytes an interface call writes (R34). -/
def Event.sent : Event → Bytes
  | .txByte b => [b]
  | .txBlock buf => buf
  | _ => []

/-- The byte an interface call reads (R33). -/
def Event.received : Event → Bytes
  | .rxByte (some b) => [b]
  | _ => []

/-- A call of the clock, of `RxByte` or of the transmit side. -/
def Event.exchanges : Event → Bool
  | .now _ | .rxByte _ | .txByte _ | .txBlock _ => true
  | _ => false

/-- A `Reopen` (R35). -/
def Event.isReopen : Event → Bool
  | .reopen _ => true
  | _ => false

/-- A `Progress` report (R138). -/
def Event.isProgress : Event → Bool
  | .progress _ => true
  | _ => false

/-- f follows e by calls of the clock, of `RxByte` and of the transmit side that wrote `w` and read `r` (R31, R33, R34);
before them the environment took k turns, whose bytes came after those waiting in `RXQ`. -/
structure Exchanged (w r : Bytes) (e f : Env) : Prop where
  lines : SameLines e f
  sent : f.txs = e.txs ++ w
  calls : ∃ E, f.events = e.events ++ E ∧ E.flatMap Event.sent = w ∧ E.flatMap Event.received = r ∧
    ∀ ev ∈ E, ev.exchanges = true
  turns : ∃ k, f.script = e.script.drop k ∧ f.now = e.now + ((e.script.take k).map EnvAct.ms).sum ∧
    e.rxq ++ (e.script.take k).flatMap EnvAct.rx = r ++ f.rxq

/-- The raw bytes SEND writes (R83). -/
def frameOnWire (c : Config) (op : Byte) (payload : Bytes) (chk : U32) : Bytes :=
  if op = c.opcSync then slipRawWrapped (frameContent c.dirRequest op chk payload)
  else slipWrapped (frameContent c.dirRequest op chk payload)

/-- The logical bytes p are the beginning of a frame's header and body and not all of it (R52, R84). -/
abbrev Unfinished (p : Bytes) : Prop := p.length < 8 ∨ p.length < 8 + (getLe16 p 2).toNat

/-- The logical bytes p are a frame's whole header and body (R52, R84). -/
abbrev Whole (p : Bytes) : Prop := 8 ≤ p.length ∧ p.length = 8 + (getLe16 p 2).toNat

/-- The code R85 gives a whole response with this `dir` and `op`. -/
def headerCode (c : Config) (dir op expected : Byte) : ResultCode :=
  if dir = c.dirResponse ∧ op = expected then .success else .responseHeaderError

/-- A block's 1024 data bytes after the first-block patch of R113, from the bytes before it: at index 0 and address 0,
where the first byte is the image magic and the mask is not 0, bytes 2 and 3 become the low and the high byte of
`(v & ~mask) | val`, v being their 16-bit value. -/
def patchedData (c : Config) (idx targetAddr : U32) (val mask : U16) (data : Bytes) : Bytes :=
  if idx = 0#32 ∧ targetAddr = 0#32 ∧ byteAt data 0 = c.imageMagic ∧ mask ≠ 0#16 then
    let v : U16 := byteAt data 3 ++ byteAt data 2
    let v' := (v &&& ~~~mask) ||| val
    (data.set 2 (v'.extractLsb' 0 8)).set 3 (v'.extractLsb' 8 8)
  else data

/-- The FlashData frame of a block (R59, R112): the check-value is the checksum of the data as sent. -/
def dataFrame (c : Config) (idx : U32) (data : Bytes) : Bytes :=
  slipWrapped (frameContent c.dirRequest c.opcFlashData (zext32 (chkFold data)) (flashDataBodyHeader idx ++ data))

/-- The bytes of block k of an image, zero-padded (R138). -/
def imageBlock (img : ImageSource) (k : Nat) : Bytes :=
  let got := (img.data.drop (k * blockSize)).take blockSize
  got ++ List.replicate (blockSize - got.length) 0#8

/-- n STEPs one after the other; none when one of them answers no next state. -/
def runSteps (n : Nat) (s : State) : Option State :=
  match n with
  | 0 => some s
  | n + 1 =>
    match exec .step s with
    | .next t => runSteps n t
    | _ => none

/-- i writes the frame f and does nothing else: no register changes, nothing is read from `RXQ`, the lines stay. -/
def WritesFrame (i : Instr) (s : State) (f : Bytes) : Prop :=
  ∃ t, exec i s = .next t ∧ t.ret = .sent ∧ { t with env := s.env, ret := s.ret } = s ∧ Exchanged f [] s.env t.env

/-- i puts the raw bytes f at the end of `RXQ` and does nothing else. -/
def PeerSends (i : Instr) (s : State) (f : Bytes) : Prop :=
  exec i s = .next { s with env := { s.env with rxq := s.env.rxq ++ f } }

/-- A whole frame the peer sends (R52, R56). -/
structure Reply where
  dir   : Byte
  op    : Byte
  value : U32
  body  : Bytes
deriving DecidableEq, Repr

/-- Its raw bytes. -/
def Reply.wire (r : Reply) : Bytes := slipWrapped (frameContent r.dir r.op r.value r.body)

/-- It is a response to this opcode (R85). -/
abbrev Reply.answers (r : Reply) (c : Config) (op : Byte) : Prop := r.dir = c.dirResponse ∧ r.op = op

/-- CMD accepts it (R86). -/
abbrev Reply.accepted (r : Reply) (c : Config) (op : Byte) : Prop := r.answers c op ∧ r.body.length = 2

/-- R54: its length field can say how long it is. -/
abbrev Reply.sendable (r : Reply) : Prop := r.body.length ≤ 65535

/-- The code CMD gives it (R85, R86). -/
def Reply.code (r : Reply) (c : Config) (op : Byte) : ResultCode :=
  if r.dir = c.dirResponse ∧ r.op = op then (if r.body.length = 2 then .success else .badReply)
  else .responseHeaderError

/-- The operation i, called by itself, has returned the code st: RECV is over, nothing waits, and no register outside
the receive machine has changed; it wrote `sent` and read `read`. -/
structure Returned (st : ResultCode) (sent read : Bytes) (s t : State) : Prop where
  ret : t.ret = .code st
  idle : t.rx.active = false ∧ t.unitCall = none
  regs : { t with rx := s.rx, env := s.env, ret := s.ret, unitCall := s.unitCall } = s
  env : Exchanged sent read s.env t.env

/-- The operation op, called by itself, waits for bytes: its RECV is pending, and no register outside the receive
machine has changed; it wrote `sent` and read `read`. -/
structure Suspended (op : UnitOp) (sent read : Bytes) (s t : State) : Prop where
  ret : t.ret = .inProgress (percent s)
  pending : t.rx.active = true ∧ t.unitCall = some op
  regs : { t with rx := s.rx, env := s.env, ret := s.ret, unitCall := s.unitCall } = s
  env : Exchanged sent read s.env t.env

/-- i sends `frame`, awaits a response to op and makes of the first frame that comes what CMD does (R86), when the clock
leaves it the time. -/
def CommandAnswered (i : Instr) (s : State) (op : Byte) (frame : Bytes) (timeout : U32) : Prop :=
  ∀ (g rest : Bytes) (r : Reply), slack s.env ≤ timeout.toNat → Punctual s s.env.now → 0xC0#8 ∉ g → r.sendable →
    s.env.rxq = g ++ r.wire ++ rest →
    ∃ t, exec i s = .next t ∧ Returned (r.code s.cfg op) frame (g ++ r.wire) s t ∧ t.rx.respValue = r.value ∧
      t.rx.bodyLen.toNat = r.body.length ∧ t.rx.expected = op ∧ t.rx.timeout = timeout ∧
      ∀ k, k < s.cfg.respBodyCap → k < r.body.length → byteAt t.rx.respBody k = byteAt r.body k

/-- A RECV is pending that has not seen the start marker yet (R84). -/
structure Waiting (s : State) : Prop where
  active : s.rx.active = true
  state : s.rx.state = .awaitingStart
  counts : s.rx.hdrIdx = 0 ∧ s.rx.bodyIdx = 0#16
  escape : s.rx.escPending = false

/-- The clock leaves the pending RECV its time: what has elapsed and what is still to come is within its limit (R84). -/
abbrev InTime (s : State) : Prop := elapsed s.cfg.clkW s.env.now s.rx.start + slack s.env ≤ s.rx.timeout.toNat

/-- The pending RECV is late at its next poll (R84, R166 (a)). -/
abbrev Late (s : State) : Prop := s.rx.timeout.toNat < elapsed s.cfg.clkW s.env.turn.now s.rx.start

/-- What a STEP that has run or resumed a SYNC in `connecting` leaves alone (R135): it wrote `sent` and read `read`, and
changed no register of the flash sequencer; the host is told no percentage. -/
structure ConnectingStep (sent read : Bytes) (s t : State) : Prop where
  regs : { t with session := s.session, orch := s.orch, syncPhase := s.syncPhase, syncExtra := s.syncExtra
                  syncStatus := s.syncStatus, rx := s.rx, env := s.env, ret := s.ret, unitCall := s.unitCall } = s
  env : Exchanged sent read s.env t.env
  ret : t.ret = .inProgress 0
  unit : t.unitCall = none

/-- SYNC has returned Success: the session goes on to `erasing` (R135). -/
def SyncPassed (s t : State) : Prop :=
  t.rx.active = false ∧ t.syncPhase = .idle ∧ t.orch = .erasing ∧
    t.session = { s.session with lastAttempt := t.env.now % 2 ^ s.cfg.clkW }

/-- SYNC has failed: the attempt is counted, and the last of the allowed number leads back to `resetting` (R135). -/
def SyncCounted (s t : State) : Prop :=
  let n := s.session.resetAttempt + 1#32
  t.rx.active = false ∧ t.syncPhase = .idle ∧
    t.orch = (if s.cfg.retriesPerReset ≤ n.toNat then .resetting else .connecting) ∧
    t.session = { s.session with lastAttempt := t.env.now % 2 ^ s.cfg.clkW, resetAttempt := n }

/-- SYNC is still pending, with `T_SYNC` as its limit, or, in the flush, `T_DEFAULT` (R135, R171). -/
def SyncPending (s t : State) : Prop :=
  t.rx.active = true ∧ t.syncPhase ≠ .idle ∧ t.orch = .connecting ∧ t.session = s.session ∧
    t.rx.expected = s.cfg.opcSync ∧ t.rx.timeout = if t.syncPhase = .flush then s.cfg.tDefault else 5000#32

/-- FBEGIN has returned st to STEP in `erasing` (R136). -/
def EraseEnded (st : ResultCode) (s t : State) : Prop :=
  t.rx.active = false ∧ t.unitCall = none ∧
    { t with session := s.session, orch := s.orch, syncPhase := s.syncPhase, rx := s.rx, env := s.env, ret := s.ret
             unitCall := s.unitCall } = s ∧
    t.env.img = s.env.img ∧ t.env.baud = s.env.baud ∧
    (st = .success → t.orch = .uploading ∧ t.ret = .inProgress 0 ∧ t.env.gpio = s.env.gpio ∧ t.syncPhase = s.syncPhase ∧
      t.session = { s.session with result := .success, blockIdx := 0#32 }) ∧
    (st ≠ .success → t.orch = .done ∧ t.ret = .done st ∧ t.env.gpio = some .run ∧ t.syncPhase = .idle ∧
      t.session = { s.session with result := st, resultValid := true })

/-- FDATA has returned Success to STEP in `uploading` (R138): `last_attempt` is the clock's reading after it, the index
has advanced, the report is made at its granularity, and the last block ends the session. -/
def BlockSent (s t : State) : Prop :=
  let k := s.session.blockIdx.toNat
  let blocks := (s.session.imageSize.toNat + 1023) / 1024
  let p := 100 * (k + 1) / blocks
  let due := s.session.nextReport.toNat ≤ p
  t.rx.active = false ∧ t.unitCall = none ∧
    t.session = { s.session with
      blockIdx := s.session.blockIdx + 1#32, lastAttempt := t.session.lastAttempt, result := .success
      nextReport := if due then s.session.nextReport + BitVec.ofNat 32 s.cfg.pctStep else s.session.nextReport
      resultValid := if k + 1 = blocks then true else s.session.resultValid } ∧
    (∃ calls, t.env.events = s.env.events ++ calls ++ [.now t.session.lastAttempt] ++
      (if due then [.progress p] else []) ++ (if k + 1 = blocks then [.imgRelease, .gpioLeave] else []) ∧
      ∀ ev ∈ calls, ev.isProgress = false) ∧
    (k + 1 < blocks → t.orch = .uploading ∧ t.ret = .inProgress p ∧ t.env.gpio = s.env.gpio) ∧
    (k + 1 = blocks → t.orch = .done ∧ t.ret = .done .success ∧ t.env.gpio = some .run)

/-- FDATA has returned its third failure to STEP in `uploading`: the session ends with its code (R114, R138). -/
def BlockFailed (st : ResultCode) (s t : State) : Prop :=
  t.rx.active = false ∧ t.unitCall = none ∧ t.blkAttempt = 3 ∧ t.orch = .done ∧ t.ret = .done st ∧
    t.env.gpio = some .run ∧
    t.session = { s.session with lastAttempt := t.session.lastAttempt, result := st, resultValid := true } ∧
    ∃ calls, t.env.events = s.env.events ++ calls ++ [.now t.session.lastAttempt, .imgRelease, .gpioLeave]

/-- The Sync request (R57), unescaped (R63). -/
def syncFrame (c : Config) : Bytes :=
  [0xC0#8, c.dirRequest, c.opcSync, 36#8, 0#8, 0#8, 0#8, 0#8, 0#8] ++ c.syncMarker.toList ++
    List.replicate 32 c.syncFill ++ [0xC0#8]

/-- The FlashBegin request (R58) for these two operands of FBEGIN (R110). -/
def flashBeginFrame (c : Config) (address totalSize : U32) : Bytes :=
  slipWrapped ([c.dirRequest, c.opcFlashBegin, 16#8, 0#8, 0#8, 0#8, 0#8, 0#8] ++ le32 totalSize ++
    le32 (BitVec.ofNat 32 ((totalSize.toNat + 1023) / 1024)) ++ le32 1024#32 ++ le32 (address &&& ~~~0x3FF#32))

/-- The FlashEnd request (R60), by its flag. -/
def flashEndFrame (c : Config) (stay : Bool) : Bytes :=
  slipWrapped [c.dirRequest, c.opcFlashEnd, 4#8, 0#8, 0#8, 0#8, 0#8, 0#8, if stay then 1#8 else 0#8, 0#8, 0#8, 0#8]

/-- n copies of a frame. -/
def copies (n : Nat) (f : Bytes) : Bytes := (List.replicate n f).flatten

end Sys2Proof.Machine
end

