-- ==== Sys2Proof/Certificates/Slice0/Obligations.lean ====
section
/-! DEFINITION. The statements for the provers. Every constructor of `Instr` has one that says where it completes, and
what it leaves unchanged; the numerals of the wire are written out as the spec writes them. -/

open Sys2Proof Sys2Proof.Machine

/-! ### Encoding -/

/-- Decoding gives back an encoded instruction, whatever follows it on its lane. -/
def Obligations.DecodeAfterEncode : Prop :=
  ∀ (i : Instr) (rest : Bytes), i.wf = true →
    decode (encode i).lane ((encode i).bytes ++ rest) = .ok (i, rest)

/-- The decoder reads nothing but encodings of well-formed instructions: no bit of one is dropped, and each has one
encoding. -/
def Obligations.EncodeAfterDecode : Prop :=
  ∀ (lane : Lane) (s rest : Bytes) (i : Instr), decode lane s = .ok (i, rest) →
    i.wf = true ∧ (encode i).lane = lane ∧ s = (encode i).bytes ++ rest

/-- Words written out: the byte codes of R51, the step of R50, and headers with the bodies of R56, R57, R58 (vector
2.4's frame for 1025 bytes) and R60. On which lane a word stands, and what follows a header on its lane, is the
model's choice (logs 9 and 10). -/
def Obligations.WrittenWordsDecode : Prop :=
  decode .wire [0xC0#8] = .ok (.slipEnd, []) ∧
  decode .wire [0xDB#8, 0xDC#8] = .ok (.slipEscEnd, []) ∧
  decode .wire [0xDB#8, 0xDD#8] = .ok (.slipEscEsc, []) ∧
  decode .wire [0xDB#8, 0xC0#8] = .ok (.slipEscBad 0xC0#8, []) ∧
  decode .wire [0xDC#8] = .ok (.slipLit 0xDC#8, []) ∧
  decode .header ([0x00#8, 0x08#8, 0x24#8, 0x00#8, 0x00#8, 0x00#8, 0x00#8, 0x00#8, 0x07#8, 0x07#8, 0x12#8, 0x20#8] ++
    List.replicate 32 0x55#8) = .ok (.syncReq, []) ∧
  decode .header [0x00#8, 0x02#8, 0x10#8, 0x00#8, 0x00#8, 0x00#8, 0x00#8, 0x00#8, 0x01#8, 0x04#8, 0x00#8, 0x00#8, 0x02#8,
    0x00#8, 0x00#8, 0x00#8, 0x00#8, 0x04#8, 0x00#8, 0x00#8, 0x00#8, 0x10#8, 0x00#8, 0x00#8] =
    .ok (.flashBeginReq 1025#32 0x1000#32, []) ∧
  decode .header [0x00#8, 0x04#8, 0x04#8, 0x00#8, 0x00#8, 0x00#8, 0x00#8, 0x00#8, 0x01#8, 0x00#8, 0x00#8, 0x00#8] =
    .ok (.flashEndReq true, []) ∧
  decode .header [0x01#8, 0x08#8, 0x02#8, 0x00#8, 0x07#8, 0x07#8, 0x12#8, 0x20#8, 0x00#8, 0x00#8] =
    .ok (.rspSync 0x20120707#32 0x00#8 0x00#8, []) ∧
  decode .header [0x01#8, 0x00#8, 0x02#8, 0x00#8, 0x00#8, 0x00#8, 0x00#8, 0x00#8, 0x00#8, 0x00#8] =
    .ok (.rspStray 0#32 [0x00#8, 0x00#8], []) ∧
  decode .call [0x10#8] = .ok (.step, []) ∧
  decodeTableWord 64 0x240800 = some .syncReq ∧
  decodeTableWord 16 0xDCDB = some .slipEscEnd

/-- A step runs the instruction the decoder reads at the port, on the state whose port has moved past it; empty words
there are skipped; with nothing at the port the environment takes a turn; bytes that are no instruction are refused. -/
def Obligations.StepRunsTheDecodedInstruction : Prop :=
  (∀ (s : State) (empty more : List PortWord) (lane : Lane) (b : Byte) (bs rest : Bytes) (i : Instr),
    (∀ w ∈ empty, w.bytes = []) → s.port = empty ++ ⟨lane, b :: bs⟩ :: more → decode lane (b :: bs) = .ok (i, rest) →
    step s = exec i { s with port := if rest = [] then more else ⟨lane, rest⟩ :: more }) ∧
  (∀ (s : State) (empty more : List PortWord) (lane : Lane) (b : Byte) (bs : Bytes) (why : DecodeError),
    (∀ w ∈ empty, w.bytes = []) → s.port = empty ++ ⟨lane, b :: bs⟩ :: more → decode lane (b :: bs) = .error why →
    step s = .refused (.undecodable why)) ∧
  (∀ s : State, (∀ w ∈ s.port, w.bytes = []) → step s = .next { s with env := s.env.turn })

/-- The very next step after `withFetchWord` runs the table word's instruction, with what the decoder left of the word
and its padding still at the port (log 10). -/
def Obligations.TableWordRunsNext : Prop :=
  ∀ (s : State) (nbits w : Nat) (i : Instr), decodeTableWord nbits w = some i →
    ∃ rest, decode (tableLane nbits w) (tableBytes nbits w) = .ok (i, rest) ∧
      step (s.withFetchWord nbits w) =
        exec i { s with port := if rest = [] then s.port else ⟨tableLane nbits w, rest⟩ :: s.port }

/-! ### The Slip Codec -/

/-- R70: SLIP.ENC, its result byte by byte, and its corner cases. -/
def Obligations.SlipEncEscapesEveryByte : Prop :=
  ∀ (b : Bytes) (s : State), ∃ out,
    exec (.slipEnc b) s = .next { s with ret := .bytes out } ∧
    out = b.flatMap (fun x => if x = 0xC0#8 then [0xDB#8, 0xDC#8] else if x = 0xDB#8 then [0xDB#8, 0xDD#8] else [x]) ∧
    0xC0#8 ∉ out ∧
    out.length = b.length + b.countP (fun x => x == 0xC0#8 || x == 0xDB#8) ∧ out.length ≤ 2 * b.length ∧
    (b = [] → out = []) ∧ ((∀ x ∈ b, x = 0xDC#8 ∨ x = 0xDD#8) → out = b)

/-- R71, R72: the stuffed frame, whose delimiters are its only 0xC0; the unstuffed one. R87: an unstuffed content that
holds 0xC0 is no frame. R57, U9: the Sync request of a legal configuration is the same both ways (R72 says it of the
defaults; that it holds for every legal configuration is inferred), and a configuration that would break it is illegal. -/
def Obligations.WrapAndRawwrapDelimit : Prop :=
  (∀ (b : Bytes) (s : State), ∃ out, exec (.slipWrap b) s = .next { s with ret := .bytes out } ∧
    out = [0xC0#8] ++ slipEncode b ++ [0xC0#8] ∧ out.count 0xC0#8 = 2) ∧
  (∀ (b : Bytes) (s : State), exec (.slipRawwrap b) s = .next { s with ret := .bytes ([0xC0#8] ++ b ++ [0xC0#8]) }) ∧
  (∀ (b : Bytes), 0xC0#8 ∈ b → ∀ dir op chk body, parseFrame ([0xC0#8] ++ b ++ [0xC0#8]) ≠ .parsed dir op chk body) ∧
  (∀ c : Config, legalConfig c = true →
    slipRawWrapped (frameContent c.dirRequest c.opcSync 0#32 (syncPayload c)) =
      slipWrapped (frameContent c.dirRequest c.opcSync 0#32 (syncPayload c))) ∧
  (∀ c : Config, (c.opcSync = 0xC0#8 ∨ c.opcSync = 0xDB#8 ∨ c.syncFill = 0xC0#8 ∨ c.syncFill = 0xDB#8 ∨
    0xC0#8 ∈ c.syncMarker.toList ∨ 0xDB#8 ∈ c.syncMarker.toList) → legalConfig c = false)

/-- R74: SLIP.DEC, every case, and that it changes `esc_pending`, the environment and nothing else. q1 and q2 are what
stands in `RXQ` at its two reads, each after a turn of the environment. -/
def Obligations.SlipDecOutcomes : Prop :=
  ∀ s : State,
    let q1 := s.env.turn.rxq
    let e1 := s.env.rxByte.2
    let q2 := e1.turn.rxq
    let e2 := e1.rxByte.2
    let after := fun (o : DecOutcome) (esc : Bool) (e : Env) =>
      (Host.Outcome.next { s with env := e, rx := { s.rx with escPending := esc }, ret := .outcome o } :
        Host.Outcome State Fault Refusal)
    e1.rxq = q1.tail ∧ e2.rxq = q2.tail ∧
    (s.rx.escPending = false →
      (q1 = [] → exec .slipDec s = after .noData false e1) ∧
      (q1.head? = some 0xC0#8 → exec .slipDec s = after .frameBoundary false e1) ∧
      (∀ r, q1.head? = some r → r ≠ 0xC0#8 → r ≠ 0xDB#8 → exec .slipDec s = after (.byte r) false e1) ∧
      (q1.head? = some 0xDB#8 →
        (q2 = [] → exec .slipDec s = after .escPending true e2) ∧
        (q2.head? = some 0xDC#8 → exec .slipDec s = after (.byte 0xC0#8) false e2) ∧
        (q2.head? = some 0xDD#8 → exec .slipDec s = after (.byte 0xDB#8) false e2) ∧
        (∀ r, q2.head? = some r → r ≠ 0xDC#8 → r ≠ 0xDD#8 → exec .slipDec s = after .badEscape false e2))) ∧
    (s.rx.escPending = true →
      (q1 = [] → exec .slipDec s = after .escPending true e1) ∧
      (q1.head? = some 0xDC#8 → exec .slipDec s = after (.byte 0xC0#8) false e1) ∧
      (q1.head? = some 0xDD#8 → exec .slipDec s = after (.byte 0xDB#8) false e1) ∧
      (∀ r, q1.head? = some r → r ≠ 0xDC#8 → r ≠ 0xDD#8 → exec .slipDec s = after .badEscape false e1))

/-- R75: SLIP.DECALL by its cases, and that it agrees with SLIP.DEC called until it returns no byte. -/
def Obligations.SlipDecallAgreesWithSlipDec : Prop :=
  (∀ (t : Bytes) (s : State), exec (.slipDecall t) s = .next { s with ret := .decodeAll (slipDecodeAll t) }) ∧
  slipDecodeAll [] = .decoded [] ∧
  (∀ t, slipDecodeAll (0xC0#8 :: t) = .frameBoundary) ∧
  slipDecodeAll [0xDB#8] = .truncated ∧
  (∀ t, slipDecodeAll (0xDB#8 :: 0xDC#8 :: t) = DecodeAll.cons 0xC0#8 (slipDecodeAll t)) ∧
  (∀ t, slipDecodeAll (0xDB#8 :: 0xDD#8 :: t) = DecodeAll.cons 0xDB#8 (slipDecodeAll t)) ∧
  (∀ c t, c ≠ 0xDC#8 → c ≠ 0xDD#8 → slipDecodeAll (0xDB#8 :: c :: t) = .badEscape) ∧
  (∀ b t, b ≠ 0xC0#8 → b ≠ 0xDB#8 → slipDecodeAll (b :: t) = DecodeAll.cons b (slipDecodeAll t)) ∧
  (∀ (t : Bytes) (s : State), Quiet s → s.rx.escPending = false → s.env.rxq = t →
    match slipDecodeAll t with
    | .decoded out => decodeStream t.length s = (out, .noData)
    | .truncated => (decodeStream t.length s).2 = .escPending
    | .frameBoundary => (decodeStream t.length s).2 = .frameBoundary
    | .badEscape => (decodeStream t.length s).2 = .badEscape)

/-- R76: the round-trip law, both ways, and that outside the encoder's image decoding fails. -/
def Obligations.SlipRoundTrip : Prop :=
  (∀ (b : Bytes) (s : State), exec (.slipDecall (slipEncode b)) s = .next { s with ret := .decodeAll (.decoded b) }) ∧
  (∀ t, (∃ b, slipEncode b = t) → ∃ b, slipDecodeAll t = .decoded b ∧ slipEncode b = t) ∧
  (∀ t, (¬ ∃ b, slipEncode b = t) → ∀ b, slipDecodeAll t ≠ .decoded b)

/-- R73: the encoder is injective, distributes over concatenation, and its image is (b)'s. -/
def Obligations.SlipEncoderImage : Prop :=
  (∀ a b, slipEncode a = slipEncode b → a = b) ∧
  (∀ a b, slipEncode (a ++ b) = slipEncode a ++ slipEncode b) ∧
  (∀ t : Bytes, (∃ b, slipEncode b = t) ↔
    0xC0#8 ∉ t ∧ ∀ k : Nat, t[k]? = some 0xDB#8 → t[k + 1]? = some 0xDC#8 ∨ t[k + 1]? = some 0xDD#8)

/-- The five byte codes as the peer's acts (log 7): each puts its raw bytes at the end of `RXQ` and changes nothing
else. -/
def Obligations.WireCodesArrive : Prop :=
  ∀ s : State,
    PeerSends .slipEnd s [0xC0#8] ∧ PeerSends .slipEscEnd s [0xDB#8, 0xDC#8] ∧
    PeerSends .slipEscEsc s [0xDB#8, 0xDD#8] ∧ (∀ c, PeerSends (.slipEscBad c) s [0xDB#8, c]) ∧
    (∀ v, PeerSends (.slipLit v) s [v])

/-- R51: what each code means to the decoder that reads it, and which code the encoder writes. -/
def Obligations.WireCodesMean : Prop :=
  (∀ (s : State), Quiet s → s.env.rxq = [] → s.rx.escPending = false →
    ∀ (i : Instr) (o : DecOutcome),
      ((i = .slipEnd ∧ o = .frameBoundary) ∨ (i = .slipEscEnd ∧ o = .byte 0xC0#8) ∨ (i = .slipEscEsc ∧ o = .byte 0xDB#8) ∨
        (∃ c, c ≠ 0xDC#8 ∧ c ≠ 0xDD#8 ∧ i = .slipEscBad c ∧ o = .badEscape) ∨
        (∃ v, v ≠ 0xC0#8 ∧ v ≠ 0xDB#8 ∧ i = .slipLit v ∧ o = .byte v)) →
      ∃ t u, exec i s = .next t ∧ exec .slipDec t = .next u ∧ u.ret = .outcome o ∧ u.env.rxq = [] ∧
        u.rx.escPending = false) ∧
  slipEncode [0xC0#8] = [0xDB#8, 0xDC#8] ∧ slipEncode [0xDB#8] = [0xDB#8, 0xDD#8] ∧
  (∀ v, v ≠ 0xC0#8 → v ≠ 0xDB#8 → slipEncode [v] = [v])

/-! ### The Packet Protocol -/

/-- R80: CHK and its corner cases. -/
def Obligations.ChkFoldsFromTheSeed : Prop :=
  (∀ (b : Bytes) (s : State), exec (.chk b) s = .next { s with ret := .byte (chkFold b) }) ∧
  chkFold [] = 0xEF#8 ∧ (∀ a x, chkFold (a ++ [x]) = chkFold a ^^^ x) ∧ chkFold [0xEF#8] = 0x00#8 ∧
  (∀ a b : Bytes, a.Perm b → chkFold a = chkFold b) ∧
  (∀ a b c x, chkFold (a ++ [x] ++ b ++ [x] ++ c) = chkFold (a ++ b ++ c)) ∧
  (∀ a b n, chkFold (a ++ List.replicate n 0x00#8 ++ b) = chkFold (a ++ b))

/-- R81: changing one byte changes the checksum, by the change. -/
def Obligations.ChkSeesOneByteChange : Prop :=
  ∀ (s s' : Bytes) (k : Nat), s.length = s'.length → k < s.length → byteAt s k ≠ byteAt s' k →
    (∀ j, j < s.length → j ≠ k → byteAt s j = byteAt s' j) →
    chkFold s ^^^ chkFold s' = byteAt s k ^^^ byteAt s' k ∧ chkFold s ≠ chkFold s'

/-- R82: HDR, byte by byte, and R53's reading of it. -/
def Obligations.HdrLaysOutTheHeader : Prop :=
  ∀ (dir op : Byte) (n : U16) (chk : U32) (s : State), ∃ h,
    exec (.hdr dir op n chk) s = .next { s with ret := .bytes h } ∧
    h = [dir, op, n.extractLsb' 0 8, n.extractLsb' 8 8, chk.extractLsb' 0 8, chk.extractLsb' 8 8, chk.extractLsb' 16 8,
      chk.extractLsb' 24 8] ∧
    getLe16 h 2 = n ∧ getLe32 h 4 = chk

/-- R83: SEND. It writes no register, does not read or empty `RXQ`, and appends one frame to `TXS`: for the Sync opcode
unescaped and in one block write, for every other stuffed and byte by byte. -/
def Obligations.SendWritesOneFrame : Prop :=
  ∀ (s : State) (op : Byte) (payload : Bytes) (chk : U32), legalConfig s.cfg = true → payload.length ≤ 65535 →
    let n := BitVec.ofNat 16 payload.length
    let content := [s.cfg.dirRequest, op] ++ le16 n ++ le32 chk ++ payload
    let f := if op = s.cfg.opcSync then [0xC0#8] ++ content ++ [0xC0#8] else [0xC0#8] ++ slipEncode content ++ [0xC0#8]
    WritesFrame (.send op payload chk) s f ∧
    ∀ t, exec (.send op payload chk) s = .next t →
      t.env.txs.length = s.env.txs.length + f.length ∧
      t.env.events = s.env.events ++ (if op = s.cfg.opcSync then [.txBlock f] else f.map Event.txByte)

/-- R57 to R60: the four request rows as transmissions (log 9), byte by byte. A FlashData request goes out when its
check byte is its data's, R59's `CHK(data)`; with another it is a frame of the peer (R62; log 8). -/
def Obligations.RequestRowsTransmit : Prop :=
  ∀ s : State, legalConfig s.cfg = true →
    WritesFrame .syncReq s (syncFrame s.cfg) ∧
    (∀ total address, WritesFrame (.flashBeginReq total address) s (flashBeginFrame s.cfg address total)) ∧
    (∀ chk8 idx data, data.length = 1024 →
      let f := slipWrapped ([s.cfg.dirRequest, s.cfg.opcFlashData, 0x10#8, 0x04#8, chk8, 0x00#8, 0x00#8, 0x00#8] ++
        le32 1024#32 ++ le32 idx ++ le32 0#32 ++ le32 0#32 ++ data)
      (chk8 = chkFold data → WritesFrame (.flashDataReq chk8 idx data) s f) ∧
      (chk8 ≠ chkFold data → PeerSends (.flashDataReq chk8 idx data) s f)) ∧
    (∀ stay, WritesFrame (.flashEndReq stay) s (flashEndFrame s.cfg stay))

/-- R56, R61, R62: the rows of frames that come from the peer (log 7, log 8): each puts its stuffed frame at the end of
`RXQ` and changes nothing else. -/
def Obligations.PeerFramesArrive : Prop :=
  ∀ (s : State) (v : U32) (body : Bytes) (b0 b1 op : Byte), legalConfig s.cfg = true → body.length ≤ 65535 →
    let frame := fun (dir op : Byte) (body : Bytes) =>
      [0xC0#8] ++ slipEncode ([dir, op] ++ le16 (BitVec.ofNat 16 body.length) ++ le32 v ++ body) ++ [0xC0#8]
    PeerSends (.memBeginReq v body) s (frame s.cfg.dirRequest s.cfg.opcMemBegin body) ∧
    PeerSends (.memEndReq v body) s (frame s.cfg.dirRequest s.cfg.opcMemEnd body) ∧
    PeerSends (.memDataReq v body) s (frame s.cfg.dirRequest s.cfg.opcMemData body) ∧
    PeerSends (.writeRegReq v body) s (frame s.cfg.dirRequest s.cfg.opcWriteReg body) ∧
    PeerSends (.readRegReq v body) s (frame s.cfg.dirRequest s.cfg.opcReadReg body) ∧
    PeerSends (.rsp op v body) s (frame s.cfg.dirResponse op body) ∧
    PeerSends (.rspStray v body) s (frame s.cfg.dirResponse 0x00#8 body) ∧
    PeerSends (.rspSync v b0 b1) s (frame s.cfg.dirResponse s.cfg.opcSync [b0, b1]) ∧
    PeerSends (.rspFlashBegin v b0 b1) s (frame s.cfg.dirResponse s.cfg.opcFlashBegin [b0, b1]) ∧
    PeerSends (.rspFlashData v b0 b1) s (frame s.cfg.dirResponse s.cfg.opcFlashData [b0, b1]) ∧
    PeerSends (.rspFlashEnd v b0 b1) s (frame s.cfg.dirResponse s.cfg.opcFlashEnd [b0, b1])

/-- R84, R85: RECV on a whole frame, after any bytes that hold no 0xC0. It consumes exactly those bytes and that frame,
returns by `dir` and `op` alone, and leaves the value, the length and the first `RESP_BODY_CAP` body bytes. -/
def Obligations.RecvReadsOneFrame : Prop :=
  ∀ (s : State) (op : Byte) (timeout : U32) (g rest : Bytes) (r : Reply), legalConfig s.cfg = true →
    slack s.env ≤ timeout.toNat → Punctual s s.env.now → 0xC0#8 ∉ g → r.sendable → s.env.rxq = g ++ r.wire ++ rest →
    ∃ t, exec (.recv op timeout) s = .next t ∧
      Returned (if r.dir = s.cfg.dirResponse ∧ r.op = op then .success else .responseHeaderError) [] (g ++ r.wire) s t ∧
      t.rx.state = .complete ∧ t.rx.escPending = false ∧ t.rx.expected = op ∧ t.rx.timeout = timeout ∧
      t.rx.hdr.toList = [r.dir, r.op] ++ le16 (BitVec.ofNat 16 r.body.length) ++ le32 r.value ∧ t.rx.hdrIdx = 8 ∧
      t.rx.bodyLen.toNat = r.body.length ∧ t.rx.bodyIdx = t.rx.bodyLen ∧ t.rx.respValue = r.value ∧
      ∀ k, k < s.cfg.respBodyCap → k < r.body.length → byteAt t.rx.respBody k = byteAt r.body k

/-- R84: RECV on everything else. p is what the peer has put between the start marker and the point where the frame
breaks off or goes wrong. -/
def Obligations.RecvOnBrokenFrames : Prop :=
  ∀ (s : State) (op : Byte) (timeout : U32) (g p tail : Bytes), legalConfig s.cfg = true →
    slack s.env ≤ timeout.toNat → Punctual s s.env.now → 0xC0#8 ∉ g →
    (NoMoreBytes s.env → s.env.rxq = g → ∃ t, exec (.recv op timeout) s = .next t ∧ Suspended .recv [] g s t) ∧
    (s.env.rxq = g ++ [0xC0#8] ++ slipEncode p ++ tail →
      let read := g ++ [0xC0#8] ++ slipEncode p
      (Unfinished p →
        (∀ rest, tail = 0xC0#8 :: rest →
          ∃ t, exec (.recv op timeout) s = .next t ∧ Returned .slipFrameError [] (read ++ [0xC0#8]) s t) ∧
        (∀ b rest, tail = 0xDB#8 :: b :: rest → b ≠ 0xDC#8 → b ≠ 0xDD#8 →
          ∃ t, exec (.recv op timeout) s = .next t ∧ Returned .slipDataError [] (read ++ [0xDB#8, b]) s t) ∧
        (NoMoreBytes s.env → tail = [] →
          ∃ t, exec (.recv op timeout) s = .next t ∧ Suspended .recv [] read s t ∧ t.rx.escPending = false) ∧
        (NoMoreBytes s.env → tail = [0xDB#8] →
          ∃ t, exec (.recv op timeout) s = .next t ∧ Suspended .recv [] (read ++ [0xDB#8]) s t ∧
            t.rx.escPending = true)) ∧
      (Whole p →
        (∀ b rest, tail = b :: rest → b ≠ 0xC0#8 →
          ∃ t, exec (.recv op timeout) s = .next t ∧ Returned .slipFrameError [] (read ++ [b]) s t) ∧
        (NoMoreBytes s.env → tail = [] →
          ∃ t, exec (.recv op timeout) s = .next t ∧ Suspended .recv [] read s t)))

/-- R130, R132: how the bytes fall between the calls does not matter. A RECV that suspends on a and is resumed by STEP
when b has come ends as it does on a ++ b at once, but for the history of interface calls. -/
def Obligations.SuspensionIsInvisible : Prop :=
  ∀ (s t : State) (op : Byte) (timeout : U32) (a b : Bytes), legalConfig s.cfg = true → Quiet s → s.env.rxq = a →
    exec (.recv op timeout) s = .next t → t.rx.active = true →
    ∃ u v, exec (.recv op timeout) { s with env := { s.env with rxq := a ++ b } } = .next u ∧
      exec .step { t with env := { t.env with rxq := t.env.rxq ++ b } } = .next v ∧
      v = { u with env := { u.env with events := v.env.events } }

/-- R84, R166 (a): a pending RECV ends with Timeout at the first poll later than its limit, and reads nothing even if a
whole frame stands in `RXQ`. It is resumed by STEP, and whoever called it returns the code. -/
def Obligations.PendingRecvTimesOutFirst : Prop :=
  ∀ (s : State) (op : UnitOp), legalConfig s.cfg = true → s.rx.active = true → s.unitCall = some op →
    op = .recv ∨ op = .cmd ∨ op = .fbegin ∨ op = .fend → Punctual s s.env.stamps.rx → Late s →
    ∃ t, exec .step s = .next t ∧ Returned .timeout [] [] s t

/-- R86: CMD. -/
def Obligations.CmdAnswered : Prop :=
  ∀ (s : State) (op : Byte) (payload : Bytes) (chk timeout : U32), legalConfig s.cfg = true → payload.length ≤ 65535 →
    CommandAnswered (.cmd op payload chk timeout) s op (frameOnWire s.cfg op payload chk) timeout

/-- R110, R115: FBEGIN sends the FlashBegin request, and its response timeout, `rx_timeout`, is the one its size says;
FEND sends the FlashEnd request with the flag inverted, and its timeout is `T_DEFAULT`. -/
def Obligations.FbeginAndFendAnswered : Prop :=
  ∀ s : State, legalConfig s.cfg = true →
    (∀ address totalSize : U32,
      CommandAnswered (.fbegin address totalSize) s s.cfg.opcFlashBegin (flashBeginFrame s.cfg address totalSize)
        (if totalSize.toNat > 0 then s.cfg.tErase else s.cfg.tDefault)) ∧
    (∀ reboot, CommandAnswered (.fend reboot) s s.cfg.opcFlashEnd (flashEndFrame s.cfg (!reboot)) s.cfg.tDefault)

/-- R87: PARSE accepts exactly the frames there are, gives back what they were built from, and names every error. -/
def Obligations.ParseAcceptsExactlyFrames : Prop :=
  (∀ (f : Bytes) (s : State), exec (.parse f) s = .next { s with ret := .parse (parseFrame f) }) ∧
  (∀ f dir op chk body, parseFrame f = .parsed dir op chk body ↔
    body.length ≤ 65535 ∧ f = slipWrapped (hdrBytes dir op (BitVec.ofNat 16 body.length) chk ++ body)) ∧
  (∀ f : Bytes, (∀ t, f ≠ [0xC0#8] ++ t ++ [0xC0#8]) → parseFrame f = .slipFrameError) ∧
  (∀ t : Bytes, slipDecodeAll t = .frameBoundary → parseFrame ([0xC0#8] ++ t ++ [0xC0#8]) = .slipFrameError) ∧
  (∀ t : Bytes, slipDecodeAll t = .badEscape ∨ slipDecodeAll t = .truncated →
    parseFrame ([0xC0#8] ++ t ++ [0xC0#8]) = .slipDataError) ∧
  (∀ p : Bytes, ¬ Whole p → parseFrame (slipWrapped p) = .slipFrameError)

/-- R161, R163, R171 and the frames of RECV, CMD, FBEGIN, FEND: whatever the environment does, each answers a next
state; it has written its one request, awaits (or has awaited) the response to its opcode for its timeout, touched no
register outside the receive machine, and returned one of its codes or suspended. -/
def Obligations.CommandsComplete : Prop :=
  ∀ s : State, legalConfig s.cfg = true → Punctual s s.env.now →
    let ends := fun (i : Instr) (op : UnitOp) (frame : Bytes) (expected : Byte) (timeout : U32) (codes : List ResultCode) =>
      ∃ t read, exec i s = .next t ∧ t.rx.expected = expected ∧ t.rx.timeout = timeout ∧
        ((∃ st ∈ codes, Returned st frame read s t) ∨ Suspended op frame read s t)
    let recvCodes := [ResultCode.success, .timeout, .responseHeaderError, .slipFrameError, .slipDataError]
    (∀ op timeout, ends (.recv op timeout) .recv [] op timeout recvCodes) ∧
    (∀ op payload chk timeout, payload.length ≤ 65535 →
      ends (.cmd op payload chk timeout) .cmd (frameOnWire s.cfg op payload chk) op timeout (.badReply :: recvCodes)) ∧
    (∀ address totalSize, ends (.fbegin address totalSize) .fbegin (flashBeginFrame s.cfg address totalSize)
      s.cfg.opcFlashBegin (if totalSize.toNat > 0 then s.cfg.tErase else s.cfg.tDefault) (.badReply :: recvCodes)) ∧
    (∀ reboot, ends (.fend reboot) .fend (flashEndFrame s.cfg (!reboot)) s.cfg.opcFlashEnd s.cfg.tDefault
      (.badReply :: recvCodes))

/-! ### The Synchronizer -/

/-- R57, R100 to R102, R103 (a), R104, R161, R171: whatever the environment does, SYNC answers a next state, has sent
exactly one Sync request, and has touched nothing but the synchronizer's and the receive machine's registers; while it
waits, its limit is its operand, and in the flush `T_DEFAULT`. -/
def Obligations.SyncSendsOneRequest : Prop :=
  ∀ (s : State) (timeout : U32), legalConfig s.cfg = true → Punctual s s.env.now →
    ∃ t read, exec (.sync timeout) s = .next t ∧ Exchanged (syncFrame s.cfg) read s.env t.env ∧
      { t with rx := s.rx, env := s.env, ret := s.ret, unitCall := s.unitCall, syncPhase := s.syncPhase,
               syncExtra := s.syncExtra, syncStatus := s.syncStatus } = s ∧
      ((t.ret = .inProgress (percent s) ∧ t.rx.active = true ∧ t.unitCall = some .sync ∧ t.syncPhase ≠ .idle ∧
          t.rx.expected = s.cfg.opcSync ∧ t.rx.timeout = if t.syncPhase = .flush then s.cfg.tDefault else timeout) ∨
        (t.rx.active = false ∧ t.unitCall = none ∧ t.syncPhase = .idle ∧
          ∃ st ∈ [ResultCode.success, .timeout, .badReply, .responseHeaderError, .slipFrameError, .slipDataError],
            t.ret = .code st))

/-- R100 to R102: up to ten responses that do not match are read past, then a Sync response ends the attempt with
Success (its body is two bytes, if it is the first); then two-byte Sync responses are drained, until something else. -/
def Obligations.SyncSucceedsPastStrays : Prop :=
  ∀ (s : State) (timeout : U32) (strays flushed : List Reply) (found last : Reply) (rest : Bytes),
    legalConfig s.cfg = true → slack s.env ≤ timeout.toNat → slack s.env ≤ s.cfg.tDefault.toNat →
    Punctual s s.env.now → (∀ r ∈ strays, r.sendable ∧ ¬ r.answers s.cfg s.cfg.opcSync) → strays.length ≤ 10 →
    found.sendable → found.answers s.cfg s.cfg.opcSync → (strays = [] → found.body.length = 2) →
    (∀ r ∈ flushed, r.accepted s.cfg s.cfg.opcSync) →
    last.sendable → ¬ last.accepted s.cfg s.cfg.opcSync →
    let read := strays.flatMap Reply.wire ++ found.wire ++ flushed.flatMap Reply.wire ++ last.wire
    s.env.rxq = read ++ rest →
    ∃ t, exec (.sync timeout) s = .next t ∧ t.ret = .code .success ∧ t.syncPhase = .idle ∧
      t.syncExtra = strays.length ∧ t.syncStatus = .success ∧ t.rx.active = false ∧
      Exchanged (syncFrame s.cfg) read s.env t.env

/-- R101: eleven responses that do not match end the attempt; so does, at once, a Sync response of the wrong length that
comes first. The bytes after them stay in `RXQ`. -/
def Obligations.SyncFails : Prop :=
  ∀ (s : State) (timeout : U32) (rest : Bytes), legalConfig s.cfg = true → slack s.env ≤ timeout.toNat →
    Punctual s s.env.now →
    (∀ strays : List Reply, strays.length = 11 → (∀ r ∈ strays, r.sendable ∧ ¬ r.answers s.cfg s.cfg.opcSync) →
      s.env.rxq = strays.flatMap Reply.wire ++ rest →
      ∃ t, exec (.sync timeout) s = .next t ∧ t.ret = .code .responseHeaderError ∧ t.syncPhase = .idle ∧
        t.syncExtra = 10 ∧ t.rx.active = false ∧ Exchanged (syncFrame s.cfg) (strays.flatMap Reply.wire) s.env t.env) ∧
    (∀ first : Reply, first.sendable → first.answers s.cfg s.cfg.opcSync → first.body.length ≠ 2 →
      s.env.rxq = first.wire ++ rest →
      ∃ t, exec (.sync timeout) s = .next t ∧ t.ret = .code .badReply ∧ t.syncPhase = .idle ∧
        t.syncExtra = 0 ∧ t.rx.active = false ∧ Exchanged (syncFrame s.cfg) first.wire s.env t.env)

/-- R102, R103 (c): a pending SYNC that runs into its timeout. Before the flush it returns Timeout and reads no more;
in the flush, the timeout ends the flush and SYNC returns the code it had. -/
def Obligations.PendingSyncTimesOut : Prop :=
  ∀ s : State, legalConfig s.cfg = true → s.rx.active = true → s.unitCall = some .sync → s.syncPhase ≠ .idle →
    Punctual s s.env.stamps.rx → Late s →
    ∃ t, exec .step s = .next t ∧
      t.ret = .code (if s.syncPhase = .flush then s.syncStatus else .timeout) ∧ t.syncPhase = .idle ∧
      t.rx.active = false ∧ t.unitCall = none ∧ t.syncStatus = s.syncStatus ∧ Exchanged [] [] s.env t.env ∧
      t.syncExtra = (match s.syncPhase with | .first => 0 | .extra => s.syncExtra + 1 | _ => s.syncExtra)

/-! ### The Flash Sequencer -/

/-- R111: the block counts and the aligned address in the FlashBegin request. -/
def Obligations.FlashBeginBlockCounts : Prop :=
  ∀ (s : State) (address : U32) (p : Nat × Nat), legalConfig s.cfg = true → Punctual s s.env.now →
    p ∈ [(0, 0), (1, 1), (1024, 1), (1025, 2), (2048, 2)] →
    ∃ t, exec (.fbegin address (BitVec.ofNat 32 p.1)) s = .next t ∧
      t.env.txs = s.env.txs ++ slipWrapped ([s.cfg.dirRequest, s.cfg.opcFlashBegin, 16#8, 0#8, 0#8, 0#8, 0#8, 0#8] ++
        le32 (BitVec.ofNat 32 p.1) ++ le32 (BitVec.ofNat 32 p.2) ++ le32 1024#32 ++
        le32 (BitVec.ofNat 32 (address.toNat / 1024 * 1024)))

/-- R112, R113: what FDATA makes of the block buffer: the patch, written out (at index 0 and address 0, when the first
byte is the image magic and the mask is not 0, the two little-endian bytes at offset 2 become `(v & ~mask) | val`), the
checksum over the 1024 bytes as they will be sent, the body header; every other register but the receive machine's
stays. `patchedData`, in which the other statements say it, is this patch. -/
def Obligations.FdataPreparesTheBlock : Prop :=
  ∀ (s : State) (idx : U32) (val mask : U16), legalConfig s.cfg = true → Memory.wf s.blk = true → Punctual s s.env.now →
    let old := fun a : Nat => Memory.read s.blk (16 + a)
    let patched : Bool := idx == 0#32 && s.session.targetAddr == 0#32 && old 0 == s.cfg.imageMagic && mask != 0#16
    let v : U16 := old 3 ++ old 2
    let v' : U16 := (v &&& ~~~mask) ||| val
    let new := fun a : Nat =>
      if patched = true ∧ a = 2 then v'.extractLsb' 0 8 else if patched = true ∧ a = 3 then v'.extractLsb' 8 8 else old a
    (List.range 1024).map new = patchedData s.cfg idx s.session.targetAddr val mask (blockData s.blk) ∧
    ∃ t, exec (.fdata idx val mask) s = .next t ∧
      t.chk8 = ((List.range 1024).map new).foldl (fun c b => c ^^^ b) 0xEF#8 ∧
      (∀ a, Memory.read t.blk a =
        if a < 16 then byteAt (le32 1024#32 ++ le32 idx ++ le32 0#32 ++ le32 0#32) a
        else if a < 1040 then new (a - 16) else Memory.read s.blk a) ∧
      Memory.wf t.blk = true ∧
      { t with rx := s.rx, env := s.env, ret := s.ret, unitCall := s.unitCall, blk := s.blk, chk8 := s.chk8,
               blkAttempt := s.blkAttempt } = s ∧
      SameLines s.env t.env

/-- R114, R171: the attempts. Whatever the environment does, FDATA has sent one to three copies of one frame
(`blk_attempt` of them, the block's data after the patch under their own checksum), and it returns a failure only after
three; each attempt waits `T_BLOCK`. Resumed by STEP, it goes on with copies of the same frame. -/
def Obligations.FdataSendsTheSameFrame : Prop :=
  (∀ (s : State) (idx : U32) (val mask : U16), legalConfig s.cfg = true → Memory.wf s.blk = true → Punctual s s.env.now →
    ∃ t read, exec (.fdata idx val mask) s = .next t ∧ 1 ≤ t.blkAttempt ∧ t.blkAttempt ≤ 3 ∧
      Exchanged (copies t.blkAttempt
        (dataFrame s.cfg idx (patchedData s.cfg idx s.session.targetAddr val mask (blockData s.blk)))) read s.env t.env ∧
      t.rx.expected = s.cfg.opcFlashData ∧ t.rx.timeout = s.cfg.tBlock ∧
      ((t.ret = .inProgress (percent s) ∧ t.rx.active = true ∧ t.unitCall = some .fdata) ∨
        (t.rx.active = false ∧ t.unitCall = none ∧ (t.ret = .code .success ∨
          t.blkAttempt = 3 ∧ ∃ st ∈ [ResultCode.timeout, .badReply, .responseHeaderError, .slipFrameError, .slipDataError],
            t.ret = .code st)))) ∧
  (∀ s : State, legalConfig s.cfg = true → RegisterInv s → s.rx.active = true → s.unitCall = some .fdata →
    Punctual s s.env.stamps.rx →
    ∃ t read, exec .step s = .next t ∧ s.blkAttempt ≤ t.blkAttempt ∧ t.blkAttempt ≤ 3 ∧
      { t with rx := s.rx, env := s.env, ret := s.ret, unitCall := s.unitCall, blkAttempt := s.blkAttempt } = s ∧
      Exchanged (copies (t.blkAttempt - s.blkAttempt)
        (frameOnWire s.cfg s.cfg.opcFlashData (blockBody s.blk) (zext32 s.chk8))) read s.env t.env ∧
      (s.blkAttempt < t.blkAttempt → t.rx.expected = s.cfg.opcFlashData ∧ t.rx.timeout = s.cfg.tBlock) ∧
      (t.rx.active = true ∨ t.ret = .code .success ∨ t.blkAttempt = 3))

/-- R112, R114: FDATA on replies that stand in `RXQ`: each failure costs one attempt, the first accepted response ends
it with Success, the third failure with its own code. -/
def Obligations.FdataAnswered : Prop :=
  ∀ (s : State) (idx : U32) (val mask : U16) (failed : List Reply) (r : Reply) (rest : Bytes), legalConfig s.cfg = true →
    Memory.wf s.blk = true → slack s.env ≤ s.cfg.tBlock.toNat → Punctual s s.env.now →
    (∀ f ∈ failed, f.sendable ∧ ¬ f.accepted s.cfg s.cfg.opcFlashData) → failed.length ≤ 2 → r.sendable →
    (r.accepted s.cfg s.cfg.opcFlashData ∨ failed.length = 2) →
    let read := failed.flatMap Reply.wire ++ r.wire
    s.env.rxq = read ++ rest →
    ∃ t, exec (.fdata idx val mask) s = .next t ∧ t.ret = .code (r.code s.cfg s.cfg.opcFlashData) ∧
      t.blkAttempt = failed.length + 1 ∧ t.rx.active = false ∧ t.unitCall = none ∧
      Exchanged (copies (failed.length + 1)
        (dataFrame s.cfg idx (patchedData s.cfg idx s.session.targetAddr val mask (blockData s.blk)))) read s.env t.env

/-! ### The Upload Orchestrator -/

/-- R131: BEGIN_UPLOAD, in the two states where it is legal, and its refusal in the other four. That it also forgets an
operation called by itself that was still waiting (`unitCall`) is the model's choice (log 12). -/
def Obligations.BeginUploadStartsASession : Prop :=
  ∀ (s : State) (image : ImageSource) (addr : U32), legalConfig s.cfg = true →
    let e := { s.env.turn with img := image, events := s.env.events ++ [.imgSize image.size] }
    (s.orch = .idle ∨ s.orch = .done →
      (image.size = 0#32 → exec (.beginUpload image addr) s = .next { s with
        session := { s.session with result := .emptyFile, resultValid := true }, orch := .idle, env := e
        ret := .failed .emptyFile }) ∧
      (image.size ≠ 0#32 → exec (.beginUpload image addr) s = .next { s with
        session := { imageSize := image.size, targetAddr := addr, blockIdx := 0#32, baudAttempt := 0#32
                     resetAttempt := 0#32, lastAttempt := s.session.lastAttempt, lastReset := s.session.lastReset
                     result := .success, nextReport := BitVec.ofNat 32 s.cfg.pctStep, resultValid := false }
        blkAttempt := 0, syncPhase := .idle
        rx := { s.rx with active := false, escPending := false, state := .awaitingStart }
        orch := .resetting, env := e, ret := .started, unitCall := none })) ∧
    (¬ (s.orch = .idle ∨ s.orch = .done) → exec (.beginUpload image addr) s = .refused .sessionInProgress)

/-- R133, R139, R165: STEP where no session runs and no RECV is pending (an operation called by itself that waits goes on
first, `PendingRecvTimesOutFirst`; log 12). In `done` it returns the frozen result, in `idle` the refused image's, which
is EmptyFile in every state that meets the invariant; it changes nothing and calls nothing. In `idle` after no
BEGIN_UPLOAD it is refused (U2). -/
def Obligations.StepOutsideASession : Prop :=
  ∀ s : State, legalConfig s.cfg = true → s.rx.active = false →
    (s.orch = .done → exec .step s = .next { s with ret := .done s.session.result }) ∧
    (s.orch = .idle → s.session.resultValid = true → exec .step s = .next { s with ret := .done s.session.result }) ∧
    (RegisterInv s → s.orch = .idle → s.session.resultValid = true →
      exec .step s = .next { s with ret := .done .emptyFile }) ∧
    (s.orch = .idle → s.session.resultValid = false → exec .step s = .refused .noSession)

/-- R134: STEP in `resetting`: the baud rate of the attempt, or the end of the list. -/
def Obligations.StepInResetting : Prop :=
  ∀ s : State, legalConfig s.cfg = true → s.rx.active = false → s.orch = .resetting →
    let n := s.session.baudAttempt + 1#32
    let k := (n.toNat - 1) / s.cfg.retriesPerBaud
    (s.cfg.baudList.length ≤ k → exec .step s = .next { s with
      session := { s.session with baudAttempt := n, result := .connectFailed, resultValid := true }
      env := s.env.imgRelease.gpioLeave, syncPhase := .idle, orch := .done, ret := .done .connectFailed }) ∧
    (∀ baud, s.cfg.baudList[k]? = some baud → ∃ t, exec .step s = .next t ∧
      t.session = { s.session with baudAttempt := n, resetAttempt := 0#32, lastReset := t.env.now % 2 ^ s.cfg.clkW
                                   lastAttempt := t.env.now % 2 ^ s.cfg.clkW } ∧
      t.orch = .connecting ∧ t.ret = .inProgress 0 ∧
      { t with session := s.session, orch := s.orch, ret := s.ret, env := s.env } = s ∧
      t.env.baud = some baud ∧ t.env.gpio = some .upload ∧ t.env.txs = s.env.txs ∧ t.env.img = s.env.img ∧
      t.env.rxq = ((s.env.script.drop 1).take 2).flatMap EnvAct.rx ∧ t.env.script = s.env.script.drop 3 ∧
      t.env.events = s.env.events ++ [.reopen baud, .gpioEnter, .now (t.env.now % 2 ^ s.cfg.clkW)])

/-- R135, R171: STEP in `connecting` waits for both intervals. When they are over it sends one Sync request; whatever the
environment does then, SYNC is pending with 5000 ms as its limit (in the flush `T_DEFAULT`), or has passed, or has been
counted as failed; and so it is for a STEP that resumes it. A Sync response with what ends the flush after it takes the
session to `erasing`, and so does the flush's own end, a Timeout (R102). -/
def Obligations.StepInConnecting : Prop :=
  ∀ s : State, legalConfig s.cfg = true → s.orch = .connecting →
    let now := s.env.turn.now
    let gate := 50 ≤ elapsed s.cfg.clkW now s.session.lastAttempt ∧ 500 ≤ elapsed s.cfg.clkW now s.session.lastReset
    (s.rx.active = false → Punctual s s.env.stamps.attempt → Punctual s s.env.stamps.reset →
      (¬ gate → exec .step s = .next { s with
        env := (s.env.readClock s.cfg.clkW).2, unitCall := none, ret := .inProgress 0 }) ∧
      (gate → ∃ t read, exec .step s = .next t ∧ ConnectingStep (syncFrame s.cfg) read s t ∧
        (SyncPending s t ∨ SyncPassed s t ∨ SyncCounted s t)) ∧
      (gate → ∀ (found last : Reply) (rest : Bytes), slack s.env ≤ 5000 → slack s.env ≤ s.cfg.tDefault.toNat →
        found.accepted s.cfg s.cfg.opcSync → last.sendable → ¬ last.accepted s.cfg s.cfg.opcSync →
        s.env.rxq = found.wire ++ last.wire ++ rest →
        ∃ t, exec .step s = .next t ∧ ConnectingStep (syncFrame s.cfg) (found.wire ++ last.wire) s t ∧
          SyncPassed s t)) ∧
    (s.rx.active = true → s.unitCall = none → RegisterInv s → Punctual s s.env.stamps.rx →
      (∃ t read, exec .step s = .next t ∧ ConnectingStep [] read s t ∧
        (SyncPending s t ∨ SyncPassed s t ∨ SyncCounted s t)) ∧
      (s.syncPhase = .flush → Late s →
        ∃ t, exec .step s = .next t ∧ ConnectingStep [] [] s t ∧ SyncPassed s t))

/-- R135, R101, R164: a failed SYNC is counted, at the last of the allowed number the session goes back to `resetting`,
and the code is dropped. Every way the attempt fails: a first response of the wrong length; eleven responses that do not
match; a first response that breaks off, or goes on, where its length does not say, or holds a bad escape; and the
timeout of a pending read. -/
def Obligations.FailedSyncIsCounted : Prop :=
  ∀ s : State, legalConfig s.cfg = true → s.orch = .connecting →
    (s.rx.active = false → 50 ≤ elapsed s.cfg.clkW s.env.turn.now s.session.lastAttempt →
      500 ≤ elapsed s.cfg.clkW s.env.turn.now s.session.lastReset → Punctual s s.env.stamps.attempt →
      Punctual s s.env.stamps.reset → slack s.env ≤ 5000 →
      let fails := fun (read : Bytes) =>
        ∃ t, exec .step s = .next t ∧ ConnectingStep (syncFrame s.cfg) read s t ∧ SyncCounted s t
      (∀ (r : Reply) (rest : Bytes), r.sendable → r.answers s.cfg s.cfg.opcSync → r.body.length ≠ 2 →
        s.env.rxq = r.wire ++ rest → fails r.wire) ∧
      (∀ (strays : List Reply) (rest : Bytes), strays.length = 11 →
        (∀ r ∈ strays, r.sendable ∧ ¬ r.answers s.cfg s.cfg.opcSync) → s.env.rxq = strays.flatMap Reply.wire ++ rest →
        fails (strays.flatMap Reply.wire)) ∧
      (∀ (g p tail : Bytes), 0xC0#8 ∉ g → s.env.rxq = g ++ [0xC0#8] ++ slipEncode p ++ tail →
        let read := g ++ [0xC0#8] ++ slipEncode p
        (∀ rest, Unfinished p → tail = 0xC0#8 :: rest → fails (read ++ [0xC0#8])) ∧
        (∀ b rest, Unfinished p → tail = 0xDB#8 :: b :: rest → b ≠ 0xDC#8 → b ≠ 0xDD#8 → fails (read ++ [0xDB#8, b])) ∧
        (∀ b rest, Whole p → tail = b :: rest → b ≠ 0xC0#8 → fails (read ++ [b])))) ∧
    (s.rx.active = true → s.unitCall = none → s.syncPhase = .first ∨ s.syncPhase = .extra →
      Punctual s s.env.stamps.rx → Late s →
      ∃ t, exec .step s = .next t ∧ ConnectingStep [] [] s t ∧ SyncCounted s t)

/-- R137: the two named erase sizes as numbers, and where the first has none. Of the open function nothing is said, but
that it gives a size. -/
def Obligations.EraseSizeByTheConfiguration : Prop :=
  ∀ (c : Config) (size addr : U32), 1 ≤ c.sectorSize → c.sectorSize ≤ 2 ^ 32 →
    (c.eraseFn = .eraseCover →
      (size.toNat + c.sectorSize ≤ 2 ^ 32 → ∃ es, eraseSize c size addr = some es ∧ c.sectorSize ∣ es.toNat ∧
        size.toNat ≤ es.toNat ∧ es.toNat < size.toNat + c.sectorSize) ∧
      (2 ^ 32 < size.toNat + c.sectorSize → eraseSize c size addr = none)) ∧
    (c.eraseFn = .eraseRomWorkaround → c.sectorSize = 4096 →
      let num := (size.toNat + 4095) / 4096
      let head := min (16 - addr.toNat / 4096 % 16) num
      ∃ es, eraseSize c size addr = some es ∧
        es.toNat = if num < 2 * head then (num + 1) / 2 * 4096 else (num - head) * 4096) ∧
    (c.eraseFn = .unspecified → ∃ es, eraseSize c size addr = some es)

/-- R136, R163, R171: STEP in `erasing` sends FlashBegin for the erase size of the configuration, with the timeout that
size says; what FBEGIN returns decides between `uploading` and the end of the session. Whatever the environment does, it
answers a next state, pending or ended; the answer's code is CMD's. A STEP that resumes the pending RECV ends it with
the answer's code too, and, when it is late, the session with Timeout. -/
def Obligations.StepInErasing : Prop :=
  ∀ s : State, legalConfig s.cfg = true → s.orch = .erasing →
    (∀ es : U32, s.rx.active = false → eraseSize s.cfg s.session.imageSize s.session.targetAddr = some es →
      Punctual s s.env.now →
      let limit := if es.toNat > 0 then s.cfg.tErase else s.cfg.tDefault
      let sent := s.env.txs ++ flashBeginFrame s.cfg s.session.targetAddr es
      (∃ t, exec .step s = .next t ∧ t.env.txs = sent ∧
        ((t.rx.active = true ∧ t.orch = .erasing ∧ t.session = s.session ∧ t.ret = .inProgress 0 ∧ t.unitCall = none ∧
            t.rx.expected = s.cfg.opcFlashBegin ∧ t.rx.timeout = limit) ∨
          ∃ st ∈ [ResultCode.success, .timeout, .badReply, .responseHeaderError, .slipFrameError, .slipDataError],
            EraseEnded st s t)) ∧
      (∀ (g rest : Bytes) (r : Reply), slack s.env ≤ limit.toNat → 0xC0#8 ∉ g → r.sendable →
        s.env.rxq = g ++ r.wire ++ rest →
        ∃ t, exec .step s = .next t ∧ t.env.txs = sent ∧ EraseEnded (r.code s.cfg s.cfg.opcFlashBegin) s t)) ∧
    (s.rx.active = true → s.unitCall = none → Punctual s s.env.stamps.rx →
      (∀ (g rest : Bytes) (r : Reply), Waiting s → InTime s → 0xC0#8 ∉ g → r.sendable → s.env.rxq = g ++ r.wire ++ rest →
        ∃ t, exec .step s = .next t ∧ t.env.txs = s.env.txs ∧ EraseEnded (r.code s.cfg s.rx.expected) s t) ∧
      (Late s → ∃ t, exec .step s = .next t ∧ EraseEnded .timeout s t ∧
        t.env.events = s.env.events ++ [.now (s.env.turn.now % 2 ^ s.cfg.clkW), .imgRelease, .gpioLeave]))

/-- R138, R114, R163, R171: STEP in `uploading` where no block gets through: the interval not over; an image that gives
too little; three responses that are not accepted, in one STEP, which end the session with the third's code; and a
pending RECV that is late, which costs an attempt: the block is sent again, or, after the third, the session ends with
Timeout. -/
def Obligations.StepInUploadingWaitsOrFails : Prop :=
  ∀ s : State, legalConfig s.cfg = true → s.orch = .uploading →
    let now := s.env.turn.now
    let off := s.session.blockIdx.toNat * 1024
    let got := (s.env.img.data.drop off).take 1024
    let want := min 1024 (s.session.imageSize.toNat - off)
    (s.rx.active = false → Punctual s s.env.stamps.attempt →
      (elapsed s.cfg.clkW now s.session.lastAttempt < 15 → exec .step s = .next { s with
        env := (s.env.readClock s.cfg.clkW).2, unitCall := none
        ret := .inProgress (100 * s.session.blockIdx.toNat / ((s.session.imageSize.toNat + 1023) / 1024)) }) ∧
      (15 ≤ elapsed s.cfg.clkW now s.session.lastAttempt → got.length ≠ want →
        ∃ t, exec .step s = .next t ∧ t.orch = .done ∧ t.ret = .done .fileReadError ∧
          t.session = { s.session with result := .fileReadError, resultValid := true } ∧
          t.env.txs = s.env.txs ∧ t.env.gpio = some .run ∧ t.blk = s.blk ∧
          t.env.events = s.env.events ++
            [.now (now % 2 ^ s.cfg.clkW), .imgRead off 1024 got.length, .imgRelease, .gpioLeave]) ∧
      (15 ≤ elapsed s.cfg.clkW now s.session.lastAttempt → got.length = want → Memory.wf s.blk = true →
        slack s.env ≤ s.cfg.tBlock.toNat →
        ∀ (f1 f2 f3 : Reply) (rest : Bytes),
          (∀ f ∈ [f1, f2, f3], f.sendable ∧ ¬ f.accepted s.cfg s.cfg.opcFlashData) →
          s.env.rxq = f1.wire ++ f2.wire ++ f3.wire ++ rest →
          ∃ t, exec .step s = .next t ∧ BlockFailed (f3.code s.cfg s.cfg.opcFlashData) s t ∧
            t.env.txs = s.env.txs ++ copies 3 (dataFrame s.cfg s.session.blockIdx
              (patchedData s.cfg s.session.blockIdx s.session.targetAddr s.cfg.parmVal s.cfg.parmMask
                (got ++ List.replicate (1024 - got.length) 0x00#8))))) ∧
    (s.rx.active = true → s.unitCall = none → Punctual s s.env.stamps.rx → Late s →
      (s.blkAttempt < 3 → s.env.rxq = [] → NoMoreBytes s.env → slack s.env ≤ s.cfg.tBlock.toNat →
        ∃ t, exec .step s = .next t ∧ t.rx.active = true ∧ t.orch = .uploading ∧ t.session = s.session ∧
          t.ret = .inProgress (percent s) ∧ t.blkAttempt = s.blkAttempt + 1 ∧ t.blk = s.blk ∧ t.chk8 = s.chk8 ∧
          t.rx.expected = s.cfg.opcFlashData ∧ t.rx.timeout = s.cfg.tBlock ∧
          Exchanged (frameOnWire s.cfg s.cfg.opcFlashData (blockBody s.blk) (zext32 s.chk8)) [] s.env t.env) ∧
      (s.blkAttempt = 3 → ∃ t, exec .step s = .next t ∧ BlockFailed .timeout s t ∧ t.env.txs = s.env.txs))

/-- R138, R197, D25: STEP in `uploading` sends the next block of the image, zero-padded; when the response is there, in
this STEP or in one that resumes the pending RECV, `last_attempt` is the clock's reading after it, the index advances, the
report is made at its granularity, the last block ends the session, and the other session registers stay. While it
waits, its limit is `T_BLOCK`. -/
def Obligations.StepInUploadingSendsTheBlock : Prop :=
  ∀ s : State, legalConfig s.cfg = true → s.orch = .uploading →
    s.session.blockIdx.toNat < (s.session.imageSize.toNat + 1023) / 1024 →
    (s.rx.active = false → Memory.wf s.blk = true → Punctual s s.env.stamps.attempt →
      15 ≤ elapsed s.cfg.clkW s.env.turn.now s.session.lastAttempt →
      let off := s.session.blockIdx.toNat * 1024
      let got := (s.env.img.data.drop off).take 1024
      got.length = min 1024 (s.session.imageSize.toNat - off) → slack s.env ≤ s.cfg.tBlock.toNat →
      let data := patchedData s.cfg s.session.blockIdx s.session.targetAddr s.cfg.parmVal s.cfg.parmMask
        (got ++ List.replicate (1024 - got.length) 0x00#8)
      let sends := fun (t : State) => t.blkAttempt = 1 ∧
        t.env.txs = s.env.txs ++ dataFrame s.cfg s.session.blockIdx data ∧ blockData t.blk = data ∧
        t.chk8 = chkFold data ∧ Memory.wf t.blk = true
      (∀ (r : Reply) (rest : Bytes), r.accepted s.cfg s.cfg.opcFlashData → s.env.rxq = r.wire ++ rest →
        ∃ t, exec .step s = .next t ∧ sends t ∧ BlockSent s t) ∧
      (s.env.rxq = [] → NoMoreBytes s.env →
        ∃ t, exec .step s = .next t ∧ sends t ∧ t.rx.active = true ∧ t.unitCall = none ∧ t.orch = .uploading ∧
          t.session = s.session ∧ t.ret = .inProgress (percent s) ∧ t.rx.expected = s.cfg.opcFlashData ∧
          t.rx.timeout = s.cfg.tBlock)) ∧
    (s.rx.active = true → s.unitCall = none → Punctual s s.env.stamps.rx → Waiting s → InTime s →
      ∀ (r : Reply) (rest : Bytes), r.accepted s.cfg s.rx.expected → s.env.rxq = r.wire ++ rest →
        ∃ t, exec .step s = .next t ∧ t.env.txs = s.env.txs ∧ t.blk = s.blk ∧ t.chk8 = s.chk8 ∧
          t.blkAttempt = s.blkAttempt ∧ BlockSent s t)

/-- R139, R165: the fatal path. Every STEP that enters `done` has written the result and made it valid, ended the
pending RECV and SYNC, released the image and restored the lines, in this order and as its last calls, and returns the
result. -/
def Obligations.DoneIsEnteredByFinish : Prop :=
  ∀ s t : State, exec .step s = .next t → s.orch ≠ .done → t.orch = .done →
    t.session.resultValid = true ∧ t.ret = .done t.session.result ∧ t.rx.active = false ∧ t.syncPhase = .idle ∧
    t.env.gpio = some .run ∧ ∃ calls, t.env.events = s.env.events ++ calls ++ [.imgRelease, .gpioLeave]

/-- R140: the transitions of `orch_state`: STEP takes an edge of the table or stays, BEGIN_UPLOAD goes where R131 says,
and nothing else changes it. -/
def Obligations.OrchestratorTakesTheEdges : Prop :=
  ∀ (i : Instr) (s t : State), exec i s = .next t →
    match i with
    | .step => t.orch = s.orch ∨ stepEdge s.orch t.orch = true
    | .beginUpload image _ =>
      (s.orch = .idle ∨ s.orch = .done) ∧ t.orch = if image.size = 0#32 then .idle else .resetting
    | _ => t.orch = s.orch

/-- The invariant of the registers is kept by every step (R13 to R15, R101, R114, R131, R138, R139, R171, R174). -/
def Obligations.InvariantKept : Prop :=
  ∀ s t : State, RegisterInv s → step s = .next t → RegisterInv t

/-- It holds after reset. That it does rests on values log 5 chooses where R25 leaves them open: `result` Success (not
SlipStateError), an empty buffer, a `resp_body` of zeros, the synchronizer's and the flash sequencer's counts 0. -/
def Obligations.InvariantAtReset : Prop := RegisterInv State.reset

/-- R25, R190: the values reset gives, and `TXS`, which starts empty (R191). The registers R25 leaves unspecified hold
the model's choice (log 5) and are not spoken of here. -/
def Obligations.ResetValues : Prop :=
  State.reset.orch = .idle ∧ State.reset.session.resultValid = false ∧ State.reset.rx.active = false ∧
  State.reset.rx.escPending = false ∧ State.reset.syncPhase = .idle ∧ State.reset.rx.state = .awaitingStart ∧
  State.reset.env.txs = [] ∧ State.reset.env.events = []

/-- R20, R31, R10: histories only grow, the environment's future is only consumed, and no instruction changes the
configuration or, running, the port. -/
def Obligations.HistoriesOnlyGrow : Prop :=
  ∀ (i : Instr) (s t : State), exec i s = .next t →
    (∃ sent, t.env.txs = s.env.txs ++ sent) ∧ (∃ calls, t.env.events = s.env.events ++ calls) ∧
    (∃ k, t.env.script = s.env.script.drop k ∧ t.env.now = s.env.now + ((s.env.script.take k).map EnvAct.ms).sum) ∧
    t.cfg = s.cfg ∧ t.port = s.port

/-- R170: who may write what. Session registers: BEGIN_UPLOAD and STEP. The lines and the baud rate: STEP, in
`resetting` or into `done`. The image source: BEGIN_UPLOAD. The block buffer and its checksum: FDATA and STEP. -/
def Obligations.OwnersAloneWrite : Prop :=
  ∀ (i : Instr) (s t : State), exec i s = .next t →
    (t.session ≠ s.session → i = .step ∨ ∃ image addr, i = .beginUpload image addr) ∧
    (t.env.baud ≠ s.env.baud → i = .step ∧ s.orch = .resetting) ∧
    (t.env.gpio ≠ s.env.gpio → i = .step ∧ (s.orch = .resetting ∨ s.orch ≠ .done ∧ t.orch = .done)) ∧
    (t.env.img ≠ s.env.img → ∃ image addr, i = .beginUpload image addr) ∧
    (t.blk ≠ s.blk ∨ t.chk8 ≠ s.chk8 → i = .step ∨ ∃ idx val mask, i = .fdata idx val mask)

/-- R19: `percent` is the share of blocks sent while `uploading`, never above 100, and 0 in `resetting`, `connecting` and
`erasing`. That it is 0 in `idle` and `done` too, where an operation called by itself waits, is the model's choice
(log 12). -/
def Obligations.PercentIsAShare : Prop :=
  ∀ (s t : State) (p : Nat), RegisterInv s → exec .step s = .next t → t.ret = .inProgress p →
    p ≤ 100 ∧ (t.orch = .uploading →
      p = 100 * t.session.blockIdx.toNat / ((t.session.imageSize.toNat + 1023) / 1024)) ∧
    (t.orch ≠ .uploading → p = 0)

/-- R174: elapsed time is the difference of two `CLK_W`-bit readings modulo 2^`CLK_W`; it is the true time while that is
below 2^`CLK_W`; a timeout fires above its limit, an interval is met at it; and `Now()` answers the clock's `CLK_W` bits. -/
def Obligations.ElapsedIsModular : Prop :=
  (∀ (w : Nat) (t t0 : BitVec w), elapsed w t.toNat t0.toNat = (t - t0).toNat) ∧
  (∀ w t0 n : Nat, n < 2 ^ w → elapsed w ((t0 + n) % 2 ^ w) (t0 % 2 ^ w) = n) ∧
  (∀ (w t t0 : Nat) (limit : U32), timedOut w t t0 limit = true ↔ limit.toNat < elapsed w t t0) ∧
  (∀ w t t0 limit : Nat, intervalMet w t t0 limit = true ↔ limit ≤ elapsed w t t0) ∧
  (∀ (w : Nat) (e : Env), (e.readClock w).1 = e.turn.now % 2 ^ w ∧ (e.readClock w).2.now = e.turn.now)

/-- U1, U9, U12, U15, R4: BEGIN_UPLOAD in a session is refused, so is the block outside R4's constraints (written out), so
is a timestamp tested too late, and an erase size that does not fit, each under its own name (U2 stands in
`StepOutsideASession`). The model's choices, not the spec's: that `BODY_WORD` is 4 (log 20); that the codec's and the pure
operations, which read no configuration, complete outside the constraints, where R4 says "the block is refused" and names
no exception (log 15); that "too late" is 2^`CLK_W` ms or more where U12 says more than 2^32 - 1, and that STEP in
`connecting` tests `last_reset` and `last_attempt` both, whichever interval decides (log 29); that a body longer than the
65535 bytes of R54 is refused, by SEND, CMD and the frame rows (log 24). -/
def Obligations.RefusalsAreTheSpecs : Prop :=
  (∀ c : Config, legalConfig c = true ↔
    c.baudList ≠ [] ∧ c.baudList.Pairwise (fun a b => b < a) ∧ c.bodyWord = 4 ∧
    1 ≤ c.retriesPerBaud ∧ 1 ≤ c.retriesPerReset ∧ 1 ≤ c.pctStep ∧ c.pctStep ≤ 100 ∧
    [0#8, c.opcFlashBegin, c.opcFlashData, c.opcFlashEnd, c.opcMemBegin, c.opcMemEnd, c.opcMemData, c.opcSync,
      c.opcWriteReg, c.opcReadReg].Nodup ∧
    c.dirResponse ≠ c.dirRequest ∧
    ∀ b ∈ c.dirRequest :: c.opcSync :: c.syncFill :: c.syncMarker.toList, b ≠ 0xC0#8 ∧ b ≠ 0xDB#8) ∧
  (∀ (i : Instr) (s : State), legalConfig s.cfg = false →
    match i with
    | .slipEnd | .slipEscEnd | .slipEscEsc | .slipEscBad _ | .slipLit _ | .slipEnc _ | .slipWrap _ | .slipRawwrap _
    | .slipDec | .slipDecall _ | .chk _ | .hdr _ _ _ _ | .parse _ => ∃ t, exec i s = .next t
    | _ => exec i s = .refused .illegalConfiguration) ∧
  ∀ s : State, legalConfig s.cfg = true →
    (inSession s.orch = true → ∀ image addr, exec (.beginUpload image addr) s = .refused .sessionInProgress) ∧
    (s.rx.active = true → callerOf s ≠ none → 2 ^ s.cfg.clkW ≤ s.env.turn.now - s.env.stamps.rx →
      exec .step s = .refused .clockOverrun) ∧
    (s.rx.active = false → s.orch = .connecting ∨ s.orch = .uploading →
      2 ^ s.cfg.clkW ≤ s.env.turn.now - s.env.stamps.attempt → exec .step s = .refused .clockOverrun) ∧
    (s.rx.active = false → s.orch = .connecting → 2 ^ s.cfg.clkW ≤ s.env.turn.now - s.env.stamps.reset →
      exec .step s = .refused .clockOverrun) ∧
    (s.rx.active = false → s.orch = .erasing → s.cfg.eraseFn = .eraseCover →
      2 ^ 32 < s.session.imageSize.toNat + s.cfg.sectorSize → s.cfg.sectorSize ≤ 2 ^ 32 →
      exec .step s = .refused .eraseCoverOverflow) ∧
    (∀ (op : Byte) (body : Bytes) (chk timeout : U32), 65535 < body.length →
      ∀ i ∈ [Instr.send op body chk, .cmd op body chk timeout, .memBeginReq chk body, .memEndReq chk body,
          .memDataReq chk body, .writeRegReq chk body, .readRegReq chk body, .rsp op chk body, .rspStray chk body],
        exec i s = .refused .bodyTooLong)

/-- R132: every STEP answers a next state, but where the spec refuses it: no session (U2), an erase size that does not
fit (U15), a timestamp it would test too late (U12, as log 29 reads it). -/
def Obligations.StepCompletes : Prop :=
  ∀ s : State, legalConfig s.cfg = true → RegisterInv s →
    (s.orch = .idle → s.session.resultValid = true ∨ s.rx.active = true) →
    (s.orch = .erasing → eraseSize s.cfg s.session.imageSize s.session.targetAddr ≠ none) →
    (s.rx.active = true → Punctual s s.env.stamps.rx) →
    (s.rx.active = false → s.orch = .connecting ∨ s.orch = .uploading → Punctual s s.env.stamps.attempt) →
    (s.rx.active = false → s.orch = .connecting → Punctual s s.env.stamps.reset) →
    (s.rx.active = false → s.orch = .erasing → Punctual s s.env.now) →
    ∃ t, exec .step s = .next t

/-- R160, R161: SlipStateError is never returned, by any operation, in a state that meets the invariant. -/
def Obligations.SlipStateErrorIsUnreachable : Prop :=
  ∀ (i : Instr) (s t : State), RegisterInv s → exec i s = .next t → t.ret ≠ s.ret →
    t.ret ≠ .code .slipStateError ∧ t.ret ≠ .done .slipStateError

/-- R116, R140: the frames STEP sends are Sync, FlashBegin and FlashData requests, one kind at a time, the first two
once: never FlashEnd. -/
def Obligations.StepSendsThreeKindsOfFrame : Prop :=
  ∀ s t : State, exec .step s = .next t →
    t.env.txs = s.env.txs ∨
    (s.orch = .connecting ∧ t.env.txs = s.env.txs ++ syncFrame s.cfg) ∨
    (s.orch = .erasing ∧ ∃ es, eraseSize s.cfg s.session.imageSize s.session.targetAddr = some es ∧
      t.env.txs = s.env.txs ++ flashBeginFrame s.cfg s.session.targetAddr es) ∨
    ((s.orch = .uploading ∨ s.unitCall = some .fdata) ∧ ∃ n body chk, 1 ≤ n ∧ n ≤ 3 ∧
      t.env.txs = s.env.txs ++ copies n (frameOnWire s.cfg s.cfg.opcFlashData body chk))

/-! ### Sessions -/

/-- R141: the retry budget. However the Sync attempts fail, a session that ends with ConnectFailed has made exactly
`NBAUD * RETRIES_PER_BAUD` resets, and sent exactly `RETRIES_PER_RESET` Sync requests for each, and nothing else. s is a
state BEGIN_UPLOAD leaves. -/
def Obligations.RetryBudgetIsExact : Prop :=
  ∀ (s t : State) (n : Nat), legalConfig s.cfg = true → RegisterInv s → s.orch = .resetting → s.rx.active = false →
    s.session.baudAttempt = 0#32 →
    s.cfg.baudList.length * s.cfg.retriesPerBaud < 2 ^ 32 - 1 → s.cfg.retriesPerReset < 2 ^ 32 →
    runSteps n s = some t → t.orch = .done → t.session.result = .connectFailed →
    (t.env.events.drop s.env.events.length).countP Event.isReopen = s.cfg.baudList.length * s.cfg.retriesPerBaud ∧
    t.env.txs = s.env.txs ++
      copies (s.cfg.baudList.length * s.cfg.retriesPerBaud * s.cfg.retriesPerReset) (syncFrame s.cfg)

/-- R116, R138, R140, R142: all that a session writes that ends with Success: Sync requests, one FlashBegin, then the
blocks of the image, zero-padded and patched, each index in its order and one to three times in a row. s is a state
BEGIN_UPLOAD leaves. -/
def Obligations.SuccessfulSessionOnTheWire : Prop :=
  ∀ (s t : State) (n : Nat), legalConfig s.cfg = true → RegisterInv s → s.orch = .resetting → s.rx.active = false →
    runSteps n s = some t → t.orch = .done → t.session.result = .success →
    ∃ (syncs : Nat) (es : U32) (attempts : Nat → Nat), 1 ≤ syncs ∧
      eraseSize s.cfg s.session.imageSize s.session.targetAddr = some es ∧
      (∀ k, 1 ≤ attempts k ∧ attempts k ≤ 3) ∧
      t.env.txs = s.env.txs ++ copies syncs (syncFrame s.cfg) ++ flashBeginFrame s.cfg s.session.targetAddr es ++
        (List.range ((s.session.imageSize.toNat + 1023) / 1024)).flatMap fun k =>
          copies (attempts k) (dataFrame s.cfg (BitVec.ofNat 32 k)
            (patchedData s.cfg (BitVec.ofNat 32 k) s.session.targetAddr s.cfg.parmVal s.cfg.parmMask
              (imageBlock s.env.img k)))

/-- R192: a session starts from nothing. Whatever an earlier session has left in the registers, two machines with the
same configuration and the same environment that both accept a BEGIN_UPLOAD go on alike for ever: the same returns, the
same bytes, the same calls. -/
def Obligations.SecondSessionIsAFirst : Prop :=
  ∀ (s s' t t' : State) (image : ImageSource) (addr : U32) (n : Nat), Memory.wf s.blk = true → Memory.wf s'.blk = true →
    s.cfg = s'.cfg → s.env = s'.env → image.size ≠ 0#32 → exec (.beginUpload image addr) s = .next t →
    exec (.beginUpload image addr) s' = .next t' →
    (runSteps n t).map (fun u => (u.ret, u.env, u.orch, u.session.result)) =
      (runSteps n t').map (fun u => (u.ret, u.env, u.orch, u.session.result))
end

