-- ==== Sys2Proof/Laws/Bytes.lean ====
section
/-! SUPPORT. Byte order: a word is the little-endian reading of its own bytes, and the other way round. -/

namespace Sys2Proof.Machine

@[simp] theorem word16_le16 (v : U16) : word16 (v.extractLsb' 0 8) (v.extractLsb' 8 8) = v := by
  apply BitVec.eq_of_getLsbD_eq
  intro i hi
  simp only [word16, BitVec.getLsbD_append, BitVec.getLsbD_extractLsb']
  by_cases h : i < 8
  · simp [h]
  · simp only [h]
    have : i - 8 < 8 := by omega
    have h2 : 8 + (i - 8) = i := by omega
    simp [this, h2]

@[simp] theorem word32_le32 (v : U32) :
    word32 (v.extractLsb' 0 8) (v.extractLsb' 8 8) (v.extractLsb' 16 8) (v.extractLsb' 24 8) = v := by
  apply BitVec.eq_of_getLsbD_eq
  intro i hi
  simp only [word32, BitVec.getLsbD_append, BitVec.getLsbD_extractLsb']
  by_cases h : i < 8
  · simp [h]
  · by_cases h1 : i < 16
    · have a : i - 8 < 8 := by omega
      have b : 8 + (i - 8) = i := by omega
      simp [h, a, b]
    · by_cases h2 : i < 24
      · have a : ¬ i - 8 < 8 := by omega
        have b : i - 8 - 8 < 8 := by omega
        have c : 16 + (i - 8 - 8) = i := by omega
        simp [h, a, b, c]
      · have a : ¬ i - 8 < 8 := by omega
        have b : ¬ i - 8 - 8 < 8 := by omega
        have b' : i - 8 - 8 - 8 < 8 := by omega
        have c : 24 + (i - 8 - 8 - 8) = i := by omega
        simp [h, a, b, b', c]

/-- The bytes of a 16-bit word read from bytes. -/
theorem le16_word16 (a b : Byte) : le16 (word16 a b) = [a, b] := by
  simp only [le16, word16, List.cons.injEq, and_true]
  refine ⟨?_, ?_⟩ <;> apply BitVec.eq_of_getLsbD_eq <;> intro i hi
  all_goals simp only [BitVec.getLsbD_extractLsb', BitVec.getLsbD_append, hi]
  all_goals interval_cases i <;> simp

/-- The bytes of a 32-bit word read from bytes. -/
theorem le32_word32 (a b c d : Byte) : le32 (word32 a b c d) = [a, b, c, d] := by
  simp only [le32, word32, List.cons.injEq, and_true]
  refine ⟨?_, ?_, ?_, ?_⟩ <;> apply BitVec.eq_of_getLsbD_eq <;> intro i hi
  all_goals simp only [BitVec.getLsbD_extractLsb', BitVec.getLsbD_append, hi]
  all_goals interval_cases i <;> simp

/-- Reading a 16-bit word from its bytes. -/
theorem getLe16_le16 (v : U16) (r : Bytes) : getLe16 (le16 v ++ r) 0 = v := by
  simp [getLe16, le16, byteAt]

/-- Reading a 32-bit word from its bytes. -/
theorem getLe32_le32 (v : U32) (r : Bytes) : getLe32 (le32 v ++ r) 0 = v := by
  simp [getLe32, le32, byteAt]

@[simp] theorem zext32_low (b : Byte) : (zext32 b).extractLsb' 0 8 = b := by
  apply BitVec.eq_of_getLsbD_eq
  intro i hi
  simp [zext32, hi]
  omega

/-- R40, R110: aligning down is idempotent. -/
@[simp] theorem alignDown_alignDown (a : U32) : alignDown (alignDown a) = alignDown a := by
  simp [alignDown, BitVec.and_assoc]

/-- R117 (a): `ceil_div` by 1024. -/
theorem ceilDiv_le_iff {a b q : Nat} (hb : 0 < b) : ceilDiv a b ≤ q ↔ a ≤ q * b := by
  rw [ceilDiv, Nat.div_le_iff_le_mul_add_pred hb]
  rw [Nat.mul_comm b q]
  omega

end Sys2Proof.Machine
end

