-- ==== Sys2Proof/Laws/Codec.lean ====
section
/-! SUPPORT. The codec's and the checksum's small laws. -/

namespace Sys2Proof.Machine

/-! ### The encoder (R70) -/

@[simp] theorem slipEncode_nil : slipEncode [] = [] := rfl

@[simp] theorem slipEncode_cons (b : Byte) (s : Bytes) : slipEncode (b :: s) = stuffByte b ++ slipEncode s := rfl

@[simp] theorem slipEncode_append (a b : Bytes) : slipEncode (a ++ b) = slipEncode a ++ slipEncode b := by
  simp [slipEncode]

/-- The three ways a byte is sent (R51). -/
theorem stuffByte_cases (b : Byte) :
    (b = slipEND ∧ stuffByte b = [slipESC, slipESCEND]) ∨ (b = slipESC ∧ stuffByte b = [slipESC, slipESCESC]) ∨
      (b ≠ slipEND ∧ b ≠ slipESC ∧ stuffByte b = [b]) := by
  by_cases h : b = slipEND
  · exact .inl ⟨h, by simp [stuffByte, h]⟩
  · by_cases h' : b = slipESC
    · exact .inr (.inl ⟨h', by subst h'; decide⟩)
    · exact .inr (.inr ⟨h, h', by simp [stuffByte, h, h']⟩)

/-- A byte that is neither delimiter nor escape is sent as it is (R51). -/
theorem stuffByte_plain {b : Byte} (h : isPlainByte b = true) : stuffByte b = [b] := by
  simp only [isPlainByte, Bool.and_eq_true, bne_iff_ne] at h
  simp [stuffByte, h.1, h.2]

theorem slipEncode_plain {s : Bytes} (h : s.all isPlainByte = true) : slipEncode s = s := by
  induction s with
  | nil => rfl
  | cons b t ih =>
    simp only [List.all_cons, Bool.and_eq_true] at h
    simp [stuffByte_plain h.1, ih h.2]

/-! ### The decoder (R75) -/

@[simp] theorem slipDecodeAll_nil : slipDecodeAll [] = .decoded [] := by simp [slipDecodeAll]

/-- A plain byte decodes to itself, whatever follows. -/
theorem slipDecodeAll_plain {b : Byte} (h1 : b ≠ slipEND) (h2 : b ≠ slipESC) (t : Bytes) :
    slipDecodeAll (b :: t) = DecodeAll.cons b (slipDecodeAll t) := by
  cases t with
  | nil => simp [slipDecodeAll, h1, h2, DecodeAll.cons]
  | cons c t => simp [slipDecodeAll, h1, h2]

theorem slipDecodeAll_escEnd (t : Bytes) :
    slipDecodeAll (slipESC :: slipESCEND :: t) = DecodeAll.cons slipEND (slipDecodeAll t) := by
  rw [slipDecodeAll, if_neg (by decide), if_neg (by decide), if_pos rfl]

theorem slipDecodeAll_escEsc (t : Bytes) :
    slipDecodeAll (slipESC :: slipESCESC :: t) = DecodeAll.cons slipESC (slipDecodeAll t) := by
  rw [slipDecodeAll, if_neg (by decide), if_neg (by decide), if_neg (by decide), if_pos rfl]

@[simp] theorem DecodeAll.cons_decoded (b : Byte) (s : Bytes) :
    DecodeAll.cons b (.decoded s) = .decoded (b :: s) := rfl

/-! ### The checksum (R80) -/

@[simp] theorem chkFold_nil : chkFold [] = chkSeed := rfl

/-- The fold from any start is the start and the fold of the rest. -/
theorem foldl_xor (s : Bytes) (c : Byte) : s.foldl (fun c b => c ^^^ b) c = c ^^^ s.foldl (fun c b => c ^^^ b) 0#8 := by
  induction s generalizing c with
  | nil => simp
  | cons b t ih =>
    rw [List.foldl_cons, ih, List.foldl_cons, ih (0#8 ^^^ b)]
    simp [BitVec.xor_assoc]

@[simp] theorem chkFold_append_single (s : Bytes) (b : Byte) : chkFold (s ++ [b]) = chkFold s ^^^ b := by
  simp [chkFold]

/-! ### Frames (R52, R82) -/

@[simp] theorem length_hdrBytes (dir op : Byte) (n : U16) (chk : U32) : (hdrBytes dir op n chk).length = 8 := rfl

@[simp] theorem length_frameContent (dir op : Byte) (chk : U32) (body : Bytes) :
    (frameContent dir op chk body).length = 8 + body.length := by simp [frameContent]

@[simp] theorem length_syncPayload (c : Config) : (syncPayload c).length = 36 := by
  simp [syncPayload, syncFillLen]

@[simp] theorem length_flashBeginBody (a n : U32) : (flashBeginBody a n).length = 16 := rfl

@[simp] theorem length_flashEndBody (b : Bool) : (flashEndBody b).length = 4 := rfl

@[simp] theorem length_flashDataBodyHeader (i : U32) : (flashDataBodyHeader i).length = 16 := rfl

/-! ### Elapsed time (R174) -/

/-- `Now()` and the register hold the clock modulo 2^`CLK_W`; the difference does not see it. -/
@[simp] theorem elapsed_mod (w t t0 : Nat) : elapsed w (t % 2 ^ w) t0 = elapsed w t t0 := by
  simp [elapsed, Nat.add_mod]

/-- The elapsed time of a clock that has advanced by n is at most n more. -/
theorem elapsed_add (w t n t0 : Nat) : elapsed w (t + n) t0 ≤ elapsed w t t0 + n := by
  simp only [elapsed]
  rw [show t + n + (2 ^ w - t0 % 2 ^ w) = (t + (2 ^ w - t0 % 2 ^ w)) + n by omega]
  generalize t + (2 ^ w - t0 % 2 ^ w) = x
  have h1 := Nat.mod_le (x % 2 ^ w + n) (2 ^ w)
  rw [Nat.mod_add_mod] at h1
  exact h1

/-- While less than 2^`CLK_W` ms have passed since a timestamp, the elapsed time is the true one (R174). -/
theorem elapsed_true (w t0 n : Nat) (h : n < 2 ^ w) : elapsed w (t0 + n) (t0 % 2 ^ w) = n := by
  simp only [elapsed, Nat.mod_mod]
  have h1 := Nat.div_add_mod t0 (2 ^ w)
  have h2 := Nat.mod_lt t0 (show 0 < 2 ^ w by positivity)
  rw [show t0 + n + (2 ^ w - t0 % 2 ^ w) = n + 2 ^ w * (t0 / 2 ^ w + 1) by rw [Nat.mul_add]; omega,
    Nat.add_mul_mod_self_left, Nat.mod_eq_of_lt h]

/-- Nothing has elapsed since a timestamp just taken. -/
@[simp] theorem elapsed_self (w t : Nat) : elapsed w t (t % 2 ^ w) = 0 := elapsed_true w t 0 (by positivity)

/-! ### Flag computations -/

@[simp] theorem timedOut_mod (w t t0 : Nat) (limit : U32) : timedOut w (t % 2 ^ w) t0 limit = timedOut w t t0 limit := by
  simp [timedOut]

@[simp] theorem intervalMet_mod (w t t0 limit : Nat) : intervalMet w (t % 2 ^ w) t0 limit = intervalMet w t t0 limit := by
  simp [intervalMet]

@[simp] theorem replyStatus_of_ne_success {st : ResultCode} (h : st ≠ .success) (n : U16) : replyStatus st n = st := by
  simp [replyStatus, h]

@[simp] theorem replyStatus_success (n : U16) :
    replyStatus .success n = if n = replyBodyLen then .success else .badReply := by
  by_cases h : n = replyBodyLen <;> simp [replyStatus, h]

/-- Outside the three cases a byte is a logical byte at once (R74). -/
theorem firstByteOutcome_plain {b : Byte} (h1 : b ≠ slipEND) (h2 : b ≠ slipESC) :
    firstByteOutcome b = some (.byte b) := by simp [firstByteOutcome, h1, h2]

@[simp] theorem firstByteOutcome_end : firstByteOutcome slipEND = some .frameBoundary := by decide
@[simp] theorem firstByteOutcome_esc : firstByteOutcome slipESC = none := by decide
@[simp] theorem escapedOutcome_escEnd : escapedOutcome slipESCEND = .byte slipEND := by decide
@[simp] theorem escapedOutcome_escEsc : escapedOutcome slipESCESC = .byte slipESC := by decide

/-- U9: what a legal configuration gives the Sync frame (R57): nothing of it needs stuffing. -/
theorem legalConfig_sync {c : Config} (h : legalConfig c = true) :
    isPlainByte c.dirRequest = true ∧ isPlainByte c.opcSync = true ∧ c.syncMarker.toList.all isPlainByte = true ∧
      isPlainByte c.syncFill = true := by
  simp only [legalConfig, decide_eq_true_eq] at h
  obtain ⟨-, -, -, -, -, -, -, -, -, -, h⟩ := h
  exact h

end Sys2Proof.Machine
end

