-- ==== Sys2Proof/Laws/Env.lean ====
section
/-! SUPPORT. What each interface primitive of Machine/Ops.lean does to each part of the environment, and that the one
update `Env.txBytes` is the `TxByte` calls one after the other. -/

namespace Sys2Proof.Machine

variable (e : Env)

@[simp] theorem Env.turn_rxq : e.turn.rxq = e.rxq ++ turnRx e.script := rfl
@[simp] theorem Env.turn_txs : e.turn.txs = e.txs := rfl
@[simp] theorem Env.turn_baud : e.turn.baud = e.baud := rfl
@[simp] theorem Env.turn_now : e.turn.now = e.now + turnMs e.script := rfl
@[simp] theorem Env.turn_img : e.turn.img = e.img := rfl
@[simp] theorem Env.turn_gpio : e.turn.gpio = e.gpio := rfl
@[simp] theorem Env.turn_events : e.turn.events = e.events := rfl
@[simp] theorem Env.turn_script : e.turn.script = e.script.tail := rfl

@[simp] theorem turnMs_nil : turnMs [] = 0 := rfl
@[simp] theorem turnRx_nil : turnRx [] = [] := rfl
@[simp] theorem turnMs_cons (a : EnvAct) (t : List EnvAct) : turnMs (a :: t) = a.ms := rfl
@[simp] theorem turnRx_cons (a : EnvAct) (t : List EnvAct) : turnRx (a :: t) = a.rx := rfl

/-- A quiet environment's turn changes nothing. -/
theorem Env.turn_quiet (h : e.script = []) : e.turn = e := by
  cases e
  simp_all [Env.turn]

@[simp] theorem Env.record_rxq (ev : Event) : (e.record ev).rxq = e.rxq := rfl
@[simp] theorem Env.record_txs (ev : Event) : (e.record ev).txs = e.txs := rfl
@[simp] theorem Env.record_baud (ev : Event) : (e.record ev).baud = e.baud := rfl
@[simp] theorem Env.record_now (ev : Event) : (e.record ev).now = e.now := rfl
@[simp] theorem Env.record_img (ev : Event) : (e.record ev).img = e.img := rfl
@[simp] theorem Env.record_gpio (ev : Event) : (e.record ev).gpio = e.gpio := rfl
@[simp] theorem Env.record_events (ev : Event) : (e.record ev).events = e.events ++ [ev] := rfl
@[simp] theorem Env.record_script (ev : Event) : (e.record ev).script = e.script := rfl

@[simp] theorem Env.rxByte_fst : e.rxByte.1 = e.turn.rxq.head? := rfl
@[simp] theorem Env.rxByte_rxq : e.rxByte.2.rxq = e.turn.rxq.tail := rfl
@[simp] theorem Env.rxByte_txs : e.rxByte.2.txs = e.txs := rfl
@[simp] theorem Env.rxByte_baud : e.rxByte.2.baud = e.baud := rfl
@[simp] theorem Env.rxByte_now : e.rxByte.2.now = e.turn.now := rfl
@[simp] theorem Env.rxByte_img : e.rxByte.2.img = e.img := rfl
@[simp] theorem Env.rxByte_gpio : e.rxByte.2.gpio = e.gpio := rfl
@[simp] theorem Env.rxByte_script : e.rxByte.2.script = e.script.tail := rfl
@[simp] theorem Env.rxByte_events : e.rxByte.2.events = e.events ++ [.rxByte e.turn.rxq.head?] := rfl

variable (w : Nat)

@[simp] theorem Env.readClock_fst : (e.readClock w).1 = e.turn.now % 2 ^ w := rfl
@[simp] theorem Env.readClock_rxq : (e.readClock w).2.rxq = e.turn.rxq := rfl
@[simp] theorem Env.readClock_txs : (e.readClock w).2.txs = e.txs := rfl
@[simp] theorem Env.readClock_baud : (e.readClock w).2.baud = e.baud := rfl
@[simp] theorem Env.readClock_now : (e.readClock w).2.now = e.turn.now := rfl
@[simp] theorem Env.readClock_img : (e.readClock w).2.img = e.img := rfl
@[simp] theorem Env.readClock_gpio : (e.readClock w).2.gpio = e.gpio := rfl
@[simp] theorem Env.readClock_script : (e.readClock w).2.script = e.script.tail := rfl
@[simp] theorem Env.readClock_events : (e.readClock w).2.events = e.events ++ [.now (e.turn.now % 2 ^ w)] := rfl

variable (b : Byte) (bs : Bytes)

@[simp] theorem Env.txByte_txs : (e.txByte b).txs = e.txs ++ [b] := rfl
@[simp] theorem Env.txByte_baud : (e.txByte b).baud = e.baud := rfl
@[simp] theorem Env.txByte_img : (e.txByte b).img = e.img := rfl
@[simp] theorem Env.txByte_gpio : (e.txByte b).gpio = e.gpio := rfl

@[simp] theorem Env.txBlock_txs : (e.txBlock bs).txs = e.txs ++ bs := rfl
@[simp] theorem Env.txBlock_rxq : (e.txBlock bs).rxq = e.turn.rxq := rfl
@[simp] theorem Env.txBlock_now : (e.txBlock bs).now = e.turn.now := rfl
@[simp] theorem Env.txBlock_script : (e.txBlock bs).script = e.script.tail := rfl
@[simp] theorem Env.txBlock_baud : (e.txBlock bs).baud = e.baud := rfl
@[simp] theorem Env.txBlock_img : (e.txBlock bs).img = e.img := rfl
@[simp] theorem Env.txBlock_gpio : (e.txBlock bs).gpio = e.gpio := rfl
@[simp] theorem Env.txBlock_events : (e.txBlock bs).events = e.events ++ [.txBlock bs] := rfl

@[simp] theorem Env.txBytes_txs : (e.txBytes bs).txs = e.txs ++ bs := rfl
@[simp] theorem Env.txBytes_baud : (e.txBytes bs).baud = e.baud := rfl
@[simp] theorem Env.txBytes_img : (e.txBytes bs).img = e.img := rfl
@[simp] theorem Env.txBytes_gpio : (e.txBytes bs).gpio = e.gpio := rfl
@[simp] theorem Env.txBytes_rxq :
    (e.txBytes bs).rxq = e.rxq ++ (e.script.take bs.length).flatMap EnvAct.rx := rfl
@[simp] theorem Env.txBytes_now :
    (e.txBytes bs).now = e.now + ((e.script.take bs.length).map EnvAct.ms).sum := rfl
@[simp] theorem Env.txBytes_script : (e.txBytes bs).script = e.script.drop bs.length := rfl
@[simp] theorem Env.txBytes_events : (e.txBytes bs).events = e.events ++ bs.map Event.txByte := rfl

/-- No byte, no call. -/
theorem Env.txBytes_nil : e.txBytes [] = e := by
  cases e
  simp [Env.txBytes, Env.turns]

/-- R83's loop: the first `TxByte`, then the others. -/
theorem Env.txBytes_cons : e.txBytes (b :: bs) = (e.txByte b).txBytes bs := by
  cases e with
  | mk rxq txs baud now img gpio events script stamps overrun =>
    cases script <;>
      simp [Env.txBytes, Env.turns, Env.txByte, Env.record, Env.turn, turnMs, turnRx, Nat.add_assoc]

/-- R83's loop is a fold of `TxByte` over the bytes. -/
theorem Env.txBytes_eq_foldl : e.txBytes bs = bs.foldl (fun e b => e.txByte b) e := by
  induction bs generalizing e with
  | nil => exact Env.txBytes_nil e
  | cons b t ih => rw [Env.txBytes_cons, ih]; rfl

variable (n : Nat)

@[simp] theorem Env.reopen_rxq : (e.reopen n).rxq = [] := rfl
@[simp] theorem Env.reopen_txs : (e.reopen n).txs = e.txs := rfl
@[simp] theorem Env.reopen_baud : (e.reopen n).baud = some n := rfl
@[simp] theorem Env.reopen_now : (e.reopen n).now = e.turn.now := rfl
@[simp] theorem Env.reopen_img : (e.reopen n).img = e.img := rfl
@[simp] theorem Env.reopen_gpio : (e.reopen n).gpio = e.gpio := rfl
@[simp] theorem Env.reopen_script : (e.reopen n).script = e.script.tail := rfl
@[simp] theorem Env.reopen_events : (e.reopen n).events = e.events ++ [.reopen n] := rfl

@[simp] theorem Env.imgSize_fst : e.imgSize.1 = e.img.size := rfl
@[simp] theorem Env.imgSize_rxq : e.imgSize.2.rxq = e.turn.rxq := rfl
@[simp] theorem Env.imgSize_txs : e.imgSize.2.txs = e.txs := rfl
@[simp] theorem Env.imgSize_baud : e.imgSize.2.baud = e.baud := rfl
@[simp] theorem Env.imgSize_img : e.imgSize.2.img = e.img := rfl
@[simp] theorem Env.imgSize_gpio : e.imgSize.2.gpio = e.gpio := rfl

@[simp] theorem Env.imgRead_fst (off : Nat) : (e.imgRead off n).1 = (e.img.data.drop off).take n := rfl
@[simp] theorem Env.imgRead_txs (off : Nat) : (e.imgRead off n).2.txs = e.txs := rfl
@[simp] theorem Env.imgRead_baud (off : Nat) : (e.imgRead off n).2.baud = e.baud := rfl
@[simp] theorem Env.imgRead_img (off : Nat) : (e.imgRead off n).2.img = e.img := rfl
@[simp] theorem Env.imgRead_gpio (off : Nat) : (e.imgRead off n).2.gpio = e.gpio := rfl

@[simp] theorem Env.imgRelease_txs : e.imgRelease.txs = e.txs := rfl
@[simp] theorem Env.imgRelease_baud : e.imgRelease.baud = e.baud := rfl
@[simp] theorem Env.imgRelease_img : e.imgRelease.img = e.img := rfl
@[simp] theorem Env.imgRelease_gpio : e.imgRelease.gpio = e.gpio := rfl
@[simp] theorem Env.imgRelease_events : e.imgRelease.events = e.events ++ [.imgRelease] := rfl

@[simp] theorem Env.gpioEnter_txs : e.gpioEnter.txs = e.txs := rfl
@[simp] theorem Env.gpioEnter_baud : e.gpioEnter.baud = e.baud := rfl
@[simp] theorem Env.gpioEnter_img : e.gpioEnter.img = e.img := rfl
@[simp] theorem Env.gpioEnter_gpio : e.gpioEnter.gpio = some .upload := rfl
@[simp] theorem Env.gpioEnter_events : e.gpioEnter.events = e.events ++ [.gpioEnter] := rfl

@[simp] theorem Env.gpioLeave_txs : e.gpioLeave.txs = e.txs := rfl
@[simp] theorem Env.gpioLeave_baud : e.gpioLeave.baud = e.baud := rfl
@[simp] theorem Env.gpioLeave_img : e.gpioLeave.img = e.img := rfl
@[simp] theorem Env.gpioLeave_gpio : e.gpioLeave.gpio = some .run := rfl
@[simp] theorem Env.gpioLeave_events : e.gpioLeave.events = e.events ++ [.gpioLeave] := rfl

@[simp] theorem Env.progress_txs : (e.progress n).txs = e.txs := rfl
@[simp] theorem Env.progress_baud : (e.progress n).baud = e.baud := rfl
@[simp] theorem Env.progress_img : (e.progress n).img = e.img := rfl
@[simp] theorem Env.progress_gpio : (e.progress n).gpio = e.gpio := rfl
@[simp] theorem Env.progress_events : (e.progress n).events = e.events ++ [.progress n] := rfl

@[simp] theorem Env.arrive_rxq : (e.arrive bs).rxq = e.rxq ++ bs := rfl
@[simp] theorem Env.arrive_txs : (e.arrive bs).txs = e.txs := rfl
@[simp] theorem Env.arrive_baud : (e.arrive bs).baud = e.baud := rfl
@[simp] theorem Env.arrive_now : (e.arrive bs).now = e.now := rfl
@[simp] theorem Env.arrive_img : (e.arrive bs).img = e.img := rfl
@[simp] theorem Env.arrive_gpio : (e.arrive bs).gpio = e.gpio := rfl
@[simp] theorem Env.arrive_events : (e.arrive bs).events = e.events := rfl
@[simp] theorem Env.arrive_script : (e.arrive bs).script = e.script := rfl

/-! ### Timestamps: no primitive takes or tests one (log 29) -/

@[simp] theorem Env.turn_stamps : e.turn.stamps = e.stamps := rfl
@[simp] theorem Env.turn_overrun : e.turn.overrun = e.overrun := rfl
@[simp] theorem Env.record_stamps (ev : Event) : (e.record ev).stamps = e.stamps := rfl
@[simp] theorem Env.record_overrun (ev : Event) : (e.record ev).overrun = e.overrun := rfl
@[simp] theorem Env.rxByte_stamps : e.rxByte.2.stamps = e.stamps := rfl
@[simp] theorem Env.rxByte_overrun : e.rxByte.2.overrun = e.overrun := rfl
@[simp] theorem Env.readClock_stamps : (e.readClock w).2.stamps = e.stamps := rfl
@[simp] theorem Env.readClock_overrun : (e.readClock w).2.overrun = e.overrun := rfl
@[simp] theorem Env.txByte_stamps : (e.txByte b).stamps = e.stamps := rfl
@[simp] theorem Env.txByte_overrun : (e.txByte b).overrun = e.overrun := rfl
@[simp] theorem Env.txBlock_stamps : (e.txBlock bs).stamps = e.stamps := rfl
@[simp] theorem Env.txBlock_overrun : (e.txBlock bs).overrun = e.overrun := rfl
@[simp] theorem Env.txBytes_stamps : (e.txBytes bs).stamps = e.stamps := rfl
@[simp] theorem Env.txBytes_overrun : (e.txBytes bs).overrun = e.overrun := rfl
@[simp] theorem Env.reopen_stamps : (e.reopen n).stamps = e.stamps := rfl
@[simp] theorem Env.reopen_overrun : (e.reopen n).overrun = e.overrun := rfl
@[simp] theorem Env.imgSize_stamps : e.imgSize.2.stamps = e.stamps := rfl
@[simp] theorem Env.imgSize_overrun : e.imgSize.2.overrun = e.overrun := rfl
@[simp] theorem Env.imgRead_stamps (off : Nat) : (e.imgRead off n).2.stamps = e.stamps := rfl
@[simp] theorem Env.imgRead_overrun (off : Nat) : (e.imgRead off n).2.overrun = e.overrun := rfl
@[simp] theorem Env.imgRelease_stamps : e.imgRelease.stamps = e.stamps := rfl
@[simp] theorem Env.imgRelease_overrun : e.imgRelease.overrun = e.overrun := rfl
@[simp] theorem Env.gpioEnter_stamps : e.gpioEnter.stamps = e.stamps := rfl
@[simp] theorem Env.gpioEnter_overrun : e.gpioEnter.overrun = e.overrun := rfl
@[simp] theorem Env.gpioLeave_stamps : e.gpioLeave.stamps = e.stamps := rfl
@[simp] theorem Env.gpioLeave_overrun : e.gpioLeave.overrun = e.overrun := rfl
@[simp] theorem Env.progress_stamps : (e.progress n).stamps = e.stamps := rfl
@[simp] theorem Env.progress_overrun : (e.progress n).overrun = e.overrun := rfl
@[simp] theorem Env.arrive_stamps : (e.arrive bs).stamps = e.stamps := rfl
@[simp] theorem Env.arrive_overrun : (e.arrive bs).overrun = e.overrun := rfl

@[simp] theorem Env.markAttempt_rxq : e.markAttempt.rxq = e.rxq := rfl
@[simp] theorem Env.markAttempt_txs : e.markAttempt.txs = e.txs := rfl
@[simp] theorem Env.markAttempt_baud : e.markAttempt.baud = e.baud := rfl
@[simp] theorem Env.markAttempt_now : e.markAttempt.now = e.now := rfl
@[simp] theorem Env.markAttempt_img : e.markAttempt.img = e.img := rfl
@[simp] theorem Env.markAttempt_gpio : e.markAttempt.gpio = e.gpio := rfl
@[simp] theorem Env.markAttempt_events : e.markAttempt.events = e.events := rfl
@[simp] theorem Env.markAttempt_script : e.markAttempt.script = e.script := rfl
@[simp] theorem Env.markReset_rxq : e.markReset.rxq = e.rxq := rfl
@[simp] theorem Env.markReset_txs : e.markReset.txs = e.txs := rfl
@[simp] theorem Env.markReset_baud : e.markReset.baud = e.baud := rfl
@[simp] theorem Env.markReset_now : e.markReset.now = e.now := rfl
@[simp] theorem Env.markReset_img : e.markReset.img = e.img := rfl
@[simp] theorem Env.markReset_gpio : e.markReset.gpio = e.gpio := rfl
@[simp] theorem Env.markReset_events : e.markReset.events = e.events := rfl
@[simp] theorem Env.markReset_script : e.markReset.script = e.script := rfl
@[simp] theorem Env.markRx_rxq : e.markRx.rxq = e.rxq := rfl
@[simp] theorem Env.markRx_txs : e.markRx.txs = e.txs := rfl
@[simp] theorem Env.markRx_baud : e.markRx.baud = e.baud := rfl
@[simp] theorem Env.markRx_now : e.markRx.now = e.now := rfl
@[simp] theorem Env.markRx_img : e.markRx.img = e.img := rfl
@[simp] theorem Env.markRx_gpio : e.markRx.gpio = e.gpio := rfl
@[simp] theorem Env.markRx_events : e.markRx.events = e.events := rfl
@[simp] theorem Env.markRx_script : e.markRx.script = e.script := rfl
@[simp] theorem Env.tested_rxq : (e.tested w n).rxq = e.rxq := rfl
@[simp] theorem Env.tested_txs : (e.tested w n).txs = e.txs := rfl
@[simp] theorem Env.tested_baud : (e.tested w n).baud = e.baud := rfl
@[simp] theorem Env.tested_now : (e.tested w n).now = e.now := rfl
@[simp] theorem Env.tested_img : (e.tested w n).img = e.img := rfl
@[simp] theorem Env.tested_gpio : (e.tested w n).gpio = e.gpio := rfl
@[simp] theorem Env.tested_events : (e.tested w n).events = e.events := rfl
@[simp] theorem Env.tested_script : (e.tested w n).script = e.script := rfl

@[simp] theorem Env.markAttempt_stamps : e.markAttempt.stamps = { e.stamps with attempt := e.now } := rfl
@[simp] theorem Env.markReset_stamps : e.markReset.stamps = { e.stamps with reset := e.now } := rfl
@[simp] theorem Env.markRx_stamps : e.markRx.stamps = { e.stamps with rx := e.now } := rfl
@[simp] theorem Env.tested_stamps : (e.tested w n).stamps = e.stamps := rfl
@[simp] theorem Env.markAttempt_overrun : e.markAttempt.overrun = e.overrun := rfl
@[simp] theorem Env.markReset_overrun : e.markReset.overrun = e.overrun := rfl
@[simp] theorem Env.markRx_overrun : e.markRx.overrun = e.overrun := rfl
@[simp] theorem Env.tested_overrun : (e.tested w n).overrun = (e.overrun || decide (2 ^ w ≤ e.now - n)) := rfl

/-- A test in time changes nothing. -/
theorem Env.tested_punctual (h : e.now - n < 2 ^ w) : e.tested w n = e := by
  cases e
  simp_all [Env.tested]

end Sys2Proof.Machine
end

