-- ==== Sys2Proof/Laws/Exchange.lean ====
section
/-! SUPPORT. The relation `Exchanged` (Safety.lean): what each interface primitive gives, its composition, and what it says
of the queue and of the clock. -/

namespace Sys2Proof.Machine

theorem Exchanged.refl (e : Env) : Exchanged [] [] e e :=
  ⟨⟨rfl, rfl, rfl⟩, by simp, ⟨[], by simp⟩, 0, by simp, by simp, by simp⟩

theorem Exchanged.trans {a b c d : Bytes} {e f g : Env} (h : Exchanged a b e f) (h' : Exchanged c d f g) :
    Exchanged (a ++ c) (b ++ d) e g := by
  obtain ⟨l, t, ⟨E, c1, c2, c3, c4⟩, k, h1, h2, h3⟩ := h
  obtain ⟨l', t', ⟨E', c1', c2', c3', c4'⟩, k', h1', h2', h3'⟩ := h'
  refine ⟨⟨l'.1.trans l.1, l'.2.1.trans l.2.1, l'.2.2.trans l.2.2⟩, by rw [t', t, List.append_assoc],
    ⟨E ++ E', by rw [c1', c1, List.append_assoc], by simp [c2, c2'], by simp [c3, c3'], fun ev h => ?_⟩, k + k', ?_, ?_, ?_⟩
  · rcases List.mem_append.1 h with h | h
    · exact c4 ev h
    · exact c4' ev h
  · rw [h1', h1, List.drop_drop]
  · rw [h2', h2, h1, List.take_add, List.map_append, List.sum_append, Nat.add_assoc]
  · rw [List.take_add, List.flatMap_append, ← List.append_assoc, h3, List.append_assoc, ← h1, h3', List.append_assoc]

/-- Reading more without writing. -/
theorem Exchanged.read {a b d : Bytes} {e f g : Env} (h : Exchanged a b e f) (h' : Exchanged [] d f g) :
    Exchanged a (b ++ d) e g := by simpa using h.trans h'

theorem Exchanged.readClock (w : Nat) (e : Env) : Exchanged [] [] e (e.readClock w).2 := by
  refine ⟨⟨rfl, rfl, rfl⟩, by simp, ⟨[_], rfl, by simp [Event.sent], by simp [Event.received], by simp [Event.exchanges]⟩,
    1, ?_, ?_, ?_⟩
  · simp
  · simp only [Env.readClock_now, Env.turn_now]; cases e.script <;> simp
  · simp only [Env.readClock_rxq, Env.turn_rxq]; cases e.script <;> simp

theorem Exchanged.rxByte {e : Env} {b : Byte} {q : Bytes} (h : e.rxq = b :: q) : Exchanged [] [b] e e.rxByte.2 := by
  refine ⟨⟨rfl, rfl, rfl⟩, by simp,
    ⟨[_], rfl, by simp [Event.sent], by simp [Event.received, h], by simp [Event.exchanges]⟩, 1, ?_, ?_, ?_⟩
  · simp
  · simp only [Env.rxByte_now, Env.turn_now]; cases e.script <;> simp
  · simp only [Env.rxByte_rxq, Env.turn_rxq, h]; cases e.script <;> simp

theorem Exchanged.rxNone {e : Env} (h : e.turn.rxq = []) : Exchanged [] [] e e.rxByte.2 := by
  refine ⟨⟨rfl, rfl, rfl⟩, by simp,
    ⟨[_], rfl, by simp [Event.sent], by rw [h]; simp [Event.received], by simp [Event.exchanges]⟩, 1, ?_, ?_, ?_⟩
  · simp
  · simp only [Env.rxByte_now, Env.turn_now]; cases e.script <;> simp
  · simp only [Env.rxByte_rxq, Env.turn_rxq] at h ⊢; cases hs : e.script <;> simp_all

theorem Exchanged.txBlock (e : Env) (bs : Bytes) : Exchanged bs [] e (e.txBlock bs) := by
  refine ⟨⟨rfl, rfl, rfl⟩, by simp, ⟨[_], rfl, by simp [Event.sent], by simp [Event.received], by simp [Event.exchanges]⟩,
    1, ?_, ?_, ?_⟩
  · simp
  · simp only [Env.txBlock_now, Env.turn_now]; cases e.script <;> simp
  · simp only [Env.txBlock_rxq, Env.turn_rxq]; cases e.script <;> simp

theorem Exchanged.txBytes (e : Env) (bs : Bytes) : Exchanged bs [] e (e.txBytes bs) := by
  refine ⟨⟨rfl, rfl, rfl⟩, by simp, ⟨bs.map Event.txByte, rfl, ?_, ?_, by simp [Event.exchanges]⟩,
    bs.length, rfl, by simp, by simp⟩
  · induction bs with
    | nil => rfl
    | cons b t ih => simp [Event.sent, ih]
  · induction bs with
    | nil => rfl
    | cons b t ih => simp [Event.received, ih]

/-- What was waiting in `RXQ` when it was read. -/
theorem Exchanged.rest {a b q : Bytes} {e f : Env} (h : Exchanged a b e f) (hq : e.rxq = b ++ q) :
    ∃ z, f.rxq = q ++ z := by
  obtain ⟨-, -, -, k, -, -, h3⟩ := h
  rw [hq, List.append_assoc] at h3
  exact ⟨_, (List.append_cancel_left h3).symm⟩

theorem Exchanged.noMore {a b : Bytes} {e f : Env} (h : Exchanged a b e f) (hn : NoMoreBytes e) :
    NoMoreBytes f ∧ e.rxq = b ++ f.rxq := by
  obtain ⟨-, -, -, k, h1, -, h3⟩ := h
  have := List.take_append_drop k e.script
  rw [NoMoreBytes, ← this, List.flatMap_append, List.append_eq_nil_iff] at hn
  rw [hn.1, List.append_nil] at h3
  exact ⟨by rw [NoMoreBytes, h1]; exact hn.2, h3⟩

/-- The clock's advance comes out of the slack. -/
theorem Exchanged.slack {a b : Bytes} {e f : Env} (h : Exchanged a b e f) : f.now + slack f = e.now + slack e := by
  obtain ⟨-, -, -, k, h1, h2, -⟩ := h
  have hs : Machine.slack e = ((e.script.take k).map EnvAct.ms).sum + Machine.slack f := by
    rw [Machine.slack, Machine.slack, h1]
    conv_lhs => rw [← List.take_append_drop k e.script]
    rw [List.map_append, List.sum_append]
  omega

/-- Timestamps taken and tested are no part of the exchange (log 29). -/
theorem Exchanged.same {a b : Bytes} {e f : Env} (h : Exchanged a b e f) (st : Stamps) (o : Bool) :
    Exchanged a b e { f with stamps := st, overrun := o } := ⟨h.lines, h.sent, h.calls, h.turns⟩

/-- The elapsed time follows the clock. -/
theorem Exchanged.elapsed {a b : Bytes} {e f : Env} (h : Exchanged a b e f) (w t0 : Nat) :
    elapsed w f.now t0 + Machine.slack f ≤ elapsed w e.now t0 + Machine.slack e := by
  have h1 := h.slack
  obtain ⟨-, -, -, k, -, h2, -⟩ := h
  have := elapsed_add w e.now ((e.script.take k).map EnvAct.ms).sum t0
  rw [← h2] at this
  omega

end Sys2Proof.Machine
end

