-- ==== Sys2Proof/Laws/State.lean ====
section
/-! SUPPORT. One lemma per field per named update of State (Machine/Ops.lean), true by rfl, so that no later proof
unfolds a record update. -/

namespace Sys2Proof.Machine

variable (s : State) (r : Ret) (bs : Bytes)

@[simp] theorem State.answer_cfg : (s.answer r).cfg = s.cfg := rfl
@[simp] theorem State.answer_session : (s.answer r).session = s.session := rfl
@[simp] theorem State.answer_orch : (s.answer r).orch = s.orch := rfl
@[simp] theorem State.answer_syncPhase : (s.answer r).syncPhase = s.syncPhase := rfl
@[simp] theorem State.answer_syncExtra : (s.answer r).syncExtra = s.syncExtra := rfl
@[simp] theorem State.answer_syncStatus : (s.answer r).syncStatus = s.syncStatus := rfl
@[simp] theorem State.answer_blkAttempt : (s.answer r).blkAttempt = s.blkAttempt := rfl
@[simp] theorem State.answer_rx : (s.answer r).rx = s.rx := rfl
@[simp] theorem State.answer_blk : (s.answer r).blk = s.blk := rfl
@[simp] theorem State.answer_chk8 : (s.answer r).chk8 = s.chk8 := rfl
@[simp] theorem State.answer_env : (s.answer r).env = s.env := rfl
@[simp] theorem State.answer_port : (s.answer r).port = s.port := rfl
@[simp] theorem State.answer_unitCall : (s.answer r).unitCall = s.unitCall := rfl
@[simp] theorem State.answer_ret : (s.answer r).ret = r := rfl

@[simp] theorem State.inProgress_cfg : s.inProgress.cfg = s.cfg := rfl
@[simp] theorem State.inProgress_session : s.inProgress.session = s.session := rfl
@[simp] theorem State.inProgress_orch : s.inProgress.orch = s.orch := rfl
@[simp] theorem State.inProgress_syncPhase : s.inProgress.syncPhase = s.syncPhase := rfl
@[simp] theorem State.inProgress_syncExtra : s.inProgress.syncExtra = s.syncExtra := rfl
@[simp] theorem State.inProgress_syncStatus : s.inProgress.syncStatus = s.syncStatus := rfl
@[simp] theorem State.inProgress_blkAttempt : s.inProgress.blkAttempt = s.blkAttempt := rfl
@[simp] theorem State.inProgress_rx : s.inProgress.rx = s.rx := rfl
@[simp] theorem State.inProgress_blk : s.inProgress.blk = s.blk := rfl
@[simp] theorem State.inProgress_chk8 : s.inProgress.chk8 = s.chk8 := rfl
@[simp] theorem State.inProgress_env : s.inProgress.env = s.env := rfl
@[simp] theorem State.inProgress_port : s.inProgress.port = s.port := rfl
@[simp] theorem State.inProgress_unitCall : s.inProgress.unitCall = s.unitCall := rfl
@[simp] theorem State.inProgress_ret : s.inProgress.ret = .inProgress (percent s) := rfl

@[simp] theorem State.arrive_cfg : (s.arrive bs).cfg = s.cfg := rfl
@[simp] theorem State.arrive_session : (s.arrive bs).session = s.session := rfl
@[simp] theorem State.arrive_orch : (s.arrive bs).orch = s.orch := rfl
@[simp] theorem State.arrive_syncPhase : (s.arrive bs).syncPhase = s.syncPhase := rfl
@[simp] theorem State.arrive_syncExtra : (s.arrive bs).syncExtra = s.syncExtra := rfl
@[simp] theorem State.arrive_syncStatus : (s.arrive bs).syncStatus = s.syncStatus := rfl
@[simp] theorem State.arrive_blkAttempt : (s.arrive bs).blkAttempt = s.blkAttempt := rfl
@[simp] theorem State.arrive_rx : (s.arrive bs).rx = s.rx := rfl
@[simp] theorem State.arrive_blk : (s.arrive bs).blk = s.blk := rfl
@[simp] theorem State.arrive_chk8 : (s.arrive bs).chk8 = s.chk8 := rfl
@[simp] theorem State.arrive_port : (s.arrive bs).port = s.port := rfl
@[simp] theorem State.arrive_ret : (s.arrive bs).ret = s.ret := rfl
@[simp] theorem State.arrive_unitCall : (s.arrive bs).unitCall = s.unitCall := rfl
@[simp] theorem State.arrive_env : (s.arrive bs).env = s.env.arrive bs := rfl

/-! ### The clock's turn at a poll -/

@[simp] theorem State.atPoll_cfg : s.atPoll.cfg = s.cfg := rfl
@[simp] theorem State.atPoll_session : s.atPoll.session = s.session := rfl
@[simp] theorem State.atPoll_orch : s.atPoll.orch = s.orch := rfl
@[simp] theorem State.atPoll_syncPhase : s.atPoll.syncPhase = s.syncPhase := rfl
@[simp] theorem State.atPoll_syncExtra : s.atPoll.syncExtra = s.syncExtra := rfl
@[simp] theorem State.atPoll_syncStatus : s.atPoll.syncStatus = s.syncStatus := rfl
@[simp] theorem State.atPoll_blkAttempt : s.atPoll.blkAttempt = s.blkAttempt := rfl
@[simp] theorem State.atPoll_rx : s.atPoll.rx = s.rx := rfl
@[simp] theorem State.atPoll_blk : s.atPoll.blk = s.blk := rfl
@[simp] theorem State.atPoll_chk8 : s.atPoll.chk8 = s.chk8 := rfl
@[simp] theorem State.atPoll_port : s.atPoll.port = s.port := rfl
@[simp] theorem State.atPoll_ret : s.atPoll.ret = s.ret := rfl
@[simp] theorem State.atPoll_unitCall : s.atPoll.unitCall = s.unitCall := rfl
@[simp] theorem State.atPoll_rxq : s.atPoll.env.rxq = s.env.turn.rxq := rfl
@[simp] theorem State.atPoll_txs : s.atPoll.env.txs = s.env.txs := rfl
@[simp] theorem State.atPoll_baud : s.atPoll.env.baud = s.env.baud := rfl
@[simp] theorem State.atPoll_now : s.atPoll.env.now = s.env.turn.now := rfl
@[simp] theorem State.atPoll_img : s.atPoll.env.img = s.env.img := rfl
@[simp] theorem State.atPoll_gpio : s.atPoll.env.gpio = s.env.gpio := rfl
@[simp] theorem State.atPoll_script : s.atPoll.env.script = s.env.script.tail := rfl
@[simp] theorem State.atPoll_stamps : s.atPoll.env.stamps = s.env.stamps := rfl
@[simp] theorem State.atPoll_events : s.atPoll.env.events =
    s.env.events ++ [.now (s.env.turn.now % 2 ^ s.cfg.clkW)] := rfl
@[simp] theorem State.atPoll_overrun : s.atPoll.env.overrun =
    (s.env.overrun || decide (2 ^ s.cfg.clkW ≤ s.env.turn.now - s.env.stamps.rx)) := rfl

variable (c : ResultCode)

@[simp] theorem finish_cfg : (finish c s).cfg = s.cfg := rfl
@[simp] theorem finish_session :
    (finish c s).session = { s.session with result := c, resultValid := true } := rfl
@[simp] theorem finish_orch : (finish c s).orch = .done := rfl
@[simp] theorem finish_syncPhase : (finish c s).syncPhase = .idle := rfl
@[simp] theorem finish_syncExtra : (finish c s).syncExtra = s.syncExtra := rfl
@[simp] theorem finish_syncStatus : (finish c s).syncStatus = s.syncStatus := rfl
@[simp] theorem finish_blkAttempt : (finish c s).blkAttempt = s.blkAttempt := rfl
@[simp] theorem finish_rx : (finish c s).rx = { s.rx with active := false } := rfl
@[simp] theorem finish_blk : (finish c s).blk = s.blk := rfl
@[simp] theorem finish_chk8 : (finish c s).chk8 = s.chk8 := rfl
@[simp] theorem finish_env : (finish c s).env = s.env.imgRelease.gpioLeave := rfl
@[simp] theorem finish_port : (finish c s).port = s.port := rfl
@[simp] theorem finish_ret : (finish c s).ret = s.ret := rfl
@[simp] theorem finish_unitCall : (finish c s).unitCall = s.unitCall := rfl

end Sys2Proof.Machine
end

