-- ==== Sys2Proof/Laws/Ops.lean ====
section
/-! SUPPORT. One spec lemma per shared operation: what it can do and what it leaves alone. -/

namespace Sys2Proof.Machine

/-! ### Frames -/

theorem SameButEnv.refl (s : State) : SameButEnv s s := rfl

theorem SameButRx.refl (s : State) : SameButRx s s := rfl

theorem SameButEnv.toRx {s t : State} (h : SameButEnv s t) : SameButRx s t := by
  cases s; cases t; simp_all [SameButEnv, SameButRx]

theorem SameButRx.trans {s t u : State} (h : SameButRx s t) (h' : SameButRx t u) : SameButRx s u := by
  cases s; cases t; cases u; simp_all [SameButRx]

theorem SameButEnv.trans {s t u : State} (h : SameButEnv s t) (h' : SameButEnv t u) : SameButEnv s u := by
  cases s; cases t; cases u; simp_all [SameButEnv]

/-- Every field a `SameButRx` step keeps. -/
theorem SameButRx.fields {s t : State} (h : SameButRx s t) :
    t.cfg = s.cfg ∧ t.session = s.session ∧ t.orch = s.orch ∧ t.syncPhase = s.syncPhase ∧ t.syncExtra = s.syncExtra ∧
      t.syncStatus = s.syncStatus ∧ t.blkAttempt = s.blkAttempt ∧ t.blk = s.blk ∧ t.chk8 = s.chk8 ∧ t.port = s.port ∧
      t.ret = s.ret ∧ t.unitCall = s.unitCall := by
  cases s; cases t; simp_all [SameButRx]

/-- Every field a `SameButEnv` step keeps. -/
theorem SameButEnv.fields {s t : State} (h : SameButEnv s t) :
    t.rx = s.rx ∧ t.cfg = s.cfg ∧ t.session = s.session ∧ t.orch = s.orch ∧ t.syncPhase = s.syncPhase ∧
      t.syncExtra = s.syncExtra ∧ t.syncStatus = s.syncStatus ∧ t.blkAttempt = s.blkAttempt ∧ t.blk = s.blk ∧
      t.chk8 = s.chk8 ∧ t.port = s.port ∧ t.ret = s.ret ∧ t.unitCall = s.unitCall := by
  cases s; cases t; simp_all [SameButEnv]

theorem SameLines.refl (e : Env) : SameLines e e := ⟨rfl, rfl, rfl⟩

theorem SameLines.trans {e f g : Env} (h : SameLines e f) (h' : SameLines f g) : SameLines e g :=
  ⟨h'.1.trans h.1, h'.2.1.trans h.2.1, h'.2.2.trans h.2.2⟩

/-- The operands of the pending RECV are the same. -/
structure SameCall (a b : Receiver) : Prop where
  start : b.start = a.start
  timeout : b.timeout = a.timeout
  expected : b.expected = a.expected

theorem SameCall.refl (a : Receiver) : SameCall a a := ⟨rfl, rfl, rfl⟩

theorem SameCall.trans {a b c : Receiver} (h : SameCall a b) (h' : SameCall b c) : SameCall a c :=
  ⟨h'.start.trans h.start, h'.timeout.trans h.timeout, h'.expected.trans h.expected⟩

/-- What a poll never does: it writes no byte, touches no line, takes no timestamp, changes no operand of its RECV, and
leaves every other register alone. -/
structure Receives (s t : State) : Prop where
  regs : SameButRx s t
  lines : SameLines s.env t.env
  txs : t.env.txs = s.env.txs
  stamps : t.env.stamps = s.env.stamps
  call : SameCall s.rx t.rx

theorem Receives.refl (s : State) : Receives s s := ⟨.refl s, .refl _, rfl, rfl, .refl _⟩

theorem Receives.trans {s t u : State} (h : Receives s t) (h' : Receives t u) : Receives s u :=
  ⟨h.regs.trans h'.regs, h.lines.trans h'.lines, h'.txs.trans h.txs, h'.stamps.trans h.stamps, h.call.trans h'.call⟩

/-! ### Guards -/

theorem whenLegal_eq {s : State} (h : legalConfig s.cfg = true) (k : Host.Outcome State Fault Refusal) :
    whenLegal s k = k := by simp [whenLegal, h]

theorem whenPunctual_eq {s : State} (h : s.env.overrun = false) : whenPunctual s = .next s := by
  simp [whenPunctual, h]

theorem whenPunctual_next {s t : State} (h : whenPunctual s = .next t) : s = t ∧ t.env.overrun = false := by
  simp only [whenPunctual] at h
  split at h
  · cases h
  · rename_i h0
    cases h; exact ⟨rfl, by simpa using h0⟩

theorem whenFits_eq {b : Bytes} (h : b.length ≤ maxBodyLen) (k : Host.Outcome State Fault Refusal) :
    whenFits b k = k := by simp [whenFits, h]

theorem whenLegal_next {s t : State} {k : Host.Outcome State Fault Refusal} (h : whenLegal s k = .next t) :
    legalConfig s.cfg = true ∧ k = .next t := by
  simp only [whenLegal] at h
  split at h
  · exact ⟨‹_›, h⟩
  · cases h

theorem whenFits_next {t : State} {b : Bytes} {k : Host.Outcome State Fault Refusal} (h : whenFits b k = .next t) :
    b.length ≤ maxBodyLen ∧ k = .next t := by
  simp only [whenFits] at h
  split at h
  · exact ⟨‹_›, h⟩
  · cases h

/-! ### SLIP.DEC -/

theorem decodeEscaped_receives (s : State) : Receives s (decodeEscaped s).2 := by
  simp only [decodeEscaped]
  split <;> exact ⟨rfl, ⟨rfl, rfl, rfl⟩, rfl, rfl, ⟨rfl, rfl, rfl⟩⟩

theorem slipDecode_receives (s : State) : Receives s (slipDecode s).2 := by
  simp only [slipDecode]
  split
  · exact decodeEscaped_receives s
  · split
    · exact ⟨rfl, ⟨rfl, rfl, rfl⟩, rfl, rfl, ⟨rfl, rfl, rfl⟩⟩
    · split
      · exact ⟨rfl, ⟨rfl, rfl, rfl⟩, rfl, rfl, ⟨rfl, rfl, rfl⟩⟩
      · refine Receives.trans ?_ (decodeEscaped_receives _)
        exact ⟨rfl, ⟨rfl, rfl, rfl⟩, rfl, rfl, ⟨rfl, rfl, rfl⟩⟩

/-- SLIP.DEC changes no receive register but `esc_pending`. -/
theorem slipDecode_rx (s : State) :
    (slipDecode s).2.rx = { s.rx with escPending := (slipDecode s).2.rx.escPending } := by
  simp only [slipDecode, decodeEscaped]
  split
  · split <;> rfl
  · split
    · rfl
    · split
      · rfl
      · split <;> rfl

/-! ### SEND and RECV's beginning -/

theorem sendFrame_env (op : Byte) (p : Bytes) (chk : U32) (s : State) : SameButEnv s (sendFrame op p chk s) := by
  simp only [sendFrame]
  split <;> rfl

theorem sendFrame_lines (op : Byte) (p : Bytes) (chk : U32) (s : State) :
    SameLines s.env (sendFrame op p chk s).env := by
  simp only [sendFrame]
  split <;> exact ⟨rfl, rfl, rfl⟩

theorem sendFrame_txs (op : Byte) (p : Bytes) (chk : U32) (s : State) :
    (sendFrame op p chk s).env.txs = s.env.txs ++ frameOnWire s.cfg op p chk := by
  simp only [sendFrame, frameOnWire]
  split <;> rfl

theorem beginRecv_regs (op : Byte) (t : U32) (s : State) : SameButRx s (beginRecv op t s) := rfl

theorem beginRecv_lines (op : Byte) (t : U32) (s : State) : SameLines s.env (beginRecv op t s).env := ⟨rfl, rfl, rfl⟩

theorem beginRecv_txs (op : Byte) (t : U32) (s : State) : (beginRecv op t s).env.txs = s.env.txs := rfl

/-- The registers when a RECV has begun (R84). -/
theorem beginRecv_rx (op : Byte) (t : U32) (s : State) :
    (beginRecv op t s).rx = { s.rx with
      expected := op, timeout := t, state := .awaitingStart, hdrIdx := 0, bodyIdx := 0#16, bodyLen := 0#16
      escPending := false, start := s.env.turn.now % 2 ^ s.cfg.clkW, active := true } := rfl

/-- What a RECV's beginning does to the timestamps (R84; log 29): it takes `rx_start`, and tests none. -/
structure Starts (s t : State) : Prop where
  active : t.rx.active = true
  stamps : t.env.stamps = { s.env.stamps with rx := t.env.now }
  overrun : t.env.overrun = s.env.overrun
  start : t.rx.start = t.env.now % 2 ^ s.cfg.clkW

theorem beginRecv_starts (op : Byte) (t : U32) (s : State) : Starts s (beginRecv op t s) := ⟨rfl, rfl, rfl, rfl⟩

theorem sendFrame_stamps (op : Byte) (p : Bytes) (chk : U32) (s : State) :
    (sendFrame op p chk s).env.stamps = s.env.stamps ∧ (sendFrame op p chk s).env.overrun = s.env.overrun := by
  simp only [sendFrame]
  split <;> exact ⟨rfl, rfl⟩

theorem beginCmd_starts (op : Byte) (p : Bytes) (chk t : U32) (s : State) : Starts s (beginCmd op p chk t s) := by
  obtain ⟨h1, h2⟩ := sendFrame_stamps op p chk s
  obtain ⟨a, b, c, d⟩ := beginRecv_starts op t (sendFrame op p chk s)
  rw [(sendFrame_env op p chk s).fields.2.1] at d
  exact ⟨a, by rw [h1] at b; exact b, c.trans h2, d⟩

theorem beginCmd_regs (op : Byte) (p : Bytes) (chk t : U32) (s : State) : SameButRx s (beginCmd op p chk t s) :=
  (sendFrame_env op p chk s).toRx.trans (beginRecv_regs op t _)

theorem beginCmd_lines (op : Byte) (p : Bytes) (chk t : U32) (s : State) :
    SameLines s.env (beginCmd op p chk t s).env :=
  (sendFrame_lines op p chk s).trans (beginRecv_lines op t _)

theorem beginCmd_txs (op : Byte) (p : Bytes) (chk t : U32) (s : State) :
    (beginCmd op p chk t s).env.txs = s.env.txs ++ frameOnWire s.cfg op p chk :=
  (beginRecv_txs op t _).trans (sendFrame_txs op p chk s)

theorem beginCmd_active (op : Byte) (p : Bytes) (chk t : U32) (s : State) :
    (beginCmd op p chk t s).rx.active = true := rfl

/-! ### One poll -/

/-- The state a poll leaves, whatever it came to. -/
def Poll.state : Poll → State
  | .wait s => s
  | .again s => s
  | .ended _ s => s

theorem endRecv_receives {s t : State} (h : Receives s t) (r : ResultCode) : Receives s (endRecv r t).state :=
  h.trans ⟨rfl, ⟨rfl, rfl, rfl⟩, rfl, rfl, ⟨rfl, rfl, rfl⟩⟩

theorem atPoll_receives (s : State) : Receives s s.atPoll := ⟨rfl, ⟨rfl, rfl, rfl⟩, rfl, rfl, ⟨rfl, rfl, rfl⟩⟩

theorem rxByte_receives (s : State) : Receives s { s with env := s.env.rxByte.2 } := ⟨rfl, ⟨rfl, rfl, rfl⟩, rfl, rfl, ⟨rfl, rfl, rfl⟩⟩

theorem storeHeaderByte_call (c : Byte) (rx : Receiver) : SameCall rx (storeHeaderByte c rx) := by
  simp only [storeHeaderByte]; split <;> exact ⟨rfl, rfl, rfl⟩

theorem storeBodyByte_call (cap : Nat) (c : Byte) (rx : Receiver) : SameCall rx (storeBodyByte cap c rx) :=
  ⟨rfl, rfl, rfl⟩

theorem pollDecoded_receives {store : Byte → Receiver → Receiver} (hs : ∀ c rx, SameCall rx (store c rx))
    (s : State) : Receives s (pollDecoded store s).state := by
  have h := slipDecode_receives s
  simp only [pollDecoded]
  split
  · exact h
  · exact h
  · exact endRecv_receives h _
  · exact endRecv_receives h _
  · exact h.trans ⟨rfl, ⟨rfl, rfl, rfl⟩, rfl, rfl, hs _ _⟩

theorem pollStart_receives (s : State) : Receives s (pollStart s).state := by
  simp only [pollStart]
  split
  · exact rxByte_receives s
  · dsimp only [Poll.state]
    split
    · exact (rxByte_receives s).trans ⟨rfl, ⟨rfl, rfl, rfl⟩, rfl, rfl, ⟨rfl, rfl, rfl⟩⟩
    · exact rxByte_receives s

theorem pollEnd_receives (s : State) : Receives s (pollEnd s).state := by
  simp only [pollEnd]
  split
  · exact rxByte_receives s
  · split
    · refine endRecv_receives ?_ _
      exact ⟨rfl, ⟨rfl, rfl, rfl⟩, rfl, rfl, ⟨rfl, rfl, rfl⟩⟩
    · exact endRecv_receives (rxByte_receives s) _

/-- R84: a poll touches nothing but the receive registers, `RXQ` and the clock port. -/
theorem poll_receives (s : State) : Receives s (poll s).state := by
  have h := atPoll_receives s
  simp only [poll]
  split
  · exact endRecv_receives h _
  · split
    · exact h.trans (pollStart_receives _)
    · exact h.trans (pollDecoded_receives storeHeaderByte_call _)
    · exact h.trans (pollDecoded_receives (storeBodyByte_call _) _)
    · exact h.trans (pollEnd_receives _)
    · exact endRecv_receives h _

/-- A poll tests `rx_start` once, at its beginning (R84; log 29). -/
theorem poll_overrun (s : State) : (poll s).state.env.overrun = s.atPoll.env.overrun := by
  have h1 : ∀ u : State, (slipDecode u).2.env.overrun = u.env.overrun := by
    intro u
    simp only [slipDecode, decodeEscaped]
    split
    · split <;> rfl
    · split
      · rfl
      · split
        · rfl
        · split <;> rfl
  simp only [poll]
  split
  · rfl
  · split
    · simp only [pollStart]
      split
      · rfl
      · dsimp only [Poll.state]; split <;> rfl
    · simp only [pollDecoded]
      split <;> exact h1 _
    · simp only [pollDecoded]
      split <;> exact h1 _
    · simp only [pollEnd]
      split
      · rfl
      · split <;> rfl
    · rfl

/-- A RECV that has ended is no longer active (R84, R163). -/
theorem poll_ended_inactive {s t : State} {r : ResultCode} (h : poll s = .ended r t) : t.rx.active = false := by
  simp only [poll] at h
  split at h
  · cases h; rfl
  · split at h
    · simp only [pollStart] at h
      split at h <;> cases h
    · simp only [pollDecoded] at h
      split at h <;> cases h <;> rfl
    · simp only [pollDecoded] at h
      split at h <;> cases h <;> rfl
    · simp only [pollEnd] at h
      split at h
      · cases h
      · split at h <;> cases h <;> rfl
    · cases h; rfl

/-- R166 (a): the timeout is tested before anything is read. -/
theorem poll_timeout {s : State} (h : timedOut s.cfg.clkW s.env.turn.now s.rx.start s.rx.timeout = true) :
    ∃ t, poll s = .ended .timeout t ∧ t.env.rxq = s.env.turn.rxq := by
  simp only [poll, Env.readClock_fst, State.atPoll_cfg, State.atPoll_rx, timedOut_mod, h, if_true, endRecv]
  exact ⟨_, rfl, rfl⟩

/-! ### The poll loop -/

/-- The induction over the poll loop, once: P holds at every poll, Q of the state the loop answers. -/
theorem pollLoop_induct (c : Caller) (P Q : State → Prop)
    (hwait : ∀ s s1, P s → poll s = .wait s1 → Q s1.inProgress)
    (hstop : ∀ s, P s → Q s.inProgress)
    (hagain : ∀ s s1, P s → poll s = .again s1 → P s1)
    (hnext : ∀ s s1 s2 st, P s → poll s = .ended st s1 → opContinue c.op st s1 = .again s2 → P s2)
    (hlast : ∀ s s1 s2 st st2, P s → poll s = .ended st s1 → opContinue c.op st s1 = .finished st2 s2 →
      Q (deliver c st2 s2))
    (n : Nat) (s : State) (h : P s) : Q (pollLoop n c s) := by
  induction n generalizing s with
  | zero => exact hstop s h
  | succ n ih =>
    rw [pollLoop]
    split
    case h_1 s1 he => exact hwait s s1 h he
    case h_2 s1 he => exact ih s1 (hagain s s1 h he)
    case h_3 st s1 he =>
      split
      case h_1 s2 ho => exact ih s2 (hnext s s1 s2 st h he ho)
      case h_2 st2 s2 ho => exact hlast s s1 s2 st st2 h he ho

/-- What a poll can come to, with its frame. -/
theorem poll_wait {s t : State} (h : poll s = .wait t) : Receives s t := by
  have := poll_receives s; rwa [h] at this

theorem poll_again {s t : State} (h : poll s = .again t) : Receives s t := by
  have := poll_receives s; rwa [h] at this

theorem poll_ended {s t : State} {r : ResultCode} (h : poll s = .ended r t) : Receives s t := by
  have := poll_receives s; rwa [h] at this

end Sys2Proof.Machine
end

