-- ==== Sys2Proof/Laws/Loop.lean ====
section
/-! SUPPORT. The poll loop without its fuel (log 19): the fuel never runs out, so `await` is its own unfolding. -/

namespace Sys2Proof.Machine

theorem Exchanged.bytesToCome {a b : Bytes} {e f : Env} (h : Exchanged a b e f) :
    bytesToCome e = b.length + bytesToCome f := by
  obtain ⟨-, -, -, k, h1, -, h3⟩ := h
  have h2 := congrArg List.length h3
  have h4 := congrArg (fun l => (List.flatMap EnvAct.rx l).length) (List.take_append_drop k e.script)
  simp only [List.flatMap_append, List.length_append] at h2 h4
  simp only [Machine.bytesToCome, h1]
  omega

/-- `RxByte()` reads the byte that is first after the environment's turn, or none. -/
theorem Exchanged.rxSome {e : Env} {b : Byte} (h : e.turn.rxq.head? = some b) : Exchanged [] [b] e e.rxByte.2 := by
  refine ⟨⟨rfl, rfl, rfl⟩, by simp,
    ⟨[_], rfl, by simp [Event.sent], by rw [h]; simp [Event.received], by simp [Event.exchanges]⟩, 1, ?_, ?_, ?_⟩
  · simp
  · simp only [Env.rxByte_now, Env.turn_now]; cases e.script <;> simp
  · simp only [Env.rxByte_rxq]
    have : e.turn.rxq = b :: e.turn.rxq.tail := by
      cases hq : e.turn.rxq with
      | nil => rw [hq] at h; simp at h
      | cons a q => rw [hq] at h; simp at h; simp [h]
    rw [show [b] ++ e.turn.rxq.tail = b :: e.turn.rxq.tail from rfl, ← this]
    simp only [Env.turn_rxq]; cases e.script <;> simp

theorem Exchanged.rx (e : Env) : Exchanged [] (e.turn.rxq.head?.toList) e e.rxByte.2 := by
  cases h : e.turn.rxq.head? with
  | none => exact Exchanged.rxNone (by simpa using h)
  | some b => exact Exchanged.rxSome h

/-- The raw bytes one SLIP.DEC reads. -/
theorem slipDecode_exchanged (s : State) : ∃ bs, Exchanged [] bs s.env (slipDecode s).2.env ∧
    ((slipDecode s).1 = .noData ∨ (slipDecode s).1 = .escPending ∨ 1 ≤ bs.length) := by
  have esc : ∀ u : State, ∃ bs, Exchanged [] bs u.env (decodeEscaped u).2.env ∧
      ((decodeEscaped u).1 = .escPending ∨ 1 ≤ bs.length) := by
    intro u
    refine ⟨u.env.turn.rxq.head?.toList, ?_, ?_⟩
    · have := Exchanged.rx u.env
      simp only [decodeEscaped]
      split <;> exact this
    · simp only [decodeEscaped, Env.rxByte_fst]
      cases u.env.turn.rxq.head? <;> simp
  simp only [slipDecode]
  split
  · obtain ⟨bs, h1, h2⟩ := esc s
    exact ⟨bs, h1, h2.elim (fun h => .inr (.inl h)) (fun h => .inr (.inr h))⟩
  · have h0 := Exchanged.rx s.env
    split
    · exact ⟨_, h0, .inl rfl⟩
    · rename_i b hb
      rw [Env.rxByte_fst] at hb
      rw [hb] at h0
      split
      · exact ⟨_, h0, .inr (.inr (by simp))⟩
      · obtain ⟨bs, h1, h2⟩ := esc { s with env := s.env.rxByte.2, rx := { s.rx with escPending := true } }
        exact ⟨_, h0.read h1, .inr (.inr (by simp))⟩

/-- The clock's turn at a poll. -/
theorem atPoll_exchanged (s : State) : Exchanged [] [] s.env s.atPoll.env :=
  (Exchanged.readClock s.cfg.clkW s.env).same s.atPoll.env.stamps s.atPoll.env.overrun

/-- A poll reads bytes and writes none; one that goes on has read at least one. -/
theorem poll_exchanged (s : State) : ∃ bs, Exchanged [] bs s.env (poll s).state.env ∧
    ((∃ t, poll s = .again t) → 1 ≤ bs.length) ∧
    (∀ r t, poll s = .ended r t → r = .timeout ∨ r = .slipStateError ∨ 1 ≤ bs.length) := by
  have hc := atPoll_exchanged s
  simp only [poll]
  split
  · exact ⟨_, hc, by simp [endRecv], by intro r t h; cases h; exact .inl rfl⟩
  · split
    · simp only [pollStart]
      have h0 := hc.read (Exchanged.rx s.atPoll.env)
      split
      · exact ⟨_, h0, by simp, by simp⟩
      · rename_i b hb
        rw [Env.rxByte_fst] at hb
        refine ⟨[] ++ s.atPoll.env.turn.rxq.head?.toList, ?_, fun _ => ?_, fun _ _ h => by cases h⟩
        · dsimp only [Poll.state]
          split
          · exact h0
          · exact h0
        · simp only [hb]; simp
    all_goals try
      simp only [pollDecoded]
      obtain ⟨bs, h1, h2⟩ := slipDecode_exchanged s.atPoll
      have h3 := hc.read h1
      split <;> rename_i ho <;> simp only [ho] at h2
      · exact ⟨_, h3, by simp, by simp⟩
      · exact ⟨_, h3, by simp, by simp⟩
      · exact ⟨_, h3, by simp [endRecv], fun _ _ _ => .inr (.inr (by simpa using h2))⟩
      · exact ⟨_, h3, by simp [endRecv], fun _ _ _ => .inr (.inr (by simpa using h2))⟩
      · exact ⟨_, h3, fun _ => by simpa using h2, by simp⟩
    · simp only [pollEnd]
      have h0 := hc.read (Exchanged.rx s.atPoll.env)
      split
      · exact ⟨_, h0, by simp, by simp⟩
      · rename_i b hb
        rw [Env.rxByte_fst] at hb
        have h4 : 1 ≤ ([] ++ s.atPoll.env.turn.rxq.head?.toList).length := by rw [hb]; simp
        split
        · exact ⟨_, h0, by simp [endRecv], fun _ _ _ => .inr (.inr h4)⟩
        · exact ⟨_, h0, by simp [endRecv], fun _ _ _ => .inr (.inr h4)⟩
    · exact ⟨_, hc, by simp [endRecv], by intro r t h; cases h; exact .inr (.inl rfl)⟩

theorem sendFrame_exchanged (op : Byte) (p : Bytes) (chk : U32) (s : State) :
    Exchanged (frameOnWire s.cfg op p chk) [] s.env (sendFrame op p chk s).env := by
  simp only [sendFrame, frameOnWire]
  split
  · exact Exchanged.txBlock _ _
  · exact Exchanged.txBytes _ _

theorem beginRecv_exchanged (op : Byte) (t : U32) (s : State) : Exchanged [] [] s.env (beginRecv op t s).env :=
  (Exchanged.readClock s.cfg.clkW s.env).same (beginRecv op t s).env.stamps (beginRecv op t s).env.overrun

theorem beginCmd_exchanged (op : Byte) (p : Bytes) (chk t : U32) (s : State) :
    Exchanged (frameOnWire s.cfg op p chk) [] s.env (beginCmd op p chk t s).env :=
  (sendFrame_exchanged op p chk s).read (beginRecv_exchanged op t _)

/-- RECVs that can still begin without a byte having been read. -/
def triesLeft (s : State) : Nat := 3 - s.blkAttempt

/-- Polls that are certainly enough. -/
def pollNeed (s : State) : Nat := bytesToCome s.env + triesLeft s + 1

theorem opContinue_again {op : UnitOp} {st : ResultCode} {s t : State} (h : opContinue op st s = .again t) :
    bytesToCome t.env = bytesToCome s.env ∧ triesLeft t ≤ triesLeft s ∧
      (triesLeft t < triesLeft s ∨ st = .success ∨ st = .responseHeaderError) := by
  cases op <;> simp only [opContinue] at h <;> try cases h
  · -- sync
    have key : ∀ (st' : ResultCode) (u : State), syncDecide st' u = .again t → u.env = s.env → u.blkAttempt = s.blkAttempt →
        bytesToCome t.env = bytesToCome s.env ∧ triesLeft t ≤ triesLeft s ∧ (st' = .success ∨ st' = .responseHeaderError) := by
      intro st' u hu he hb
      unfold syncDecide at hu
      by_cases hx : extraReadDue st' u.syncExtra = true
      · rw [if_pos hx] at hu
        cases hu
        have := (beginRecv_exchanged u.cfg.opcSync u.rx.timeout u).bytesToCome
        refine ⟨by rw [he] at this; simpa using this.symm, by simp [triesLeft, beginRecv, hb], by simp [extraReadDue] at hx; exact .inr hx.2⟩
      · rw [if_neg hx] at hu
        split at hu
        · rename_i hx
          cases hu
          have := (beginRecv_exchanged u.cfg.opcSync u.cfg.tDefault
            { u with syncStatus := st', syncPhase := .flush }).bytesToCome
          exact ⟨by rw [← he]; simpa using this.symm, by simp [triesLeft, beginRecv, hb], .inl hx⟩
        · cases hu
    simp only [syncContinue] at h
    split at h
    · obtain ⟨h1, h2, h3⟩ := key _ _ h rfl rfl
      refine ⟨h1, h2, .inr ?_⟩
      revert h3
      simp only [replyStatus]
      split <;> simp
    · obtain ⟨h1, h2, h3⟩ := key _ _ h rfl rfl
      exact ⟨h1, h2, .inr h3⟩
    · split at h
      · rename_i hx
        cases h
        have := (beginRecv_exchanged s.cfg.opcSync s.cfg.tDefault s).bytesToCome
        simp [flushGoesOn] at hx
        exact ⟨by simpa using this.symm, by simp [triesLeft, beginRecv], .inr (.inl hx.1)⟩
      · cases h
    · cases h
  · -- fdata
    unfold fdataContinue at h
    by_cases hx : retryDue (replyStatus st s.rx.bodyLen) s.blkAttempt = true
    · simp only [hx, if_true] at h
      cases h
      have := (beginCmd_exchanged s.cfg.opcFlashData (blockBody s.blk) (zext32 s.chk8) s.cfg.tBlock
        { s with blkAttempt := s.blkAttempt + 1 }).bytesToCome
      have hx2 : s.blkAttempt < 3 := by simp [retryDue, blockAttempts] at hx; exact of_decide_eq_true hx.2
      have hb : (fdataAttempt s).blkAttempt = s.blkAttempt + 1 := by
        have := (beginCmd_regs s.cfg.opcFlashData (blockBody s.blk) (zext32 s.chk8) s.cfg.tBlock
          { s with blkAttempt := s.blkAttempt + 1 }).fields
        simpa [fdataAttempt] using this.2.2.2.2.2.2.1
      refine ⟨by simpa [fdataAttempt] using this.symm, ?_, .inl ?_⟩ <;> simp only [triesLeft, hb] <;> omega
    · simp only [hx] at h
      cases h

theorem pollLoop_enough (c : Caller) (n m : Nat) (s : State) (hn : pollNeed s ≤ n) (hm : pollNeed s ≤ m) :
    pollLoop n c s = pollLoop m c s := by
  induction n generalizing m s with
  | zero => simp [pollNeed] at hn
  | succ n ih =>
    cases m with
    | zero => simp [pollNeed] at hm
    | succ m =>
      obtain ⟨bs, h1, h2, h3⟩ := poll_exchanged s
      have hr := poll_receives s
      have hb := h1.bytesToCome
      have ht : triesLeft (poll s).state = triesLeft s := by
        simp [triesLeft, hr.regs.fields.2.2.2.2.2.2.1]
      rw [pollLoop, pollLoop]
      split
      · rfl
      · rename_i s1 hp
        have := h2 ⟨_, hp⟩
        rw [hp] at hb ht
        simp only [Poll.state] at hb ht
        apply ih <;> simp only [pollNeed] at * <;> omega
      · rename_i st s1 hp
        have h4 := h3 _ _ hp
        rw [hp] at hb ht
        simp only [Poll.state] at hb ht
        split
        · rename_i s2 ho
          obtain ⟨g1, g2, g3⟩ := opContinue_again ho
          have g4 : triesLeft s2 < triesLeft s1 ∨ 1 ≤ bs.length := by
            rcases g3 with g | g | g
            · exact .inl g
            · subst g; exact .inr (by simpa using h4)
            · subst g; exact .inr (by simpa using h4)
          apply ih <;> simp only [pollNeed] at * <;> omega
        · rfl

/-- The poll loop without its fuel (log 19): what one poll comes to decides how it goes on. -/
theorem await_eq (c : Caller) (s : State) :
    await c s =
      match poll s with
      | .wait s1 => s1.inProgress
      | .again s1 => await c s1
      | .ended st s1 =>
        match opContinue c.op st s1 with
        | .again s2 => await c s2
        | .finished st2 s2 => deliver c st2 s2 := by
  have e : ∀ u, await c u = pollLoop (pollNeed u) c u := fun u =>
    pollLoop_enough c _ _ u (by simp only [pollNeed, pollBudget, triesLeft]; omega) (Nat.le_refl _)
  rw [await, show pollBudget s = (bytesToCome s.env + 7) + 1 from rfl, pollLoop]
  obtain ⟨bs, h1, h2, h3⟩ := poll_exchanged s
  have hr := poll_receives s
  have hb := h1.bytesToCome
  cases hp : poll s with
  | wait s1 => rfl
  | again s1 =>
    have := h2 ⟨_, hp⟩
    rw [hp] at hb
    simp only [Poll.state] at hb
    dsimp only
    rw [e]
    apply pollLoop_enough <;> simp only [pollNeed, triesLeft] <;> omega
  | ended st s1 =>
    rw [hp] at hb
    simp only [Poll.state] at hb
    dsimp only
    cases ho : opContinue c.op st s1 with
    | again s2 =>
      obtain ⟨g1, g2, g3⟩ := opContinue_again ho
      dsimp only
      rw [e]
      apply pollLoop_enough <;> simp only [pollNeed, triesLeft] at * <;> omega
    | finished st2 s2 => rfl

end Sys2Proof.Machine
end

