-- ==== Sys2Proof/Laws/Receive.lean ====
section
/-! SUPPORT. How the pending RECV reads a frame that stands in `RXQ`, byte by byte (R84): `await_open` up to the last
byte of its content, `await_frame` to its end. -/

namespace Sys2Proof.Machine

/-- The pending RECV cannot time out: what the clock has advanced since it began and what it still will is within the
limit. -/
def OnTime (s : State) : Prop := elapsed s.cfg.clkW s.env.now s.rx.start + slack s.env ≤ s.rx.timeout.toNat

/-- t follows s by reading `read` and nothing else than the receive machine and the environment has changed. -/
structure Got (read : Bytes) (s t : State) : Prop where
  regs : SameButRx s t
  env : Exchanged [] read s.env t.env

theorem Got.refl (s : State) : Got [] s s := ⟨.refl s, .refl _⟩

theorem Got.trans {a b : Bytes} {s t u : State} (h : Got a s t) (h' : Got b t u) : Got (a ++ b) s u :=
  ⟨h.regs.trans h'.regs, h.env.read h'.env⟩

theorem OnTime.mono {a : Bytes} {s t : State} (h : OnTime s) (hg : Got a s t) (hs : t.rx.start = s.rx.start)
    (ht : t.rx.timeout = s.rx.timeout) : OnTime t := by
  have := hg.env.elapsed s.cfg.clkW s.rx.start
  simp only [OnTime, hs, ht, hg.regs.fields.1] at *
  omega

theorem OnTime.fresh {s : State} (h : OnTime s) :
    timedOut s.cfg.clkW s.env.turn.now s.rx.start s.rx.timeout = false := by
  have : elapsed s.cfg.clkW s.env.turn.now s.rx.start + slack s.atPoll.env ≤ _ :=
    (atPoll_exchanged s).elapsed s.cfg.clkW s.rx.start
  simp only [timedOut, OnTime, decide_eq_false_iff_not] at *
  omega

/-- A poll on time is the case over `rx_state` (R84). -/
theorem OnTime.poll {s : State} (h : OnTime s) :
    poll s =
      match s.rx.state with
      | .awaitingStart => pollStart s.atPoll
      | .readingHeader => pollDecoded storeHeaderByte s.atPoll
      | .readingBody => pollDecoded (storeBodyByte s.cfg.respBodyCap) s.atPoll
      | .awaitingEnd => pollEnd s.atPoll
      | .complete => endRecv .slipStateError s.atPoll := by
  simp only [Machine.poll, Env.readClock_fst, timedOut_mod, State.atPoll_cfg, State.atPoll_rx, h.fresh, Bool.false_eq_true,
    if_false]
  all_goals cases s.rx.state <;> rfl

/-! ### One byte -/

theorem rxByte_some {e : Env} {b : Byte} {q : Bytes} (h : e.rxq = b :: q) : e.rxByte.1 = some b := by simp [h]


theorem slipDecode_stuffed {s : State} {b : Byte} {q : Bytes} (he : s.rx.escPending = false)
    (hq : s.env.rxq = stuffByte b ++ q) :
    ∃ t, slipDecode s = (.byte b, t) ∧ t.rx = s.rx ∧ Got (stuffByte b) s t := by
  have he' : { s.rx with escPending := false } = s.rx := by rw [← he]
  obtain ⟨h, hs⟩ | ⟨h, hs⟩ | ⟨h1, h2, hs⟩ := stuffByte_cases b
  · rw [hs] at hq
    have e1 : s.env.rxByte.1 = some slipESC := by simp [hq]
    have e2 : s.env.rxByte.2.rxq = slipESCEND :: (q ++ turnRx s.env.script) := by simp [hq]
    have e3 : s.env.rxByte.2.rxByte.1 = some slipESCEND := rxByte_some e2
    refine ⟨{ s with env := s.env.rxByte.2.rxByte.2, rx := s.rx }, ?_, rfl, ⟨rfl, ?_⟩⟩
    · simp only [slipDecode, he, decodeEscaped, e1, e3, firstByteOutcome_esc, escapedOutcome_escEnd, Bool.false_eq_true,
        if_false]
      rw [he', h]
    · rw [hs]
      exact (Exchanged.rxByte hq).read (Exchanged.rxByte e2)
  · rw [hs] at hq
    have e1 : s.env.rxByte.1 = some slipESC := by simp [hq]
    have e2 : s.env.rxByte.2.rxq = slipESCESC :: (q ++ turnRx s.env.script) := by simp [hq]
    have e3 : s.env.rxByte.2.rxByte.1 = some slipESCESC := rxByte_some e2
    refine ⟨{ s with env := s.env.rxByte.2.rxByte.2, rx := s.rx }, ?_, rfl, ⟨rfl, ?_⟩⟩
    · simp only [slipDecode, he, decodeEscaped, e1, e3, firstByteOutcome_esc, escapedOutcome_escEsc, Bool.false_eq_true,
        if_false]
      rw [he', h]
    · rw [hs]
      exact (Exchanged.rxByte hq).read (Exchanged.rxByte e2)
  · rw [hs] at hq
    have e1 : s.env.rxByte.1 = some b := by simp [hq]
    refine ⟨{ s with env := s.env.rxByte.2 }, ?_, rfl, ⟨rfl, ?_⟩⟩
    · simp only [slipDecode, he, e1, firstByteOutcome_plain h1 h2, Bool.false_eq_true, if_false]
    · rw [hs]
      exact Exchanged.rxByte hq

theorem slipDecode_boundary {s : State} {q : Bytes} (he : s.rx.escPending = false) (hq : s.env.rxq = slipEND :: q) :
    ∃ t, slipDecode s = (.frameBoundary, t) ∧ t.rx = s.rx ∧ Got [slipEND] s t := by
  have e1 : s.env.rxByte.1 = some slipEND := by simp [hq]
  refine ⟨{ s with env := s.env.rxByte.2 }, ?_, rfl, ⟨rfl, Exchanged.rxByte hq⟩⟩
  simp only [slipDecode, he, e1, firstByteOutcome_end, Bool.false_eq_true, if_false]

theorem slipDecode_bad {s : State} {b : Byte} {q : Bytes} (he : s.rx.escPending = false)
    (hq : s.env.rxq = slipESC :: b :: q) (h1 : b ≠ slipESCEND) (h2 : b ≠ slipESCESC) :
    ∃ t, slipDecode s = (.badEscape, t) ∧ t.rx = s.rx ∧ Got [slipESC, b] s t := by
  have he' : { s.rx with escPending := false } = s.rx := by rw [← he]
  have e1 : s.env.rxByte.1 = some slipESC := by simp [hq]
  have e2 : s.env.rxByte.2.rxq = b :: (q ++ turnRx s.env.script) := by simp [hq]
  have e3 : s.env.rxByte.2.rxByte.1 = some b := rxByte_some e2
  refine ⟨{ s with env := s.env.rxByte.2.rxByte.2, rx := s.rx }, ?_, rfl, ⟨rfl, (Exchanged.rxByte hq).read (Exchanged.rxByte e2)⟩⟩
  simp only [slipDecode, he, decodeEscaped, e1, e3, firstByteOutcome_esc, Bool.false_eq_true, if_false]
  rw [he']
  simp [escapedOutcome, h1, h2]

/-! ### The registers inside a frame -/

/-- A byte is stored where the receive machine stands (R84). -/
def storeByte (cap : Nat) (b : Byte) (rx : Receiver) : Receiver :=
  if rx.state = .readingHeader then storeHeaderByte b rx else storeBodyByte cap b rx

/-- The byte stands where it is stored, and the others stay. -/
theorem storeAt_spec {k : Nat} {bs : Bytes} (h : k ≤ bs.length) (c : Byte) :
    k < (storeAt k c bs).length ∧ bs.length ≤ (storeAt k c bs).length ∧ (k < bs.length → (storeAt k c bs).length = bs.length) ∧
      ∀ j, byteAt (storeAt k c bs) j = if j = k then c else byteAt bs j := by
  refine ⟨by simp [storeAt, h], by simp [storeAt, h]; omega, fun _ => by simp [storeAt]; omega, fun j => ?_⟩
  have hl : (bs.take k).length = k := by simp [h]
  by_cases hj : j = k
  · subst hj
    simp [byteAt, storeAt, h]
  · rw [if_neg hj]
    by_cases hlt : j < k
    · simp [byteAt, storeAt, List.getElem?_append, h, hlt, show j < bs.length by omega]
    · have h1 : j - k = (j - (k + 1)) + 1 := by omega
      have h2 : k + 1 + (j - (k + 1)) = j := by omega
      simp [byteAt, storeAt, List.getElem?_append, h, hlt, h1, h2]

/-- The receive registers after the logical bytes p of a frame, from rx0 where its RECV began. -/
structure At (cap : Nat) (rx0 : Receiver) (p : Bytes) (rx : Receiver) : Prop where
  active : rx.active = true
  esc : rx.escPending = false
  start : rx.start = rx0.start
  timeout : rx.timeout = rx0.timeout
  expected : rx.expected = rx0.expected
  header : rx.hdr.toList.take p.length = p.take 8
  short : p.length < 8 → rx.state = .readingHeader ∧ rx.hdrIdx = p.length ∧ rx.bodyIdx = 0#16
  long : 8 ≤ p.length → p.length ≤ 8 + (getLe16 p 2).toNat ∧ rx.hdrIdx = 8 ∧ rx.bodyLen = getLe16 p 2 ∧ rx.respValue = getLe32 p 4 ∧
    rx.bodyIdx.toNat = p.length - 8 ∧ (∀ i, i < cap → 8 + i < p.length → i < rx.respBody.length ∧ byteAt rx.respBody i = byteAt p (8 + i)) ∧
    rx.state = if p.length = 8 + (getLe16 p 2).toNat then .awaitingEnd else .readingBody

theorem byteAt_append_left {a b : Bytes} {i : Nat} (h : i < a.length) : byteAt (a ++ b) i = byteAt a i := by
  simp [byteAt, List.getElem?_append_left h]

theorem getLe16_append {a b : Bytes} {i : Nat} (h : i + 1 < a.length) : getLe16 (a ++ b) i = getLe16 a i := by
  simp only [getLe16]
  rw [byteAt_append_left (by omega), byteAt_append_left h]

theorem getLe32_append {a b : Bytes} {i : Nat} (h : i + 3 < a.length) : getLe32 (a ++ b) i = getLe32 a i := by
  simp only [getLe32]
  rw [byteAt_append_left (by omega), byteAt_append_left (by omega), byteAt_append_left (by omega), byteAt_append_left h]

theorem At.reading {cap : Nat} {rx0 rx : Receiver} {p : Bytes} (h : At cap rx0 p rx) (hu : Unfinished p) :
    rx.state = .readingHeader ∨ rx.state = .readingBody := by
  rcases Nat.lt_or_ge p.length 8 with h8 | h8
  · exact .inl (h.short h8).1
  · have := (h.long h8).2.2.2.2.2.2
    rw [if_neg (by rcases hu with hu | hu <;> omega)] at this
    exact .inr this

theorem At.store {cap : Nat} {rx0 rx : Receiver} {p : Bytes} (h : At cap rx0 p rx) (hu : Unfinished p) (b : Byte) :
    At cap rx0 (p ++ [b]) (storeByte cap b rx) := by
  rcases Nat.lt_or_ge p.length 8 with h8 | h8
  · obtain ⟨hs, hi, hb⟩ := h.short h8
    have hlen : rx.hdr.toList.length = 8 := by simp
    have hset : (rx.hdr.setIfInBounds p.length b).toList.take (p.length + 1) = p ++ [b] := by
      have hp : rx.hdr.toList.take p.length = p := by rw [h.header, List.take_of_length_le (by omega)]
      rw [Vector.toList_setIfInBounds, List.take_add_one, List.take_set_of_le (Nat.le_refl _), hp]
      simp [h8]
    rcases Nat.lt_or_ge (p.length + 1) 8 with h9 | h9
    · have hne : ¬ p.length + 1 = hdrLen := by simp [hdrLen]; omega
      have e : storeByte cap b rx = { rx with hdr := rx.hdr.setIfInBounds p.length b, hdrIdx := p.length + 1 } := by
        simp [storeByte, hs, storeHeaderByte, hi, hne]
      rw [e]
      refine ⟨h.active, h.esc, h.start, h.timeout, h.expected, ?_, ?_, ?_⟩
      · simp only [List.length_append, List.length_singleton]
        rw [hset, List.take_of_length_le (by simp; omega)]
      · intro _; exact ⟨hs, by simp, hb⟩
      · intro h'; simp at h'; omega
    · have h7 : p.length = 7 := by omega
      have hw : (rx.hdr.setIfInBounds 7 b).toList = p ++ [b] := by
        rw [h7] at hset
        rwa [List.take_of_length_le (by simp)] at hset
      have e : storeByte cap b rx = { rx with
          hdr := rx.hdr.setIfInBounds 7 b, hdrIdx := 8, bodyLen := getLe16 (p ++ [b]) 2, respValue := getLe32 (p ++ [b]) 4
          state := if getLe16 (p ++ [b]) 2 ≠ 0#16 then .readingBody else .awaitingEnd } := by
        simp [storeByte, hs, storeHeaderByte, hi, hdrLen, h7, hw]
      rw [e]
      refine ⟨h.active, h.esc, h.start, h.timeout, h.expected, ?_, ?_, ?_⟩
      · dsimp only
        rw [hw]; simp [h7]
      · intro h'; simp at h'; omega
      · intro _
        refine ⟨by simp; omega, rfl, rfl, rfl, by simp [hb, h7], by intro i _ h'; simp at h'; omega, ?_⟩
        by_cases hz : getLe16 (p ++ [b]) 2 = 0#16
        · simp [hz, h7]
        · have : (getLe16 (p ++ [b]) 2).toNat ≠ 0 := fun h0 => hz (BitVec.eq_of_toNat_eq (by simpa using h0))
          simp only [ne_eq, hz, not_false_eq_true, if_true, List.length_append, List.length_singleton]
          rw [if_neg (by omega)]
  · obtain ⟨hle, hi, hl, hv, hb, hr, hst⟩ := h.long h8
    have hlt : p.length < 8 + (getLe16 p 2).toNat := by rcases hu with hu | hu <;> omega
    rw [if_neg (by omega)] at hst
    have g2 : getLe16 (p ++ [b]) 2 = getLe16 p 2 := getLe16_append (by omega)
    have g4 : getLe32 (p ++ [b]) 4 = getLe32 p 4 := getLe32_append (by omega)
    have hn : (rx.bodyIdx + 1#16).toNat = p.length - 7 := by
      have : (getLe16 p 2).toNat < 2 ^ 16 := (getLe16 p 2).isLt
      rw [BitVec.toNat_add, hb]
      simp
      omega
    have e : storeByte cap b rx = storeBodyByte cap b rx := by simp [storeByte, hst]
    rw [e]
    refine ⟨h.active, h.esc, h.start, h.timeout, h.expected, ?_, ?_, ?_⟩
    · simp only [storeBodyByte, List.length_append, List.length_singleton]
      have := h.header
      rw [List.take_of_length_le (by simp; omega)] at this ⊢
      rw [this, List.take_append_of_le_length h8]
    · intro h'; simp at h'; omega
    · intro _
      simp only [g2, g4, storeBodyByte, List.length_append, List.length_singleton]
      refine ⟨by omega, hi, hl, hv, by rw [hn]; omega, ?_, ?_⟩
      · intro i hi2 h'
        have hk : rx.bodyIdx.toNat < cap → rx.bodyIdx.toNat ≤ rx.respBody.length := by
          intro hc
          rcases Nat.eq_zero_or_pos rx.bodyIdx.toNat with h0 | h0
          · omega
          · have := (hr (rx.bodyIdx.toNat - 1) (by omega) (by omega)).1
            omega
        by_cases hlast : 8 + i = p.length
        · have hb0 : rx.bodyIdx.toNat = i := by omega
          have : byteAt (p ++ [b]) (8 + i) = b := by simp [byteAt, hlast]
          rw [this, if_pos (by omega)]
          obtain ⟨a1, -, -, a4⟩ := storeAt_spec (hk (by omega)) b
          exact ⟨by omega, by rw [a4, if_pos hb0.symm]⟩
        · rw [byteAt_append_left (by omega)]
          obtain ⟨b1, b2⟩ := hr i hi2 (by omega)
          split
          · rename_i hc
            obtain ⟨-, a2, -, a4⟩ := storeAt_spec (hk hc) b
            exact ⟨by omega, by rw [a4, if_neg (by omega), b2]⟩
          · exact ⟨b1, b2⟩
      · have : (rx.bodyIdx + 1#16 = rx.bodyLen) ↔ p.length + 1 = 8 + (getLe16 p 2).toNat := by
          rw [← BitVec.toNat_inj, hn, hl]; omega
        by_cases hx : rx.bodyIdx + 1#16 = rx.bodyLen
        · rw [if_pos hx, if_pos (this.1 hx)]
        · rw [if_neg hx, if_neg (fun h => hx (this.2 h)), hst]

/-! ### Polls inside a frame -/

theorem poll_inside {s : State} (ht : OnTime s) (hs : s.rx.state = .readingHeader ∨ s.rx.state = .readingBody) :
    poll s = pollDecoded (storeByte s.cfg.respBodyCap) s.atPoll := by
  rw [ht.poll]
  have key : ∀ (f : Byte → Receiver → Receiver),
      (∀ b (rx : Receiver), rx.state = s.rx.state → storeByte s.cfg.respBodyCap b rx = f b rx) →
      pollDecoded f s.atPoll = pollDecoded (storeByte s.cfg.respBodyCap) s.atPoll := by
    intro f hf
    have hx := slipDecode_rx s.atPoll
    simp only [pollDecoded]
    cases ho : slipDecode s.atPoll with
    | mk o t =>
      rw [ho] at hx
      dsimp only at hx ⊢
      cases o <;> try rfl
      dsimp only
      rw [hf _ t.rx (by rw [hx]; rfl)]
  rcases hs with h | h
  · rw [h]
    exact key _ (fun b rx hr => by simp [storeByte, hr, h])
  · rw [h]
    exact key _ (fun b rx hr => by simp [storeByte, hr, h])

theorem poll_stuffed {s : State} {b : Byte} {q : Bytes} (ht : OnTime s) (he : s.rx.escPending = false)
    (hs : s.rx.state = .readingHeader ∨ s.rx.state = .readingBody) (hq : s.env.rxq = stuffByte b ++ q) :
    ∃ t, poll s = .again t ∧ t.rx = storeByte s.cfg.respBodyCap b s.rx ∧ Got (stuffByte b) s t := by
  have hq' : s.atPoll.env.rxq = stuffByte b ++ (q ++ turnRx s.env.script) := by
    simp [hq]
  obtain ⟨t, h1, h2, h3⟩ := slipDecode_stuffed (s := s.atPoll) he hq'
  refine ⟨{ t with rx := storeByte s.cfg.respBodyCap b t.rx }, ?_, by rw [h2]; rfl, ?_⟩
  · rw [poll_inside ht hs, pollDecoded, h1]
  · have h4 : Got [] s s.atPoll := ⟨rfl, atPoll_exchanged s⟩
    have h5 := h4.trans h3
    exact ⟨h5.regs.trans rfl, h5.env⟩

theorem await_again {c : Caller} {s t : State} (h : poll s = .again t) : await c s = await c t := by
  rw [await_eq, h]

/-- The content of a frame is read byte by byte. -/
theorem await_content (c : Caller) (rx0 : Receiver) (q p : Bytes) (s : State) (z : Bytes) (ht : OnTime s)
    (ha : At s.cfg.respBodyCap rx0 p s.rx) (hu : ∀ a, a <+: q → a ≠ q → Unfinished (p ++ a)) (hq : s.env.rxq = slipEncode q ++ z) :
    ∃ t, await c s = await c t ∧ At s.cfg.respBodyCap rx0 (p ++ q) t.rx ∧ Got (slipEncode q) s t ∧ OnTime t := by
  induction q generalizing p s z with
  | nil => exact ⟨s, rfl, by simpa using ha, by simpa using Got.refl s, ht⟩
  | cons b q ih =>
    have hp : Unfinished p := by simpa using hu [] (List.nil_prefix) (by simp)
    rw [slipEncode_cons, List.append_assoc] at hq
    obtain ⟨t, h1, h2, h3⟩ := poll_stuffed ht ha.esc (ha.reading hp) hq
    have ha' := ha.store hp b
    have hc := h3.regs.fields.1
    rw [← h2, ← hc] at ha'
    have ht' : OnTime t := ht.mono h3 (by rw [ha'.start, ha.start]) (by rw [ha'.timeout, ha.timeout])
    obtain ⟨z', hz⟩ := h3.env.rest hq
    rw [List.append_assoc] at hz
    obtain ⟨u, g1, g2, g3, g4⟩ := ih (p ++ [b]) t _ ht' ha' (by
      intro a ha1 ha2
      have := hu (b :: a) (by simpa using ha1) (by simpa using ha2)
      simpa using this) hz
    exact ⟨u, (await_again h1).trans g1, by simpa [hc] using g2, by simpa using h3.trans g3, g4⟩

/-- Bytes before the start marker are dropped, and the marker opens the frame (R84, D13). -/
theorem await_start (c : Caller) (g : Bytes) (s : State) (z : Bytes) (ht : OnTime s) (hs : s.rx.state = .awaitingStart)
    (hg : slipEND ∉ g) (hq : s.env.rxq = g ++ slipEND :: z) :
    ∃ t, await c s = await c t ∧ t.rx = { s.rx with state := .readingHeader } ∧ Got (g ++ [slipEND]) s t ∧ OnTime t := by
  induction g generalizing s z with
  | nil =>
    have e1 : s.atPoll.env.rxByte.1 = some slipEND := by simp [hq]
    have hq' : s.atPoll.env.rxq = slipEND :: (z ++ turnRx s.env.script) := by simp [hq]
    have hg : Got [slipEND] s { s with env := s.atPoll.env.rxByte.2, rx := { s.rx with state := .readingHeader } } :=
      ⟨rfl, by simpa using (atPoll_exchanged s).read (Exchanged.rxByte hq')⟩
    refine ⟨{ s with env := s.atPoll.env.rxByte.2, rx := { s.rx with state := .readingHeader } },
      await_again ?_, rfl, hg, ht.mono hg rfl rfl⟩
    rw [ht.poll, hs]
    simp only [pollStart, e1, if_true]
    rfl
  | cons b g ih =>
    simp only [List.mem_cons, not_or] at hg
    have e1 : s.atPoll.env.rxByte.1 = some b := by simp [hq]
    have hq' : s.atPoll.env.rxq = b :: (g ++ slipEND :: z ++ turnRx s.env.script) := by simp [hq]
    have hgot : Got [b] s { s with env := s.atPoll.env.rxByte.2 } :=
      ⟨rfl, by simpa using (atPoll_exchanged s).read (Exchanged.rxByte hq')⟩
    have hp : poll s = .again { s with env := s.atPoll.env.rxByte.2 } := by
      rw [ht.poll, hs]
      simp only [pollStart, e1]
      rw [if_neg (fun h => hg.1 h.symm)]
      rfl
    obtain ⟨z', hz⟩ := hgot.env.rest (q := g ++ slipEND :: z) hq
    rw [List.append_assoc] at hz
    obtain ⟨t, h1, h2, h3, h4⟩ := ih { s with env := s.atPoll.env.rxByte.2 } _ (ht.mono hgot rfl rfl) hs hg.2 hz
    exact ⟨t, (await_again hp).trans h1, h2, by simpa using hgot.trans h3, h4⟩

theorem prefix_unfinished {P p : Bytes} (h : Whole P ∨ Unfinished P) (hp : p <+: P) (hne : p ≠ P) : Unfinished p := by
  obtain ⟨r, rfl⟩ := hp
  have hr : r ≠ [] := by rintro rfl; simp at hne
  have hl : 0 < r.length := List.length_pos_iff.2 hr
  rcases Nat.lt_or_ge p.length 8 with h8 | h8
  · exact .inl h8
  · have := congrArg BitVec.toNat (getLe16_append (a := p) (b := r) (i := 2) (by omega))
    rcases h with h | h
    · have := h.2
      simp only [List.length_append] at this
      exact .inr (by omega)
    · rcases h with h | h
      · simp at h; omega
      · simp only [List.length_append] at h
        exact .inr (by omega)

/-- A RECV that has just begun. -/
structure Begun (s : State) : Prop where
  active : s.rx.active = true
  state : s.rx.state = .awaitingStart
  hdrIdx : s.rx.hdrIdx = 0
  bodyIdx : s.rx.bodyIdx = 0#16
  esc : s.rx.escPending = false

/-- Everything up to the last byte of a frame's content, or of a part of it. -/
theorem await_open (c : Caller) (g P : Bytes) (s : State) (z : Bytes) (ht : OnTime s) (hb : Begun s)
    (hg : slipEND ∉ g) (hP : Whole P ∨ Unfinished P) (hq : s.env.rxq = g ++ slipEND :: slipEncode P ++ z) :
    ∃ t, await c s = await c t ∧ At s.cfg.respBodyCap s.rx P t.rx ∧ Got (g ++ slipEND :: slipEncode P) s t ∧ OnTime t := by
  obtain ⟨t, h1, h2, h3, h4⟩ := await_start c g s (slipEncode P ++ z) ht hb.state hg (by simpa using hq)
  have hc := h3.regs.fields.1
  have ha : At t.cfg.respBodyCap s.rx [] t.rx := by
    rw [h2]
    exact ⟨hb.active, hb.esc, rfl, rfl, rfl, by simp, fun _ => ⟨rfl, hb.hdrIdx, hb.bodyIdx⟩, fun h => by simp at h⟩
  obtain ⟨z', hz⟩ := h3.env.rest (q := slipEncode P ++ z) (by simpa using hq)
  rw [List.append_assoc] at hz
  obtain ⟨u, g1, g2, g3, g4⟩ := await_content c s.rx P [] t _ h4 ha
    (fun a h hne => by simpa using prefix_unfinished hP h hne) hz
  exact ⟨u, h1.trans g1, by simpa [hc] using g2, by simpa using h3.trans g3, g4⟩

theorem At.awaitingEnd {cap : Nat} {rx0 rx : Receiver} {P : Bytes} (h : At cap rx0 P rx) (hP : Whole P) : rx.state = .awaitingEnd := by
  have := (h.long hP.1).2.2.2.2.2.2
  rwa [if_pos hP.2] at this

/-- What an operation makes of its RECV's code. -/
def resume (c : Caller) (st : ResultCode) (s : State) : State :=
  match opContinue c.op st s with
  | .again s2 => await c s2
  | .finished st2 s2 => deliver c st2 s2

theorem await_ended {c : Caller} {s t : State} {st : ResultCode} (h : poll s = .ended st t) :
    await c s = resume c st t := by
  rw [await_eq, h]; rfl

theorem At.hdr {cap : Nat} {rx0 rx : Receiver} {P : Bytes} (h : At cap rx0 P rx) (h8 : 8 ≤ P.length) : rx.hdr.toList = P.take 8 := by
  have := h.header
  rwa [List.take_of_length_le (by simp; omega)] at this

theorem hdr_getElem {v : Vector Byte 8} {P : Bytes} (h : v.toList = P.take 8) (h8 : 8 ≤ P.length) (i : Nat) (hi : i < 8) :
    v[i] = byteAt P i := by
  have : v.toList[i]'(by simp [hi]) = v[i] := by simp
  rw [← this]
  simp [byteAt, h, List.getElem?_eq_getElem (show i < P.length by omega)]

theorem headerAccepted_at {c : Config} {v : Vector Byte 8} {P : Bytes} (h : v.toList = P.take 8) (h8 : 8 ≤ P.length)
    (e : Byte) : (if headerAccepted c v e then ResultCode.success else .responseHeaderError) =
      headerCode c (byteAt P 0) (byteAt P 1) e := by
  simp only [headerAccepted, headerCode, hdr_getElem h h8 0 (by omega), hdr_getElem h h8 1 (by omega)]
  by_cases a : byteAt P 0 = c.dirResponse <;> by_cases b : byteAt P 1 = e <;> simp [a, b]

/-- A RECV reads one whole frame. -/
theorem await_frame (c : Caller) (g P : Bytes) (s : State) (z : Bytes) (ht : OnTime s) (hb : Begun s)
    (hg : slipEND ∉ g) (hP : Whole P) (hq : s.env.rxq = g ++ slipWrapped P ++ z) :
    ∃ u t, await c s = resume c (headerCode s.cfg (byteAt P 0) (byteAt P 1) s.rx.expected) t ∧
      At s.cfg.respBodyCap s.rx P u ∧ t.rx = { u with state := .complete, active := false } ∧
      Got (g ++ slipWrapped P) s t ∧ OnTime t := by
  have hq1 : s.env.rxq = (g ++ slipEND :: slipEncode P) ++ slipEND :: z := by simp [hq, slipWrapped]
  obtain ⟨t, h1, h2, h3, h4⟩ := await_open c g P s (slipEND :: z) ht hb hg (.inl hP) hq1
  obtain ⟨z', hz⟩ := h3.env.rest hq1
  have e1 : t.atPoll.env.rxByte.1 = some slipEND := by simp [hz]
  have hq' : t.atPoll.env.rxq = slipEND :: (z ++ z' ++ turnRx t.env.script) := by simp [hz]
  have hcfg : t.cfg = s.cfg := h3.regs.fields.1
  have hlast : Got [slipEND] t { t with
      env := t.atPoll.env.rxByte.2, rx := { t.rx with state := .complete, active := false } } :=
    ⟨rfl, by simpa using (atPoll_exchanged t).read (Exchanged.rxByte hq')⟩
  refine ⟨t.rx, { t with env := t.atPoll.env.rxByte.2, rx := { t.rx with state := .complete, active := false } },
    ?_, h2, rfl, ?_, ?_⟩
  · rw [h1]
    apply await_ended
    rw [h4.poll, h2.awaitingEnd hP]
    simp only [pollEnd, e1, if_true, endRecv, State.atPoll_cfg, State.atPoll_rx]
    have hc := headerAccepted_at (c := t.cfg) (h2.hdr hP.1) hP.1 t.rx.expected
    rw [h2.expected] at hc
    simp only [State.atPoll, h2.expected, ← hcfg] at hc ⊢
    rw [← hc]
  · have := h3.trans hlast
    simpa [slipWrapped] using this
  · exact h4.mono hlast rfl rfl

end Sys2Proof.Machine
end

