-- ==== Sys2Proof/Laws/Frames.lean ====
section
/-! SUPPORT. The frames the block sends, byte by byte, the beginning of a RECV, and a RECV that a whole frame answers. -/

namespace Sys2Proof.Machine

/-- A legal configuration has different opcodes (R4). -/
theorem opcodes_ne {c : Config} (h : legalConfig c = true) :
    c.opcFlashBegin ≠ c.opcSync ∧ c.opcFlashData ≠ c.opcSync ∧ c.opcFlashEnd ≠ c.opcSync := by
  simp only [legalConfig, decide_eq_true_eq] at h
  obtain ⟨-, -, -, -, -, -, -, this, -⟩ := h
  simp only [opcodes, List.nodup_cons, List.mem_cons, List.not_mem_nil, or_false, not_or] at this
  tauto

/-- R57. -/
theorem frame_sync (c : Config) : frameOnWire c c.opcSync (syncPayload c) 0#32 = syncFrame c := by
  simp [frameOnWire, slipRawWrapped, frameContent, hdrBytes, syncFrame, le16, le32, syncPayload, slipEND, syncFillLen]

/-- R58, R110. -/
theorem frame_begin {c : Config} (h : legalConfig c = true) (a n : U32) :
    frameOnWire c c.opcFlashBegin (flashBeginBody a n) 0#32 = flashBeginFrame c a n := by
  rw [frameOnWire, if_neg (opcodes_ne h).1]
  simp [flashBeginFrame, frameContent, hdrBytes, le16, flashBeginBody, blockCount, ceilDiv, blockSize, alignDown]
  simp [le32]

/-- R60, R115. -/
theorem frame_end {c : Config} (h : legalConfig c = true) (b : Bool) :
    frameOnWire c c.opcFlashEnd (flashEndBody b) 0#32 = flashEndFrame c b := by
  rw [frameOnWire, if_neg (opcodes_ne h).2.2]
  cases b <;> simp [flashEndFrame, frameContent, hdrBytes, le16, le32, flashEndBody]

/-- R59, R112. -/
theorem frame_data {c : Config} (h : legalConfig c = true) (idx : U32) (data : Bytes) :
    frameOnWire c c.opcFlashData (flashDataBodyHeader idx ++ data) (zext32 (chkFold data)) = dataFrame c idx data := by
  rw [frameOnWire, if_neg (opcodes_ne h).2.1]; rfl

/-- What RECV sets before its first poll (R84). -/
theorem begun (op : Byte) (t : U32) (s : State) : Begun (beginRecv op t s) := ⟨rfl, rfl, rfl, rfl, rfl⟩

/-- A RECV just begun is on time, when the clock leaves it the time. -/
theorem begun_onTime (op : Byte) (t : U32) (s : State) (h : slack s.env ≤ t.toNat) : OnTime (beginRecv op t s) := by
  have h1 := (beginRecv_exchanged op t s).slack
  have h2 : elapsed s.cfg.clkW (beginRecv op t s).env.now (beginRecv op t s).rx.start = 0 := elapsed_self _ _
  have h3 : s.env.now ≤ (beginRecv op t s).env.now := Nat.le_add_right _ _
  show elapsed s.cfg.clkW (beginRecv op t s).env.now (beginRecv op t s).rx.start + slack (beginRecv op t s).env ≤ t.toNat
  omega

/-- The clock never goes back. -/
theorem Exchanged.later {a b : Bytes} {e f : Env} (h : Exchanged a b e f) : e.now ≤ f.now := by
  obtain ⟨-, -, -, k, -, h, -⟩ := h
  omega

/-- The clock's turns to come are used up. -/
theorem slack_mono {a b : Bytes} {e f : Env} (h : Exchanged a b e f) : slack f ≤ slack e := by
  have h1 := h.slack
  have h2 := h.later
  omega

/-- CMD at its first poll (R86). -/
theorem begin_cmd_facts (op : Byte) (p : Bytes) (chk t : U32) (s : State) (h : slack s.env ≤ t.toNat) :
    Begun (beginCmd op p chk t s) ∧ OnTime (beginCmd op p chk t s) :=
  ⟨begun _ _ _, begun_onTime _ _ _ ((slack_mono (sendFrame_exchanged op p chk s)).trans h)⟩

/-- A RECV just begun meets the invariant of the receive registers. -/
theorem begun_inv {s : State} (h : Begun s) (h0 : s.rx.bodyLen = 0#16) : receiverInv s.rx := by
  simp only [receiverInv, h.state]
  exact ⟨h.hdrIdx, h.bodyIdx, h0⟩

/-- A frame's content is whole, and its fields are read back (R52, R53). -/
theorem whole_content (dir op : Byte) (v : U32) (body : Bytes) (h : body.length ≤ 65535) :
    Whole (frameContent dir op v body) ∧ byteAt (frameContent dir op v body) 0 = dir ∧
        byteAt (frameContent dir op v body) 1 = op
     ∧ getLe16 (frameContent dir op v body) 2 = BitVec.ofNat 16 body.length ∧
         getLe32 (frameContent dir op v body) 4 = v := by
  have hg : getLe16 (frameContent dir op v body) 2 = BitVec.ofNat 16 body.length := by
    simp [frameContent, hdrBytes, le16, le32, getLe16, byteAt]
  refine ⟨⟨by simp, ?_⟩,
      by simp [frameContent, hdrBytes, byteAt], by simp [frameContent, hdrBytes, byteAt], hg, by simp [frameContent, hdrBytes, le16, le32, getLe32, byteAt]⟩
  rw [hg]; simp; omega

/-- what the receive machine holds after a whole reply -/
structure Held (cap : Nat) (r : Reply) (op : Byte) (t : State) : Prop where
  state : t.rx.state = .complete
  active : t.rx.active = false
  esc : t.rx.escPending = false
  expected : t.rx.expected = op
  hdr : t.rx.hdr.toList = [r.dir, r.op] ++ le16 (BitVec.ofNat 16 r.body.length) ++ le32 r.value
  hdrIdx : t.rx.hdrIdx = 8
  len : t.rx.bodyLen.toNat = r.body.length
  idx : t.rx.bodyIdx = t.rx.bodyLen
  value : t.rx.respValue = r.value
  body : ∀ k, k < cap → k < r.body.length → byteAt t.rx.respBody k = byteAt r.body k

/-- A RECV that a whole frame answers: it reads exactly that frame. -/
theorem await_reply (c : Caller) (g : Bytes) (r : Reply) (s : State) (z : Bytes) (ht : OnTime s) (hb : Begun s)
    (hg : 0xC0#8 ∉ g) (hr : r.sendable) (hq : s.env.rxq = g ++ r.wire ++ z) :
    ∃ t, await c s = resume c (headerCode s.cfg r.dir r.op s.rx.expected) t ∧ Held s.cfg.respBodyCap r s.rx.expected t ∧
      t.rx.timeout = s.rx.timeout ∧ t.rx.start = s.rx.start ∧
      Got (g ++ r.wire) s t ∧ OnTime t := by
  obtain ⟨hw, h0, h1, h2, h4⟩ := whole_content r.dir r.op r.value r.body hr
  obtain ⟨u, t, e1, e2, e3, e4, e5⟩ := await_frame c g _ s z ht hb hg hw hq
  obtain ⟨l1, l2, l3, l4, l5, l6, l7⟩ := e2.long hw.1
  rw [h0, h1] at e1
  have hl : (getLe16 (frameContent r.dir r.op r.value r.body) 2).toNat = r.body.length := by
    have := hw.2; simp at this; omega
  refine ⟨t, e1, ?_, by rw [e3]; exact e2.timeout, by rw [e3]; exact e2.start, e4, e5⟩
  constructor
  · rw [e3]
  · rw [e3]
  · rw [e3]; exact e2.esc
  · rw [e3]; exact e2.expected
  · rw [e3]; show u.hdr.toList = _
    rw [e2.hdr hw.1]
    simp [frameContent, hdrBytes, le16, le32]
  · rw [e3]; exact l2
  · rw [e3]; show u.bodyLen.toNat = _
    rw [l3, hl]
  · rw [e3]; show u.bodyIdx = u.bodyLen
    apply BitVec.eq_of_toNat_eq
    rw [l5, l3, hl]; simp
  · rw [e3]; show u.respValue = _
    rw [l4, h4]
  · intro k hk hk'
    rw [show t.rx.respBody = u.respBody by rw [e3], (l6 k hk (by simp; omega)).2]
    simp [frameContent, hdrBytes, le16, le32, byteAt, Nat.add_comm 8 k]

/-- The code CMD makes of it (R86). -/
theorem held_code {cap : Nat} {r : Reply} {op : Byte} {t : State} (h : Held cap r op t) (c : Config) :
    replyStatus (headerCode c r.dir r.op op) t.rx.bodyLen = r.code c op := by
  have hb : t.rx.bodyLen = replyBodyLen ↔ r.body.length = 2 := by
    rw [← BitVec.toNat_inj, h.len]; rfl
  simp only [replyStatus, headerCode, Reply.code]
  by_cases h1 : r.dir = c.dirResponse ∧ r.op = op
  · by_cases h2 : r.body.length = 2
    · simp [h1, hb.2 h2, h2]
    · simp [h1, h2, mt hb.1 h2]
  · simp [h1]

/-- `percent` reads two registers (R19). -/
theorem percent_congr {s t : State} (h1 : t.orch = s.orch) (h2 : t.session = s.session) : percent t = percent s := by
  simp only [percent, h1, h2]

end Sys2Proof.Machine
end

