-- ==== Sys2Proof/Laws/Memory.lean ====
section
/-! SUPPORT. The block buffer's laws: a read after a write, that a write leaves every other index alone, that every
operation keeps the canonical form, and that reading bytes in one pass is reading them one by one. -/

namespace Sys2Proof.Machine

theorem Memory.wf_cons {k : Nat} {x : Byte} {t : Memory} :
    Memory.wf ((k, x) :: t) = true ↔ k < blkLen ∧ x ≠ 0#8 ∧ (∀ c ∈ t, k < c.1) ∧ Memory.wf t = true := by
  simp [Memory.wf, and_assoc]

theorem Memory.read_eq_zero {a : Nat} {m : Memory} (h : ∀ c ∈ m, c.1 ≠ a) : Memory.read m a = 0#8 := by
  induction m with
  | nil => rfl
  | cons c t ih =>
    obtain ⟨k, x⟩ := c
    have hk : ¬ a = k := fun e => h (k, x) (by simp) e.symm
    simp [Memory.read, hk, ih (fun c hc => h c (by simp [hc]))]

/-- Entries below a, then entries from a on. -/
theorem Memory.read_append {a : Nat} {m m' : Memory} (h : ∀ c ∈ m, c.1 < a) (h' : ∀ c ∈ m', a ≤ c.1) (b : Nat) :
    Memory.read (m ++ m') b = if b < a then Memory.read m b else Memory.read m' b := by
  induction m with
  | nil =>
    split
    · exact Memory.read_eq_zero fun c hc => by have := h' c hc; omega
    · rfl
  | cons c t ih =>
    obtain ⟨k, x⟩ := c
    have hk : k < a := h (k, x) (by simp)
    have := ih fun c hc => h c (by simp [hc])
    simp only [List.cons_append, Memory.read, this]
    by_cases hb : b = k
    · simp [hb, hk]
    · simp [hb]

/-- The canonical form of two parts with all indices of the first below those of the second. -/
theorem Memory.wf_append {a : Nat} {m m' : Memory} (hm : Memory.wf m = true) (hm' : Memory.wf m' = true)
    (h : ∀ c ∈ m, c.1 < a) (h' : ∀ c ∈ m', a ≤ c.1) : Memory.wf (m ++ m') = true := by
  induction m with
  | nil => exact hm'
  | cons c t ih =>
    obtain ⟨k, x⟩ := c
    obtain ⟨h1, h2, h3, h4⟩ := Memory.wf_cons.1 hm
    refine Memory.wf_cons.2 ⟨h1, h2, ?_, ih h4 fun c hc => h c (by simp [hc])⟩
    intro c hc
    rcases List.mem_append.1 hc with hc | hc
    · exact h3 c hc
    · have := h' c hc
      have : k < a := h (k, x) (by simp)
      omega

/-- The entries below a. -/
theorem Memory.below {m : Memory} (hm : Memory.wf m = true) (a : Nat) :
    let l := m.takeWhile fun c => decide (c.1 < a)
    Memory.wf l = true ∧ (∀ c ∈ l, c.1 < a) ∧ ∀ b, Memory.read l b = if b < a then Memory.read m b else 0#8 := by
  induction m with
  | nil => simp [Memory.wf, Memory.read]
  | cons c t ih =>
    obtain ⟨k, x⟩ := c
    obtain ⟨h1, h2, h3, h4⟩ := Memory.wf_cons.1 hm
    obtain ⟨i1, i2, i3⟩ := ih h4
    by_cases hk : k < a
    · simp only [List.takeWhile_cons, hk, decide_true, if_true]
      refine ⟨Memory.wf_cons.2 ⟨h1, h2, fun c hc => h3 c (List.takeWhile_subset _ hc), i1⟩, ?_, fun b => ?_⟩
      · intro c hc
        rcases List.mem_cons.1 hc with rfl | hc
        · exact hk
        · exact i2 c hc
      · simp only [Memory.read, i3]
        by_cases hb : b = k <;> simp [hb, hk]
    · simp only [List.takeWhile_cons, hk, decide_false, Bool.false_eq_true, if_false]
      refine ⟨rfl, by simp, fun b => ?_⟩
      split
      · rename_i hb
        rw [Memory.read_eq_zero (m := (k, x) :: t)]
        · rfl
        · intro c hc
          rcases List.mem_cons.1 hc with rfl | hc
          · simp only; omega
          · have := h3 c hc; omega
      · rfl

/-- The entries from a on. -/
theorem Memory.from {m : Memory} (hm : Memory.wf m = true) (a : Nat) :
    let r := m.dropWhile fun c => decide (c.1 < a)
    Memory.wf r = true ∧ (∀ c ∈ r, a ≤ c.1) ∧ ∀ b, Memory.read r b = if a ≤ b then Memory.read m b else 0#8 := by
  induction m with
  | nil => simp [Memory.wf, Memory.read]
  | cons c t ih =>
    obtain ⟨k, x⟩ := c
    obtain ⟨h1, h2, h3, h4⟩ := Memory.wf_cons.1 hm
    obtain ⟨i1, i2, i3⟩ := ih h4
    by_cases hk : k < a
    · simp only [List.dropWhile_cons, hk, decide_true, if_true]
      refine ⟨i1, i2, fun b => ?_⟩
      rw [i3]
      split
      · have : ¬ b = k := by omega
        simp [Memory.read, this]
      · rfl
    · simp only [List.dropWhile_cons, hk, decide_false, Bool.false_eq_true, if_false]
      have h5 : ∀ c ∈ (k, x) :: t, a ≤ c.1 := by
        intro c hc
        rcases List.mem_cons.1 hc with rfl | hc
        · simp only; omega
        · have := h3 c hc; omega
      refine ⟨hm, h5, fun b => ?_⟩
      split
      · rfl
      · exact Memory.read_eq_zero fun c hc => by have := h5 c hc; omega

/-- The entries of the bytes stored from a on. -/
theorem Memory.read_cells (a : Nat) (bs : Bytes) (ha : a + bs.length ≤ blkLen) :
    Memory.wf (Memory.cells a bs) = true ∧ (∀ c ∈ Memory.cells a bs, a ≤ c.1 ∧ c.1 < a + bs.length) ∧
      ∀ b, Memory.read (Memory.cells a bs) b = if a ≤ b ∧ b < a + bs.length then bs.getD (b - a) 0#8 else 0#8 := by
  induction bs generalizing a with
  | nil => simp [Memory.cells, Memory.wf, Memory.read]
  | cons x t ih =>
    simp only [List.length_cons] at ha
    obtain ⟨i1, i2, i3⟩ := ih (a + 1) (by omega)
    have mem : ∀ c ∈ Memory.cells (a + 1) t, a ≤ c.1 ∧ c.1 < a + (t.length + 1) := fun c hc => by
      have := i2 c hc; omega
    have tail : ∀ b, ¬ b = a → (if a + 1 ≤ b ∧ b < a + 1 + t.length then t.getD (b - (a + 1)) 0#8 else 0#8) =
        if a ≤ b ∧ b < a + (t.length + 1) then (x :: t).getD (b - a) 0#8 else 0#8 := by
      intro b hb
      by_cases h : a + 1 ≤ b ∧ b < a + 1 + t.length
      · have h2 : a ≤ b ∧ b < a + (t.length + 1) := by omega
        have h3 : b - a = (b - (a + 1)) + 1 := by omega
        simp [h, h2, h3]
      · have h2 : ¬ (a ≤ b ∧ b < a + (t.length + 1)) := by omega
        rw [if_neg h, if_neg h2]
    simp only [Memory.cells, List.length_cons]
    split
    · rename_i hx
      refine ⟨i1, mem, fun b => ?_⟩
      rw [i3]
      by_cases hb : b = a
      · subst hb; simp [hx]
      · exact tail b hb
    · rename_i hx
      refine ⟨Memory.wf_cons.2 ⟨by omega, hx, fun c hc => by have := i2 c hc; omega, i1⟩, ?_, fun b => ?_⟩
      · intro c hc
        rcases List.mem_cons.1 hc with rfl | hc
        · simp
        · exact mem c hc
      · simp only [Memory.read, i3]
        by_cases hb : b = a
        · subst hb; simp
        · rw [if_neg hb]; exact tail b hb

/-- Writing bytes below the end keeps the canonical form, and what a read finds after it (R17). -/
theorem Memory.writeBytes_spec {m : Memory} {a : Nat} {bs : Bytes} (hm : Memory.wf m = true)
    (ha : a + bs.length ≤ blkLen) :
    Memory.wf (Memory.writeBytes m a bs) = true ∧ ∀ b, Memory.read (Memory.writeBytes m a bs) b =
      if a ≤ b ∧ b < a + bs.length then bs.getD (b - a) 0#8 else Memory.read m b := by
  obtain ⟨l1, l2, l3⟩ := Memory.below hm a
  obtain ⟨c1, c2, c3⟩ := Memory.read_cells a bs ha
  obtain ⟨r1, r2, r3⟩ := Memory.from hm (a + bs.length)
  have lc : ∀ c ∈ m.takeWhile (fun c => decide (c.1 < a)) ++ Memory.cells a bs, c.1 < a + bs.length := by
    intro c hc
    rcases List.mem_append.1 hc with hc | hc
    · have := l2 c hc; omega
    · exact (c2 c hc).2
  refine ⟨Memory.wf_append (Memory.wf_append l1 c1 l2 fun c hc => (c2 c hc).1) r1 lc r2, fun b => ?_⟩
  rw [Memory.writeBytes, Memory.read_append lc r2, Memory.read_append l2 (fun c hc => (c2 c hc).1), l3, c3, r3]
  by_cases h1 : b < a
  · have h2 : b < a + bs.length := by omega
    have h3 : ¬ a ≤ b := by omega
    simp [h1, h2, h3]
  · by_cases h2 : b < a + bs.length
    · have h3 : a ≤ b := by omega
      simp [h1, h2, h3]
    · have h3 : a + bs.length ≤ b := by omega
      simp [h2, h3]

theorem Memory.wf_writeBytes {m : Memory} {a : Nat} {bs : Bytes} (hm : Memory.wf m = true)
    (ha : a + bs.length ≤ blkLen) : Memory.wf (Memory.writeBytes m a bs) = true := (Memory.writeBytes_spec hm ha).1

theorem Memory.read_writeBytes {m : Memory} {a : Nat} {bs : Bytes} (hm : Memory.wf m = true)
    (ha : a + bs.length ≤ blkLen) (b : Nat) :
    Memory.read (Memory.writeBytes m a bs) b =
      if a ≤ b ∧ b < a + bs.length then bs.getD (b - a) 0#8 else Memory.read m b := (Memory.writeBytes_spec hm ha).2 b

@[simp] theorem Memory.length_readFrom (m : Memory) (a n : Nat) : (Memory.readFrom m a n).length = n := by
  induction n generalizing m a with
  | zero => cases m <;> rfl
  | succ n ih =>
    match m with
    | [] => simp [Memory.readFrom, ih]
    | (k, x) :: t => simp only [Memory.readFrom]; split <;> simp [ih]

@[simp] theorem Memory.length_readBytes (m : Memory) (a n : Nat) : (Memory.readBytes m a n).length = n := by
  simp [Memory.readBytes]

theorem Memory.readFrom_eq {m : Memory} {a n : Nat} (hm : Memory.wf m = true) (h : ∀ c ∈ m, a ≤ c.1) :
    Memory.readFrom m a n = (List.range' a n).map (Memory.read m) := by
  induction n generalizing m a with
  | zero => cases m <;> rfl
  | succ n ih =>
    match m with
    | [] =>
      rw [Memory.readFrom, ih hm (by simp)]
      simp [List.range'_succ, Memory.read]
    | (k, x) :: t =>
      obtain ⟨h1, h2, h3, h4⟩ := Memory.wf_cons.1 hm
      have hk : a ≤ k := h (k, x) (by simp)
      simp only [Memory.readFrom, List.range'_succ, List.map_cons]
      split
      · rename_i e
        subst e
        rw [ih h4 h3]
        congr 1
        · simp [Memory.read]
        · apply List.map_congr_left
          intro i hi
          have : ¬ i = a := by have := List.mem_range'_1.1 hi; omega
          simp [Memory.read, this]
      · rename_i e
        have habove : ∀ c ∈ (k, x) :: t, a + 1 ≤ c.1 := by
          intro c hc
          rcases List.mem_cons.1 hc with rfl | hc
          · simp only; omega
          · have := h3 c hc; omega
        rw [ih hm habove, Memory.read_eq_zero fun c hc => by have := habove c hc; omega]

/-- Reading n bytes in one pass is reading them one by one. -/
theorem Memory.readBytes_eq {m : Memory} (hm : Memory.wf m = true) (a n : Nat) :
    Memory.readBytes m a n = (List.range' a n).map (Memory.read m) := by
  obtain ⟨r1, r2, r3⟩ := Memory.from hm a
  rw [Memory.readBytes, Memory.readFrom_eq r1 r2]
  apply List.map_congr_left
  intro i hi
  rw [r3, if_pos (List.mem_range'_1.1 hi).1]

theorem Memory.byteAt_readBytes {m : Memory} (hm : Memory.wf m = true) (a n i : Nat) (hi : i < n) :
    byteAt (Memory.readBytes m a n) i = Memory.read m (a + i) := by
  simp [Memory.readBytes_eq hm, byteAt, hi]

/-- Reading back what has just been written. -/
theorem Memory.readBytes_writeBytes {m : Memory} {a : Nat} {bs : Bytes} (hm : Memory.wf m = true)
    (ha : a + bs.length ≤ blkLen) :
    Memory.readBytes (Memory.writeBytes m a bs) a bs.length = bs := by
  rw [Memory.readBytes_eq (Memory.wf_writeBytes hm ha)]
  apply List.ext_getElem
  · simp
  · intro i h1 h2
    simp only [List.getElem_map, List.getElem_range', one_mul]
    rw [Memory.read_writeBytes hm ha]
    simp [h2]

@[simp] theorem length_le16 (v : U16) : (le16 v).length = 2 := rfl
@[simp] theorem length_le32 (v : U32) : (le32 v).length = 4 := rfl

theorem Memory.wf_write16 {m : Memory} {a : Nat} {v : U16} (hm : Memory.wf m = true) (ha : a + 2 ≤ blkLen) :
    Memory.wf (Memory.write16 m a v) = true := Memory.wf_writeBytes hm (by simpa using ha)

theorem Memory.wf_write32 {m : Memory} {a : Nat} {v : U32} (hm : Memory.wf m = true) (ha : a + 4 ≤ blkLen) :
    Memory.wf (Memory.write32 m a v) = true := Memory.wf_writeBytes hm (by simpa using ha)

end Sys2Proof.Machine
end

