-- ==== Sys2Proof/Laws/Block.lean ====
section
/-! SUPPORT. The block buffer: the patch (R113), what FDATA prepares (R112), one attempt (R114). -/

namespace Sys2Proof.Machine

/-- Byte strings are their bytes. -/
theorem ext_byteAt {l l' : Bytes} (h : l.length = l'.length) (h2 : ∀ i, i < l.length →
    byteAt l i = byteAt l' i) : l = l' := by
  apply List.ext_getElem h
  intro i h1 h3
  have := h2 i h1
  simpa [byteAt, h1, h3] using this

/-- The data are the buffer from index 16 on (R17). -/
theorem byteAt_blockData {m : Memory} (hm : Memory.wf m = true) (i : Nat) (hi : i < 1024) : byteAt (blockData m) i = Memory.read m (16 + i) :=
  Memory.byteAt_readBytes hm 16 1024 i hi

/-- BLOCK_SIZE. -/
theorem length_blockData (m : Memory) : (blockData m).length = 1024 := Memory.length_readBytes _ _ _

/-- The whole buffer. -/
theorem length_blockBody (m : Memory) : (blockBody m).length = 1040 := Memory.length_readBytes _ _ _

/-- The patch keeps the length. -/
theorem length_patchedData (c idx ta v mk d) : (patchedData c idx ta v mk d).length = d.length := by
  simp only [patchedData]; split <;> simp

/-- A 16-bit value by its two bytes. -/
theorem getLe16_byteAt {a b : Bytes} {i j : Nat} (h1 : byteAt a i = byteAt b j) (h2 : byteAt a (i+1) = byteAt b (j+1)) : getLe16 a i = getLe16 b j := by
  simp [getLe16, h1, h2]

/-- R113's patch in the operations the meaning is written over. -/
theorem patchedData_eq (c : Config) (idx ta : U32) (v mk : U16) (d : Bytes) :
    patchedData c idx ta v mk d =
      if patchApplies c idx ta (byteAt d 0) mk then
        (d.set 2 (byteAt (le16 (patchWord (getLe16 d 2) v mk)) 0)).set 3
          (byteAt (le16 (patchWord (getLe16 d 2) v mk)) 1)
      else d := by
  simp [patchedData, patchApplies, patchWord, getLe16, word16, le16, byteAt, and_assoc]

/-- The patch on the buffer is the patch on its data (R113). -/
theorem patch_spec (c : Config) (idx ta : U32) (v mk : U16) (m : Memory) (hm : Memory.wf m = true) :
    Memory.wf (patchBlock c idx ta v mk m) = true ∧
        blockData (patchBlock c idx ta v mk m) = patchedData c idx ta v mk (blockData m) ∧
    ∀ a, ¬ (16 ≤ a ∧ a < 1040) → Memory.read (patchBlock c idx ta v mk m) a = Memory.read m a := by
  have h0 : byteAt (blockData m) 0 = Memory.read m blkData := byteAt_blockData hm 0 (by omega)
  have h2 : getLe16 (blockData m) 2 = Memory.read16 m (blkData + 2) := by
    rw [getLe16, byteAt_blockData hm 2 (by omega), byteAt_blockData hm 3 (by omega)]; rfl
  simp only [patchBlock, patchedData_eq, h0, h2]
  split
  · have hl : blkData + 2 + (le16 (patchWord (Memory.read16 m (blkData + 2)) v mk)).length ≤ blkLen := by simp [blkData, blkLen]
    obtain ⟨w1, w2⟩ := Memory.writeBytes_spec hm hl
    generalize hW : le16 (patchWord (Memory.read16 m (blkData + 2)) v mk) = W at *
    have hW2 : W.length = 2 := by rw [← hW]; rfl
    rw [Memory.write16, hW]
    refine ⟨w1, ?_, ?_⟩
    · apply ext_byteAt
      · simp [length_blockData]
      · intro i hi
        rw [length_blockData] at hi
        rw [byteAt_blockData w1 i hi, w2, hW2]
        by_cases hi2 : i = 2
        · subst hi2; simp [byteAt, length_blockData, blkData]
        · by_cases hi3 : i = 3
          · subst hi3; simp [byteAt, length_blockData, blkData]
          · have : ¬ (blkData + 2 ≤ 16 + i ∧ 16 + i < blkData + 2 + 2) := by simp only [blkData]; omega
            rw [if_neg this]
            have a2 : ¬ 2 = i := fun h => hi2 h.symm
            have a3 : ¬ 3 = i := fun h => hi3 h.symm
            have := byteAt_blockData hm i hi
            rw [← this]
            simp [byteAt, a2, a3]
    · intro a ha
      rw [w2, hW2, if_neg (show ¬ (blkData + 2 ≤ a ∧ a < blkData + 2 + 2) by simp only [blkData]; omega)]
  · exact ⟨hm, rfl, fun _ _ => rfl⟩

/-- What FDATA leaves in the buffer and the checksum (R112). -/
theorem prepare_spec (idx : U32) (v mk : U16) (s : State) (hm : Memory.wf s.blk = true) (data : Bytes)
    (hdata : data = patchedData s.cfg idx s.session.targetAddr v mk (blockData s.blk)) :
    Memory.wf (prepareBlock idx v mk s).blk = true ∧ (prepareBlock idx v mk s).chk8 = chkFold data ∧
        (prepareBlock idx v mk s).blkAttempt = 0 ∧
    (∀ a, Memory.read (prepareBlock idx v mk s).blk a =
        if a < 16 then byteAt (flashDataBodyHeader idx) a
        else if a < 1040 then byteAt data (a - 16) else Memory.read s.blk a) ∧
    { prepareBlock idx v mk s with blk := s.blk, chk8 := s.chk8, blkAttempt := s.blkAttempt } = s ∧
    blockBody (prepareBlock idx v mk s).blk = flashDataBodyHeader idx ++ data ∧
        blockData (prepareBlock idx v mk s).blk = data := by
  obtain ⟨p1, p2, p3⟩ := patch_spec s.cfg idx s.session.targetAddr v mk s.blk hm
  generalize hP : patchBlock s.cfg idx s.session.targetAddr v mk s.blk = P at *
  obtain ⟨a1, a2⟩ := Memory.writeBytes_spec (a := 0) (bs := le32 1024#32) p1 (by simp [blkLen])
  obtain ⟨b1, b2⟩ := Memory.writeBytes_spec (a := 4) (bs := le32 idx) a1 (by simp [blkLen])
  obtain ⟨c1, c2⟩ := Memory.writeBytes_spec (a := 8) (bs := le32 0#32) b1 (by simp [blkLen])
  obtain ⟨d1, d2⟩ := Memory.writeBytes_spec (a := 12) (bs := le32 0#32) c1 (by simp [blkLen])
  have hb : (prepareBlock idx v mk s).blk = Memory.writeBytes (Memory.writeBytes (Memory.writeBytes (Memory.writeBytes P 0 (le32 1024#32)) 4 (le32 idx)) 8 (le32 0#32)) 12 (le32 0#32) := by
    simp only [prepareBlock, hP, Memory.write32]
  have hread : ∀ a, Memory.read (prepareBlock idx v mk s).blk a =
        if a < 16 then byteAt (flashDataBodyHeader idx) a
        else if a < 1040 then byteAt data (a - 16) else Memory.read s.blk a := by
    intro a
    have a2' : ∀ b, Memory.read (Memory.writeBytes P 0 (le32 1024#32)) b = if 0 ≤ b ∧
        b < 0 + 4 then (le32 1024#32).getD (b - 0) 0#8 else Memory.read P b := a2
    have b2' : ∀ b,
        Memory.read (Memory.writeBytes (Memory.writeBytes P 0 (le32 1024#32)) 4 (le32 idx)) b = if 4 ≤ b ∧
        b < 4 + 4 then (le32 idx).getD (b - 4) 0#8 else Memory.read (Memory.writeBytes P 0 (le32 1024#32)) b := b2
    have c2' : ∀ b,
        Memory.read (Memory.writeBytes (Memory.writeBytes (Memory.writeBytes P 0 (le32 1024#32)) 4 (le32 idx)) 8 (le32 0#32)) b = if 8 ≤ b ∧ b < 8 + 4 then (le32 0#32).getD (b - 8) 0#8 else Memory.read (Memory.writeBytes (Memory.writeBytes P 0 (le32 1024#32)) 4 (le32 idx)) b := c2
    have d2' : ∀ b,
        Memory.read (Memory.writeBytes (Memory.writeBytes (Memory.writeBytes (Memory.writeBytes P 0 (le32 1024#32)) 4 (le32 idx)) 8 (le32 0#32)) 12 (le32 0#32)) b = if 12 ≤ b ∧ b < 12 + 4 then (le32 0#32).getD (b - 12) 0#8 else Memory.read (Memory.writeBytes (Memory.writeBytes (Memory.writeBytes P 0 (le32 1024#32)) 4 (le32 idx)) 8 (le32 0#32)) b := d2
    rw [hb, d2', c2', b2', a2']
    by_cases h16 : a < 16
    · rw [if_pos h16]
      by_cases h1 : a < 4
      · rw [if_neg (show ¬ (12 ≤ a ∧ a < 12 + 4) by omega), if_neg (show ¬ (8 ≤ a ∧ a < 8 + 4) by omega),
          if_neg (show ¬ (4 ≤ a ∧ a < 4 + 4) by omega), if_pos (show (0 ≤ a ∧ a < 0 + 4) by omega)]
        have : a < (le32 1024#32).length := by simp; omega
        simp [flashDataBodyHeader, byteAt, List.getElem?_append, h1]
      · by_cases h2 : a < 8
        · rw [if_neg (show ¬ (12 ≤ a ∧ a < 12 + 4) by omega), if_neg (show ¬ (8 ≤ a ∧ a < 8 + 4) by omega),
            if_pos (show (4 ≤ a ∧ a < 4 + 4) by omega)]
          have h3 : a - 4 < 4 := by omega
          simp [flashDataBodyHeader, byteAt, List.getElem?_append, h1, h3]
        · by_cases h3 : a < 12
          · rw [if_neg (show ¬ (12 ≤ a ∧ a < 12 + 4) by omega), if_pos (show (8 ≤ a ∧ a < 8 + 4) by omega)]
            have h4 : ¬ a - 4 < 4 := by omega
            have h5 : a - 4 - 4 = a - 8 := by omega
            have h6 : a - 8 < 4 := by omega
            simp [flashDataBodyHeader, byteAt, List.getElem?_append, h1, h4, h5, h6]
          · rw [if_pos (show (12 ≤ a ∧ a < 12 + 4) by omega)]
            have h4 : ¬ a - 4 < 4 := by omega
            have h5 : a - 4 - 4 = a - 8 := by omega
            have h6 : ¬ a - 8 < 4 := by omega
            have h7 : a - 8 - 4 = a - 12 := by omega
            have h8 : a - 12 < 4 := by omega
            simp [flashDataBodyHeader, byteAt, List.getElem?_append, h1, h4, h5, h6, h7]
    · rw [if_neg h16, if_neg (show ¬ (12 ≤ a ∧ a < 12 + 4) by omega), if_neg (show ¬ (8 ≤ a ∧ a < 8 + 4) by omega),
        if_neg (show ¬ (4 ≤ a ∧ a < 4 + 4) by omega), if_neg (show ¬ (0 ≤ a ∧ a < 0 + 4) by omega)]
      by_cases h2 : a < 1040
      · rw [if_pos h2]
        rw [hdata, ← p2, byteAt_blockData p1 _ (by omega)]
        congr 1; omega
      · rw [if_neg h2, p3 a (by omega)]
  have hdl : data.length = 1024 := by rw [hdata, length_patchedData, length_blockData]
  have hwf : Memory.wf (prepareBlock idx v mk s).blk = true := by rw [hb]; exact d1
  refine ⟨hwf, ?_, rfl, hread, rfl, ?_, ?_⟩
  · simp only [prepareBlock, hP, p2, hdata]
  · have hh : (flashDataBodyHeader idx).length = 16 := rfl
    apply ext_byteAt
    · rw [length_blockBody, List.length_append, hh, hdl]
    · intro i hi
      rw [length_blockBody] at hi
      rw [blockBody, Memory.byteAt_readBytes hwf 0 blkLen i hi, hread, Nat.zero_add]
      by_cases h : i < 16
      · rw [if_pos h, byteAt_append_left (by rw [hh]; exact h)]
      · rw [if_neg h, if_pos hi]
        simp only [byteAt, List.getD_eq_getElem?_getD]
        rw [List.getElem?_append_right (by rw [hh]; omega), hh]
  · apply ext_byteAt
    · rw [length_blockData, hdl]
    · intro i hi
      rw [length_blockData] at hi
      rw [byteAt_blockData hwf i hi, hread, if_neg (show ¬ 16 + i < 16 by omega),
          if_pos (show 16 + i < 1040 by omega), Nat.add_sub_cancel_left]

/-- t differs from s at most in the receive machine, the environment and `blk_attempt`. -/
def SameButAtt (s t : State) : Prop := { t with rx := s.rx, env := s.env, blkAttempt := s.blkAttempt } = s

/-- Nothing has changed. -/
theorem SameButAtt.refl (s : State) : SameButAtt s s := rfl

/-- A weaker relation. -/
theorem SameButAtt.of {s t : State} (h : SameButRx s t) : SameButAtt s t := by
  cases s; cases t; simp [SameButRx, SameButAtt] at *; simp [*]

/-- One after the other. -/
theorem SameButAtt.trans {s t u : State} (h : SameButAtt s t) (h' : SameButAtt t u) : SameButAtt s u := by
  cases s; cases t; cases u; simp [SameButAtt] at *; simp [*]

/-- The registers it says are equal. -/
theorem SameButAtt.fields {s t : State} (h : SameButAtt s t) :
    t.cfg = s.cfg ∧ t.session = s.session ∧ t.orch = s.orch ∧ t.syncPhase = s.syncPhase ∧ t.syncExtra = s.syncExtra ∧
        t.syncStatus = s.syncStatus ∧ t.blk = s.blk ∧ t.chk8 = s.chk8 ∧
    t.port = s.port ∧ t.ret = s.ret ∧ t.unitCall = s.unitCall := by
  cases s; cases t; simp [SameButAtt] at *; simp [*]

/-- the frame of the buffer -/
def bufFrame (s : State) : Bytes := frameOnWire s.cfg s.cfg.opcFlashData (blockBody s.blk) (zext32 s.chk8)

/-- One attempt of FDATA, up to its first poll (R112, R114). -/
theorem attempt_facts (s : State) :
    SameButAtt s (fdataAttempt s) ∧ (fdataAttempt s).blkAttempt = s.blkAttempt + 1 ∧ Begun (fdataAttempt s) ∧
        (fdataAttempt s).rx.bodyLen = 0#16 ∧
    Exchanged (bufFrame s) [] s.env (fdataAttempt s).env ∧ (fdataAttempt s).rx.expected = s.cfg.opcFlashData ∧
        (fdataAttempt s).rx.timeout = s.cfg.tBlock ∧
    (slack s.env ≤ s.cfg.tBlock.toNat → OnTime (fdataAttempt s)) := by
  have hr := beginCmd_regs s.cfg.opcFlashData (blockBody s.blk) (zext32 s.chk8) s.cfg.tBlock { s with blkAttempt := s.blkAttempt + 1 }
  have hf := hr.fields
  refine ⟨(show SameButAtt s { s with blkAttempt := s.blkAttempt + 1 } from rfl).trans (.of hr), hf.2.2.2.2.2.2.1,
      begun _ _ _, rfl,
      beginCmd_exchanged s.cfg.opcFlashData (blockBody s.blk) (zext32 s.chk8) s.cfg.tBlock { s with blkAttempt := s.blkAttempt + 1 }, rfl, rfl, ?_⟩
  intro h
  exact (begin_cmd_facts s.cfg.opcFlashData (blockBody s.blk) (zext32 s.chk8) s.cfg.tBlock { s with blkAttempt := s.blkAttempt + 1 } h).2

/-- One more at the end. -/
theorem copies_succ (n : Nat) (f : Bytes) : copies (n + 1) f = copies n f ++ f := by
  simp [copies, List.replicate_succ', List.flatten_append]

/-- One more at the front. -/
theorem copies_succ' (n : Nat) (f : Bytes) : copies (n + 1) f = f ++ copies n f := by
  simp [copies, List.replicate_succ]

/-- None. -/
theorem copies_zero (f : Bytes) : copies 0 f = [] := rfl

/-- One. -/
theorem copies_one (f : Bytes) : copies 1 f = f := by simp [copies]

/-- FDATA up to its first poll (R112). -/
theorem beginFdata_facts (idx : U32) (v mk : U16) (s : State) (hm : Memory.wf s.blk = true) :
    let data := patchedData s.cfg idx s.session.targetAddr v mk (blockData s.blk)
    let x := beginFdata idx v mk s
    x.blk = (prepareBlock idx v mk s).blk ∧ x.chk8 = chkFold data ∧ x.blkAttempt = 1 ∧
    { x with rx := s.rx, env := s.env, blk := s.blk, chk8 := s.chk8, blkAttempt := s.blkAttempt } = s ∧
    Begun x ∧ x.rx.bodyLen = 0#16 ∧ x.rx.expected = s.cfg.opcFlashData ∧ x.rx.timeout = s.cfg.tBlock ∧
        (slack s.env ≤ s.cfg.tBlock.toNat → OnTime x) ∧
    (legalConfig s.cfg = true → Exchanged (dataFrame s.cfg idx data) [] s.env x.env ∧
        bufFrame x = dataFrame s.cfg idx data) := by
  intro data x
  obtain ⟨p1, p2, p3, p4, p5, p6, p7⟩ := prepare_spec idx v mk s hm data rfl
  obtain ⟨a1, a2, a3, a4, a5, a6, a7, a8⟩ := attempt_facts (prepareBlock idx v mk s)
  have f := a1.fields
  have hpc : (prepareBlock idx v mk s).cfg = s.cfg := rfl
  have hpe : (prepareBlock idx v mk s).env = s.env := rfl
  have hb : legalConfig s.cfg = true → bufFrame (prepareBlock idx v mk s) = dataFrame s.cfg idx data := by
    intro hl
    rw [bufFrame, p6, p2, hpc, frame_data hl]
  refine ⟨f.2.2.2.2.2.2.1, f.2.2.2.2.2.2.2.1.trans p2,
      by show (fdataAttempt _).blkAttempt = 1; rw [a2, p3], ?_, a3, a4, a6, a7, a8, ?_⟩
  · have := congrArg (fun y : State => { y with blk := s.blk, chk8 := s.chk8, blkAttempt := s.blkAttempt }) a1
    exact this.trans p5
  · intro hl
    refine ⟨?_, ?_⟩
    · rw [← hb hl]; exact a5
    · rw [← hb hl]
      show bufFrame (fdataAttempt _) = _
      simp only [bufFrame, f.1, f.2.2.2.2.2.2.1, f.2.2.2.2.2.2.2.1]

/-- The registers FDATA does not touch. -/
theorem beginFdata_fields (idx : U32) (v mk : U16) (s : State) :
    let x := beginFdata idx v mk s
    x.cfg = s.cfg ∧ x.session = s.session ∧ x.orch = s.orch ∧ x.syncPhase = s.syncPhase ∧ x.syncExtra = s.syncExtra ∧
        x.syncStatus = s.syncStatus ∧
    x.port = s.port ∧ x.ret = s.ret ∧ x.unitCall = s.unitCall := by
  have f := (attempt_facts (prepareBlock idx v mk s)).1.fields
  exact ⟨f.1, f.2.1, f.2.2.1, f.2.2.2.1, f.2.2.2.2.1, f.2.2.2.2.2.1, f.2.2.2.2.2.2.2.2.1, f.2.2.2.2.2.2.2.2.2.1,
      f.2.2.2.2.2.2.2.2.2.2⟩

end Sys2Proof.Machine
end

