-- ==== Sys2Proof/Laws/Sync.lean ====
section
/-! SUPPORT. The polls of a RECV and the stages of SYNC, by what each can do (R84, R85, R100 to R102). -/

namespace Sys2Proof.Machine

/-- The codes RECV can return, of those it can raise (R161). -/
def recvCodes : List ResultCode := [.success, .timeout, .responseHeaderError, .slipFrameError, .slipDataError]

/-- The invariant says nothing of `esc_pending`. -/
theorem receiverInv_esc {rx : Receiver} (b : Bool) (h : receiverInv rx) : receiverInv { rx with escPending := b } := h

/-- A poll keeps the invariant of the receive registers, and ends with a code of R161. -/
theorem poll_inv (s : State) (h : receiverInv s.rx) :
    (∀ t, poll s = .wait t → receiverInv t.rx ∧ t.rx.active = s.rx.active) ∧
    (∀ t, poll s = .again t → receiverInv t.rx ∧ t.rx.active = s.rx.active) ∧
    (∀ st t, poll s = .ended st t → st ∈ recvCodes ∧ t.rx.active = false) := by
  refine ⟨?_, ?_, ?_⟩
  · intro t ht
    have hx : t.rx = { s.rx with escPending := t.rx.escPending } := by
      simp only [poll] at ht
      split at ht
      · cases ht
      · split at ht
        · simp only [pollStart] at ht
          split at ht
          · cases ht; rfl
          · cases ht
        · have hd := slipDecode_rx s.atPoll
          rw [State.atPoll_rx] at hd
          simp only [pollDecoded] at ht
          split at ht <;> try cases ht
          · exact hd
          · exact hd
        · have hd := slipDecode_rx s.atPoll
          rw [State.atPoll_rx] at hd
          simp only [pollDecoded] at ht
          split at ht <;> try cases ht
          · exact hd
          · exact hd
        · simp only [pollEnd] at ht
          split at ht
          · cases ht; rfl
          · split at ht <;> cases ht
        · cases ht
    rw [hx]; exact ⟨h, rfl⟩
  · intro t ht
    have hd := slipDecode_rx s.atPoll
    rw [State.atPoll_rx] at hd
    simp only [poll] at ht
    split at ht
    · cases ht
    · split at ht <;> rename_i hst <;> rw [State.atPoll_rx] at hst
      · simp only [pollStart] at ht
        split at ht
        · cases ht
        · cases ht
          simp only [receiverInv, hst] at h
          split
          · exact ⟨by simp [receiverInv, h.1, h.2.1], rfl⟩
          · exact ⟨by simp only [receiverInv, State.atPoll_rx, hst]; exact h, rfl⟩
      · simp only [pollDecoded] at ht
        simp only [receiverInv, hst] at h
        split at ht <;> try cases ht
        dsimp only
        rw [hd]
        obtain ⟨h1, h2⟩ := h
        refine ⟨?_, by simp only [storeHeaderByte]; split <;> rfl⟩
        rename_i c hc
        by_cases h7 : s.rx.hdrIdx + 1 = 8
        · simp only [storeHeaderByte, hdrLen, h7, if_true]
          generalize hv : s.rx.hdr.setIfInBounds s.rx.hdrIdx c = v
          generalize hw : getLe16 v.toList 2 = w
          by_cases hz : w = 0#16
          · simp only [ne_eq, hz, not_true_eq_false, if_false, receiverInv, h2, hw, and_self]
          · simp only [ne_eq, hz, not_false_eq_true, if_true, receiverInv, h2, hw, and_self, and_true, true_and]
            rcases Nat.eq_zero_or_pos w.toNat with h0 | h0
            · exact absurd (BitVec.eq_of_toNat_eq (by simpa using h0)) hz
            · simpa using h0
        · simp only [storeHeaderByte, hdrLen, h7, if_false, receiverInv, hst]
          exact ⟨by omega, h2⟩
      · simp only [pollDecoded] at ht
        simp only [receiverInv, hst] at h
        split at ht <;> try cases ht
        dsimp only
        rw [hd]
        obtain ⟨h1, h2, h3, h4⟩ := h
        refine ⟨?_, rfl⟩
        have hlt := s.rx.bodyLen.isLt
        by_cases hx : s.rx.bodyIdx + 1#16 = s.rx.bodyLen
        · simp only [storeBodyByte, hx, if_true, receiverInv]
          refine ⟨h1, ?_, h3, h4⟩ <;> first | rfl | trivial
        · simp only [storeBodyByte, hx, if_false, hst, receiverInv]
          refine ⟨h1, ?_, h3, h4⟩
          have : (s.rx.bodyIdx + 1#16).toNat ≠ s.rx.bodyLen.toNat := fun h => hx (BitVec.eq_of_toNat_eq h)
          rw [BitVec.toNat_add] at this ⊢
          simp at this ⊢
          omega
      · simp only [pollEnd] at ht
        split at ht
        · cases ht
        · split at ht <;> cases ht
      · cases ht
  · intro st t ht
    refine ⟨?_, poll_ended_inactive ht⟩
    simp only [poll] at ht
    split at ht
    · cases ht; simp [recvCodes]
    · split at ht <;> rename_i hst <;> rw [State.atPoll_rx] at hst
      · simp only [pollStart] at ht
        split at ht <;> cases ht
      · simp only [pollDecoded] at ht
        split at ht <;> cases ht <;> simp [recvCodes]
      · simp only [pollDecoded] at ht
        split at ht <;> cases ht <;> simp [recvCodes]
      · simp only [pollEnd] at ht
        split at ht
        · cases ht
        · split at ht
          · cases ht
            split <;> simp [recvCodes]
          · cases ht; simp [recvCodes]
      · simp [receiverInv, hst] at h

/-- CMD adds BadReply (R86). -/
theorem reply_codes {st : ResultCode} (h : st ∈ recvCodes) (n : U16) : replyStatus st n ∈ (ResultCode.badReply :: recvCodes) := by
  simp only [replyStatus]
  split
  · simp
  · exact List.mem_cons_of_mem _ h

/-- t differs from s at most in the receive machine, the environment and the synchronizer's registers. -/
def SameButSync (s t : State) : Prop :=
  { t with rx := s.rx, env := s.env, syncPhase := s.syncPhase, syncExtra := s.syncExtra, syncStatus := s.syncStatus } = s

/-- Nothing has changed. -/
theorem SameButSync.refl (s : State) : SameButSync s s := rfl

/-- A weaker relation. -/
theorem SameButSync.of {s t : State} (h : SameButRx s t) : SameButSync s t := by
  cases s; cases t; simp [SameButRx, SameButSync] at *; simp [*]

/-- One after the other. -/
theorem SameButSync.trans {s t u : State} (h : SameButSync s t) (h' : SameButSync t u) : SameButSync s u := by
  cases s; cases t; cases u; simp [SameButSync] at *; simp [*]

/-- The registers it says are equal. -/
theorem SameButSync.fields {s t : State} (h : SameButSync s t) :
    t.cfg = s.cfg ∧ t.session = s.session ∧ t.orch = s.orch ∧ t.blkAttempt = s.blkAttempt ∧ t.blk = s.blk ∧
        t.chk8 = s.chk8 ∧
    t.port = s.port ∧ t.ret = s.ret ∧ t.unitCall = s.unitCall := by
  cases s; cases t; simp [SameButSync] at *; simp [*]

/-- What the synchronizer's registers hold while SYNC waits for its RECV (R13). -/
structure SyncInv (s : State) : Prop where
  phase : s.syncPhase ≠ .idle
  extra : s.syncPhase ≠ .first → s.syncExtra ≤ 10 ∧ (s.syncPhase = .extra → s.syncExtra < 10)
  flush : s.syncPhase = .flush → s.syncStatus = .success

/-- The codes SYNC can return (R161). -/
def syncCodes : List ResultCode := [.success, .timeout, .badReply, .responseHeaderError, .slipFrameError,
    .slipDataError]

/-- The test of R101, whatever it decides. -/
theorem syncDecide_spec {st : ResultCode} {s : State} (hp : s.syncPhase = .extra) (hx : s.syncExtra ≤ 10) :
    (∀ t, syncDecide st s = .again t → SameButSync s t ∧ Begun t ∧ t.rx.bodyLen = 0#16 ∧
        Exchanged [] [] s.env t.env ∧ SyncInv t) ∧
    (∀ st2 t, syncDecide st s = .finished st2 t → t = { s with syncPhase := .idle } ∧ st2 = st) := by
  refine ⟨?_, ?_⟩
  · intro t h
    simp only [syncDecide] at h
    split at h
    · rename_i hd
      cases h
      refine ⟨.of (beginRecv_regs _ _ _), begun _ _ _, rfl, beginRecv_exchanged _ _ _, ?_⟩
      simp [extraReadDue, syncExtraReads] at hd
      exact ⟨by show s.syncPhase ≠ .idle; rw [hp]; decide, fun _ => ⟨hx, fun _ => of_decide_eq_true hd.1⟩, fun h => by rw [show s.syncPhase = .flush from h] at hp; cases hp⟩
    · split at h
      · rename_i hs
        cases h
        refine ⟨?_, begun s.cfg.opcSync s.cfg.tDefault { s with syncStatus := st, syncPhase := .flush }, rfl,
            beginRecv_exchanged s.cfg.opcSync s.cfg.tDefault { s with syncStatus := st, syncPhase := .flush }, ?_⟩
        · have := SameButSync.of (beginRecv_regs s.cfg.opcSync s.cfg.tDefault { s with syncStatus := st, syncPhase := .flush })
          exact SameButSync.trans (t := { s with syncStatus := st, syncPhase := .flush }) rfl this
        · exact ⟨by show SyncPhase.flush ≠ .idle; decide, fun _ => ⟨hx, fun h => by cases h⟩, fun _ => hs⟩
      · cases h
  · intro st2 t h
    simp only [syncDecide] at h
    split at h
    · cases h
    · split at h <;> cases h
      exact ⟨rfl, rfl⟩

/-- SYNC after one of its RECVs (R100 to R102). -/
theorem syncContinue_spec {st : ResultCode} {s : State} (hst : st ∈ recvCodes) (hi : SyncInv s) :
    (∀ t, syncContinue st s = .again t → SameButSync s t ∧ Begun t ∧ t.rx.bodyLen = 0#16 ∧
        Exchanged [] [] s.env t.env ∧ SyncInv t) ∧
    (∀ st2 t, syncContinue st s = .finished st2 t → SameButSync s t ∧ t.env = s.env ∧ t.rx = s.rx ∧
        t.syncPhase = .idle ∧ t.syncExtra ≤ 10 ∧
      st2 ∈ syncCodes) := by
  have codes : ∀ n, replyStatus st n ∈ syncCodes := by
    intro n
    have := reply_codes hst n
    simp only [recvCodes, syncCodes, List.mem_cons, List.not_mem_nil, or_false] at this ⊢
    tauto
  have codes' : st ∈ syncCodes := by
    simp only [recvCodes, syncCodes, List.mem_cons, List.not_mem_nil, or_false] at hst ⊢
    tauto
  cases hp : s.syncPhase with
  | idle => exact absurd hp hi.phase
  | first =>
    obtain ⟨h1,
        h2⟩ := syncDecide_spec (st := replyStatus st s.rx.bodyLen) (s := { s with syncExtra := 0, syncPhase := .extra }) rfl (by simp)
    simp only [syncContinue, hp]
    refine ⟨?_, ?_⟩
    · intro t h
      obtain ⟨a, b⟩ := h1 t h
      exact ⟨SameButSync.trans (t := { s with syncExtra := 0, syncPhase := .extra }) rfl a, b⟩
    · intro st2 t h
      obtain ⟨rfl, rfl⟩ := h2 st2 t h
      exact ⟨rfl, rfl, rfl, rfl, by simp, codes _⟩
  | extra =>
    have hx := (hi.extra (by rw [hp]; decide)).2 hp
    obtain ⟨h1, h2⟩ := syncDecide_spec (st := st) (s := { s with syncExtra := s.syncExtra + 1 }) hp (by simp; omega)
    simp only [syncContinue, hp]
    refine ⟨?_, ?_⟩
    · intro t h
      rw [← hp] at h
      obtain ⟨a, b⟩ := h1 t h
      exact ⟨SameButSync.trans (t := { s with syncExtra := s.syncExtra + 1 }) rfl a, b⟩
    · intro st2 t h
      rw [← hp] at h
      obtain ⟨rfl, rfl⟩ := h2 st2 t h
      exact ⟨rfl, rfl, rfl, rfl, by simp; omega, codes'⟩
  | flush =>
    have hf := hi.flush hp
    simp only [syncContinue, hp]
    refine ⟨?_, ?_⟩
    · intro t h
      split at h
      · cases h
        refine ⟨.of (beginRecv_regs _ _ _), begun _ _ _, rfl, beginRecv_exchanged _ _ _, ?_⟩
        exact ⟨hi.phase, hi.extra, hi.flush⟩
      · cases h
    · intro st2 t h
      split at h
      · cases h
      · cases h
        refine ⟨?_, rfl, rfl, rfl, (hi.extra (by rw [hp]; decide)).1, by rw [hf]; simp [syncCodes]⟩
        rfl

/-- SYNC up to its first poll (R100). -/
theorem beginSync_facts (T : U32) (s : State) :
    SameButSync s (beginSync T s) ∧ Begun (beginSync T s) ∧ (beginSync T s).rx.bodyLen = 0#16 ∧
    Exchanged (syncFrame s.cfg) [] s.env (beginSync T s).env ∧ SyncInv (beginSync T s) ∧
        (beginSync T s).syncPhase = .first ∧ (beginSync T s).syncExtra = s.syncExtra ∧
    (beginSync T s).rx.expected = s.cfg.opcSync ∧ (beginSync T s).rx.timeout = T := by
  have hr := beginCmd_regs s.cfg.opcSync (syncPayload s.cfg) 0#32 T { s with syncPhase := .first }
  have hf := hr.fields
  have he := beginCmd_exchanged s.cfg.opcSync (syncPayload s.cfg) 0#32 T { s with syncPhase := .first }
  rw [show ({ s with syncPhase := .first } : State).cfg = s.cfg from rfl, frame_sync] at he
  have hph : (beginSync T s).syncPhase = .first := hf.2.2.2.1
  refine ⟨SameButSync.trans (t := { s with syncPhase := .first }) rfl (.of hr), begun _ _ _, rfl, he, ⟨?_, ?_, ?_⟩,
      hph, hf.2.2.2.2.1, rfl, rfl⟩
  · rw [hph]; simp
  · rw [hph]; simp
  · rw [hph]; simp

/-- It takes one timestamp (R84). -/
theorem beginSync_starts (T : U32) (s : State) : Starts s (beginSync T s) := by
  obtain ⟨h1, h2, h3, h4⟩ := beginCmd_starts s.cfg.opcSync (syncPayload s.cfg) 0#32 T { s with syncPhase := .first }
  exact ⟨h1, h2, h3, h4⟩

/-- What SYNC awaits, and how long (R100 to R102, R171). -/
def SyncLimit (T : U32) (s : State) : Prop :=
  s.rx.expected = s.cfg.opcSync ∧ s.rx.timeout = if s.syncPhase = .flush then s.cfg.tDefault else T

/-- Every RECV SYNC goes on to has that limit. -/
theorem syncContinue_limit {T : U32} {st : ResultCode} {s t : State} (h : SyncLimit T s)
    (ho : syncContinue st s = .again t) : SyncLimit T t := by
  have key : ∀ (st : ResultCode) (u : State), u.syncPhase = .extra → u.rx.timeout = T →
      syncDecide st u = .again t → SyncLimit T t := by
    intro st u h1 h2 h3
    simp only [syncDecide] at h3
    split at h3
    · cases h3
      exact ⟨rfl, by show u.rx.timeout = if u.syncPhase = .flush then _ else _; rw [h1, h2]; rfl⟩
    · split at h3 <;> cases h3
      exact ⟨rfl, rfl⟩
  obtain ⟨h1, h2⟩ := h
  cases hp : s.syncPhase <;> simp only [syncContinue, hp] at ho
  · cases ho
  · exact key _ _ rfl (by simpa [hp] using h2) ho
  · exact key _ { s with syncExtra := s.syncExtra + 1 } hp (by simpa [hp] using h2) (by rw [← ho, ← hp])
  · split at ho <;> cases ho
    exact ⟨rfl, by show _ = if s.syncPhase = .flush then s.cfg.tDefault else _; rw [hp]; rfl⟩

end Sys2Proof.Machine
end

