-- ==== Sys2Proof/Laws/Await.lean ====
section
/-! SUPPORT. The poll loop and the tails of the state actions, by what each can do (R132, R135, R136, R138, R139). -/

namespace Sys2Proof.Machine

/-- Induction along the poll loop: what every poll and every continuation keeps holds at the suspension and at the end; the fuel never runs out (log 19). -/
theorem await_induct (c : Caller) (P Q : State → Prop)
    (hwait : ∀ s s1, P s → poll s = .wait s1 → Q s1.inProgress)
    (hagain : ∀ s s1, P s → poll s = .again s1 → P s1)
    (hnext : ∀ s s1 s2 st, P s → poll s = .ended st s1 → opContinue c.op st s1 = .again s2 → P s2)
    (hlast : ∀ s s1 s2 st st2, P s → poll s = .ended st s1 → opContinue c.op st s1 = .finished st2 s2 →
      Q (deliver c st2 s2))
    (s : State) (h : P s) : Q (await c s) := by
  -- by the enough fuel lemma: need no hstop
  have key : ∀ n s, pollNeed s ≤ n → P s → Q (pollLoop n c s) := by
    intro n
    induction n with
    | zero => intro s hn; simp [pollNeed] at hn
    | succ n ih =>
      intro s hn hP
      obtain ⟨bs, h1, h2, h3⟩ := poll_exchanged s
      have hr := poll_receives s
      have hb := h1.bytesToCome
      have ht : triesLeft (poll s).state = triesLeft s := by
        simp [triesLeft, hr.regs.fields.2.2.2.2.2.2.1]
      rw [pollLoop]
      split
      · rename_i s1 hp; exact hwait s s1 hP hp
      · rename_i s1 hp
        have := h2 ⟨_, hp⟩
        rw [hp] at hb ht
        simp only [Poll.state] at hb ht
        apply ih _ _ (hagain s s1 hP hp)
        simp only [pollNeed] at *; omega
      · rename_i st s1 hp
        have h4 := h3 _ _ hp
        rw [hp] at hb ht
        simp only [Poll.state] at hb ht
        split
        · rename_i s2 ho
          obtain ⟨g1, g2, g3⟩ := opContinue_again ho
          have g4 : triesLeft s2 < triesLeft s1 ∨ 1 ≤ bs.length := by
            rcases g3 with g | g | g
            · exact .inl g
            · subst g; exact .inr (by simpa using h4)
            · subst g; exact .inr (by simpa using h4)
          apply ih _ _ (hnext s s1 s2 st hP hp ho)
          simp only [pollNeed] at *; omega
        · rename_i st2 s2 ho
          exact hlast s s1 s2 st st2 hP hp ho
  exact key _ s (by simp only [pollNeed, pollBudget, triesLeft]; omega) h

/-- everything the poll loop never touches -/
def Kept (s t : State) : Prop :=
  { t with rx := s.rx, env := s.env, syncPhase := s.syncPhase, syncExtra := s.syncExtra, syncStatus := s.syncStatus, blkAttempt := s.blkAttempt } = s

/-- Nothing has changed. -/
theorem Kept.refl (s : State) : Kept s s := rfl

/-- A poll. -/
theorem Kept.rx {s t : State} (h : SameButRx s t) : Kept s t := by
  cases s; cases t; simp [SameButRx, Kept] at *; simp [*]

/-- An attempt of FDATA. -/
theorem Kept.att {s t : State} (h : SameButAtt s t) : Kept s t := by
  cases s; cases t; simp [SameButAtt, Kept] at *; simp [*]

/-- A stage of SYNC. -/
theorem Kept.sync {s t : State} (h : SameButSync s t) : Kept s t := by
  cases s; cases t; simp [SameButSync, Kept] at *; simp [*]

/-- One after the other. -/
theorem Kept.trans {s t u : State} (h : Kept s t) (h' : Kept t u) : Kept s u := by
  cases s; cases t; cases u; simp [Kept] at *; simp [*]

/-- The registers it says are equal. -/
structure KeptFields (s t : State) : Prop where
  cfg : t.cfg = s.cfg
  session : t.session = s.session
  orch : t.orch = s.orch
  blk : t.blk = s.blk
  chk8 : t.chk8 = s.chk8
  port : t.port = s.port
  ret : t.ret = s.ret
  unitCall : t.unitCall = s.unitCall

/-- They are. -/
theorem Kept.f {s t : State} (h : Kept s t) : KeptFields s t := by
  cases s; cases t; simp [Kept] at *; constructor <;> simp [*]

/-- The FlashData frame is the same. -/
theorem Kept.buf {s t : State} (h : Kept s t) : bufFrame t = bufFrame s := by
  simp [bufFrame, h.f.cfg, h.f.blk, h.f.chk8]

/-- How any operation goes on when its RECV has returned: it sends nothing, or, FDATA,
    one more copy of its frame (R114). -/
theorem opContinue_any (op : UnitOp) (st : ResultCode) (s : State) :
    (∀ t, opContinue op st s = .again t → Kept s t ∧ Starts s t ∧ ((Exchanged [] [] s.env t.env ∧
        t.blkAttempt = s.blkAttempt) ∨ (op = .fdata ∧ Exchanged (bufFrame s) [] s.env t.env ∧ s.blkAttempt < 3 ∧
        t.blkAttempt = s.blkAttempt + 1))) ∧
    (∀ st2 t, opContinue op st s = .finished st2 t → Kept s t ∧ t.env = s.env ∧ t.rx = s.rx ∧
        t.blkAttempt = s.blkAttempt) := by
  have br : ∀ (op' : Byte) (T : U32) (u : State), Kept u (beginRecv op' T u) ∧ Starts u (beginRecv op' T u) ∧
      Exchanged [] [] u.env (beginRecv op' T u).env ∧ (beginRecv op' T u).blkAttempt = u.blkAttempt :=
    fun op' T u => ⟨.rx (beginRecv_regs _ _ _), beginRecv_starts _ _ _, beginRecv_exchanged _ _ _, rfl⟩
  have sd : ∀ (st : ResultCode) (u : State), Kept s u → u.env = s.env → u.rx = s.rx → u.blkAttempt = s.blkAttempt →
     (∀ t, syncDecide st u = .again t → Kept s t ∧ Starts s t ∧ Exchanged [] [] s.env t.env ∧
         t.blkAttempt = s.blkAttempt) ∧
     (∀ st2 t, syncDecide st u = .finished st2 t → Kept s t ∧ t.env = s.env ∧ t.rx = s.rx ∧
         t.blkAttempt = s.blkAttempt) := by
    intro st u hk he hr hb
    refine ⟨fun t h => ?_, fun st2 t h => ?_⟩
    · simp only [syncDecide] at h
      split at h
      · cases h
        obtain ⟨a, b, c, d⟩ := br u.cfg.opcSync u.rx.timeout u
        exact ⟨hk.trans a, ⟨b.active, he ▸ b.stamps, he ▸ b.overrun, hk.f.cfg ▸ b.start⟩, he ▸ c, d.trans hb⟩
      · split at h
        · cases h
          obtain ⟨a, b, c, d⟩ := br u.cfg.opcSync u.cfg.tDefault { u with syncStatus := st, syncPhase := .flush }
          exact ⟨(hk.trans (t := u) (u := { u with syncStatus := st, syncPhase := .flush }) rfl).trans a,
              ⟨b.active, he ▸ b.stamps, he ▸ b.overrun, hk.f.cfg ▸ b.start⟩,
              (by have e : Exchanged [] [] u.env _ := c; exact he ▸ e), d.trans hb⟩
        · cases h
    · simp only [syncDecide] at h
      split at h
      · cases h
      · split at h <;> cases h
        exact ⟨hk.trans (t := u) (u := { u with syncPhase := .idle }) rfl, he, hr, hb⟩
  cases op
  · exact ⟨fun t h => (by change OpStep.finished _ _ = OpStep.again _ at h; cases h),
      fun st2 t h => by change OpStep.finished _ _ = OpStep.finished _ _ at h; cases h; exact ⟨.refl _, rfl, rfl, rfl⟩⟩
  · exact ⟨fun t h => (by change OpStep.finished _ _ = OpStep.again _ at h; cases h),
      fun st2 t h => by change OpStep.finished _ _ = OpStep.finished _ _ at h; cases h; exact ⟨.refl _, rfl, rfl, rfl⟩⟩
  · change (∀ t, syncContinue st s = .again t → _) ∧ (∀ st2 t, syncContinue st s = .finished st2 t → _)
    cases hp : s.syncPhase
    · have : syncContinue st s = .finished st s := by simp only [syncContinue, hp]
      rw [this]
      exact ⟨fun t h => (by cases h), fun st2 t h => by cases h; exact ⟨.refl _, rfl, rfl, rfl⟩⟩
    · have : syncContinue st s = syncDecide (replyStatus st s.rx.bodyLen) { s with syncExtra := 0, syncPhase := .extra } := by simp only [syncContinue, hp]
      rw [this]
      obtain ⟨h1, h2⟩ := sd (replyStatus st s.rx.bodyLen) { s with syncExtra := 0, syncPhase := .extra } rfl rfl rfl rfl
      exact ⟨fun t h => by obtain ⟨a, b, c, d⟩ := h1 t h; exact ⟨a, b, .inl ⟨c, d⟩⟩, h2⟩
    · have : syncContinue st s = syncDecide st { s with syncExtra := s.syncExtra + 1 } := by
        simp only [syncContinue, hp]
      rw [this]
      obtain ⟨h1, h2⟩ := sd st { s with syncExtra := s.syncExtra + 1 } rfl rfl rfl rfl
      exact ⟨fun t h => by obtain ⟨a, b, c, d⟩ := h1 t h; exact ⟨a, b, .inl ⟨c, d⟩⟩, h2⟩
    · have : syncContinue st s = if flushGoesOn st s.rx.bodyLen then .again (beginRecv s.cfg.opcSync s.cfg.tDefault s)
    else .finished s.syncStatus { s with syncPhase := .idle } := by simp only [syncContinue, hp]
      rw [this]
      refine ⟨fun t h => ?_, fun st2 t h => ?_⟩
      · split at h
        · cases h
          obtain ⟨a, b, c, d⟩ := br s.cfg.opcSync s.cfg.tDefault s
          exact ⟨a, b, .inl ⟨c, d⟩⟩
        · cases h
      · split at h
        · cases h
        · cases h
          exact ⟨rfl, rfl, rfl, rfl⟩
  · exact ⟨fun t h => (by change OpStep.finished _ _ = OpStep.again _ at h; cases h),
      fun st2 t h => by change OpStep.finished _ _ = OpStep.finished _ _ at h; cases h; exact ⟨.refl _, rfl, rfl, rfl⟩⟩
  · change (∀ t, fdataContinue st s = .again t → _) ∧ (∀ st2 t, fdataContinue st s = .finished st2 t → _)
    simp only [fdataContinue]
    refine ⟨fun t h => ?_, fun st2 t h => ?_⟩
    · split at h
      · rename_i hd
        cases h
        obtain ⟨a1, a2, a3, a4, a5, -⟩ := attempt_facts s
        obtain ⟨b1, b2, b3, b4⟩ := beginCmd_starts s.cfg.opcFlashData (blockBody s.blk) (zext32 s.chk8) s.cfg.tBlock
          { s with blkAttempt := s.blkAttempt + 1 }
        have hlt : s.blkAttempt < 3 := by simp [retryDue, blockAttempts] at hd; exact of_decide_eq_true hd.2
        exact ⟨.att a1, ⟨b1, b2, b3, b4⟩, .inr ⟨trivial, a5, hlt, a2⟩⟩
      · cases h
    · split at h
      · cases h
      · cases h; exact ⟨.refl _, rfl, rfl, rfl⟩
  · exact ⟨fun t h => (by change OpStep.finished _ _ = OpStep.again _ at h; cases h),
      fun st2 t h => by change OpStep.finished _ _ = OpStep.finished _ _ at h; cases h; exact ⟨.refl _, rfl, rfl, rfl⟩⟩

/-- The whole of a poll loop, whatever the environment does. -/
theorem await_any (c : Caller) (s : State) (Q : State → Prop)
    (hwait : ∀ x n read, Kept s x → Exchanged (copies n (bufFrame s)) read s.env x.env → n ≤ 3 - s.blkAttempt →
        (n ≠ 0 → c.op = .fdata) → Q x.inProgress)
    (hlast : ∀ x n read st, Kept s x → Exchanged (copies n (bufFrame s)) read s.env x.env → n ≤ 3 - s.blkAttempt →
        (n ≠ 0 → c.op = .fdata) → x.rx.active = false → Q (deliver c st x)) :
    Q (await c s) := by
  apply await_induct c (P := fun x => ∃ n read, Kept s x ∧ Exchanged (copies n (bufFrame s)) read s.env x.env ∧
      x.blkAttempt = s.blkAttempt + n ∧ (n ≠ 0 → c.op = .fdata ∧ x.blkAttempt ≤ 3))
  · rintro x y ⟨n, read, h1, h2, h3, h4⟩ hp
    obtain ⟨bs, b1, -, -⟩ := poll_exchanged x
    have hr := poll_wait hp
    rw [hp] at b1
    refine hwait y n _ (h1.trans (.rx hr.regs)) (h2.read b1) ?_ (fun h => (h4 h).1)
    by_cases hn : n = 0
    · omega
    · have := (h4 hn).2; omega
  · rintro x y ⟨n, read, h1, h2, h3, h4⟩ hp
    obtain ⟨bs, b1, -, -⟩ := poll_exchanged x
    have hr := poll_again hp
    rw [hp] at b1
    have f : y.blkAttempt = x.blkAttempt := hr.regs.fields.2.2.2.2.2.2.1
    exact ⟨n, _, h1.trans (.rx hr.regs), h2.read b1, f.trans h3, f ▸ h4⟩
  · rintro x y z st ⟨n, read, h1, h2, h3, h4⟩ hp ho
    obtain ⟨bs, b1, -, -⟩ := poll_exchanged x
    have hr := poll_ended hp
    rw [hp] at b1
    have f : y.blkAttempt = x.blkAttempt := hr.regs.fields.2.2.2.2.2.2.1
    have hk := h1.trans (.rx hr.regs)
    obtain ⟨a1, -, a2⟩ := (opContinue_any c.op st y).1 z ho
    rcases a2 with ⟨a2, a3⟩ | ⟨a0, a2, a3, a4⟩
    · exact ⟨n, _, hk.trans a1, (h2.read b1).read a2, by rw [a3, f]; exact h3, by rw [a3, f]; exact h4⟩
    · refine ⟨n + 1, read ++ bs, hk.trans a1, ?_, by omega, fun _ => ⟨a0, by omega⟩⟩
      rw [hk.buf] at a2
      have := (h2.read b1).trans a2
      simpa [copies_succ] using this
  · rintro x y z st st2 ⟨n, read, h1, h2, h3, h4⟩ hp ho
    obtain ⟨bs, b1, -, -⟩ := poll_exchanged x
    have hr := poll_ended hp
    rw [hp] at b1
    have f : y.blkAttempt = x.blkAttempt := hr.regs.fields.2.2.2.2.2.2.1
    obtain ⟨a1, a2, a3, a4⟩ := (opContinue_any c.op st y).2 st2 z ho
    refine hlast z n _ st2 ((h1.trans (.rx hr.regs)).trans a1) (by rw [a2]; exact h2.read b1) ?_ (fun h => (h4 h).1) (by rw [a3]; exact poll_ended_inactive hp)
    by_cases hn : n = 0
    · omega
    · have := (h4 hn).2; omega
  · exact ⟨0, [], .refl _, .refl _, rfl, fun h => absurd rfl h⟩

/-- Histories grow, the script is consumed, the clock follows it (R20, R31). -/
structure EnvGrows (e f : Env) : Prop where
  txs : ∃ sent, f.txs = e.txs ++ sent
  events : ∃ calls, f.events = e.events ++ calls
  turns : ∃ k, f.script = e.script.drop k ∧ f.now = e.now + ((e.script.take k).map EnvAct.ms).sum

/-- Nothing has happened. -/
theorem EnvGrows.refl (e : Env) : EnvGrows e e := ⟨⟨[], by simp⟩, ⟨[], by simp⟩, 0, by simp, by simp⟩

/-- One after the other. -/
theorem EnvGrows.trans {e f g : Env} (h : EnvGrows e f) (h' : EnvGrows f g) : EnvGrows e g := by
  obtain ⟨⟨a, ha⟩, ⟨b, hb⟩, k, h1, h2⟩ := h
  obtain ⟨⟨a', ha'⟩, ⟨b', hb'⟩, k', h1', h2'⟩ := h'
  refine ⟨⟨a ++ a', by rw [ha', ha, List.append_assoc]⟩, ⟨b ++ b', by rw [hb', hb, List.append_assoc]⟩, k + k', ?_, ?_⟩
  · rw [h1', h1, List.drop_drop]
  · rw [h2', h2, h1, List.take_add, List.map_append, List.sum_append, Nat.add_assoc]

/-- An exchange of bytes. -/
theorem EnvGrows.ex {a b : Bytes} {e f : Env} (h : Exchanged a b e f) : EnvGrows e f := by
  obtain ⟨-, h1, ⟨E, h2, -⟩, k, h3, h4, -⟩ := h
  exact ⟨⟨_, h1⟩, ⟨_, h2⟩, k, h3, h4⟩

/-- one primitive -/
theorem EnvGrows.one {e f : Env} (h1 : ∃ sent, f.txs = e.txs ++ sent) (h2 : ∃ calls,
    f.events = e.events ++ calls) (h3 : f.script = e.turn.script) (h4 : f.now = e.turn.now) :
    EnvGrows e f := by
  refine ⟨h1, h2, 1, by rw [h3]; simp [Env.turn], ?_⟩
  rw [h4]; simp only [Env.turn, turnMs]; cases e.script <;> simp

/-- `ImgRelease`. -/
theorem grow_release (e : Env) : EnvGrows e e.imgRelease := .one ⟨[],
    by simp [Env.imgRelease, Env.record, Env.turn]⟩ ⟨[_], rfl⟩ rfl rfl

/-- `GpioLeave`. -/
theorem grow_leave (e : Env) : EnvGrows e e.gpioLeave := .one ⟨[],
    by simp [Env.gpioLeave, Env.record, Env.turn]⟩ ⟨[_], rfl⟩ rfl rfl

/-- `Now`. -/
theorem grow_clock (w : Nat) (e : Env) : EnvGrows e (e.readClock w).2.markAttempt :=
  .ex ((Exchanged.readClock w e).same _ _)

/-- `Progress`. -/
theorem grow_progress (p : Nat) (e : Env) : EnvGrows e (e.progress p) := .one ⟨[],
    by simp [Env.progress, Env.record, Env.turn]⟩ ⟨[_], rfl⟩ rfl rfl

/-- What Finish leaves (R139, R165). -/
structure DoneProps (e : Env) (t : State) : Prop where
  valid : t.session.resultValid = true
  ret : t.ret = .done t.session.result
  active : t.rx.active = false
  phase : t.syncPhase = .idle
  gpio : t.env.gpio = some .run
  calls : ∃ calls, t.env.events = e.events ++ calls ++ [.imgRelease, .gpioLeave]

/-- Calls before it do not matter. -/
theorem DoneProps.mono {e f : Env} {t : State} (h : DoneProps f t) (he : EnvGrows e f) : DoneProps e t := by
  obtain ⟨c, hc⟩ := h.calls
  obtain ⟨d, hd⟩ := he.events
  exact ⟨h.valid, h.ret, h.active, h.phase, h.gpio, d ++ c, by rw [hc, hd]; simp⟩

/-- Finish leaves it. -/
theorem finish_done (r : ResultCode) (x : State) : DoneProps x.env (finishDone r x) :=
  ⟨rfl, rfl, rfl, rfl, rfl, [],
      by simp [finishDone, finish, State.answer, Env.imgRelease, Env.gpioLeave, Env.record, Env.turn]⟩

/-- Finish only adds to the histories. -/
theorem finish_grow (r : ResultCode) (x : State) : EnvGrows x.env (finishDone r x).env := (grow_release _).trans (grow_leave _)

/-- The edges of `orch_state` a caller's tail takes (R140). -/
def Caller.edge (c : Caller) (o : OrchState) : Bool :=
  match c, o with
  | .connecting, .erasing | .connecting, .resetting | .erasing, .uploading | .erasing, .done | .uploading, .done => true
  | _, _ => false

/-- A failed SYNC (R135). -/
theorem connectingTail_fail {st : ResultCode} {t : State} (h : st ≠ .success) :
    let u := connectingTail st t
    let n := t.session.resetAttempt + 1#32
    u.session = { t.session with lastAttempt := (t.env.readClock t.cfg.clkW).1, resetAttempt := n } ∧
    (u.orch = if t.cfg.retriesPerReset ≤ n.toNat then .resetting else t.orch) ∧
    u.ret = .inProgress (percent { t with orch := if t.cfg.retriesPerReset ≤ n.toNat then .resetting else t.orch }) ∧
    u.rx = t.rx ∧ u.env = (t.env.readClock t.cfg.clkW).2.markAttempt ∧ u.syncPhase = t.syncPhase ∧ u.blk = t.blk ∧ u.chk8 = t.chk8 ∧
        u.cfg = t.cfg := by
  simp only [connectingTail, if_neg h]
  have p0 : ∀ (x : State) (o : OrchState), o ≠ .uploading → percent { x with orch := o } = 0 := by
    intro x o h; simp [percent, h]
  by_cases hx : t.cfg.retriesPerReset ≤ (t.session.resetAttempt + 1#32).toNat
  · have hx' : (t.session.resetAttempt + 1#32).toNat ≥ t.cfg.retriesPerReset := hx
    rw [if_pos hx', if_pos hx]
    exact ⟨rfl, rfl, rfl, rfl, rfl, rfl, rfl, rfl, rfl⟩
  · have hx' : ¬ (t.session.resetAttempt + 1#32).toNat ≥ t.cfg.retriesPerReset := hx
    rw [if_neg hx', if_neg hx]
    exact ⟨rfl, rfl, rfl, rfl, rfl, rfl, rfl, rfl, rfl⟩

/-- What the tail of a caller can do. -/
structure Went (c : Caller) (x y : State) : Prop where
  cfg : y.cfg = x.cfg
  port : y.port = x.port
  blk : y.blk = x.blk
  chk8 : y.chk8 = x.chk8
  grows : EnvGrows x.env y.env
  txs : y.env.txs = x.env.txs
  overrun : y.env.overrun = x.env.overrun
  baud : y.env.baud = x.env.baud
  img : y.env.img = x.env.img
  gpio : y.env.gpio = x.env.gpio ∨ y.orch = .done ∧ Caller.edge c .done = true
  orch : y.orch = x.orch ∨ Caller.edge c y.orch = true
  done : x.orch ≠ .done → y.orch = .done → DoneProps x.env y

/-- The tails of the state actions do no more (R135, R136, R138). -/
theorem went_deliver (c : Caller) (st : ResultCode) (x : State) : Went c x (deliver c st x) := by
  cases c with
  | unit op => exact ⟨rfl, rfl, rfl, rfl, .refl _, rfl, rfl, rfl, rfl, .inl rfl, .inl rfl, fun h h' => absurd h' h⟩
  | connecting =>
    by_cases h : st = .success
    · have : deliver .connecting st x = ({ x with env := (x.env.readClock x.cfg.clkW).2.markAttempt, session := { x.session with lastAttempt := (x.env.readClock x.cfg.clkW).1 }, orch := .erasing } : State).inProgress := by
        simp only [deliver, connectingTail, h, if_true]
      rw [this]
      exact ⟨rfl, rfl, rfl, rfl, grow_clock _ _,
          by show (x.env.readClock x.cfg.clkW).2.markAttempt.txs = _; simp, rfl, rfl, rfl, .inl rfl, .inr rfl, fun _ h' => by cases h'⟩
    · obtain ⟨b1, b2, b3, b4, b5, b6, b7, b8, b9⟩ := connectingTail_fail (t := x) h
      have hd : deliver .connecting st x = connectingTail st x := rfl
      have hp : (connectingTail st x).port = x.port := by
        simp only [connectingTail, if_neg h]; split <;> rfl
      rw [hd]
      refine ⟨b9, hp, b7, b8,
          by rw [b5]; exact grow_clock _ _, by rw [b5]; simp, by rw [b5]; rfl, by rw [b5]; rfl, by rw [b5]; rfl, .inl (by rw [b5]; rfl),
          ?_, ?_⟩
      · rw [b2]
        split
        · exact .inr rfl
        · exact .inl rfl
      · intro h1 h2
        rw [b2] at h2
        split at h2
        · cases h2
        · exact absurd h2 h1
  | erasing =>
    by_cases h : st = .success
    · subst h
      exact ⟨rfl, rfl, rfl, rfl, .refl _, rfl, rfl, rfl, rfl, .inl rfl, .inr rfl, fun _ h' => by cases h'⟩
    · have hd : deliver .erasing st x = finishDone st { x with session := { x.session with result := st } } := by
        simp only [deliver, erasingTail, ne_eq, h, not_false_eq_true, if_true]
      rw [hd]
      exact ⟨rfl, rfl, rfl, rfl, finish_grow _ { x with session := { x.session with result := st } },
          by simp [finishDone, finish, State.answer], rfl, rfl, rfl, .inr ⟨rfl, rfl⟩, .inr rfl, fun _ _ => finish_done st { x with session := { x.session with result := st } }⟩
  | uploading =>
    have e1 : EnvGrows x.env (x.env.readClock x.cfg.clkW).2.markAttempt := grow_clock _ _
    by_cases h : st = .success
    · subst h
      have hd : deliver .uploading .success x = blockDone { x with env := (x.env.readClock x.cfg.clkW).2.markAttempt, session := { x.session with lastAttempt := (x.env.readClock x.cfg.clkW).1, result := .success } } := by
        simp only [deliver, uploadingTail, ne_eq, not_true_eq_false, if_false]
      rw [hd]
      have key : ∀ u : State, u.orch = x.orch → u.cfg = x.cfg → u.port = x.port → u.blk = x.blk → u.chk8 = x.chk8 →
          EnvGrows x.env u.env → u.env.txs = x.env.txs → u.env.overrun = x.env.overrun → u.env.baud = x.env.baud →
          u.env.img = x.env.img → u.env.gpio = x.env.gpio → ∀ (p : Nat) (b : Prop) [Decidable b],
              Went .uploading x (if b then finishDone .success u else u.answer (.inProgress p)) := by
        intro u h1 h2 h3 h4 h5 h6 h7 h0 h8 h9 h10 p b _
        split
        · exact ⟨h2, h3, h4, h5, h6.trans (finish_grow _ u),
            by simpa [finishDone, finish, State.answer] using h7, h0, h8, h9, .inr ⟨rfl, rfl⟩, .inr rfl, fun _ _ => (finish_done .success u).mono h6⟩
        · exact ⟨h2, h3, h4, h5, h6, h7, h0, h8, h9, .inl h10, .inl h1, fun a b => absurd (h1.symm.trans b) a⟩
      simp only [blockDone]
      split
      · refine key _ ?_ ?_ ?_ ?_ ?_ ?_ ?_ ?_ ?_ ?_ ?_ _ _
        case refine_6 => exact e1.trans (grow_progress _ _)
        case refine_7 => simp [Env.progress, Env.record, Env.turn]
        all_goals rfl
      · refine key _ ?_ ?_ ?_ ?_ ?_ ?_ ?_ ?_ ?_ ?_ ?_ _ _
        case refine_6 => exact e1
        case refine_7 => simp
        all_goals rfl
    · have hd : deliver .uploading st x = finishDone st { x with env := (x.env.readClock x.cfg.clkW).2.markAttempt, session := { x.session with lastAttempt := (x.env.readClock x.cfg.clkW).1, result := st } } := by
        simp only [deliver, uploadingTail, ne_eq, h, not_false_eq_true, if_true]
      rw [hd]
      exact ⟨rfl, rfl, rfl, rfl,
          e1.trans (finish_grow _ { x with env := (x.env.readClock x.cfg.clkW).2.markAttempt, session := { x.session with lastAttempt := (x.env.readClock x.cfg.clkW).1, result := st } }), by simp [finishDone, finish, State.answer], rfl, rfl, rfl, .inr ⟨rfl, rfl⟩, .inr rfl, fun _ _ => (finish_done st { x with env := (x.env.readClock x.cfg.clkW).2.markAttempt, session := { x.session with lastAttempt := (x.env.readClock x.cfg.clkW).1, result := st } }).mono e1⟩

/-! ### Tested in time (U12; log 29) -/

/-- A poll in time is tested in time, and the next one will be (R174). -/
theorem poll_punctual {s : State} (h : Punctual s s.env.stamps.rx) :
    Punctual (poll s).state (poll s).state.env.stamps.rx := by
  obtain ⟨bs, h1, -, -⟩ := poll_exchanged s
  have hr := poll_receives s
  have h2 := h1.slack
  have h3 := h1.later
  obtain ⟨h4, h5⟩ := h
  refine ⟨?_, by rw [hr.stamps, hr.regs.fields.1]; omega⟩
  have h6 := (atPoll_exchanged s).slack
  have h7 : s.atPoll.env.overrun = false := by
    rw [State.atPoll_overrun, h4, Bool.false_or, decide_eq_false_iff_not, ← State.atPoll_now]
    omega
  rw [poll_overrun, h7]

/-- A RECV that begins in time is on time. -/
theorem Starts.punctual {a b : Bytes} {s t : State} (h : Starts s t) (hk : t.cfg = s.cfg) (he : Exchanged a b s.env t.env)
    {since : Nat} (hp : Punctual s since) : Punctual t t.env.stamps.rx := by
  have := slack_mono he
  obtain ⟨h1, h2⟩ := hp
  refine ⟨h.overrun.trans h1, ?_⟩
  rw [h.stamps, hk]
  show slack t.env + (t.env.now - t.env.now) < _
  omega

/-- An operation and its state action test nothing too late, when the pending RECV began in time. -/
theorem await_punctual {c : Caller} {s : State} (h : Punctual s s.env.stamps.rx) : (await c s).env.overrun = false := by
  apply await_induct c (P := fun x => Punctual x x.env.stamps.rx) (Q := fun x => x.env.overrun = false) (h := h)
  · intro x y hx hp
    have := poll_punctual hx
    rw [hp] at this
    exact this.1
  · intro x y hx hp
    have := poll_punctual hx
    rw [hp] at this
    exact this
  · intro x y z st hx hp ho
    have := poll_punctual hx
    rw [hp] at this
    obtain ⟨a1, a2, a3⟩ := (opContinue_any c.op st y).1 z ho
    rcases a3 with ⟨a3, -⟩ | ⟨-, a3, -⟩ <;> exact a2.punctual a1.f.cfg a3 this
  · intro x y z st st2 hx hp ho
    have := poll_punctual hx
    rw [hp] at this
    obtain ⟨-, a2, -⟩ := (opContinue_any c.op st y).2 st2 z ho
    rw [(went_deliver c st2 z).overrun, a2]
    exact this.1

/-- Once a timestamp has been tested too late, the step stays undefined. -/
theorem await_overrun {c : Caller} {s : State} (h : (poll s).state.env.overrun = true) :
    (await c s).env.overrun = true := by
  have keep : ∀ {x y z : State} {st : ResultCode}, y.env.overrun = true → opContinue c.op st y = .again z →
      (poll z).state.env.overrun = true := by
    intro x y z st hy ho
    rw [poll_overrun, State.atPoll_overrun, ((opContinue_any c.op st y).1 z ho).2.1.overrun, hy, Bool.true_or]
  apply await_induct c (P := fun x => (poll x).state.env.overrun = true) (Q := fun x => x.env.overrun = true) (h := h)
  · intro x y hx hp
    rwa [hp] at hx
  · intro x y hx hp
    rw [hp] at hx
    rw [poll_overrun, State.atPoll_overrun, show y.env.overrun = true from hx, Bool.true_or]
  · intro x y z st hx hp ho
    rw [hp] at hx
    exact keep (x := x) hx ho
  · intro x y z st st2 hx hp ho
    rw [hp] at hx
    rw [(went_deliver c st2 z).overrun, ((opContinue_any c.op st y).2 st2 z ho).2.1]
    exact hx

/-- An operation called by itself, when its first RECV begins in time. -/
theorem runUnit_eq {op : UnitOp} {start : State → State} {s : State} {a b : Bytes}
    (h : Starts { s with unitCall := some op } (start { s with unitCall := some op }))
    (hk : (start { s with unitCall := some op }).cfg = s.cfg)
    (he : Exchanged a b s.env (start { s with unitCall := some op }).env) {since : Nat} (hp : Punctual s since) :
    runUnit op start s = .next (await (.unit op) (start { s with unitCall := some op })) :=
  whenPunctual_eq (await_punctual (h.punctual hk he hp))

/-- No STEP. -/
@[simp] theorem runSteps_zero (s : State) : runSteps 0 s = some s := rfl

/-- One STEP more. -/
theorem runSteps_next {s t : State} (h : exec .step s = .next t) (n : Nat) : runSteps (n + 1) s = runSteps n t := by
  simp only [runSteps, h]

end Sys2Proof.Machine
end

