-- ==== Sys2Proof/Tests/Slice0.lean ====
section
/-! SUPPORT. Tests. Expected values are the spec's: the encodings of 30_encoding.md and the vectors of
95_test_vectors.md, whose section a comment names; none is the model's own answer. At the end, one witness for the
hypotheses of each statement of Certificates/Slice0/Obligations.lean, clause by clause. -/

namespace Sys2Proof.Tests

-- The many evaluations below are elaborated one after the other: at once they exhaust the threads.
set_option Elab.async false

open Sys2Proof Sys2Proof.Machine

/-- Bytes written out as numbers. -/
def B (l : List Nat) : Bytes := l.map (BitVec.ofNat 8)

/-- n bytes v. -/
def fill (n v : Nat) : Bytes := List.replicate n (BitVec.ofNat 8 v)

/-- The vectors' start state: reset, with these bytes in `RXQ`, and the erase size of 95_test_vectors.md section 3. -/
def start (rxq : Bytes) : State :=
  { State.reset with
    cfg := { defaultConfig with eraseFn := .eraseCover }
    env := { Env.reset with rxq := rxq } }

/-- A state of the session, at a time, with these bytes in `RXQ`. Its timestamps were taken when the registers say. -/
def at' (o : OrchState) (now : Nat) (rxq : Bytes) (regs : Session := Session.reset) : State :=
  { start rxq with
    orch := o, session := regs
    env := { (start rxq).env with now := now, stamps := ⟨regs.lastAttempt, regs.lastReset, 0⟩ } }

/-- The session registers BEGIN_UPLOAD leaves for an image of this size at this address (R131). -/
def session (size addr : U32) : Session :=
  { Session.reset with imageSize := size, targetAddr := addr, nextReport := 5#32 }

/-- A reading of the next state; none where there is no next state. -/
def on {α : Type} (o : Host.Outcome State Fault Refusal) (f : State → α) : Option α :=
  match o with
  | .next s => some (f s)
  | _ => none

/-- The answer a Prompt peer gives to this opcode (95_test_vectors.md, P1). -/
def reply (op : Nat) : Bytes := B [0xC0, 0x01, op, 2, 0, 0, 0, 0, 0, 0, 0, 0xC0]

/-- The stray frame Z of 95_test_vectors.md 2.9: opcode zero. -/
def stray : Bytes := B [0xC0, 0x01, 0x00, 2, 0, 0, 0, 0, 0, 0, 0, 0xC0]

/-! ### Well-formedness: an ill-formed term for each check -/

theorem test_wf_esc_bad_end : (Instr.slipEscBad 0xDC#8).wf = false := by decide
theorem test_wf_esc_bad_esc : (Instr.slipEscBad 0xDD#8).wf = false := by decide
theorem test_wf_lit_end : (Instr.slipLit 0xC0#8).wf = false := by decide
theorem test_wf_lit_esc : (Instr.slipLit 0xDB#8).wf = false := by decide
theorem test_wf_begin_misaligned : (Instr.flashBeginReq 0#32 0x3FF#32).wf = false := by decide
theorem test_wf_data_short : (Instr.flashDataReq 0#8 0#32 (B [1, 2])).wf = false := by decide
theorem test_wf_bodies_too_long (body : Bytes) (h : body.length = 65536) :
    (Instr.memBeginReq 0#32 body).wf = false ∧ (Instr.memEndReq 0#32 body).wf = false ∧
    (Instr.memDataReq 0#32 body).wf = false ∧ (Instr.writeRegReq 0#32 body).wf = false ∧
    (Instr.readRegReq 0#32 body).wf = false ∧ (Instr.rsp 0x0B#8 0#32 body).wf = false ∧
    (Instr.rspStray 0#32 body).wf = false ∧ (Instr.send 0x02#8 body 0#32).wf = false ∧
    (Instr.cmd 0x02#8 body 0#32 0#32).wf = false := by
  simp [Instr.wf, Bytes.fitsBody, maxBodyLen, h]
theorem test_wf_rsp_opcode_zero : (Instr.rsp 0x00#8 0#32 (B [1])).wf = false := by decide
theorem test_wf_rsp_sync : (Instr.rsp 0x08#8 0#32 (B [0, 0])).wf = false := by decide
theorem test_wf_rsp_flash_begin : (Instr.rsp 0x02#8 0#32 (B [0, 0])).wf = false := by decide
theorem test_wf_rsp_flash_data : (Instr.rsp 0x03#8 0#32 (B [0, 0])).wf = false := by decide
theorem test_wf_rsp_flash_end : (Instr.rsp 0x04#8 0#32 (B [0, 0])).wf = false := by decide
theorem test_wf_uncountable (s : Bytes) (h : s.length = 4294967296) :
    (Instr.slipEnc s).wf = false ∧ (Instr.slipWrap s).wf = false ∧ (Instr.slipRawwrap s).wf = false ∧
    (Instr.slipDecall s).wf = false ∧ (Instr.chk s).wf = false ∧ (Instr.parse s).wf = false ∧
    (Instr.beginUpload ⟨0#32, s⟩ 0#32).wf = false := by
  simp [Instr.wf, Bytes.countable, h]
theorem test_wf_accepts : (Instr.slipEscBad 0xC0#8).wf = true ∧ (Instr.slipLit 0xDC#8).wf = true ∧
    (Instr.flashBeginReq 0#32 0x400#32).wf = true ∧ (Instr.rsp 0x08#8 0#32 (B [0])).wf = true := by decide

/-! ### Decoding: a word of every constructor, written out from R50, R51, R53, R56 to R61 -/

/-- R51; the raw bytes of a code, first byte first. -/
theorem test_decode_wire :
    decode .wire (B [0xC0]) = .ok (.slipEnd, []) ∧ decode .wire (B [0xDB, 0xDC]) = .ok (.slipEscEnd, []) ∧
    decode .wire (B [0xDB, 0xDD]) = .ok (.slipEscEsc, []) ∧
    decode .wire (B [0xDB, 0x41]) = .ok (.slipEscBad 0x41#8, []) ∧
    decode .wire (B [0x41]) = .ok (.slipLit 0x41#8, []) ∧ decode .wire (B [0xDB]) = .error .truncated := by
  decide

/-- R57 to R60: `dir`, `op`, `len`, `chk`, then the body by byte offset (FlashBegin's is vector 2.4's for 1025 bytes). -/
theorem test_decode_requests :
    decode .header (B [0, 8, 36, 0, 0, 0, 0, 0, 7, 7, 0x12, 0x20] ++ fill 32 0x55) = .ok (.syncReq, []) ∧
    decode .header (B [0, 2, 16, 0, 0, 0, 0, 0, 0x01, 0x04, 0, 0, 2, 0, 0, 0, 0, 4, 0, 0, 0x00, 0x10, 0, 0]) =
      .ok (.flashBeginReq 1025#32 0x1000#32, []) ∧
    decode .header (B [0, 3, 0x10, 0x04, 0xF4, 0, 0, 0, 0, 4, 0, 0, 7, 0, 0, 0] ++ fill 8 0 ++ B [0xC0, 0xDB] ++ fill 1022 0) =
      .ok (.flashDataReq 0xF4#8 7#32 (B [0xC0, 0xDB] ++ fill 1022 0), []) ∧
    decode .header (B [0, 4, 4, 0, 0, 0, 0, 0, 0, 0, 0, 0]) = .ok (.flashEndReq false, []) := by
  decide +kernel

/-- A body that is none of the rows': another block count, another block size, a short Sync payload, a flag of 2. -/
theorem test_decode_other_bodies :
    decode .header (B [0, 2, 16, 0, 0, 0, 0, 0, 0x01, 0x04, 0, 0, 1, 0, 0, 0, 0, 4, 0, 0, 0x00, 0x10, 0, 0]) =
      .error (.notSendable 2#8) ∧
    decode .header (B [0, 2, 16, 0, 0, 0, 0, 0, 0x01, 0x04, 0, 0, 2, 0, 0, 0, 0, 2, 0, 0, 0x00, 0x10, 0, 0]) =
      .error (.notSendable 2#8) ∧
    decode .header (B [0, 8, 36, 0, 0, 0, 0, 0, 7, 7, 0x12, 0x20] ++ fill 31 0x55) = .error .truncated ∧
    decode .header (B [0, 4, 4, 0, 0, 0, 0, 0, 2, 0, 0, 0]) = .error (.notSendable 4#8) := by
  decide +kernel

/-- R61: the five headers of opcodes the block never sends. -/
theorem test_decode_unsent :
    decode .header (B [0, 5, 1, 0, 0, 0, 0, 0, 9]) = .ok (.memBeginReq 0#32 (B [9]), []) ∧
    decode .header (B [0, 6, 0, 0, 1, 0, 0, 0]) = .ok (.memEndReq 1#32 [], []) ∧
    decode .header (B [0, 7, 0, 0, 0, 1, 0, 0]) = .ok (.memDataReq 0x100#32 [], []) ∧
    decode .header (B [0, 9, 0, 0, 0, 0, 1, 0]) = .ok (.writeRegReq 0x10000#32 [], []) ∧
    decode .header (B [0, 10, 0, 0, 0, 0, 0, 1]) = .ok (.readRegReq 0x1000000#32 [], []) := by
  decide

/-- R56, R85, R86. -/
theorem test_decode_responses :
    decode .header (B [1, 0x0B, 1, 0, 0x78, 0x56, 0x34, 0x12, 9]) = .ok (.rsp 0x0B#8 0x12345678#32 (B [9]), []) ∧
    decode .header (B [1, 0, 2, 0, 0, 0, 0, 0, 1, 2]) = .ok (.rspStray 0#32 (B [1, 2]), []) ∧
    decode .header (B [1, 8, 2, 0, 7, 7, 0x12, 0x20, 1, 2]) = .ok (.rspSync 0x20120707#32 1#8 2#8, []) ∧
    decode .header (B [1, 2, 2, 0, 0, 0, 0, 0, 1, 2]) = .ok (.rspFlashBegin 0#32 1#8 2#8, []) ∧
    decode .header (B [1, 3, 2, 0, 0, 0, 0, 0, 1, 2]) = .ok (.rspFlashData 0#32 1#8 2#8, []) ∧
    decode .header (B [1, 4, 2, 0, 0, 0, 0, 0, 1, 2]) = .ok (.rspFlashEnd 0#32 1#8 2#8, []) ∧
    decode .header (B [1, 8, 4, 0, 0, 0, 0, 0, 1, 2, 3, 4]) = .ok (.rsp 0x08#8 0#32 (B [1, 2, 3, 4]), []) := by
  decide

/-- R50's ordinals; the operands follow in R9's order (their layout is the model's, log 11). -/
theorem test_decode_codec :
    decode .call (B [0, 2, 0, 0, 0, 5, 6]) = .ok (.slipEnc (B [5, 6]), []) ∧
    decode .call (B [1, 1, 0, 0, 0, 5]) = .ok (.slipWrap (B [5]), []) ∧
    decode .call (B [2, 1, 0, 0, 0, 5]) = .ok (.slipRawwrap (B [5]), []) ∧
    decode .call (B [3]) = .ok (.slipDec, []) ∧
    decode .call (B [4, 1, 0, 0, 0, 5]) = .ok (.slipDecall (B [5]), []) := by
  decide

theorem test_decode_protocol :
    decode .call (B [5, 1, 0, 0, 0, 5]) = .ok (.chk (B [5]), []) ∧
    decode .call (B [6, 0, 3, 0x10, 4, 5, 0, 0, 0]) = .ok (.hdr 0#8 3#8 1040#16 5#32, []) ∧
    decode .call (B [7, 2, 1, 0, 9, 5, 0, 0, 0]) = .ok (.send 2#8 (B [9]) 5#32, []) ∧
    decode .call (B [8, 3, 200, 0, 0, 0]) = .ok (.recv 3#8 200#32, []) ∧
    decode .call (B [9, 2, 1, 0, 9, 5, 0, 0, 0, 6, 0, 0, 0]) = .ok (.cmd 2#8 (B [9]) 5#32 6#32, []) ∧
    decode .call (B [10, 1, 0, 0, 0, 0xC0]) = .ok (.parse (B [0xC0]), []) := by
  decide

theorem test_decode_sequencers :
    decode .call (B [11, 0x88, 0x13, 0, 0]) = .ok (.sync 5000#32, []) ∧
    decode .call (B [12, 0x34, 0x12, 0, 0, 1, 4, 0, 0]) = .ok (.fbegin 0x1234#32 1025#32, []) ∧
    decode .call (B [13, 7, 0, 0, 0, 0x60, 0x05, 0xF0, 0x0F]) = .ok (.fdata 7#32 0x0560#16 0x0FF0#16, []) ∧
    decode .call (B [14, 1]) = .ok (.fend true, []) ∧ decode .call (B [14, 2]) = .error .badFlag ∧
    decode .call (B [15, 3, 0, 0, 0, 1, 0, 0, 0, 0xE9, 0, 4, 0, 0]) =
      .ok (.beginUpload ⟨3#32, B [0xE9]⟩ 0x400#32, []) ∧
    decode .call (B [16]) = .ok (.step, []) ∧ decode .call (B [17]) = .error (.noSuchOperation 17#8) := by
  decide

/-- Words of spec/opcode_table.json, in its own numbering. -/
theorem test_decode_table :
    decodeTableWord 8 0xC0 = some .slipEnd ∧ decodeTableWord 16 0xDCDB = some .slipEscEnd ∧
    decodeTableWord 16 0x00DB = some (.slipEscBad 0x00#8) ∧ decodeTableWord 64 0x240800 = some .syncReq ∧
    decodeTableWord 64 0x100200 = some (.flashBeginReq 0#32 0#32) ∧
    decodeTableWord 64 0x4100300 = some (.flashDataReq 0#8 0#32 (fill 1024 0)) ∧
    decodeTableWord 32 0x20801 = some (.rspSync 0#32 0#8 0#8) ∧ decodeTableWord 8 16 = some .step ∧
    decodeTableWord 16 0x0501 = some (.rsp 5#8 0#32 []) ∧
    decodeTableWord 64 0x5000501 = some (.rsp 5#8 0#32 (fill 0x500 0)) := by
  decide +kernel

/-- Why an instruction was refused; none where it was not. -/
def why (o : Host.Outcome State Fault Refusal) : Option Refusal :=
  match o with
  | .refused r => some r
  | _ => none

/-- A step runs the table's word right after reset (R133: U2 is refused). -/
theorem test_step_fetches : why (step (State.reset.withFetchWord 8 16)) = some .noSession ∧
    on (step (State.reset.withFetchWord 8 0xC0)) (·.env.rxq) = some (B [0xC0]) := by
  decide +kernel

/-! ### One step of each instruction -/

/-- R51: what each code puts on the wire. -/
theorem test_wire_codes :
    on (exec .slipEnd (start (B [1]))) (·.env.rxq) = some (B [1, 0xC0]) ∧
    on (exec .slipEscEnd (start (B [1]))) (·.env.rxq) = some (B [1, 0xDB, 0xDC]) ∧
    on (exec .slipEscEsc (start (B [1]))) (·.env.rxq) = some (B [1, 0xDB, 0xDD]) ∧
    on (exec (.slipEscBad 0#8) (start (B [1]))) (·.env.rxq) = some (B [1, 0xDB, 0]) ∧
    on (exec (.slipLit 0xDC#8) (start (B [1]))) (·.env.rxq) = some (B [1, 0xDC]) := by
  decide +kernel

/-- 2.5. -/
theorem test_sync_request : on (exec .syncReq (start [])) (·.env.txs) =
    some (B [0xC0, 0, 8, 0x24, 0, 0, 0, 0, 0, 7, 7, 0x12, 0x20] ++ fill 32 0x55 ++ B [0xC0]) := by decide +kernel

/-- 2.4. -/
theorem test_flash_begin_request : on (exec (.flashBeginReq 1025#32 0x1000#32) (start [])) (·.env.txs) =
    some (B [0xC0, 0, 2, 0x10, 0, 0, 0, 0, 0, 1, 4, 0, 0, 2, 0, 0, 0, 0, 4, 0, 0, 0, 0x10, 0, 0, 0xC0]) := by
  decide +kernel

/-- 2.6; and with the check byte 0xC1, which is not the data's, the frame is none the block sends (R59): it arrives. -/
theorem test_flash_data_request :
    on (exec (.flashDataReq 0xC1#8 1#32 (B [0x2F] ++ fill 1023 0)) (start [])) (fun t => (t.env.txs, t.env.rxq.length)) =
      some ([], 1050) ∧
    on (exec (.flashDataReq 0xC0#8 1#32 (B [0x2F] ++ fill 1023 0)) (start [])) (·.env.txs) =
      some (B [0xC0, 0, 3, 0x10, 4, 0xDB, 0xDC, 0, 0, 0, 0, 4, 0, 0, 1, 0, 0, 0, 0, 0, 0, 0, 0, 0, 0, 0, 0x2F] ++
        fill 1023 0 ++ B [0xC0]) := by decide +kernel

/-- 2.5: 1 means stay. -/
theorem test_flash_end_request : on (exec (.flashEndReq true) (start [])) (·.env.txs) =
    some (B [0xC0, 0, 4, 4, 0, 0, 0, 0, 0, 1, 0, 0, 0, 0xC0]) := by decide +kernel

/-- R61, R62: the frames arrive, stuffed (R56). -/
theorem test_unsent_requests :
    on (exec (.memBeginReq 0xC0#32 (B [9])) (start [])) (·.env.rxq) =
      some (B [0xC0, 0, 5, 1, 0, 0xDB, 0xDC, 0, 0, 0, 9, 0xC0]) ∧
    on (exec (.memEndReq 0#32 []) (start [])) (·.env.rxq) = some (B [0xC0, 0, 6, 0, 0, 0, 0, 0, 0, 0xC0]) ∧
    on (exec (.memDataReq 0#32 []) (start [])) (·.env.rxq) = some (B [0xC0, 0, 7, 0, 0, 0, 0, 0, 0, 0xC0]) ∧
    on (exec (.writeRegReq 0#32 []) (start [])) (·.env.rxq) = some (B [0xC0, 0, 9, 0, 0, 0, 0, 0, 0, 0xC0]) ∧
    on (exec (.readRegReq 0#32 []) (start [])) (·.env.rxq) = some (B [0xC0, 0, 10, 0, 0, 0, 0, 0, 0, 0xC0]) := by
  decide +kernel

/-- R56; the frames of 2.7 to 2.9. -/
theorem test_responses :
    on (exec (.rsp 2#8 0#32 (fill 4 0)) (start [])) (·.env.rxq) =
      some (B [0xC0, 1, 2, 4, 0, 0, 0, 0, 0, 0, 0, 0, 0, 0xC0]) ∧
    on (exec (.rspStray 0#32 (fill 2 0)) (start [])) (·.env.rxq) = some stray ∧
    on (exec (.rspSync 0x20120707#32 0#8 0#8) (start [])) (·.env.rxq) =
      some (B [0xC0, 1, 8, 2, 0, 7, 7, 0x12, 0x20, 0, 0, 0xC0]) ∧
    on (exec (.rspFlashBegin 0#32 0#8 0#8) (start [])) (·.env.rxq) = some (reply 2) ∧
    on (exec (.rspFlashData 0#32 0xDB#8 0xC0#8) (start [])) (·.env.rxq) =
      some (B [0xC0, 1, 3, 2, 0, 0, 0, 0, 0, 0xDB, 0xDD, 0xDB, 0xDC, 0xC0]) ∧
    on (exec (.rspFlashEnd 0#32 0#8 0#8) (start [])) (·.env.rxq) = some (reply 4) := by
  decide +kernel

/-- 2.1. -/
theorem test_slip_encoders :
    on (exec (.slipEnc (B [0xDB, 0xDD, 0xC0, 0xDC])) (start [])) (·.ret) =
      some (.bytes (B [0xDB, 0xDD, 0xDD, 0xDB, 0xDC, 0xDC])) ∧
    on (exec (.slipWrap (B [1, 0xC0, 2, 0xDB, 3])) (start [])) (·.ret) =
      some (.bytes (B [0xC0, 1, 0xDB, 0xDC, 2, 0xDB, 0xDD, 3, 0xC0])) ∧
    on (exec (.slipRawwrap (B [0xC0])) (start [])) (·.ret) = some (.bytes (B [0xC0, 0xC0, 0xC0])) := by
  decide

/-- 2.2: outcome, `esc_pending`, `RXQ`. -/
theorem test_slip_dec :
    on (exec .slipDec (start (B [0xDB, 0xDC, 0x41]))) (fun t => (t.ret, t.rx.escPending, t.env.rxq)) =
      some (.outcome (.byte 0xC0#8), false, B [0x41]) ∧
    on (exec .slipDec (start (B [0xDB, 0xDB, 0xDC]))) (fun t => (t.ret, t.rx.escPending, t.env.rxq)) =
      some (.outcome .badEscape, false, B [0xDC]) ∧
    on (exec .slipDec (start (B [0xDB]))) (fun t => (t.ret, t.rx.escPending, t.env.rxq)) =
      some (.outcome .escPending, true, []) := by
  decide +kernel

theorem test_slip_dec_resumed :
    on (exec .slipDec { start (B [0xC0, 0x41]) with rx := { Receiver.reset with escPending := true } })
      (fun t => (t.ret, t.rx.escPending, t.env.rxq)) = some (.outcome .badEscape, false, B [0x41]) := by
  decide +kernel

/-- 2.2. -/
theorem test_slip_decall :
    on (exec (.slipDecall (B [1, 0xDB, 0xDC, 2, 0xDB, 0xDD, 3])) (start [])) (·.ret) =
      some (.decodeAll (.decoded (B [1, 0xC0, 2, 0xDB, 3]))) ∧
    on (exec (.slipDecall (B [1, 0xDB])) (start [])) (·.ret) = some (.decodeAll .truncated) ∧
    on (exec (.slipDecall (B [0xDB, 0xC0])) (start [])) (·.ret) = some (.decodeAll .badEscape) ∧
    on (exec (.slipDecall (B [1, 0xC0, 2])) (start [])) (·.ret) = some (.decodeAll .frameBoundary) := by
  decide

/-- 2.3. -/
theorem test_chk : on (exec (.chk (B [0xC0, 0xDB])) (start [])) (·.ret) = some (.byte 0xF4#8) ∧
    on (exec (.chk (B [0xE9, 3, 0, 0x20] ++ fill 1020 0xAA)) (start [])) (·.ret) = some (.byte 0x25#8) := by
  decide +kernel

/-- 2.3. -/
theorem test_hdr : on (exec (.hdr 1#8 8#8 2#16 0x20120707#32) (start [])) (·.ret) =
    some (.bytes (B [1, 8, 2, 0, 7, 7, 0x12, 0x20])) := by decide

/-- 2.5, 2.4: the Sync frame is one block write, FlashEnd's goes byte by byte. -/
theorem test_send :
    on (exec (.send 8#8 (B [7, 7, 0x12, 0x20] ++ fill 32 0x55) 0#32) (start [])) (·.env.events) =
      some [.txBlock (B [0xC0, 0, 8, 0x24, 0, 0, 0, 0, 0, 7, 7, 0x12, 0x20] ++ fill 32 0x55 ++ B [0xC0])] ∧
    on (exec (.send 4#8 (fill 4 0) 0#32) (start [])) (·.env.events.length) = some 14 := by
  decide +kernel

/-- 2.7 (n): the whole frame is a Success of RECV, and two bytes of its body are kept. -/
theorem test_recv :
    on (exec (.recv 3#8 200#32) (start (B [0xC0, 1, 3, 4, 0, 0, 0, 0, 0, 0x11, 0x22, 0x33, 0x44, 0xC0])))
      (fun t => (t.ret, t.rx.bodyLen, t.rx.respBody, t.env.rxq)) =
      some (.code .success, 4#16, B [0x11, 0x22], []) := by decide +kernel

/-- 2.7 (c), (e), (m). -/
theorem test_recv_broken :
    on (exec (.recv 8#8 5000#32) (start (B [0xC0, 0xC0, 1, 8, 2]))) (fun t => (t.ret, t.env.rxq)) =
      some (.code .slipFrameError, B [1, 8, 2]) ∧
    on (exec (.recv 3#8 200#32) (start (B [0xC0, 1, 3, 2, 0, 0, 0, 0, 0, 0, 0, 0, 0xC0]))) (fun t => (t.ret, t.env.rxq)) =
      some (.code .slipFrameError, B [0xC0]) ∧
    on (exec (.recv 8#8 200#32) (start (B [0xC0, 1, 0xDB, 0xC0, 1, 8]))) (fun t => (t.ret, t.env.rxq)) =
      some (.code .slipDataError, B [1, 8]) := by decide +kernel

/-- 2.8: BadReply comes after a matching header only. -/
theorem test_cmd :
    on (exec (.cmd 2#8 (fill 16 0) 0#32 500#32) (start (B [0xC0, 1, 2, 4, 0, 0, 0, 0, 0, 0, 0, 0, 0, 0xC0]))) (·.ret) =
      some (.code .badReply) ∧
    on (exec (.cmd 2#8 (fill 16 0) 0#32 500#32) (start (B [0xC0, 1, 0, 4, 0, 0, 0, 0, 0, 0, 0, 0, 0, 0xC0]))) (·.ret) =
      some (.code .responseHeaderError) := by decide +kernel

/-- 2.3. -/
theorem test_parse :
    on (exec (.parse (B [0xC0, 0, 3, 2, 0, 0xDB, 0xDC, 0, 0, 0, 0xDB, 0xDD, 0xDB, 0xDC, 0xC0])) (start [])) (·.ret) =
      some (.parse (.parsed 0#8 3#8 0xC0#32 (B [0xDB, 0xC0]))) ∧
    on (exec (.parse (B [0xC0, 0, 4, 4, 0, 0, 0, 0, 0, 1, 0, 0, 0xC0])) (start [])) (·.ret) =
      some (.parse .slipFrameError) := by decide +kernel

/-- 2.9 S8: a Sync response of the wrong length ends the flush; S5: as the first it is BadReply. -/
theorem test_sync :
    on (exec (.sync 5000#32) (start (reply 8 ++ B [0xC0, 1, 8, 4, 0, 7, 7, 0x12, 0x20, 0, 0, 0, 0, 0xC0])))
      (fun t => (t.ret, t.syncExtra, t.env.rxq)) = some (.code .success, 0, []) ∧
    on (exec (.sync 5000#32) (start (B [0xC0, 1, 8, 4, 0, 7, 7, 0x12, 0x20, 0, 0, 0, 0, 0xC0])))
      (fun t => (t.ret, t.syncPhase)) = some (.code .badReply, .idle) := by decide +kernel

/-- 2.9 S3: twelve strays; ten extra reads, and one stray stays. -/
theorem test_sync_strays :
    on (exec (.sync 5000#32) (start ((List.replicate 12 stray).flatten))) (fun t => (t.ret, t.syncExtra, t.env.rxq)) =
      some (.code .responseHeaderError, 10, stray) := by decide +kernel

/-- 2.4: address 0xDB00 becomes 0xD800; the largest operands. -/
theorem test_fbegin :
    on (exec (.fbegin 0xDB00#32 0xC0#32) (start (reply 2))) (fun t => (t.ret, t.env.txs)) =
      some (.code .success, B [0xC0, 0, 2, 0x10, 0, 0, 0, 0, 0, 0xDB, 0xDC, 0, 0, 0, 1, 0, 0, 0, 0, 4, 0, 0, 0, 0xD8, 0, 0,
        0xC0]) ∧
    on (exec (.fbegin 0xFFFFFFFF#32 0xFFFFFFFF#32) (start (reply 2))) (·.env.txs) =
      some (B [0xC0, 0, 2, 0x10, 0, 0, 0, 0, 0, 0xFF, 0xFF, 0xFF, 0xFF, 0, 0, 0x40, 0, 0, 4, 0, 0, 0, 0xFC, 0xFF, 0xFF,
        0xC0]) := by decide +kernel

/-- 2.6: the patched first block and its checksum. -/
theorem test_fdata :
    on (exec (.fdata 0#32 0x0560#16 0x0FF0#16)
        { start (reply 3) with blk := Memory.writeBytes [] 16 (B [0xE9, 1, 0x34, 0x12] ++ fill 1020 0xAA) })
      (fun t => (t.ret, t.chk8, t.env.txs.take 30)) =
      some (.code .success, 0x76#8, B [0xC0, 0, 3, 0x10, 4, 0x76, 0, 0, 0, 0, 4, 0, 0, 0, 0, 0, 0, 0, 0, 0, 0, 0, 0, 0, 0, 0xE9,
        1, 0x64, 0x15, 0xAA]) := by decide +kernel

/-- 2.6: the patch test sees the address 0x200. -/
theorem test_fdata_unpatched :
    on (exec (.fdata 0#32 0x0560#16 0x0FF0#16)
        { start (reply 3) with
          blk := Memory.writeBytes [] 16 (B [0xE9, 1, 0x34, 0x12] ++ fill 1020 0xAA), session := session 1024#32 0x200#32 })
      (·.chk8) = some 0x21#8 := by decide +kernel

/-- 2.5. -/
theorem test_fend :
    on (exec (.fend true) (start (reply 4))) (fun t => (t.ret, t.env.txs)) =
      some (.code .success, B [0xC0, 0, 4, 4, 0, 0, 0, 0, 0, 0, 0, 0, 0, 0xC0]) ∧
    on (exec (.fend false) (start (reply 4))) (·.env.txs) =
      some (B [0xC0, 0, 4, 4, 0, 0, 0, 0, 0, 1, 0, 0, 0, 0xC0]) := by decide +kernel

/-- 2.10 (g), and R131. -/
theorem test_begin_upload :
    on (exec (.beginUpload ⟨0#32, []⟩ 0#32) (start [])) (fun t => (t.ret, t.orch, t.session.resultValid)) =
      some (.failed .emptyFile, .idle, true) ∧
    on (exec (.beginUpload ⟨3#32, B [0xE9, 1, 2]⟩ 0#32) (start []))
      (fun t => (t.ret, t.orch, t.session.nextReport, t.session.resultValid)) =
      some (.started, .resetting, 5#32, false) := by decide +kernel

/-- P3 (a): the fifth reset of a four-entry list with one reset each ends the session. -/
theorem test_step_resetting :
    on (exec .step { at' .resetting 0 [] { session 3#32 0#32 with baudAttempt := 4#32 } with
        cfg := { defaultConfig with retriesPerBaud := 1 } }) (fun t => (t.ret, t.env.gpio)) =
      some (.done .connectFailed, some .run) ∧
    on (exec .step (at' .resetting 0 [] { session 3#32 0#32 with baudAttempt := 3#32 })) (fun t => (t.ret, t.env.baud)) =
      some (.inProgress 0, some 230400) := by decide +kernel

/-- 2.10 (b): the gate with a wrapped clock; 2.10 (c). -/
theorem test_step_gates :
    on (exec .step (at' .connecting (2 ^ 32 + 0xF3) []
      { session 3#32 0#32 with lastAttempt := 0xFFFFFF00, lastReset := 0xFFFFFF00 })) (·.env.txs.length) = some 0 ∧
    on (exec .step (at' .connecting (2 ^ 32 + 0xF4) []
      { session 3#32 0#32 with lastAttempt := 0xFFFFFF00, lastReset := 0xFFFFFF00 })) (·.env.txs.length) = some 46 ∧
    on (exec .step (at' .uploading 2014 [] { session 3#32 0#32 with lastAttempt := 2000 })) (·.env.txs.length) =
      some 0 := by decide +kernel

/-- U12: 2^32 - 1 ms after `last_attempt` the interval is still tested; a millisecond later the test is refused. -/
theorem test_step_overrun :
    on (exec .step (at' .uploading (2 ^ 32 + 1999) [] { session 3#32 0#32 with lastAttempt := 2000 })) (·.orch) = some .done ∧
    why (exec .step (at' .uploading (2 ^ 32 + 2000) [] { session 3#32 0#32 with lastAttempt := 2000 })) =
      some .clockOverrun := by decide +kernel

/-- 2.10 (f): the two named erase sizes. -/
theorem test_erase_sizes :
    eraseCover 4096 200000#32 = 200704 ∧ eraseRomWorkaround 4096 200000#32 0x1000#32 = 139264 ∧
    eraseRomWorkaround 4096 300000#32 0xF000#32 = 299008 ∧ eraseRomWorkaround 4096 4097#32 0#32 = 4096 := by decide +kernel

/-- 2.10 (a): the baud index. -/
theorem test_baud_index : baudIndex defaultConfig 3#32 = 0 ∧ baudIndex defaultConfig 4#32 = 1 ∧
    baudIndex defaultConfig 12#32 = 3 ∧ baudIndex defaultConfig 13#32 = 4 := by decide +kernel

/-! ### Witnesses: for each statement of Obligations.lean, a state and operands that meet its hypotheses -/

/-- The vectors' configuration is legal. -/
theorem witness_legal : legalConfig (start []).cfg = true := by decide

/-- A clock that moves 3 ms at the first interface call, and a peer that then goes on sending. -/
def busy (rxq more : Bytes) : State :=
  { start rxq with env := { (start rxq).env with script := [⟨3, more⟩, ⟨0, []⟩] } }

/-- A response. -/
def rsp (op : Nat) (body : List Nat) : Reply := ⟨0x01#8, BitVec.ofNat 8 op, 0#32, B body⟩

/-- A pending RECV of an operation called by itself, with its timeout 500 ms just over. -/
def pending (op : UnitOp) : State :=
  { at' .idle 501 (reply 8) with rx := { Receiver.reset with active := true, timeout := 500#32 }, unitCall := some op }

theorem witness_DecodeAfterEncode :
    (Instr.flashBeginReq 1025#32 0x1000#32).wf = true ∧ (Instr.slipEscBad 0xDE#8).wf = true ∧ Instr.step.wf = true := by decide

theorem witness_EncodeAfterDecode : decode .wire (B [0xDB, 0xDC, 0xC0]) = .ok (.slipEscEnd, B [0xC0]) ∧
    decode .call (B [14, 1, 16]) = .ok (.fend true, B [16]) := by decide

/-- An empty word before the instruction; an operation code too many; a port of empty words. -/
theorem witness_StepRunsTheDecodedInstruction :
    let p := fun (l : List PortWord) => { start [] with port := l }
    ((∀ w ∈ [(⟨.wire, []⟩ : PortWord)], w.bytes = []) ∧
      (p [⟨.wire, []⟩, ⟨.call, B [16, 3]⟩]).port = [⟨.wire, []⟩] ++ ⟨.call, 16#8 :: [3#8]⟩ :: [] ∧
      decode .call (16#8 :: [3#8]) = .ok (.step, [3#8])) ∧
    ((p [⟨.call, B [17]⟩]).port = [] ++ ⟨.call, 17#8 :: []⟩ :: [] ∧
      decode .call (17#8 :: []) = .error (.noSuchOperation 17#8)) ∧
    ∀ w ∈ (p [⟨.wire, []⟩]).port, w.bytes = [] := by decide

theorem witness_TableWordRunsNext : decodeTableWord 64 0x240800 = some .syncReq ∧ decodeTableWord 8 16 = some .step ∧
    decodeTableWord 16 0x00DB = some (.slipEscBad 0x00#8) := by decide +kernel

/-- R70's last clause, R71's, and R4's constraint that R72 rests on. -/
theorem witness_SlipEncEscapesEveryByte : ∀ x ∈ B [0xDC, 0xDD], x = 0xDC#8 ∨ x = 0xDD#8 := by decide

theorem witness_WrapAndRawwrapDelimit : 0xC0#8 ∈ B [1, 0xC0] ∧ legalConfig defaultConfig = true ∧
    (let c := { defaultConfig with syncFill := 0xDB#8 }
     c.opcSync = 0xC0#8 ∨ c.opcSync = 0xDB#8 ∨ c.syncFill = 0xC0#8 ∨ c.syncFill = 0xDB#8 ∨
       0xC0#8 ∈ c.syncMarker.toList ∨ 0xDB#8 ∈ c.syncMarker.toList) := by decide

/-- One queue for each case of R74, without a pending escape and with one. -/
theorem witness_SlipDecOutcomes :
    let q1 := fun (s : State) => s.env.turn.rxq
    let q2 := fun (s : State) => s.env.rxByte.2.turn.rxq
    let esc := fun (s : State) => { s with rx := { s.rx with escPending := true } }
    (start []).rx.escPending = false ∧ q1 (start []) = [] ∧ (q1 (start (B [0xC0]))).head? = some 0xC0#8 ∧
    (q1 (start (B [0xDC]))).head? = some 0xDC#8 ∧ (q1 (start (B [0xDB]))).head? = some 0xDB#8 ∧
    q2 (start (B [0xDB])) = [] ∧ (q2 (start (B [0xDB, 0xDC]))).head? = some 0xDC#8 ∧
    (q2 (start (B [0xDB, 0xDD]))).head? = some 0xDD#8 ∧ (q2 (start (B [0xDB, 0xDB]))).head? = some 0xDB#8 ∧
    (esc (start [])).rx.escPending = true ∧ q1 (esc (start [])) = [] ∧ (q1 (esc (start (B [0xDC])))).head? = some 0xDC#8 ∧
    (q1 (esc (start (B [0xDD])))).head? = some 0xDD#8 ∧ (q1 (esc (start (B [0xDE])))).head? = some 0xDE#8 := by decide

/-- A quiet state for each of R75's four results. -/
theorem witness_SlipDecallAgreesWithSlipDec :
    Quiet (start (B [1])) ∧ (start (B [1])).rx.escPending = false ∧ (start (B [1])).env.rxq = B [1] ∧
    slipDecodeAll (B [1]) = .decoded (B [1]) ∧ slipDecodeAll (B [0xDB]) = .truncated ∧
    slipDecodeAll (B [0xC0]) = .frameBoundary ∧ slipDecodeAll (B [0xDB, 0xDE]) = .badEscape := by decide

theorem witness_SlipRoundTrip : (∃ b, slipEncode b = B [0xDB, 0xDC]) ∧ ¬ ∃ b, slipEncode b = B [0xC0] := by
  refine ⟨⟨B [0xC0], by decide⟩, fun ⟨b, h⟩ => ?_⟩
  cases b with
  | nil => cases h
  | cons x t =>
    rw [slipEncode_cons] at h
    rcases stuffByte_cases x with ⟨-, e⟩ | ⟨-, e⟩ | ⟨hx, -, e⟩ <;> rw [e] at h <;> injection h with h1
    · cases h1
    · cases h1
    · exact hx h1

theorem witness_SlipEncoderImage : slipEncode (B [0xC0]) = slipEncode (B [0xC0]) := rfl

theorem witness_WireCodesMean : Quiet (start []) ∧ (start []).env.rxq = [] ∧ (start []).rx.escPending = false ∧
    (0xDE#8 : Byte) ≠ 0xDC#8 ∧ (0xDE#8 : Byte) ≠ 0xDD#8 ∧ (0xDC#8 : Byte) ≠ 0xC0#8 ∧ (0xDC#8 : Byte) ≠ 0xDB#8 := by decide

theorem witness_ChkFoldsFromTheSeed : (B [1, 2]).Perm (B [2, 1]) := by decide

theorem witness_ChkSeesOneByteChange : (B [1, 2]).length = (B [1, 3]).length ∧ 1 < (B [1, 2]).length ∧
    byteAt (B [1, 2]) 1 ≠ byteAt (B [1, 3]) 1 ∧
    ∀ j, j < (B [1, 2]).length → j ≠ 1 → byteAt (B [1, 2]) j = byteAt (B [1, 3]) j := by decide

/-- The longest payload, for the Sync opcode and for another. -/
theorem witness_SendWritesOneFrame : legalConfig (start []).cfg = true ∧ (List.replicate 65535 0xC0#8).length ≤ 65535 ∧
    0x08#8 = (start []).cfg.opcSync ∧ 0x02#8 ≠ (start []).cfg.opcSync := by
  simp only [List.length_replicate]; decide

/-- A check byte that is the data's, and one that is not. -/
theorem witness_RequestRowsTransmit : legalConfig (start []).cfg = true ∧ (fill 1024 0xC0).length = 1024 ∧
    0xEF#8 = chkFold (fill 1024 0xC0) ∧ 0xC0#8 ≠ chkFold (fill 1024 0xC0) := by
  refine ⟨by decide, by simp only [fill, List.length_replicate], by decide +kernel, by decide +kernel⟩

theorem witness_PeerFramesArrive : legalConfig (start []).cfg = true ∧ (List.replicate 65535 0xC0#8).length ≤ 65535 := by
  simp only [List.length_replicate]; decide

/-- Noise before the frame, bytes after it, a clock that moves as far as the timeout; a response, and a frame that is none. -/
theorem witness_RecvReadsOneFrame :
    let s := busy (B [0x55, 0xDB] ++ (rsp 2 [0, 0, 7]).wire ++ B [9]) (B [0xC0])
    legalConfig s.cfg = true ∧ slack s.env ≤ (3#32).toNat ∧ Punctual s s.env.now ∧ 0xC0#8 ∉ B [0x55, 0xDB] ∧ (rsp 2 [0, 0, 7]).sendable ∧
    s.env.rxq = B [0x55, 0xDB] ++ (rsp 2 [0, 0, 7]).wire ++ B [9] ∧
    (rsp 2 [0, 0, 7]).dir = s.cfg.dirResponse ∧ (rsp 2 [0, 0, 7]).op = 0x02#8 := by decide

/-- p: a header cut short, and a whole frame without its end marker; tails for each clause. -/
theorem witness_RecvOnBrokenFrames :
    let p := B [1, 2, 3, 0, 0, 0, 0, 0, 9]
    let w := B [1, 2, 1, 0, 0, 0, 0, 0, 0xC0]
    let s := start (B [5] ++ [0xC0#8] ++ slipEncode p ++ [0xDB#8])
    legalConfig s.cfg = true ∧ slack s.env ≤ (0#32).toNat ∧ Punctual s s.env.now ∧ 0xC0#8 ∉ B [5] ∧ NoMoreBytes s.env ∧ Unfinished p ∧ Whole w ∧
    Unfinished [] ∧ (start (B [5])).env.rxq = B [5] ∧
    (∀ tail ∈ [B [0xC0], B [0xDB, 0xDE], [], B [0xDB]],
      (start (B [5] ++ [0xC0#8] ++ slipEncode p ++ tail)).env.rxq = B [5] ++ [0xC0#8] ++ slipEncode p ++ tail) ∧
    (∀ tail ∈ [B [0xDB], []],
      (start (B [5] ++ [0xC0#8] ++ slipEncode w ++ tail)).env.rxq = B [5] ++ [0xC0#8] ++ slipEncode w ++ tail) := by
  decide

/-- A RECV that suspends in the middle of an escape sequence. -/
theorem witness_SuspensionIsInvisible :
    let s := start (B [0xC0, 0x01, 0xDB])
    legalConfig s.cfg = true ∧ Quiet s ∧ on (exec (.recv 0x02#8 500#32) s) (·.rx.active) = some true := by decide +kernel

theorem witness_PendingRecvTimesOutFirst : ∀ op ∈ [UnitOp.recv, .cmd, .fbegin, .fend],
    let s := pending op
    legalConfig s.cfg = true ∧ s.rx.active = true ∧ s.unitCall = some op ∧ Punctual s s.env.stamps.rx ∧ Late s := by decide

/-- For CMD, FBEGIN (with a size and without) and FEND: a stray response, and an accepted one. -/
theorem witness_CommandAnswered : ∀ r ∈ [rsp 0 [0, 0], rsp 2 [0, 0], rsp 2 [0, 0, 0, 0]],
    let s := busy (B [7] ++ r.wire ++ []) []
    legalConfig s.cfg = true ∧ slack s.env ≤ s.cfg.tDefault.toNat ∧ slack s.env ≤ s.cfg.tErase.toNat ∧
    Punctual s s.env.now ∧ 0xC0#8 ∉ B [7] ∧ r.sendable ∧ s.env.rxq = B [7] ++ r.wire ++ [] := by decide

/-- The clock may still advance as far as U12 lets it; for SYNC, FBEGIN of the named sizes and FDATA too. -/
theorem witness_CommandsComplete :
    let s := { start [] with env := { (start []).env with script := [⟨2 ^ 32 - 1, []⟩] } }
    legalConfig s.cfg = true ∧ Punctual s s.env.now ∧ Memory.wf s.blk = true ∧ ([] : Bytes).length ≤ 65535 := by
  decide +kernel

theorem witness_ParseAcceptsExactlyFrames :
    parseFrame (reply 8) = .parsed 1#8 8#8 0#32 (B [0, 0]) ∧ (∀ t, B [1, 2] ≠ [0xC0#8] ++ t ++ [0xC0#8]) ∧
    slipDecodeAll (B [0xC0]) = .frameBoundary ∧ slipDecodeAll (B [0xDB]) = .truncated ∧
    slipDecodeAll (B [0xDB, 1]) = .badEscape ∧ ¬ Whole (B [1, 2]) := by
  refine ⟨by decide, fun t h => ?_, by decide, by decide, by decide, by decide⟩
  injection h with h
  cases h

/-- Ten strays, then the response, then two more of it, then another frame; and a response that comes first. -/
theorem witness_SyncSucceedsPastStrays :
    let strays := List.replicate 10 (rsp 0 [0, 0])
    let flushed := [rsp 8 [0, 0], rsp 8 [1, 2]]
    let read := strays.flatMap Reply.wire ++ (rsp 8 [0, 0]).wire ++ flushed.flatMap Reply.wire ++ (rsp 0 []).wire
    let s := busy (read ++ B [5]) []
    legalConfig s.cfg = true ∧ slack s.env ≤ (5000#32).toNat ∧ slack s.env ≤ s.cfg.tDefault.toNat ∧ Punctual s s.env.now ∧
    (∀ r ∈ strays, r.sendable ∧ ¬ r.answers s.cfg s.cfg.opcSync) ∧ strays.length ≤ 10 ∧ (rsp 8 [0, 0]).sendable ∧
    (rsp 8 [0, 0]).answers s.cfg s.cfg.opcSync ∧ (rsp 8 [0, 0]).body.length = 2 ∧
    (∀ r ∈ flushed, r.accepted s.cfg s.cfg.opcSync) ∧ (rsp 0 []).sendable ∧ ¬ (rsp 0 []).accepted s.cfg s.cfg.opcSync ∧
    s.env.rxq = read ++ B [5] := by decide +kernel

theorem witness_SyncFails :
    let strays := List.replicate 11 (rsp 0 [0, 0])
    let s := start (strays.flatMap Reply.wire ++ [])
    legalConfig s.cfg = true ∧ slack s.env ≤ (0#32).toNat ∧ Punctual s s.env.now ∧ strays.length = 11 ∧
    (∀ r ∈ strays, r.sendable ∧ ¬ r.answers s.cfg s.cfg.opcSync) ∧ s.env.rxq = strays.flatMap Reply.wire ++ [] ∧
    (rsp 8 [0, 0, 0, 0]).sendable ∧ (rsp 8 [0, 0, 0, 0]).answers s.cfg s.cfg.opcSync ∧
    (rsp 8 [0, 0, 0, 0]).body.length ≠ 2 ∧
    (start ((rsp 8 [0, 0, 0, 0]).wire ++ B [1])).env.rxq = (rsp 8 [0, 0, 0, 0]).wire ++ B [1] := by decide

theorem witness_PendingSyncTimesOut : ∀ ph ∈ [SyncPhase.first, .extra, .flush],
    let s := { pending .sync with syncPhase := ph }
    legalConfig s.cfg = true ∧ s.rx.active = true ∧ s.unitCall = some .sync ∧ s.syncPhase ≠ .idle ∧
    Punctual s s.env.stamps.rx ∧ Late s := by decide

theorem witness_FlashBeginBlockCounts : legalConfig (start []).cfg = true ∧ Punctual (start []) (start []).env.now ∧
    ∀ p ∈ [(0, 0), (1, 1), (1024, 1), (1025, 2), (2048, 2)], p ∈ [(0, 0), (1, 1), (1024, 1), (1025, 2), (2048, 2)] :=
  ⟨by decide, by decide, fun _ h => h⟩

/-- A buffer whose first and last bytes are written; at index 0 and address 0 it begins with the image magic. -/
theorem witness_FdataPreparesTheBlock :
    let s := { start [] with blk := Memory.writeBytes (Memory.writeBytes [] 0 (B [1])) 1039 (B [2]) }
    let m := { start [] with blk := Memory.writeBytes [] 16 (B [0xE9, 1, 0x34, 0x12]) }
    legalConfig s.cfg = true ∧ Memory.wf s.blk = true ∧ Punctual s s.env.now ∧ Memory.wf m.blk = true ∧
    m.session.targetAddr = 0#32 ∧ Memory.read m.blk 16 = m.cfg.imageMagic ∧ (0x0FF0#16 : U16) ≠ 0#16 := by decide +kernel

/-- The invariant holds of a state with a pending FDATA. -/
theorem witness_FdataSendsTheSameFrame :
    let s := { pending .fdata with blkAttempt := 2 }
    legalConfig s.cfg = true ∧ RegisterInv s ∧ s.rx.active = true ∧ s.unitCall = some .fdata ∧
    Punctual s s.env.stamps.rx := by
  refine ⟨by decide, ?_, by decide, by decide, by decide⟩
  constructor <;> first | exact fun _ => ⟨rfl, rfl, rfl⟩ | exact fun h => absurd h Bool.false_ne_true |
    exact fun _ _ => True.intro | exact fun _ _ => ⟨rfl, rfl⟩ | decide +kernel

/-- Two failures and an acceptance; three failures. -/
theorem witness_FdataAnswered :
    let failed := [rsp 0 [0, 0], rsp 3 []]
    let s := busy (failed.flatMap Reply.wire ++ (rsp 3 [0, 0]).wire ++ []) []
    legalConfig s.cfg = true ∧ Memory.wf s.blk = true ∧ slack s.env ≤ s.cfg.tBlock.toNat ∧ Punctual s s.env.now ∧
    (∀ f ∈ failed, f.sendable ∧ ¬ f.accepted s.cfg s.cfg.opcFlashData) ∧ failed.length = 2 ∧ (rsp 3 [0, 0]).sendable ∧
    (rsp 3 [0, 0]).accepted s.cfg s.cfg.opcFlashData ∧
    s.env.rxq = failed.flatMap Reply.wire ++ (rsp 3 [0, 0]).wire ++ [] := by decide

theorem witness_BeginUploadStartsASession :
    (∀ o ∈ [OrchState.idle, .done, .erasing], legalConfig (at' o 0 []).cfg = true) ∧
    (∀ o ∈ [OrchState.idle, .done], (at' o 0 []).orch = .idle ∨ (at' o 0 []).orch = .done) ∧
    ¬ ((at' .erasing 0 []).orch = .idle ∨ (at' .erasing 0 []).orch = .done) ∧
    (⟨0#32, []⟩ : ImageSource).size = 0#32 ∧ (⟨1#32, B [1]⟩ : ImageSource).size ≠ 0#32 := by decide

theorem witness_StepOutsideASession :
    let e := at' .idle 0 [] { Session.reset with resultValid := true, result := .emptyFile }
    (at' .done 0 []).orch = .done ∧ (at' .idle 0 []).session.resultValid = false ∧ e.session.resultValid = true ∧
    RegisterInv e ∧ ∀ o ∈ [OrchState.idle, .done], legalConfig (at' o 0 []).cfg = true ∧ (at' o 0 []).rx.active = false := by
  refine ⟨by decide, by decide, by decide, ?_, by decide⟩
  constructor <;> first | exact fun _ => ⟨rfl, rfl, rfl⟩ | exact fun h => absurd h Bool.false_ne_true |
    exact fun _ _ => True.intro | exact fun _ _ => ⟨rfl, rfl⟩ | decide +kernel

/-- The twelfth reset of the default list, and the thirteenth. -/
theorem witness_StepInResetting :
    let s := fun n => at' .resetting 0 [] { session 3#32 0#32 with baudAttempt := BitVec.ofNat 32 n }
    let k := fun n => ((s n).session.baudAttempt + 1#32).toNat - 1
    legalConfig (s 11).cfg = true ∧ (s 11).rx.active = false ∧ (s 11).orch = .resetting ∧
    (s 11).cfg.baudList[k 11 / (s 11).cfg.retriesPerBaud]? = some 74880 ∧
    (s 12).cfg.baudList.length ≤ k 12 / (s 12).cfg.retriesPerBaud := by decide

/-- A millisecond before the interval, and the moment it is over, with a response; a SYNC pending in each phase, a
millisecond late. -/
theorem witness_StepInConnecting :
    let read := (rsp 8 [0, 0]).wire ++ (rsp 0 []).wire ++ []
    let s := fun now => at' .connecting now read (session 3#32 0#32)
    legalConfig (s 500).cfg = true ∧ (s 500).rx.active = false ∧ (s 500).orch = .connecting ∧
    Punctual (s 500) (s 500).env.stamps.attempt ∧ Punctual (s 500) (s 500).env.stamps.reset ∧
    ¬ (50 ≤ elapsed 32 (s 499).env.turn.now 0 ∧ 500 ≤ elapsed 32 (s 499).env.turn.now 0) ∧
    (50 ≤ elapsed 32 (s 500).env.turn.now 0 ∧ 500 ≤ elapsed 32 (s 500).env.turn.now 0) ∧
    slack (s 500).env ≤ 5000 ∧ slack (s 500).env ≤ (s 500).cfg.tDefault.toNat ∧
    (rsp 8 [0, 0]).accepted (s 500).cfg (s 500).cfg.opcSync ∧ (rsp 0 []).sendable ∧
    ¬ (rsp 0 []).accepted (s 500).cfg (s 500).cfg.opcSync ∧ (s 500).env.rxq = read := by decide

/-- The session's SYNC with its RECV pending in this phase, a millisecond late. -/
def syncLate (ph : SyncPhase) : State :=
  { at' .connecting 5501 [] { session 3#32 0#32 with lastAttempt := 500, lastReset := 500 } with
    syncPhase := ph
    rx := { Receiver.reset with active := true, expected := 8#8, timeout := if ph = .flush then 500#32 else 5000#32 } }

theorem witness_StepInConnecting_pending : ∀ ph ∈ [SyncPhase.first, .extra, .flush],
    let s := syncLate ph
    legalConfig s.cfg = true ∧ s.orch = .connecting ∧ s.rx.active = true ∧ s.unitCall = none ∧ RegisterInv s ∧
    Punctual s s.env.stamps.rx ∧ s.syncPhase = ph ∧ Late s := by
  intro ph h
  simp only [List.mem_cons, List.not_mem_nil, or_false] at h
  rcases h with rfl | rfl | rfl <;>
    refine ⟨by decide, by decide, by decide, by decide, ?_, by decide, rfl, by decide⟩ <;>
    constructor <;> first | exact fun _ => ⟨rfl, rfl, rfl⟩ | exact fun h => absurd h Bool.false_ne_true |
    exact fun _ _ => True.intro | exact fun _ _ => ⟨rfl, rfl⟩ | decide +kernel

/-- Each way to fail: a first response of the wrong length, eleven strays, and the three broken first frames. -/
theorem witness_FailedSyncIsCounted :
    let strays := List.replicate 11 (rsp 0 [0, 0])
    let p := B [1, 8, 2]
    let w := B [1, 8, 1, 0, 0, 0, 0, 0, 0xC0]
    let s := fun (rxq : Bytes) => at' .connecting 500 rxq (session 3#32 0#32)
    let frames := [(rsp 8 [0]).wire ++ [], strays.flatMap Reply.wire ++ B [7], B [5] ++ [0xC0#8] ++ slipEncode p ++ B [0xC0],
      B [5] ++ [0xC0#8] ++ slipEncode p ++ B [0xDB, 0xDE], B [5] ++ [0xC0#8] ++ slipEncode w ++ B [0xDB]]
    (∀ q ∈ frames, legalConfig (s q).cfg = true ∧ (s q).orch = .connecting ∧ (s q).rx.active = false ∧
      50 ≤ elapsed 32 (s q).env.turn.now (s q).session.lastAttempt ∧
      500 ≤ elapsed 32 (s q).env.turn.now (s q).session.lastReset ∧ Punctual (s q) (s q).env.stamps.attempt ∧
      Punctual (s q) (s q).env.stamps.reset ∧ slack (s q).env ≤ 5000 ∧ (s q).env.rxq = q) ∧
    (rsp 8 [0]).sendable ∧ (rsp 8 [0]).answers (s []).cfg (s []).cfg.opcSync ∧ (rsp 8 [0]).body.length ≠ 2 ∧
    strays.length = 11 ∧ (∀ r ∈ strays, r.sendable ∧ ¬ r.answers (s []).cfg (s []).cfg.opcSync) ∧ 0xC0#8 ∉ B [5] ∧
    Unfinished p ∧ Whole w := by decide +kernel

theorem witness_FailedSyncIsCounted_pending : ∀ ph ∈ [SyncPhase.first, .extra],
    let s := syncLate ph
    legalConfig s.cfg = true ∧ s.orch = .connecting ∧ s.rx.active = true ∧ s.unitCall = none ∧
    (s.syncPhase = .first ∨ s.syncPhase = .extra) ∧ Punctual s s.env.stamps.rx ∧ Late s := by decide

/-- The largest size `EraseCover` is defined for, the next one, and the formula's two branches. -/
theorem witness_EraseSizeByTheConfiguration :
    let c := fun f => { defaultConfig with eraseFn := f }
    let num := fun (size : U32) => (size.toNat + 4095) / 4096
    let head := fun (size addr : U32) => min (16 - addr.toNat / 4096 % 16) (num size)
    1 ≤ (c .eraseCover).sectorSize ∧ (c .eraseCover).sectorSize ≤ 2 ^ 32 ∧ (c .eraseCover).sectorSize = 4096 ∧
    (0xFFFFF000#32).toNat + (c .eraseCover).sectorSize ≤ 2 ^ 32 ∧
    2 ^ 32 < (0xFFFFF001#32).toNat + (c .eraseCover).sectorSize ∧
    num 4097#32 < 2 * head 4097#32 0#32 ∧ ¬ num 300000#32 < 2 * head 300000#32 0xF000#32 := by decide

/-- Accepted and not. -/
theorem witness_StepInErasing : ∀ r ∈ [rsp 2 [0, 0], rsp 2 [0]],
    let s := at' .erasing 0 ([] ++ r.wire ++ []) (session 3#32 0#32)
    legalConfig s.cfg = true ∧ s.rx.active = false ∧ s.orch = .erasing ∧ Punctual s s.env.now ∧
    eraseSize s.cfg s.session.imageSize s.session.targetAddr = some 4096#32 ∧
    slack s.env ≤ (if (4096#32).toNat > 0 then s.cfg.tErase else s.cfg.tDefault).toNat ∧ 0xC0#8 ∉ ([] : Bytes) ∧
    r.sendable ∧ s.env.rxq = [] ++ r.wire ++ [] := by decide +kernel

/-- The FlashBegin's RECV pending, as the session left it at the time 0. -/
def eraseWaits (now : Nat) (rxq : Bytes) : State :=
  { at' .erasing now rxq (session 3#32 0#32) with
    rx := { Receiver.reset with active := true, expected := 2#8, timeout := 15000#32 } }

/-- The last millisecond that is in time, and the first that is late. -/
theorem witness_StepInErasing_pending :
    let q := B [9] ++ (rsp 2 [0, 0]).wire ++ B [7]
    (∀ s ∈ [eraseWaits 15000 q, eraseWaits 15001 q], legalConfig s.cfg = true ∧ s.orch = .erasing ∧ s.rx.active = true ∧
      s.unitCall = none ∧ Punctual s s.env.stamps.rx ∧ s.env.rxq = q) ∧
    Waiting (eraseWaits 15000 q) ∧ InTime (eraseWaits 15000 q) ∧ 0xC0#8 ∉ B [9] ∧ (rsp 2 [0, 0]).sendable ∧
    Late (eraseWaits 15001 q) := by
  refine ⟨by decide, ⟨by decide, by decide, by decide, by decide⟩, by decide, by decide, by decide, by decide⟩

theorem witness_StepInErasing_both : let c := defaultConfig
    (rsp 2 [0, 0]).accepted c c.opcFlashBegin ∧ ¬ (rsp 2 [0]).accepted c c.opcFlashBegin := by decide

/-- The fourteenth and the fifteenth millisecond; an image of three bytes that gives two. -/
theorem witness_StepInUploadingWaitsOrFails :
    let s := fun now => { at' .uploading now [] (session 3#32 0#32) with
      env := { (at' .uploading now []).env with img := ⟨3#32, B [1, 2]⟩ } }
    legalConfig (s 14).cfg = true ∧ (s 14).rx.active = false ∧ (s 14).orch = .uploading ∧
    Punctual (s 14) (s 14).env.stamps.attempt ∧ Punctual (s 15) (s 15).env.stamps.attempt ∧
    elapsed 32 (s 14).env.turn.now 0 < 15 ∧ 15 ≤ elapsed 32 (s 15).env.turn.now 0 ∧
    (((s 15).env.img.data.drop 0).take 1024).length ≠ min 1024 ((s 15).session.imageSize.toNat - 0) := by decide

/-- Three failures in one STEP. -/
theorem witness_StepInUploadingWaitsOrFails_three :
    let q := (rsp 0 []).wire ++ (rsp 3 [1]).wire ++ (rsp 2 [0, 0]).wire ++ B [7]
    let s := { at' .uploading 15 q (session 3#32 0#32) with
      env := { (at' .uploading 15 q).env with img := ⟨3#32, B [1, 2, 3]⟩ } }
    legalConfig s.cfg = true ∧ s.rx.active = false ∧ s.orch = .uploading ∧ Punctual s s.env.stamps.attempt ∧
    15 ≤ elapsed s.cfg.clkW s.env.turn.now s.session.lastAttempt ∧ Memory.wf s.blk = true ∧
    ((s.env.img.data.drop 0).take 1024).length = min 1024 (s.session.imageSize.toNat - 0) ∧
    slack s.env ≤ s.cfg.tBlock.toNat ∧ s.env.rxq = q ∧
    ∀ f ∈ [rsp 0 [], rsp 3 [1], rsp 2 [0, 0]], f.sendable ∧ ¬ f.accepted s.cfg s.cfg.opcFlashData := by decide

/-- The block's RECV pending after this many attempts, as the session left it at the time 0. -/
def blockWaits (now attempts : Nat) (rxq : Bytes) : State :=
  { at' .uploading now rxq (session 3#32 0#32) with
    blkAttempt := attempts
    rx := { Receiver.reset with active := true, expected := 3#8, timeout := 200#32 } }

/-- Late by a millisecond, after the second attempt and after the third. -/
theorem witness_StepInUploadingWaitsOrFails_late : ∀ n ∈ [2, 3],
    let s := blockWaits 201 n []
    legalConfig s.cfg = true ∧ s.orch = .uploading ∧ s.rx.active = true ∧ s.unitCall = none ∧
    Punctual s s.env.stamps.rx ∧ Late s ∧ s.blkAttempt = n ∧ s.env.rxq = [] ∧ NoMoreBytes s.env ∧
    slack s.env ≤ s.cfg.tBlock.toNat := by decide

/-- The last block but one, whose report is due, and the last, short block; with a response and without. -/
theorem witness_StepInUploadingSendsTheBlock : ∀ k ∈ [0, 1], ∀ q ∈ [(rsp 3 [0, 0]).wire ++ [], []],
    let image : ImageSource := ⟨1027#32, fill 1027 0xE9⟩
    let s := { at' .uploading 15 q { session 1027#32 0#32 with blockIdx := BitVec.ofNat 32 k } with
      env := { (at' .uploading 15 q).env with img := image } }
    let got := (s.env.img.data.drop (k * 1024)).take 1024
    legalConfig s.cfg = true ∧ Memory.wf s.blk = true ∧ s.rx.active = false ∧ s.orch = .uploading ∧
    Punctual s s.env.stamps.attempt ∧ 15 ≤ elapsed s.cfg.clkW s.env.turn.now s.session.lastAttempt ∧
    s.session.blockIdx.toNat = k ∧ got.length = min 1024 (s.session.imageSize.toNat - k * 1024) ∧
    k < (s.session.imageSize.toNat + 1023) / 1024 ∧ slack s.env ≤ s.cfg.tBlock.toNat ∧
    (rsp 3 [0, 0]).accepted s.cfg s.cfg.opcFlashData ∧ s.env.rxq = q ∧ NoMoreBytes s.env := by decide +kernel

/-- The pending RECV at its last millisecond, with a response. -/
theorem witness_StepInUploadingSendsTheBlock_pending :
    let s := blockWaits 200 1 ((rsp 3 [0, 0]).wire ++ [])
    legalConfig s.cfg = true ∧ s.orch = .uploading ∧ s.session.blockIdx.toNat < (s.session.imageSize.toNat + 1023) / 1024 ∧
    s.rx.active = true ∧ s.unitCall = none ∧ Punctual s s.env.stamps.rx ∧ Waiting s ∧ InTime s ∧
    (rsp 3 [0, 0]).accepted s.cfg s.rx.expected ∧ s.env.rxq = (rsp 3 [0, 0]).wire ++ [] := by
  refine ⟨by decide, by decide, by decide, by decide, by decide, by decide, ⟨by decide, by decide, by decide, by decide⟩,
    by decide, by decide, by decide⟩

theorem witness_DoneIsEnteredByFinish :
    let s := at' .resetting 0 [] { session 3#32 0#32 with baudAttempt := 12#32 }
    on (exec .step s) (·.orch) = some .done ∧ s.orch ≠ .done := by decide +kernel

theorem witness_OrchestratorTakesTheEdges :
    on (exec .step (at' .resetting 0 [] (session 3#32 0#32))) (·.orch) = some .connecting ∧
    on (exec (.beginUpload ⟨1#32, B [1]⟩ 0#32) (start [])) (·.orch) = some .resetting ∧
    on (exec (.sync 5#32) (start [])) (·.orch) = some .idle := by decide +kernel

/-- After reset, and in the middle of an upload, with a block's RECV pending. -/
theorem witness_InvariantKept :
    let s := { at' .uploading 0 [] (session 1#32 0#32) with
      port := [⟨.call, B [16]⟩], blkAttempt := 1, blk := Memory.writeBytes [] 0 (flashDataBodyHeader 0#32)
      rx := { Receiver.reset with active := true, timeout := 200#32, expected := 3#8 } }
    RegisterInv s ∧ on (step s) (·.orch) = some .uploading := by
  refine ⟨?_, by decide +kernel⟩
  constructor <;> first | exact fun _ => ⟨rfl, rfl, rfl⟩ | exact fun h => absurd h Bool.false_ne_true |
    exact fun _ _ => True.intro | exact fun _ _ => ⟨rfl, rfl⟩ | decide +kernel

theorem witness_HistoriesOnlyGrow : on (exec (.sync 5#32) (busy [] (B [1]))) (·.env.script) = some [] := by decide +kernel

theorem witness_OwnersAloneWrite :
    on (exec (.beginUpload ⟨1#32, B [1]⟩ 4#32) (start [])) (fun t => (t.session.targetAddr, t.env.img)) =
      some (4#32, ⟨1#32, B [1]⟩) ∧
    on (exec .step (at' .resetting 0 [] (session 3#32 0#32))) (fun t => (t.env.baud, t.env.gpio)) =
      some (some 460800, some .upload) ∧
    on (exec (.fdata 1#32 0#16 0#16) (start [])) (fun t => (Memory.read t.blk 4, t.chk8)) = some (1#8, 0xEF#8) := by
  decide +kernel

theorem witness_PercentIsAShare :
    let s := at' .uploading 0 [] (session 1#32 0#32)
    RegisterInv s ∧ on (exec .step s) (fun t => (t.ret, t.orch)) = some (.inProgress 0, .uploading) := by
  refine ⟨?_, by decide +kernel⟩
  constructor <;> first | exact fun _ => ⟨rfl, rfl, rfl⟩ | exact fun h => absurd h Bool.false_ne_true |
    exact fun _ _ => True.intro | exact fun _ _ => ⟨rfl, rfl⟩ | decide +kernel

theorem witness_ElapsedIsModular : elapsed 32 4 0xFFFFFFFF = 5 ∧ timedOut 32 6 0 5#32 = true ∧
    timedOut 32 5 0 5#32 = false ∧ intervalMet 32 5 0 5 = true ∧ intervalMet 32 4 0 5 = false ∧
    2 ^ 32 - 1 < 2 ^ 32 := by decide

/-- Each condition of R4 broken alone; every clock test a millisecond too late; the next size after the largest. -/
theorem witness_RefusalsAreTheSpecs :
    (legalConfig (at' .resetting 0 []).cfg = true ∧ inSession (at' .resetting 0 []).orch = true) ∧
    (∀ c ∈ [{ defaultConfig with baudList := [] }, { defaultConfig with baudList := [9600, 9600] },
        { defaultConfig with bodyWord := 2 }, { defaultConfig with retriesPerBaud := 0 },
        { defaultConfig with retriesPerReset := 0 }, { defaultConfig with pctStep := 0 },
        { defaultConfig with pctStep := 101 }, { defaultConfig with opcReadReg := 0#8 },
        { defaultConfig with opcReadReg := 2#8 }, { defaultConfig with dirResponse := 0#8 },
        { defaultConfig with syncFill := 0xDB#8 }], legalConfig c = false) ∧
    (let s := { pending .recv with env := { (pending .recv).env with now := 2 ^ 32 } }
     s.rx.active = true ∧ callerOf s ≠ none ∧ 2 ^ s.cfg.clkW ≤ s.env.turn.now - s.env.stamps.rx) ∧
    (∀ o ∈ [OrchState.connecting, .uploading],
      let s := at' o (2 ^ 32) [] (session 3#32 0#32)
      s.rx.active = false ∧ (s.orch = .connecting ∨ s.orch = .uploading) ∧
        2 ^ s.cfg.clkW ≤ s.env.turn.now - s.env.stamps.attempt ∧ 2 ^ s.cfg.clkW ≤ s.env.turn.now - s.env.stamps.reset) ∧
    (let s := at' .erasing 0 [] (session 0xFFFFF001#32 0#32)
     legalConfig s.cfg = true ∧ s.rx.active = false ∧ s.orch = .erasing ∧ s.cfg.eraseFn = .eraseCover ∧
       2 ^ 32 < s.session.imageSize.toNat + s.cfg.sectorSize ∧ s.cfg.sectorSize ≤ 2 ^ 32) ∧
    65535 < (List.replicate 65536 0#8).length := by
  simp only [List.length_replicate]; decide +kernel

theorem witness_StepCompletes :
    let s := at' .erasing 0 [] (session 0xFFFFF000#32 0#32)
    legalConfig s.cfg = true ∧ RegisterInv s ∧ (s.orch = .idle → s.session.resultValid = true ∨ s.rx.active = true) ∧
    (s.orch = .erasing → eraseSize s.cfg s.session.imageSize s.session.targetAddr ≠ none) ∧
    Punctual s s.env.stamps.rx ∧ Punctual s s.env.stamps.attempt ∧ Punctual s s.env.stamps.reset ∧ Punctual s s.env.now := by
  refine ⟨by decide, ?_, by decide, by decide +kernel, by decide, by decide, by decide, by decide⟩
  constructor <;> first | exact fun _ => ⟨rfl, rfl, rfl⟩ | exact fun h => absurd h Bool.false_ne_true |
    exact fun _ _ => True.intro | exact fun _ _ => ⟨rfl, rfl⟩ | decide +kernel

theorem witness_SlipStateErrorIsUnreachable : RegisterInv (start []) ∧
    on (exec (.recv 8#8 5#32) (start (reply 8))) (·.ret) = some (.code .success) ∧ (start []).ret = .nothing := by
  refine ⟨?_, by decide +kernel, rfl⟩
  constructor <;> first | exact fun _ => ⟨rfl, rfl, rfl⟩ | exact fun h => absurd h Bool.false_ne_true |
    exact fun _ _ => True.intro | exact fun _ _ => ⟨rfl, rfl⟩ | decide +kernel

theorem witness_StepSendsThreeKindsOfFrame :
    on (exec .step (at' .connecting 500 [] (session 3#32 0#32))) (·.env.txs.length) = some 46 := by decide +kernel

/-- One baud rate, one reset, one attempt: the request goes out, nothing comes, and 5001 ms later the attempt fails. -/
theorem witness_RetryBudgetIsExact :
    let s := { at' .resetting 0 [] (session 3#32 0#32) with
      cfg := { defaultConfig with baudList := [115200], retriesPerBaud := 1, retriesPerReset := 1 }
      env := { Env.reset with script := [⟨0, []⟩, ⟨0, []⟩, ⟨0, []⟩, ⟨500, []⟩, ⟨0, []⟩, ⟨0, []⟩, ⟨0, []⟩,
        ⟨0, []⟩, ⟨5001, []⟩] } }
    legalConfig s.cfg = true ∧ RegisterInv s ∧ s.orch = .resetting ∧ s.rx.active = false ∧ s.session.baudAttempt = 0#32 ∧
    s.cfg.baudList.length * s.cfg.retriesPerBaud < 2 ^ 32 - 1 ∧ s.cfg.retriesPerReset < 2 ^ 32 ∧
    (runSteps 4 s).map (fun t => (t.orch, t.session.result)) = some (.done, .connectFailed) := by
  refine ⟨by decide, ?_, by decide, by decide, by decide, by decide, by decide, by decide +kernel⟩
  constructor <;> first | exact fun _ => ⟨rfl, rfl, rfl⟩ | exact fun h => absurd h Bool.false_ne_true |
    exact fun _ _ => True.intro | exact fun _ _ => ⟨rfl, rfl⟩ | decide +kernel

/-- An image of one byte, and a peer that answers everything. -/
theorem witness_SuccessfulSessionOnTheWire :
    let s := { at' .resetting 0 [] (session 1#32 0#32) with
      env := { Env.reset with
        img := ⟨1#32, B [0xE9]⟩
        script := [⟨0, []⟩, ⟨0, []⟩, ⟨0, []⟩, ⟨500, reply 8 ++ stray ++ reply 2 ++ reply 3⟩] ++
          List.replicate 120 ⟨1, []⟩ } }
    legalConfig s.cfg = true ∧ RegisterInv s ∧ s.orch = .resetting ∧ s.rx.active = false ∧
    (runSteps 4 s).map (fun t => (t.orch, t.session.result)) = some (.done, .success) := by
  refine ⟨by decide, ?_, by decide, by decide, by decide +kernel⟩
  constructor <;> first | exact fun _ => ⟨rfl, rfl, rfl⟩ | exact fun h => absurd h Bool.false_ne_true |
    exact fun _ _ => True.intro | exact fun _ _ => ⟨rfl, rfl⟩ | decide +kernel

/-- A machine after reset, and one after a session that failed. -/
theorem witness_SecondSessionIsAFirst :
    let s := start []
    let s' := { at' .done 0 [] { session 9#32 7#32 with result := .connectFailed, resultValid := true } with
      blk := Memory.writeBytes [] 5 (B [1]), chk8 := 9#8, syncExtra := 4 }
    Memory.wf s.blk = true ∧ Memory.wf s'.blk = true ∧ s.cfg = s'.cfg ∧ s.env = s'.env ∧ (⟨1#32, B [1]⟩ : ImageSource).size ≠ 0#32 ∧
    on (exec (.beginUpload ⟨1#32, B [1]⟩ 0#32) s) (·.orch) = some .resetting ∧
    on (exec (.beginUpload ⟨1#32, B [1]⟩ 0#32) s') (·.orch) = some .resetting := by decide +kernel

end Sys2Proof.Tests
end

section
/-! PROOFS. What is refused, and under which name (U1, U9, U12, U15, R54): the guards where they refuse, what R4's
constraints say, and the steps that test a timestamp too late. -/

namespace Sys2Proof.Machine

/-! ### The guards where they refuse -/

/-- U9 (log 15). -/
theorem whenLegal_illegal {s : State} (h : legalConfig s.cfg = false) (k : Host.Outcome State Fault Refusal) :
    whenLegal s k = .refused .illegalConfiguration := by simp [whenLegal, h]

/-- R54 (log 24). -/
theorem whenFits_tooLong {body : Bytes} (h : maxBodyLen < body.length) (k : Host.Outcome State Fault Refusal) :
    whenFits body k = .refused .bodyTooLong := if_neg (Nat.not_le.2 h)

/-- U12 (log 29). -/
theorem whenPunctual_overrun {s : State} (h : s.env.overrun = true) :
    whenPunctual s = .refused .clockOverrun := if_pos h

/-! ### The constraints of R4 -/

/-- R51: the delimiter and the escape byte are the only ones stuffed. -/
theorem isPlainByte_iff (b : Byte) : isPlainByte b = true ↔ b ≠ 0xC0#8 ∧ b ≠ 0xDB#8 := by
  simp [isPlainByte, slipEND, slipESC]

/-- R4's constraints, the SLIP alphabet and the opcodes written out. -/
theorem legalConfig_iff (c : Config) : legalConfig c = true ↔
    c.baudList ≠ [] ∧ c.baudList.Pairwise (fun a b => b < a) ∧ c.bodyWord = 4 ∧
    1 ≤ c.retriesPerBaud ∧ 1 ≤ c.retriesPerReset ∧ 1 ≤ c.pctStep ∧ c.pctStep ≤ 100 ∧
    (0#8 :: opcodes c).Nodup ∧ c.dirResponse ≠ c.dirRequest ∧
    ∀ b ∈ c.dirRequest :: c.opcSync :: c.syncFill :: c.syncMarker.toList, b ≠ 0xC0#8 ∧ b ≠ 0xDB#8 := by
  simp only [legalConfig, decide_eq_true_eq, List.nodup_cons, List.forall_mem_cons, List.all_eq_true, isPlainByte_iff,
    gt_iff_lt]
  tauto

/-! ### Which instructions read the configuration (U9; log 15) -/

/-- FLASH_DATA.REQ reads the configuration, whether it is transmitted or arrives (R59). -/
theorem execFlashDataReq_illegal {s : State} (h : legalConfig s.cfg = false) (chk8 : Byte) (idx : U32) (data : Bytes) :
    execFlashDataReq chk8 idx data s = .refused .illegalConfiguration := by
  unfold execFlashDataReq
  split <;> exact whenLegal_illegal h _

/-! ### What STEP does in a legal configuration (R132) -/

section Step
variable {s : State} (hl : legalConfig s.cfg = true)
include hl

theorem exec_step_resumed {c : Caller} (ha : s.rx.active = true) (hc : callerOf s = some c) :
    exec .step s = whenPunctual (await c s) := by
  simp [exec, execStep, whenLegal_eq hl, ha, hc]

theorem exec_step_connecting (ha : s.rx.active = false) (ho : s.orch = .connecting) :
    exec .step s = whenPunctual (stepConnecting s) := by
  simp [exec, execStep, whenLegal_eq hl, ha, ho]

theorem exec_step_erasing (ha : s.rx.active = false) (ho : s.orch = .erasing) : exec .step s = stepErasing s := by
  simp [exec, execStep, whenLegal_eq hl, ha, ho]

theorem exec_step_uploading (ha : s.rx.active = false) (ho : s.orch = .uploading) :
    exec .step s = whenPunctual (stepUploading s) := by
  simp [exec, execStep, whenLegal_eq hl, ha, ho]

end Step

/-! ### A timestamp tested too late stays known to the end of the STEP (U12; log 29) -/

/-- The RECV waited for tests `rx_start` too late. -/
theorem await_late {s : State} (c : Caller) (h : 2 ^ s.cfg.clkW ≤ s.env.turn.now - s.env.stamps.rx) :
    (await c s).env.overrun = true :=
  await_overrun (by rw [poll_overrun, State.atPoll_overrun, decide_eq_true h, Bool.or_true])

/-- A timestamp was tested too late before the RECV began. -/
theorem await_keeps_overrun {s : State} (c : Caller) (h : s.env.overrun = true) : (await c s).env.overrun = true :=
  await_overrun (by rw [poll_overrun, State.atPoll_overrun, h, Bool.true_or])

/-- FDATA up to its first poll takes `rx_start` alone (R84, R112). -/
theorem beginFdata_starts (idx : U32) (val mask : U16) (s : State) : Starts s (beginFdata idx val mask s) := by
  obtain ⟨h1, h2, h3, h4⟩ := beginCmd_starts s.cfg.opcFlashData (blockBody (prepareBlock idx val mask s).blk)
    (zext32 (prepareBlock idx val mask s).chk8) s.cfg.tBlock { prepareBlock idx val mask s with blkAttempt := 1 }
  exact ⟨h1, h2, h3, h4⟩

/-- `connecting` tests `last_attempt` and `last_reset`, whichever decides (R135). -/
theorem stepConnecting_late {s : State} (h : 2 ^ s.cfg.clkW ≤ s.env.turn.now - s.env.stamps.attempt ∨
    2 ^ s.cfg.clkW ≤ s.env.turn.now - s.env.stamps.reset) : (stepConnecting s).env.overrun = true := by
  have tested : (((s.env.readClock s.cfg.clkW).2.tested s.cfg.clkW s.env.stamps.attempt).tested s.cfg.clkW
      s.env.stamps.reset).overrun = true := by
    rcases h with h | h <;> simp [-Env.turn_now, h]
  simp only [stepConnecting]
  split
  · exact await_keeps_overrun _ ((beginSync_starts _ _).overrun.trans tested)
  · exact tested

/-- `uploading` tests `last_attempt`, whether or not it then fetches a block (R138). -/
theorem stepUploading_late {s : State} (h : 2 ^ s.cfg.clkW ≤ s.env.turn.now - s.env.stamps.attempt) :
    (stepUploading s).env.overrun = true := by
  have tested : ((s.env.readClock s.cfg.clkW).2.tested s.cfg.clkW s.env.stamps.attempt).overrun = true := by
    simp [-Env.turn_now, h]
  simp only [stepUploading]
  split
  · split
    · exact tested
    · exact await_keeps_overrun _ ((beginFdata_starts _ _ _ _).overrun.trans tested)
  · exact tested

/-! ### The other refusals -/

/-- R131, U1: BEGIN_UPLOAD is legal in `idle` and `done` alone. -/
theorem mayBegin_eq_false_of_inSession {o : OrchState} (h : inSession o = true) : mayBegin o = false := by
  cases o with
  | idle | done => cases h
  | resetting | connecting | erasing | uploading => rfl

/-- R131, U1: BEGIN_UPLOAD in a session is refused. -/
theorem execBeginUpload_inSession {s : State} (hl : legalConfig s.cfg = true) (h : inSession s.orch = true)
    (image : ImageSource) (addr : U32) : execBeginUpload image addr s = .refused .sessionInProgress := by
  simp [execBeginUpload, whenLegal_eq hl, mayBegin_eq_false_of_inSession h]

/-- R137, U15: `EraseCover` has no result above 2^32 - `SECTOR_SIZE`. -/
theorem eraseSize_eq_none {c : Config} {size addr : U32} (hf : c.eraseFn = .eraseCover)
    (h : 2 ^ 32 < size.toNat + c.sectorSize) (hs : c.sectorSize ≤ 2 ^ 32) : eraseSize c size addr = none := by
  simp only [eraseSize, hf]
  exact if_neg (by omega)

/-- Settles O54, by the guards of the model and what each STEP makes of a timestamp tested too late. -/
theorem refusalsAreTheSpecs : Obligations.RefusalsAreTheSpecs := by
  refine ⟨legalConfig_iff, ?illegal, fun s hl => ⟨?session, ?resumed, ?attempt, ?reset, ?erase, ?body⟩⟩
  case illegal =>
    intro i s h
    cases i with
    | slipEnd | slipEscEnd | slipEscEsc | slipEscBad _ | slipLit _ | slipEnc _ | slipWrap _ | slipRawwrap _ | slipDec
    | slipDecall _ | chk _ | hdr _ _ _ _ | parse _ => exact ⟨_, rfl⟩
    | flashDataReq chk8 idx data => exact execFlashDataReq_illegal h chk8 idx data
    | _ => exact whenLegal_illegal h _
  case session => exact fun h image addr => execBeginUpload_inSession hl h image addr
  case resumed =>
    intro ha hc late
    obtain ⟨c, hc⟩ := Option.ne_none_iff_exists'.1 hc
    rw [exec_step_resumed hl ha hc, whenPunctual_overrun (await_late c late)]
  case attempt =>
    rintro ha (ho | ho) late
    · rw [exec_step_connecting hl ha ho, whenPunctual_overrun (stepConnecting_late (.inl late))]
    · rw [exec_step_uploading hl ha ho, whenPunctual_overrun (stepUploading_late late)]
  case reset =>
    intro ha ho late
    rw [exec_step_connecting hl ha ho, whenPunctual_overrun (stepConnecting_late (.inr late))]
  case erase =>
    intro ha ho hf h hs
    rw [exec_step_erasing hl ha ho, stepErasing, eraseSize_eq_none hf h hs]
  case body =>
    intro op body chk timeout hb
    have refused (k) : whenLegal s (whenFits body k) = .refused .bodyTooLong :=
      (whenLegal_eq hl _).trans (whenFits_tooLong hb k)
    simp only [List.forall_mem_cons]
    exact ⟨refused _, refused _, refused _, refused _, refused _, refused _, refused _, refused _, refused _,
      List.forall_mem_nil _⟩

end Sys2Proof.Machine
end

section
/-! PROOFS. What every step keeps (10_state.md): the invariant of the registers, in the parts its owners write, through
a poll, an operation's continuation, the tails of the state actions and the poll loop; that the histories only grow; and
what InProgress carries. -/

namespace Sys2Proof.Machine

/-! ### The invariant in its parts -/

/-- The synchronizer's counter and status fit its phase (R13, R101, R102). -/
def SyncRanges (s : State) : Prop :=
  s.syncExtra ≤ 10 ∧ (s.syncPhase = .extra → s.syncExtra < 10) ∧ (s.syncPhase = .flush → s.syncStatus = .success)

/-- The receive registers are in their ranges, whether or not a RECV is pending (R15). -/
def InRange (cap : Nat) (rx : Receiver) : Prop := rx.hdrIdx ≤ 8 ∧ rx.respBody.length = cap

/-- The units' registers are in their ranges (R13 to R17). -/
structure UnitsInv (s : State) : Prop where
  buffer : Memory.wf s.blk = true
  receiver : InRange s.cfg.respBodyCap s.rx
  sync : SyncRanges s
  attempts : s.blkAttempt ≤ 3

/-- They stay in their ranges where they stay. -/
theorem UnitsInv.same {s t : State} (h : UnitsInv s) (hblk : t.blk = s.blk := by rfl) (hcfg : t.cfg = s.cfg := by rfl)
    (hidx : t.rx.hdrIdx = s.rx.hdrIdx := by rfl) (hbody : t.rx.respBody = s.rx.respBody := by rfl)
    (hphase : t.syncPhase = s.syncPhase := by rfl) (hextra : t.syncExtra = s.syncExtra := by rfl)
    (hstatus : t.syncStatus = s.syncStatus := by rfl) (hatt : t.blkAttempt = s.blkAttempt := by rfl) : UnitsInv t :=
  ⟨hblk ▸ h.buffer, by simpa only [InRange, hcfg, hidx, hbody] using h.receiver,
    by simpa only [SyncRanges, hphase, hextra, hstatus] using h.sync, hatt ▸ h.attempts⟩

/-- What `orch_state` says of the session registers (R131, R133, R138, R139, R160). -/
structure SessionInv (o : OrchState) (r : Session) : Prop where
  image : inSession o = true → r.imageSize ≠ 0#32
  block : o = .uploading → r.blockIdx.toNat < nBlocks r.imageSize
  finished : o = .done → r.resultValid = true
  running : inSession o = true → r.resultValid = false
  empty : o = .idle → r.resultValid = true → r.result = .emptyFile
  codes : r.result ≠ .slipStateError

/-- No timestamp is of the future (log 29). -/
structure StampsPast (e : Env) : Prop where
  attempt : e.stamps.attempt ≤ e.now
  reset : e.stamps.reset ≤ e.now
  rx : e.stamps.rx ≤ e.now

/-- `last_attempt` and `last_reset` are the clock's readings when they were taken (R134, R135). -/
def Timed (s : State) : Prop :=
  s.session.lastAttempt = s.env.stamps.attempt % 2 ^ s.cfg.clkW ∧
    s.session.lastReset = s.env.stamps.reset % 2 ^ s.cfg.clkW

/-- The invariant but for a pending RECV and for tests that came too late. -/
structure BaseInv (s : State) : Prop where
  units : UnitsInv s
  session : SessionInv s.orch s.session
  past : StampsPast s.env
  timed : s.orch = .connecting ∨ s.orch = .erasing ∨ s.orch = .uploading → Timed s

/-- The state of the session in which a caller waits. -/
def Caller.In (c : Caller) (o : OrchState) : Prop :=
  match c with
  | .unit _ => True
  | .connecting => o = .connecting
  | .erasing => o = .erasing
  | .uploading => o = .uploading

/-- The operation a caller has called by itself. -/
def Caller.unitCall (c : Caller) : Option UnitOp :=
  match c with
  | .unit op => some op
  | _ => none

/-- Who waits, from the registers (R132; log 18). -/
theorem callerOf_eq_some_iff {s : State} {c : Caller} :
    callerOf s = some c ↔ s.unitCall = c.unitCall ∧ c.In s.orch ∧ (c.op = .sync → s.syncPhase ≠ .idle) := by
  unfold callerOf
  cases hu : s.unitCall with
  | some op =>
    cases c with
    | unit op' =>
      simp only [Caller.unitCall, Caller.In, Caller.op, true_and, Option.some.injEq]
      split
      · rename_i hs
        exact ⟨nofun, fun ⟨e, hp⟩ => absurd hs.2 (hp (e ▸ hs.1))⟩
      · rename_i hs
        simp only [Option.some.injEq, Caller.unit.injEq]
        exact ⟨fun e => ⟨e, fun h hp => hs ⟨e.trans h, hp⟩⟩, And.left⟩
    | connecting | erasing | uploading => simp [Caller.unitCall]
  | none => cases ho : s.orch <;> cases c <;> simp [Caller.unitCall, Caller.In, Caller.op]

/-- What a caller's pending RECV expects, how long it waits, and the block it is about (R112, R138, R171). -/
def Demands (c : Caller) (s : State) : Prop :=
  match c with
  | .unit _ => True
  | .connecting => SyncLimit tSync s
  | .erasing =>
    s.rx.expected = s.cfg.opcFlashBegin ∧ ∃ es, eraseSize s.cfg s.session.imageSize s.session.targetAddr = some es ∧
      s.rx.timeout = if es.toNat > 0 then s.cfg.tErase else s.cfg.tDefault
  | .uploading =>
    s.rx.expected = s.cfg.opcFlashData ∧ s.rx.timeout = s.cfg.tBlock ∧
      Memory.readBytes s.blk 4 4 = le32 s.session.blockIdx

/-- c waits for the pending RECV. -/
structure Awaited (c : Caller) (s : State) : Prop where
  caller : callerOf s = some c
  demands : Demands c s
  started : s.rx.start = s.env.stamps.rx % 2 ^ s.cfg.clkW

/-- The invariant but for tests that came too late: the base, and somebody waits for the pending RECV, whose registers
fit its state. -/
structure Settled (s : State) : Prop where
  base : BaseInv s
  pending : s.rx.active = true → receiverInv s.rx ∧ ∃ c, Awaited c s

theorem RegisterInv.settled {s : State} (h : RegisterInv s) : Settled s := by
  obtain ⟨-, hattempt, hreset, hrx⟩ := h.punctual
  refine ⟨⟨⟨h.buffer, ⟨h.headerCount, h.kept⟩, ⟨h.extraReads.1, h.extraReads.2, h.flushed⟩, h.attempts⟩,
    ⟨h.image, h.block, h.valid.1, h.valid.2, h.empty, h.codes⟩, ⟨hattempt, hreset, hrx⟩, h.timed⟩,
    fun ha => ⟨h.pending ha, ?_⟩⟩
  obtain ⟨c, hc⟩ := Option.ne_none_iff_exists'.1 (h.caller ha)
  obtain ⟨hu, ho, -⟩ := callerOf_eq_some_iff.1 hc
  refine ⟨c, hc, ?_, h.started ha⟩
  cases c with
  | unit op => trivial
  | connecting | erasing =>
    have hl := h.limit ha hu
    rw [show s.orch = _ from ho] at hl
    exact hl
  | uploading =>
    have hl := h.limit ha hu
    rw [show s.orch = .uploading from ho] at hl
    exact ⟨hl.1, hl.2, h.index ha hu ho⟩

/-- The state action that waits for the pending RECV, when no operation called by itself does. -/
theorem Settled.action {s : State} (h : Settled s) (ha : s.rx.active = true) (hu : s.unitCall = none) :
    ∃ c : Caller, c.unitCall = none ∧ c.In s.orch ∧ Demands c s := by
  obtain ⟨-, c, hc⟩ := h.pending ha
  obtain ⟨hcall, hin, -⟩ := callerOf_eq_some_iff.1 hc.caller
  exact ⟨c, hcall.symm.trans hu, hin, hc.demands⟩

theorem Settled.registerInv {s : State} (h : Settled s) (hover : s.env.overrun = false) : RegisterInv s := by
  have ⟨⟨hunits, hsession, hpast, htimed⟩, hp⟩ := h
  refine ⟨hunits.buffer, hunits.receiver.1, ⟨hunits.sync.1, hunits.sync.2.1⟩, hunits.attempts, fun ha => (hp ha).1,
    ?caller, ?index, ?limit, hsession.image, hsession.block, hunits.receiver.2,
    ⟨hover, hpast.attempt, hpast.reset, hpast.rx⟩, ?started, htimed, ⟨hsession.finished, hsession.running⟩,
    hsession.empty, hunits.sync.2.2, hsession.codes⟩
  case caller =>
    intro ha
    obtain ⟨-, c, hc⟩ := hp ha
    rw [hc.caller]
    exact Option.some_ne_none c
  case index =>
    intro ha hu ho
    obtain ⟨c, hc, hin, hd⟩ := h.action ha hu
    cases c with
    | unit op => cases hc
    | connecting | erasing => cases ho.symm.trans hin
    | uploading => exact hd.2.2
  case limit =>
    intro ha hu
    obtain ⟨c, hc, hin, hd⟩ := h.action ha hu
    cases c with
    | unit op => cases hc
    | connecting | erasing => rw [show s.orch = _ from hin]; exact hd
    | uploading => rw [show s.orch = _ from hin]; exact ⟨hd.1, hd.2.1⟩
  case started =>
    intro ha
    obtain ⟨-, c, hc⟩ := hp ha
    exact hc.started

/-- The invariant of the registers in its parts. -/
theorem registerInv_iff {s : State} : RegisterInv s ↔ Settled s ∧ s.env.overrun = false :=
  ⟨fun h => ⟨h.settled, h.punctual.1⟩, fun h => h.1.registerInv h.2⟩

/-! ### Time goes on -/

theorem EnvGrows.later {e f : Env} (h : EnvGrows e f) : e.now ≤ f.now := by
  obtain ⟨-, -, k, -, h⟩ := h
  omega

theorem StampsPast.later {e f : Env} (h : StampsPast e) (hs : f.stamps = e.stamps) (hn : e.now ≤ f.now) :
    StampsPast f := by
  obtain ⟨h1, h2, h3⟩ := h
  constructor <;> rw [hs] <;> omega

/-! ### One poll -/

theorem storeHeaderByte_inRange {cap : Nat} {rx : Receiver} (h : InRange cap rx) (hi : rx.hdrIdx < 8) (c : Byte) :
    InRange cap (storeHeaderByte c rx) := by
  simp only [storeHeaderByte]
  split <;> exact ⟨hi, h.2⟩

theorem storeBodyByte_inRange {cap : Nat} {rx : Receiver} (h : InRange cap rx) (c : Byte) :
    InRange cap (storeBodyByte cap c rx) := by
  obtain ⟨hi, rfl⟩ := h
  refine ⟨hi, ?_⟩
  simp only [storeBodyByte]
  split
  · rename_i hlt
    exact (storeAt_spec hlt.le c).2.2.1 hlt
  · rfl

theorem pollStart_inRange {cap : Nat} {s : State} (h : InRange cap s.rx) : InRange cap (pollStart s).state.rx := by
  simp only [pollStart]
  split
  · exact h
  · dsimp only [Poll.state]
    split <;> exact h

theorem pollDecoded_inRange {cap : Nat} {store : Byte → Receiver → Receiver} {s : State} (h : InRange cap s.rx)
    (hs : ∀ c b, InRange cap (store c { s.rx with escPending := b })) : InRange cap (pollDecoded store s).state.rx := by
  have hrx := slipDecode_rx s
  have kept : InRange cap (slipDecode s).2.rx := by rw [hrx]; exact h
  simp only [pollDecoded]
  split
  case h_5 c _ => simp only [Poll.state]; rw [hrx]; exact hs c _
  all_goals exact kept

theorem pollEnd_inRange {cap : Nat} {s : State} (h : InRange cap s.rx) : InRange cap (pollEnd s).state.rx := by
  simp only [pollEnd]
  split
  · exact h
  · split <;> exact h

/-- A poll keeps the receive registers in their ranges (R15, R84). -/
theorem poll_inRange {s : State} (h : InRange s.cfg.respBodyCap s.rx) (hm : receiverInv s.rx) :
    InRange s.cfg.respBodyCap (poll s).state.rx := by
  simp only [poll]
  split
  · exact h
  · split
    · exact pollStart_inRange h
    · rename_i hst
      simp only [receiverInv, show s.rx.state = _ from hst] at hm
      exact pollDecoded_inRange h fun c b =>
        storeHeaderByte_inRange (rx := { s.rx with escPending := b }) h hm.1 c
    · exact pollDecoded_inRange h fun c b =>
        storeBodyByte_inRange (rx := { s.rx with escPending := b }) h c
    · exact pollEnd_inRange h
    · exact h

theorem UnitsInv.receives {s t : State} (h : UnitsInv s) (r : Receives s t) (hr : InRange s.cfg.respBodyCap t.rx) :
    UnitsInv t := by
  obtain ⟨h1, -, -, h4, h5, h6, h7, h8, -⟩ := r.regs.fields
  exact ⟨h8 ▸ h.buffer, h1 ▸ hr, by simpa only [SyncRanges, h4, h5, h6] using h.sync, h7 ▸ h.attempts⟩

/-- A poll keeps the base of the invariant, whatever it comes to. -/
theorem BaseInv.poll {s : State} {p : Poll} (h : BaseInv s) (hm : receiverInv s.rx) (hp : poll s = p) :
    BaseInv p.state := by
  subst hp
  have r := poll_receives s
  obtain ⟨bs, hx, -⟩ := poll_exchanged s
  obtain ⟨h1, h2, h3, -⟩ := r.regs.fields
  refine ⟨h.units.receives r (poll_inRange h.units.receiver hm), ?_, h.past.later r.stamps hx.later, ?_⟩
  · rw [h2, h3]; exact h.session
  · simpa only [Timed, h1, h2, h3, r.stamps] using h.timed

/-- A poll does not change what is awaited, nor by whom. -/
theorem Awaited.receives {c : Caller} {s t : State} (h : Awaited c s) (r : Receives s t) : Awaited c t := by
  obtain ⟨h1, h2, h3, h4, -, -, -, h8, -, -, -, h12⟩ := r.regs.fields
  refine ⟨?_, ?_, by rw [r.call.start, r.stamps, h1]; exact h.started⟩
  · simpa only [callerOf_eq_some_iff, h3, h4, h12] using h.caller
  · have hd := h.demands
    cases c with
    | unit op => trivial
    | connecting | erasing | uploading =>
      simpa only [Demands, SyncLimit, h1, h2, h4, h8, r.call.expected, r.call.timeout] using hd

/-! ### Histories -/

/-- The histories grow, the future is consumed, the configuration and the port stay (R10, R20, R31). -/
structure OnlyGrows (s t : State) : Prop where
  env : EnvGrows s.env t.env
  cfg : t.cfg = s.cfg
  port : t.port = s.port

theorem OnlyGrows.refl (s : State) : OnlyGrows s s := ⟨.refl _, rfl, rfl⟩

theorem OnlyGrows.trans {s t u : State} (h : OnlyGrows s t) (h' : OnlyGrows t u) : OnlyGrows s u :=
  ⟨h.env.trans h'.env, h'.cfg.trans h.cfg, h'.port.trans h.port⟩

/-- An exchange of bytes by an operation under way. -/
theorem Kept.onlyGrows {s t : State} {a b : Bytes} (h : Kept s t) (he : Exchanged a b s.env t.env) : OnlyGrows s t :=
  ⟨.ex he, h.f.cfg, h.f.port⟩

theorem deliver_onlyGrows (c : Caller) (st : ResultCode) (s : State) : OnlyGrows s (deliver c st s) := by
  have h := went_deliver c st s
  exact ⟨h.grows, h.cfg, h.port⟩

/-- The whole of a poll loop, whatever the environment does. -/
theorem await_onlyGrows (c : Caller) (s : State) : OnlyGrows s (await c s) := by
  apply await_any c s (OnlyGrows s)
  · intro x n read hk he _ _
    obtain ⟨h1, h2, h3⟩ := hk.onlyGrows he
    exact ⟨h1, h2, h3⟩
  · intro x n read st hk he _ _ _
    exact (hk.onlyGrows he).trans (deliver_onlyGrows c st x)

/-! ### How an operation comes to its RECV -/

/-- u is s on the way to a RECV: of the registers at most those of the units have changed, within their ranges, and no
timestamp has been taken. -/
structure Prepared (s u : State) : Prop where
  grows : OnlyGrows s u
  session : u.session = s.session
  orch : u.orch = s.orch
  unitCall : u.unitCall = s.unitCall
  stamps : u.env.stamps = s.env.stamps
  units : UnitsInv s → UnitsInv u

theorem Prepared.trans {s t u : State} (h : Prepared s t) (h' : Prepared t u) : Prepared s u :=
  ⟨h.grows.trans h'.grows, h'.session.trans h.session, h'.orch.trans h.orch, h'.unitCall.trans h.unitCall,
    h'.stamps.trans h.stamps, h'.units ∘ h.units⟩

/-- The registers of the units alone have changed. -/
theorem Prepared.ofUnits {s u : State} (h : UnitsInv s → UnitsInv u) (hc : u.cfg = s.cfg := by rfl)
    (hp : u.port = s.port := by rfl) (he : u.env = s.env := by rfl) (hs : u.session = s.session := by rfl)
    (ho : u.orch = s.orch := by rfl) (hu : u.unitCall = s.unitCall := by rfl) : Prepared s u :=
  ⟨⟨he ▸ .refl _, hc, hp⟩, hs, ho, hu, by rw [he], h⟩

theorem Prepared.base {s u : State} (h : Prepared s u) (hb : BaseInv s) : BaseInv u := by
  refine ⟨h.units hb.units, ?_, hb.past.later h.stamps h.grows.env.later, ?_⟩
  · rw [h.orch, h.session]
    exact hb.session
  · simpa only [Timed, h.orch, h.session, h.stamps, h.grows.cfg] using hb.timed

/-- SEND changes the environment alone (R83). -/
theorem sendFrame_prepared (op : Byte) (p : Bytes) (chk : U32) (s : State) : Prepared s (sendFrame op p chk s) := by
  obtain ⟨h0, h1, h2, h3, h4, h5, h6, h7, h8, -, h10, -, h12⟩ := (sendFrame_env op p chk s).fields
  exact ⟨⟨.ex (sendFrame_exchanged op p chk s), h1, h10⟩, h2, h3, h12, (sendFrame_stamps op p chk s).1,
    fun h => h.same h8 h1 (by rw [h0]) (by rw [h0]) h4 h5 h6 h7⟩

/-- x is s when the operation op has come to the first poll of a RECV (R84). -/
structure Opens (op : UnitOp) (s x : State) : Prop where
  grows : OnlyGrows s x
  session : x.session = s.session
  orch : x.orch = s.orch
  unitCall : x.unitCall = s.unitCall
  stamps : x.env.stamps = { s.env.stamps with rx := x.env.now }
  start : x.rx.start = x.env.now % 2 ^ x.cfg.clkW
  machine : receiverInv x.rx
  phase : op = .sync → x.syncPhase ≠ .idle
  units : UnitsInv s → UnitsInv x

/-- Every operation comes there by RECV's beginning. -/
theorem Prepared.opens {op : UnitOp} {s u : State} (h : Prepared s u) (o : Byte) (T : U32)
    (hp : op = .sync → u.syncPhase ≠ .idle) : Opens op s (beginRecv o T u) := by
  refine ⟨h.grows.trans ⟨.ex (beginRecv_exchanged o T u), rfl, rfl⟩, h.session, h.orch, h.unitCall, ?_, rfl,
    ⟨rfl, rfl, rfl⟩, hp, fun hu => ?_⟩
  · rw [(beginRecv_starts o T u).stamps, h.stamps]
  · obtain ⟨h1, h2, h3, h4⟩ := h.units hu
    exact ⟨h1, ⟨Nat.zero_le 8, h2.2⟩, h3, h4⟩

/-- CMD's way: the request, then the RECV (R86). -/
theorem Prepared.opensCmd {op : UnitOp} {s u : State} (h : Prepared s u) (o : Byte) (p : Bytes) (chk T : U32)
    (hp : op = .sync → u.syncPhase ≠ .idle) : Opens op s (beginCmd o p chk T u) :=
  (h.trans (sendFrame_prepared o p chk u)).opens o T fun ho => by
    rw [(sendFrame_env o p chk u).fields.2.2.2.2.1]
    exact hp ho

theorem Opens.base {op : UnitOp} {s x : State} (h : Opens op s x) (hb : BaseInv s) : BaseInv x := by
  have hnow := h.grows.env.later
  obtain ⟨h1, h2, -⟩ := hb.past
  refine ⟨h.units hb.units, ?_, ?_, ?_⟩
  · rw [h.orch, h.session]
    exact hb.session
  · constructor <;> rw [h.stamps]
    · exact h1.trans hnow
    · exact h2.trans hnow
  · simpa only [Timed, h.orch, h.session, h.stamps, h.grows.cfg] using hb.timed

/-- The RECV an operation has come to is awaited by its caller. -/
theorem Opens.awaited {c : Caller} {s x : State} (h : Opens c.op s x) (hu : s.unitCall = c.unitCall) (ho : c.In s.orch)
    (hd : Demands c x) : Awaited c x :=
  ⟨callerOf_eq_some_iff.2 ⟨h.unitCall.trans hu, h.orch ▸ ho, h.phase⟩, hd, by rw [h.start, h.stamps]⟩

/-! ### How it goes on when that RECV has returned -/

/-- R101, R102: another extra read, or the flush, or the end. -/
theorem syncDecide_cases (st : ResultCode) (s : State) :
    (s.syncExtra < 10 ∧ syncDecide st s = .again (beginRecv s.cfg.opcSync s.rx.timeout s)) ∨
    (syncDecide st s =
      .again (beginRecv s.cfg.opcSync s.cfg.tDefault { s with syncStatus := .success, syncPhase := .flush })) ∨
    syncDecide st s = .finished st { s with syncPhase := .idle } := by
  unfold syncDecide
  split
  · rename_i hx
    simp only [extraReadDue, syncExtraReads, Bool.and_eq_true] at hx
    exact .inl ⟨of_decide_eq_true hx.1, rfl⟩
  · split
    · rename_i hst
      exact .inr (.inl (by rw [hst]))
    · exact .inr (.inr rfl)

/-- R101, R102: the RECV SYNC goes on to, when it has counted to n. -/
theorem syncDecide_opens {st : ResultCode} {s t : State} {n : Nat} (hn : SyncRanges s → n ≤ 10)
    (h : syncDecide st { s with syncExtra := n, syncPhase := .extra } = .again t) : Opens .sync s t := by
  obtain ⟨hlt, e⟩ | e | e := syncDecide_cases st { s with syncExtra := n, syncPhase := .extra } <;> rw [e] at h <;> cases h
  · exact Prepared.opens (s := s) (u := { s with syncExtra := n, syncPhase := .extra })
      (.ofUnits fun hu => ⟨hu.buffer, hu.receiver, ⟨hn hu.sync, fun _ => hlt, nofun⟩, hu.attempts⟩) _ _ nofun
  · exact Prepared.opens (s := s) (u := { s with syncExtra := n, syncPhase := .flush, syncStatus := .success })
      (.ofUnits fun hu => ⟨hu.buffer, hu.receiver, ⟨hn hu.sync, nofun, fun _ => rfl⟩, hu.attempts⟩) _ _ nofun

/-- R100 to R102: every RECV SYNC goes on to. -/
theorem syncContinue_opens {st : ResultCode} {s t : State} (h : syncContinue st s = .again t) : Opens .sync s t := by
  cases hp : s.syncPhase with
  | idle =>
    simp only [syncContinue, hp] at h
    cases h
  | first =>
    simp only [syncContinue, hp] at h
    exact syncDecide_opens (fun _ => Nat.zero_le 10) h
  | extra =>
    simp only [syncContinue, hp] at h
    exact syncDecide_opens (fun hr => hr.2.1 hp) h
  | flush =>
    simp only [syncContinue, hp] at h
    split at h
    · cases h
      exact Prepared.opens (.ofUnits id) _ _ fun _ => by rw [hp]; nofun
    · cases h

/-- R112, R114: another attempt of FDATA, when fewer than three have been made. -/
theorem fdataAttempt_opens {s : State} (h : s.blkAttempt < 3) : Opens .fdata s (fdataAttempt s) :=
  Prepared.opensCmd (op := .fdata) (s := s) (u := { s with blkAttempt := s.blkAttempt + 1 })
    (.ofUnits fun hu => ⟨hu.buffer, hu.receiver, hu.sync, h⟩) _ _ _ _ nofun

/-- R114. -/
theorem fdataContinue_cases (st : ResultCode) (s : State) :
    (s.blkAttempt < 3 ∧ fdataContinue st s = .again (fdataAttempt s)) ∨
      fdataContinue st s = .finished (replyStatus st s.rx.bodyLen) s := by
  unfold fdataContinue
  dsimp only
  split
  · rename_i h
    simp only [retryDue, blockAttempts, Bool.and_eq_true] at h
    exact .inl ⟨of_decide_eq_true h.2, rfl⟩
  · exact .inr rfl

/-- How an operation goes on to another RECV (R163). -/
theorem opContinue_opens {op : UnitOp} {st : ResultCode} {s t : State} (h : opContinue op st s = .again t) :
    Opens op s t := by
  cases op with
  | recv | cmd | fbegin | fend => cases h
  | sync => exact syncContinue_opens h
  | fdata =>
    change fdataContinue st s = .again t at h
    obtain ⟨hlt, e⟩ | e := fdataContinue_cases st s <;> rw [e] at h <;> cases h
    exact fdataAttempt_opens hlt

/-- CMD never turns a code into SlipStateError (R86). -/
theorem replyStatus_ne {st : ResultCode} (h : st ∈ recvCodes) (n : U16) : replyStatus st n ≠ .slipStateError := by
  intro e
  exact absurd (e ▸ reply_codes h n) (by decide)

/-- An operation that returns keeps the units' registers in their ranges, and its code is not SlipStateError (R160,
R161). -/
theorem opContinue_finished {op : UnitOp} {st st' : ResultCode} {s t : State} (hu : UnitsInv s)
    (hst : st ∈ recvCodes) (hp : op = .sync → s.syncPhase ≠ .idle) (h : opContinue op st s = .finished st' t) :
    UnitsInv t ∧ st' ≠ .slipStateError := by
  cases op with
  | recv =>
    cases h
    exact ⟨hu, fun e => absurd (e ▸ hst) (by decide)⟩
  | cmd | fbegin | fend =>
    cases h
    exact ⟨hu, replyStatus_ne hst _⟩
  | sync =>
    obtain ⟨hk, -, hrx, hph, hx, hc⟩ :=
      (syncContinue_spec hst ⟨hp rfl, fun _ => ⟨hu.sync.1, hu.sync.2.1⟩, hu.sync.2.2⟩).2 st' t h
    obtain ⟨hcfg, -, -, hatt, hblk, -⟩ := hk.fields
    refine ⟨⟨hblk ▸ hu.buffer, hcfg ▸ hrx ▸ hu.receiver, ⟨hx, ?_, ?_⟩, hatt ▸ hu.attempts⟩,
      fun e => absurd (e ▸ hc) (by decide)⟩ <;> rw [hph] <;> exact nofun
  | fdata =>
    change fdataContinue st s = .finished st' t at h
    obtain ⟨-, e⟩ | e := fdataContinue_cases st s <;> rw [e] at h <;> cases h
    exact ⟨hu, replyStatus_ne hst _⟩

/-- What is awaited after another RECV has begun (R100, R112, R171). -/
theorem Demands.again {c : Caller} {st : ResultCode} {s t : State} (hd : Demands c s)
    (h : opContinue c.op st s = .again t) : Demands c t := by
  have hk := ((opContinue_any c.op st s).1 t h).1.f
  cases c with
  | unit op => trivial
  | connecting => exact syncContinue_limit hd h
  | erasing => cases h
  | uploading =>
    change fdataContinue st s = .again t at h
    obtain ⟨-, e⟩ | e := fdataContinue_cases st s <;> rw [e] at h <;> cases h
    exact ⟨hk.cfg ▸ rfl, hk.cfg ▸ rfl, hk.blk ▸ hk.session ▸ hd.2.2⟩

/-! ### The tails of the state actions -/

/-- Finish leaves a session that is over (R139, R165). -/
theorem finishDone_settled {r : ResultCode} {s : State} (hu : UnitsInv s) (hp : StampsPast s.env)
    (hr : r ≠ .slipStateError) : Settled (finishDone r s) := by
  refine ⟨⟨⟨hu.buffer, hu.receiver, ⟨hu.sync.1, nofun, nofun⟩, hu.attempts⟩,
    ⟨nofun, nofun, fun _ => rfl, nofun, nofun, hr⟩, hp.later rfl (finish_grow r s).later, nofun⟩, nofun⟩

/-- A state in which no RECV is pending. -/
theorem BaseInv.settled {s : State} (h : BaseInv s) (ha : s.rx.active = false) : Settled s :=
  ⟨h, fun h' => by rw [ha] at h'; cases h'⟩

/-- Within a session, outside `uploading`, the invariant of the session registers speaks of the image size and the result
alone. -/
theorem SessionInv.moves {o o' : OrchState} {r r' : Session} (h : SessionInv o r) (ho : inSession o = true)
    (ho' : inSession o' = true) (hup : o' ≠ .uploading) (hs : r'.imageSize = r.imageSize) (hr : r'.result = r.result)
    (hv : r'.resultValid = r.resultValid) : SessionInv o' r' := by
  refine ⟨fun _ => hs ▸ h.image ho, fun e => absurd e hup, ?_, fun _ => hv ▸ h.running ho, ?_, hr ▸ h.codes⟩ <;>
    rintro rfl <;> cases ho'

/-- `last_attempt` taken anew (R135, R138). -/
theorem StampsPast.attempted {e : Env} (h : StampsPast e) (w : Nat) : StampsPast (e.readClock w).2.markAttempt := by
  obtain ⟨-, h2, h3⟩ := h
  have hn := (grow_clock w e).later
  exact ⟨Nat.le_refl _, h2.trans hn, h3.trans hn⟩

/-- R135: `connecting` after SYNC. -/
theorem connectingTail_settled {st : ResultCode} {s : State} (h : BaseInv s) (ho : s.orch = .connecting)
    (ha : s.rx.active = false) : Settled (connectingTail st s) := by
  have hin : inSession s.orch = true := by rw [ho]; rfl
  have hpast := h.past.attempted s.cfg.clkW
  have htimed := h.timed (.inl ho)
  simp only [connectingTail]
  split
  · exact BaseInv.settled ⟨h.units.same, h.session.moves hin rfl nofun rfl rfl rfl, hpast, fun _ => ⟨rfl, htimed.2⟩⟩ ha
  · split
    · exact BaseInv.settled ⟨h.units.same, h.session.moves hin rfl nofun rfl rfl rfl, hpast, fun _ => ⟨rfl, htimed.2⟩⟩ ha
    · exact BaseInv.settled ⟨h.units.same, h.session.moves hin hin (ho ▸ nofun) rfl rfl rfl, hpast,
        fun _ => ⟨rfl, htimed.2⟩⟩ ha

/-- An image that is not empty has a first block (R117). -/
theorem nBlocks_pos {n : U32} (h : n ≠ 0#32) : 0 < nBlocks n := by
  have : n.toNat ≠ 0 := fun e => h (BitVec.eq_of_toNat_eq e)
  simp only [nBlocks, ceilDiv, blockSize]
  omega

/-- R136: `erasing` after FBEGIN. -/
theorem erasingTail_settled {st : ResultCode} {s : State} (h : BaseInv s) (ho : s.orch = .erasing)
    (ha : s.rx.active = false) (hst : st ≠ .slipStateError) : Settled (erasingTail st s) := by
  have hin : inSession s.orch = true := by rw [ho]; rfl
  simp only [erasingTail]
  split
  · exact finishDone_settled h.units.same h.past hst
  · exact BaseInv.settled ⟨h.units.same, ⟨fun _ => h.session.image hin, fun _ => nBlocks_pos (h.session.image hin), nofun,
      fun _ => h.session.running hin, nofun, hst⟩, h.past, fun _ => h.timed (.inr (.inl ho))⟩ ha

/-- R138: what `uploading` does after a block, the report made or not. -/
theorem blockDone_eq (s : State) : ∃ (e : Env) (n : U32), EnvGrows s.env e ∧ e.stamps = s.env.stamps ∧
    blockDone s =
      let idx := s.session.blockIdx + 1#32
      let s2 := { s with env := e, session := { s.session with blockIdx := idx, nextReport := n } }
      if idx.toNat = nBlocks s.session.imageSize then finishDone .success s2
      else s2.answer (.inProgress (percentOf idx s.session.imageSize)) := by
  simp only [blockDone]
  split
  · exact ⟨_, _, grow_progress _ _, rfl, rfl⟩
  · exact ⟨_, _, .refl _, rfl, rfl⟩

/-- The index does not wrap (R117, R138). -/
theorem nextBlock_lt {idx n : U32} (h : idx.toNat < nBlocks n) (hne : (idx + 1#32).toNat ≠ nBlocks n) :
    (idx + 1#32).toNat < nBlocks n := by
  have := n.isLt
  simp only [nBlocks, ceilDiv, blockSize] at *
  bv_omega

/-- R138: `uploading` after a block has succeeded. -/
theorem blockDone_settled {s : State} (h : BaseInv s) (ho : s.orch = .uploading) (ha : s.rx.active = false) :
    Settled (blockDone s) := by
  have hin : inSession s.orch = true := by rw [ho]; rfl
  obtain ⟨e, n, hg, hs, heq⟩ := blockDone_eq s
  have hpast := h.past.later hs hg.later
  rw [heq]
  dsimp only
  split
  · exact finishDone_settled h.units.same hpast nofun
  · rename_i hne
    refine BaseInv.settled ⟨h.units.same, ⟨fun _ => h.session.image hin, fun _ => nextBlock_lt (h.session.block ho) hne,
      h.session.finished, h.session.running, h.session.empty, h.session.codes⟩, hpast, fun hor => ?_⟩ ha
    have := h.timed hor
    simp only [Timed] at this ⊢
    exact hs ▸ this

/-- R138: `uploading` after FDATA. -/
theorem uploadingTail_settled {st : ResultCode} {s : State} (h : BaseInv s) (ho : s.orch = .uploading)
    (ha : s.rx.active = false) (hst : st ≠ .slipStateError) : Settled (uploadingTail st s) := by
  have hin : inSession s.orch = true := by rw [ho]; rfl
  have hpast := h.past.attempted s.cfg.clkW
  simp only [uploadingTail]
  split
  · exact finishDone_settled h.units.same hpast hst
  · refine blockDone_settled ⟨h.units.same, ⟨h.session.image, h.session.block, h.session.finished, h.session.running, ?_, hst⟩,
      hpast, fun _ => ⟨rfl, (h.timed (.inr (.inr ho))).2⟩⟩ ho ha
    intro e
    cases ho.symm.trans e

/-- Whoever called the operation, the invariant holds when its code has been delivered. -/
theorem deliver_settled {c : Caller} {st : ResultCode} {s : State} (h : BaseInv s) (ho : c.In s.orch)
    (ha : s.rx.active = false) (hst : st ≠ .slipStateError) : Settled (deliver c st s) := by
  cases c with
  | unit op => exact BaseInv.settled ⟨h.units.same, h.session, h.past, h.timed⟩ ha
  | connecting => exact connectingTail_settled h ho ha
  | erasing => exact erasingTail_settled h ho ha hst
  | uploading => exact uploadingTail_settled h ho ha hst

/-! ### The poll loop -/

/-- The poll loop keeps the invariant, from the first poll of a RECV or from where it was suspended (R132). -/
theorem await_settled {c : Caller} {s : State} (hb : BaseInv s) (hm : receiverInv s.rx) (ha : Awaited c s) :
    Settled (await c s) := by
  apply await_induct c (P := fun x => BaseInv x ∧ receiverInv x.rx ∧ Awaited c x) (Q := Settled) (h := ⟨hb, hm, ha⟩)
  · rintro x y ⟨hb, hm, ha⟩ hp
    obtain ⟨hunits, hsession, hpast, htimed⟩ : BaseInv y := hb.poll hm hp
    obtain ⟨h1, h2, h3⟩ := ha.receives (poll_wait hp)
    exact ⟨⟨hunits.same, hsession, hpast, htimed⟩, fun _ => ⟨((poll_inv x hm).1 y hp).1, c, h1, h2, h3⟩⟩
  · rintro x y ⟨hb, hm, ha⟩ hp
    exact ⟨hb.poll hm hp, ((poll_inv x hm).2.1 y hp).1, ha.receives (poll_again hp)⟩
  · rintro x y z st ⟨hb, hm, ha⟩ hp ho
    have hy : BaseInv y := hb.poll hm hp
    have ha' := ha.receives (poll_ended hp)
    obtain ⟨hu, hin, -⟩ := callerOf_eq_some_iff.1 ha'.caller
    have opens := opContinue_opens ho
    exact ⟨opens.base hy, opens.machine, opens.awaited hu hin (ha'.demands.again ho)⟩
  · rintro x y z st st' ⟨hb, hm, ha⟩ hp ho
    have hy : BaseInv y := hb.poll hm hp
    obtain ⟨hst, hoff⟩ := (poll_inv x hm).2.2 st y hp
    obtain ⟨-, hin, hph⟩ := callerOf_eq_some_iff.1 (ha.receives (poll_ended hp)).caller
    obtain ⟨hk, he, hrx, -⟩ := (opContinue_any c.op st y).2 st' z ho
    obtain ⟨hunits, hcode⟩ := opContinue_finished hy.units hst hph ho
    have hz : BaseInv z := by
      refine ⟨hunits, ?_, he ▸ hy.past, ?_⟩
      · rw [hk.f.orch, hk.f.session]
        exact hy.session
      · simpa only [Timed, hk.f.orch, hk.f.session, he, hk.f.cfg] using hy.timed
    exact deliver_settled hz (hk.f.orch ▸ hin) (hrx ▸ hoff) hcode

/-! ### The operations' beginnings -/

theorem Prepared.refl (s : State) : Prepared s s := .ofUnits id

theorem Prepared.andOpens {op : UnitOp} {s u x : State} (h : Prepared s u) (h' : Opens op u x) : Opens op s x :=
  ⟨h.grows.trans h'.grows, h'.session.trans h.session, h'.orch.trans h.orch, h'.unitCall.trans h.unitCall,
    h.stamps ▸ h'.stamps, h'.start, h'.machine, h'.phase, h'.units ∘ h.units⟩

/-- SYNC up to its first poll (R100). -/
theorem beginSync_opens (T : U32) (s : State) : Opens .sync s (beginSync T s) :=
  Prepared.opensCmd (s := s) (u := { s with syncPhase := .first })
    (.ofUnits fun hu => ⟨hu.buffer, hu.receiver, ⟨hu.sync.1, nofun, nofun⟩, hu.attempts⟩) _ _ _ _ nofun

/-- What FDATA prepares (R112). -/
theorem prepareBlock_prepared (idx : U32) (val mask : U16) (s : State) : Prepared s (prepareBlock idx val mask s) :=
  .ofUnits fun hu => ⟨(prepare_spec idx val mask s hu.buffer _ rfl).1, hu.receiver, hu.sync, Nat.zero_le 3⟩

/-- FDATA up to its first poll (R112). -/
theorem beginFdata_opens (idx : U32) (val mask : U16) (s : State) : Opens .fdata s (beginFdata idx val mask s) :=
  (prepareBlock_prepared idx val mask s).andOpens (fdataAttempt_opens (Nat.zero_lt_succ 2))

/-- The block prepared carries its index (R59, R112). -/
theorem readBytes_prepareBlock (idx : U32) (val mask : U16) {s : State} (h : Memory.wf s.blk = true) :
    Memory.readBytes (prepareBlock idx val mask s).blk 4 4 = le32 idx := by
  obtain ⟨hwf, -, -, hread, -⟩ := prepare_spec idx val mask s h _ rfl
  apply ext_byteAt
  · rw [Memory.length_readBytes]; rfl
  · intro i hi
    rw [Memory.length_readBytes] at hi
    rw [Memory.byteAt_readBytes hwf 4 4 i hi, hread, if_pos (by omega)]
    simp [flashDataBodyHeader, byteAt, List.getElem?_append, hi]

/-- `connecting`'s SYNC (R135, R171). -/
theorem beginSync_demands (s : State) : Demands .connecting (beginSync tSync s) := by
  obtain ⟨hs, -, -, -, -, hp, -, he, ht⟩ := beginSync_facts tSync s
  exact ⟨by rw [he, hs.fields.1], by rw [ht, hp]; rfl⟩

/-- `erasing`'s FBEGIN (R110, R136, R171). -/
theorem beginFbegin_demands {s : State} {es : U32} (addr : U32)
    (h : eraseSize s.cfg s.session.imageSize s.session.targetAddr = some es) :
    Demands .erasing (beginFbegin addr es s) := by
  obtain ⟨hc, hs, -⟩ :=
    (beginCmd_regs s.cfg.opcFlashBegin (flashBeginBody addr es) 0#32 (eraseTimeout s.cfg es) s).fields
  refine ⟨(congrArg Config.opcFlashBegin hc).symm, es, ?_, ?_⟩
  · exact hc ▸ hs ▸ h
  · have pos : es.toNat > 0 ↔ es ≠ 0#32 := by bv_omega
    have limit : (beginFbegin addr es s).rx.timeout = eraseTimeout s.cfg es := rfl
    have cfg : (beginFbegin addr es s).cfg = s.cfg := hc
    rw [limit, cfg, eraseTimeout]
    simp only [pos, ite_not]

/-- `uploading`'s FDATA (R112, R138, R171). -/
theorem beginFdata_demands (val mask : U16) {s : State} (h : Memory.wf s.blk = true) :
    Demands .uploading (beginFdata s.session.blockIdx val mask s) := by
  obtain ⟨hb, -, -, -, -, -, he, ht, -⟩ := beginFdata_facts s.session.blockIdx val mask s h
  obtain ⟨hc, hs, -⟩ := beginFdata_fields s.session.blockIdx val mask s
  exact ⟨by rw [he, hc], by rw [ht, hc], by rw [hb, hs, readBytes_prepareBlock _ _ _ h]⟩

/-! ### What one STEP can do -/

/-- One STEP: the pending RECV is resumed, or the result of a session that is over is returned, or the action of
`orch_state` runs: a reset, an interval that has not passed, an image that cannot be read, or an operation (R132). -/
inductive Stepped (s t : State) : Prop where
  | resumes (c : Caller) (active : s.rx.active = true) (caller : callerOf s = some c) (run : t = await c s)
  | answers (run : t = s.answer (.done s.session.result))
  | resets (idle : s.rx.active = false) (orch : s.orch = .resetting) (run : t = stepResetting s)
  | holds (u : State) (way : Prepared { s with unitCall := none } u) (idle : u.rx.active = false)
      (run : t = u.inProgress)
  | fails (u : State) (way : Prepared { s with unitCall := none } u) (run : t = finishDone .fileReadError u)
  | begins (c : Caller) (x : State) (home : c.In s.orch) (action : c.unitCall = none)
      (way : Opens c.op { s with unitCall := none } x) (demands : UnitsInv s → Demands c x) (run : t = await c x)

/-- `ImgRead`. -/
theorem grow_imgRead (off n : Nat) (e : Env) : EnvGrows e (e.imgRead off n).2 := .one ⟨[], by simp⟩ ⟨[_], rfl⟩ rfl rfl

/-- `Reopen`. -/
theorem grow_reopen (baud : Nat) (e : Env) : EnvGrows e (e.reopen baud) := .one ⟨[], by simp⟩ ⟨[_], rfl⟩ rfl rfl

/-- `GpioEnter`. -/
theorem grow_enter (e : Env) : EnvGrows e e.gpioEnter := .one ⟨[], by simp⟩ ⟨[_], rfl⟩ rfl rfl

/-- The fetched bytes keep the buffer's form (R138). -/
theorem fillBlock_wf {got : Bytes} (hg : got.length ≤ blockSize) {m : Memory} (h : Memory.wf m = true) :
    Memory.wf (fillBlock got m) = true := by
  refine Memory.wf_writeBytes h ?_
  rw [List.length_append, List.length_replicate, Nat.add_sub_cancel' hg]
  decide

/-- Outside `uploading` no share is told (R19). -/
theorem percent_eq_zero {s : State} (h : s.orch ≠ .uploading) : percent s = 0 := if_neg h

/-- R135. -/
theorem stepConnecting_stepped {s : State} (ha : s.rx.active = false) (ho : s.orch = .connecting) :
    Stepped s (stepConnecting s) := by
  have way : Prepared { s with unitCall := none } { s with
      env := ((s.env.readClock s.cfg.clkW).2.tested s.cfg.clkW s.env.stamps.attempt).tested s.cfg.clkW s.env.stamps.reset
      unitCall := none } :=
    ⟨⟨.ex ((Exchanged.readClock s.cfg.clkW s.env).same _ _), rfl, rfl⟩, rfl, rfl, rfl, rfl, fun h => h.same⟩
  unfold stepConnecting
  dsimp only
  split
  · exact .begins .connecting _ ho rfl (way.andOpens (beginSync_opens _ _)) (fun _ => beginSync_demands _) rfl
  · refine .holds _ way ha (congrArg (State.answer _ ∘ Ret.inProgress) (percent_eq_zero ?_).symm)
    exact ho ▸ nofun

/-- R138: the interval has not passed, or the image gives another number of bytes, or the block's FDATA begins. -/
theorem stepUploading_cases (s : State) : ∃ e : Env, EnvGrows s.env e ∧ e.stamps = s.env.stamps ∧
    (stepUploading s = { s with env := e, unitCall := none }.inProgress ∨
      stepUploading s = finishDone .fileReadError { s with env := e, unitCall := none } ∨
      ∃ got : Bytes, got.length ≤ blockSize ∧ stepUploading s = await .uploading
        (beginFdata s.session.blockIdx s.cfg.parmVal s.cfg.parmMask
          { s with env := e, unitCall := none, blk := fillBlock got s.blk })) := by
  have tested : EnvGrows s.env ((s.env.readClock s.cfg.clkW).2.tested s.cfg.clkW s.env.stamps.attempt) :=
    .ex ((Exchanged.readClock s.cfg.clkW s.env).same _ _)
  have read := tested.trans (grow_imgRead (s.session.blockIdx.toNat * blockSize) blockSize _)
  unfold stepUploading
  dsimp only
  split
  · split
    · exact ⟨_, read, rfl, .inr (.inl rfl)⟩
    · exact ⟨_, read, rfl, .inr (.inr ⟨_, List.length_take_le _ _, rfl⟩)⟩
  · exact ⟨_, tested, rfl, .inl rfl⟩

/-- R138. -/
theorem stepUploading_stepped {s : State} (ha : s.rx.active = false) (ho : s.orch = .uploading) :
    Stepped s (stepUploading s) := by
  obtain ⟨e, hg, hs, hcase⟩ := stepUploading_cases s
  have way (m : Memory) (hm : Memory.wf s.blk = true → Memory.wf m = true) :
      Prepared { s with unitCall := none } { s with env := e, unitCall := none, blk := m } :=
    ⟨⟨hg, rfl, rfl⟩, rfl, rfl, rfl, hs, fun hu => ⟨hm hu.buffer, hu.receiver, hu.sync, hu.attempts⟩⟩
  obtain h | h | ⟨got, hgot, h⟩ := hcase
  · exact .holds _ (way s.blk id) ha h
  · exact .fails _ (way s.blk id) h
  · exact .begins .uploading _ ho rfl ((way _ (fillBlock_wf hgot)).andOpens (beginFdata_opens _ _ _ _))
      (fun hu => beginFdata_demands _ _ (fillBlock_wf hgot hu.buffer)) h

/-- R134: the bauds are used up, or the peer is reset and both timestamps are taken. -/
theorem stepResetting_cases (s : State) :
    stepResetting s = finishDone .connectFailed
      { s with session := { s.session with baudAttempt := s.session.baudAttempt + 1#32 } } ∨
    ∃ e : Env, EnvGrows s.env e ∧ e.stamps = { s.env.stamps with attempt := e.now, reset := e.now } ∧
      e.overrun = s.env.overrun ∧ stepResetting s =
        ({ s with
          env := e
          session := { s.session with
            baudAttempt := s.session.baudAttempt + 1#32, lastReset := e.now % 2 ^ s.cfg.clkW
            lastAttempt := e.now % 2 ^ s.cfg.clkW, resetAttempt := 0#32 }
          orch := .connecting } : State).answer (.inProgress 0) := by
  unfold stepResetting
  dsimp only
  split
  · exact .inl rfl
  · rename_i baud _
    exact .inr ⟨_, ((grow_reopen baud _).trans (grow_enter _)).trans (.ex ((Exchanged.readClock s.cfg.clkW _).same _ _)),
      rfl, rfl, rfl⟩

/-- No reset tests a timestamp (log 29). -/
theorem stepResetting_overrun (s : State) : (stepResetting s).env.overrun = s.env.overrun := by
  obtain h | ⟨e, -, -, he, h⟩ := stepResetting_cases s <;> rw [h]
  · rfl
  · exact he

theorem exec_step_stepped {s t : State} (h : exec .step s = .next t) :
    Stepped s t ∧ (s.env.overrun = false → t.env.overrun = false) := by
  replace h := (whenLegal_next h).2
  split at h
  · rename_i ha
    split at h
    · rename_i c hc
      obtain ⟨rfl, hover⟩ := whenPunctual_next h
      exact ⟨.resumes c ha hc rfl, fun _ => hover⟩
    · cases h
  · rename_i ha
    have idle : s.rx.active = false := by simpa using ha
    split at h
    case h_1 =>
      unfold stepIdle at h
      split at h <;> cases h
      exact ⟨.answers rfl, id⟩
    case h_2 ho =>
      cases h
      exact ⟨.resets idle ho rfl, fun hover => (stepResetting_overrun s).trans hover⟩
    case h_3 ho =>
      obtain ⟨rfl, hover⟩ := whenPunctual_next h
      exact ⟨stepConnecting_stepped idle ho, fun _ => hover⟩
    case h_4 ho =>
      unfold stepErasing at h
      split at h
      · cases h
      · rename_i es hes
        obtain ⟨rfl, hover⟩ := whenPunctual_next h
        refine ⟨.begins .erasing _ ho rfl ((Prepared.refl _).opensCmd _ _ _ _ nofun) (fun _ => ?_) rfl, fun _ => hover⟩
        exact beginFbegin_demands (s := { s with unitCall := none }) _ hes
    case h_5 ho =>
      obtain ⟨rfl, hover⟩ := whenPunctual_next h
      exact ⟨stepUploading_stepped idle ho, fun _ => hover⟩
    case h_6 ho =>
      cases h
      exact ⟨.answers rfl, id⟩

/-! ### What an instruction can do -/

/-- t follows s and no register but `esc_pending` has changed; no timestamp has been taken or tested. -/
structure Aside (s t : State) : Prop where
  regs : t = { s with
    rx := { s.rx with escPending := t.rx.escPending }, env := t.env, port := t.port, ret := t.ret }
  grows : EnvGrows s.env t.env
  stamps : t.env.stamps = s.env.stamps
  overrun : t.env.overrun = s.env.overrun

/-- The environment's turn when nobody calls (log 25). -/
theorem grow_turn (e : Env) : EnvGrows e e.turn := .one ⟨[], by simp⟩ ⟨[], by simp⟩ rfl rfl

theorem arrive_aside (s : State) (bs : Bytes) : Aside s (s.arrive bs) :=
  ⟨rfl, ⟨⟨[], by simp⟩, ⟨[], by simp⟩, 0, rfl, rfl⟩, rfl, rfl⟩

theorem answer_aside (s : State) (r : Ret) : Aside s (s.answer r) := ⟨rfl, .refl _, rfl, rfl⟩

theorem idleTurn_aside (s : State) : Aside s (idleTurn s) := ⟨rfl, grow_turn _, rfl, rfl⟩

theorem port_aside (s : State) (p : List PortWord) : Aside s { s with port := p } := ⟨rfl, .refl _, rfl, rfl⟩

/-- SEND (R83). -/
theorem sendFrame_aside (op : Byte) (p : Bytes) (chk : U32) (s : State) :
    Aside s ((sendFrame op p chk s).answer .sent) ∧ (sendFrame op p chk s).port = s.port := by
  obtain ⟨hrx, h1, h2, h3, h4, h5, h6, h7, h8, h9, h10, -, h12⟩ := (sendFrame_env op p chk s).fields
  obtain ⟨hs, ho⟩ := sendFrame_stamps op p chk s
  refine ⟨⟨?_, .ex (sendFrame_exchanged op p chk s), hs, ho⟩, h10⟩
  simp only [State.answer, hrx, h1, h2, h3, h4, h5, h6, h7, h8, h9, h10, h12]

/-- A request row (R57 to R60). -/
theorem transmit_aside {op : Byte} {body : Bytes} {chk : U32} {s t : State} (h : transmit op body chk s = .next t) :
    Aside s t ∧ t.port = s.port := by
  cases (whenLegal_next h).2
  exact sendFrame_aside op body chk s

/-- A frame of the peer arrives (R56, R62). -/
theorem receive_aside {dir op : Byte} {body : Bytes} {chk : U32} {s t : State}
    (h : receive dir op chk body s = .next t) : Aside s t ∧ t.port = s.port := by
  obtain ⟨-, h⟩ := whenLegal_next h
  obtain ⟨-, h⟩ := whenFits_next h
  cases h
  exact ⟨arrive_aside s _, rfl⟩

theorem decodeEscaped_overrun (s : State) : (decodeEscaped s).2.env.overrun = s.env.overrun := by
  unfold decodeEscaped
  dsimp only
  split <;> rfl

/-- SLIP.DEC tests no timestamp. -/
theorem slipDecode_overrun (s : State) : (slipDecode s).2.env.overrun = s.env.overrun := by
  unfold slipDecode
  dsimp only
  split
  · exact decodeEscaped_overrun s
  · split
    · rfl
    · split
      · rfl
      · exact decodeEscaped_overrun _

/-- SLIP.DEC called by itself (R74). -/
theorem slipDec_aside (s : State) : Aside s ((slipDecode s).2.answer (.outcome (slipDecode s).1)) := by
  have r := slipDecode_receives s
  obtain ⟨bs, hx, -⟩ := slipDecode_exchanged s
  obtain ⟨h1, h2, h3, h4, h5, h6, h7, h8, h9, h10, -, h12⟩ := r.regs.fields
  have hrx := slipDecode_rx s
  refine ⟨?_, .ex hx, r.stamps, slipDecode_overrun s⟩
  simp only [State.answer, h1, h2, h3, h4, h5, h6, h7, h8, h9, h10, h12, ← hrx]

/-- What one instruction can do: nothing to any register but `esc_pending`; or an operation called by itself runs; or it
is one of the host's two (R50, R168). -/
inductive Executed (i : Instr) (s t : State) : Prop where
  | aside (regs : Aside s t) (port : t.port = s.port)
  | unit (op : UnitOp) (x : State) (way : Opens op { s with unitCall := some op } x) (run : t = await (.unit op) x)
      (punctual : t.env.overrun = false)
  | begins (image : ImageSource) (addr : U32) (eq : i = .beginUpload image addr)
  | steps (eq : i = .step)

/-- An operation called by itself (log 12). -/
theorem Executed.ofUnit {i : Instr} {op : UnitOp} {start : State → State} {s t : State}
    (h : runUnit op start s = .next t)
    (hw : Opens op { s with unitCall := some op } (start { s with unitCall := some op })) : Executed i s t := by
  obtain ⟨rfl, hover⟩ := whenPunctual_next h
  exact .unit op _ hw rfl hover

theorem exec_executed {i : Instr} {s t : State} (h : exec i s = .next t) : Executed i s t := by
  have aside (h : Aside s t ∧ t.port = s.port) : Executed i s t := .aside h.1 h.2
  cases i with
  | slipEnd | slipEscEnd | slipEscEsc | slipEscBad _ | slipLit _ => cases h; exact .aside (arrive_aside s _) rfl
  | syncReq | flashBeginReq _ _ | flashEndReq _ => exact aside (transmit_aside h)
  | flashDataReq chk8 idx data =>
    change execFlashDataReq chk8 idx data s = .next t at h
    unfold execFlashDataReq at h
    split at h
    · exact aside (transmit_aside h)
    · exact aside (receive_aside h)
  | memBeginReq _ _ | memEndReq _ _ | memDataReq _ _ | writeRegReq _ _ | readRegReq _ _ | rsp _ _ _ | rspStray _ _
  | rspSync _ _ _ | rspFlashBegin _ _ _ | rspFlashData _ _ _ | rspFlashEnd _ _ _ => exact aside (receive_aside h)
  | slipEnc _ | slipWrap _ | slipRawwrap _ | slipDecall _ | chk _ | hdr _ _ _ _ | parse _ =>
    cases h
    exact .aside (answer_aside s _) rfl
  | slipDec =>
    cases h
    exact .aside (slipDec_aside s) (slipDecode_receives s).regs.fields.2.2.2.2.2.2.2.2.2.1
  | send op payload chk =>
    cases (whenFits_next (whenLegal_next h).2).2
    exact aside (sendFrame_aside op payload chk s)
  | recv op timeout => exact .ofUnit (whenLegal_next h).2 ((Prepared.refl _).opens op timeout nofun)
  | cmd op payload chk timeout =>
    exact .ofUnit (whenFits_next (whenLegal_next h).2).2 ((Prepared.refl _).opensCmd op payload chk timeout nofun)
  | sync timeout => exact .ofUnit (whenLegal_next h).2 (beginSync_opens timeout _)
  | fbegin _ _ | fend _ => exact .ofUnit (whenLegal_next h).2 ((Prepared.refl _).opensCmd _ _ _ _ nofun)
  | fdata idx val mask => exact .ofUnit (whenLegal_next h).2 (beginFdata_opens idx val mask _)
  | beginUpload image addr => exact .begins image addr rfl
  | step => exact .steps rfl

/-- R131: from `idle` or `done`, after `ImgSize()`, an empty image is rejected and any other starts a session. -/
theorem execBeginUpload_next {image : ImageSource} {addr : U32} {s t : State}
    (h : execBeginUpload image addr s = .next t) :
    (s.orch = .idle ∨ s.orch = .done) ∧ ∃ e : Env, EnvGrows s.env e ∧ e.stamps = s.env.stamps ∧
      e.overrun = s.env.overrun ∧
      (t = (rejectEmpty { s with env := e }).answer (.failed .emptyFile) ∨
        ∃ size, size ≠ 0#32 ∧ t = (startSession size addr { s with env := e }).answer .started) := by
  replace h := (whenLegal_next h).2
  split at h
  · rename_i hb
    have grows : EnvGrows s.env { s.env with img := image }.imgSize.2 := .one ⟨[], by simp⟩ ⟨[_], rfl⟩ rfl rfl
    refine ⟨by simpa [mayBegin] using hb, _, grows, rfl, rfl, ?_⟩
    dsimp only at h
    split at h <;> cases h
    · exact .inl rfl
    · rename_i hsize
      exact .inr ⟨_, hsize, rfl⟩
  · cases h

/-! ### Every step keeps the invariant -/

theorem Settled.aside {s t : State} (h : Settled s) (ha : Aside s t) : Settled t := by
  obtain ⟨regs, grows, stamps, -⟩ := ha
  generalize t.rx.escPending = b, t.env = e, t.port = p, t.ret = r at *
  subst regs
  obtain ⟨⟨hu, hs, hp, ht⟩, hw⟩ := h
  refine ⟨⟨hu.same, hs, hp.later stamps grows.later, ?_⟩, fun hact => ?_⟩
  · simpa only [Timed, stamps] using ht
  · obtain ⟨hm, c, hc, hd, hst⟩ := hw hact
    refine ⟨hm, c, hc, ?_, stamps ▸ hst⟩
    cases c <;> exact hd

/-- Outside a session only an operation called by itself waits (log 12). -/
theorem Caller.In.isUnit {c : Caller} {o : OrchState} (h : c.In o) (ho : o = .idle ∨ o = .done) :
    ∃ op, c = .unit op := by
  cases c with
  | unit op => exact ⟨op, rfl⟩
  | connecting | erasing | uploading => rcases ho with rfl | rfl <;> cases h

/-- R131: BEGIN_UPLOAD. A RECV that stays pending, after an empty image, is one an operation called by itself waits
for. -/
theorem execBeginUpload_settled {image : ImageSource} {addr : U32} {s t : State} (hi : Settled s)
    (h : execBeginUpload image addr s = .next t) : Settled t := by
  obtain ⟨ho, e, hg, hs, -, rfl | ⟨size, hsize, rfl⟩⟩ := execBeginUpload_next h
  · have past := hi.base.past.later hs hg.later
    refine ⟨⟨hi.base.units.same, ⟨nofun, nofun, nofun, nofun, fun _ _ => rfl, nofun⟩, past, nofun⟩, fun ha => ?_⟩
    obtain ⟨hm, c, hc⟩ := hi.pending ha
    obtain ⟨hu, hin, hph⟩ := callerOf_eq_some_iff.1 hc.caller
    obtain ⟨op, rfl⟩ := hin.isUnit ho
    exact ⟨hm, .unit op, callerOf_eq_some_iff.2 ⟨hu, trivial, hph⟩, trivial, hs ▸ hc.started⟩
  · have past := hi.base.past.later hs hg.later
    exact BaseInv.settled ⟨⟨hi.base.units.buffer, hi.base.units.receiver, ⟨hi.base.units.sync.1, nofun, nofun⟩,
      Nat.zero_le 3⟩, ⟨fun _ => hsize, nofun, nofun, fun _ => rfl, nofun, nofun⟩, past, nofun⟩ rfl

/-- The base of the invariant does not speak of `unitCall`. -/
theorem BaseInv.withUnitCall {s : State} (h : BaseInv s) (u : Option UnitOp) : BaseInv { s with unitCall := u } :=
  ⟨h.units.same, h.session, h.past, h.timed⟩

/-- R134. -/
theorem stepResetting_settled {s : State} (h : BaseInv s) (ho : s.orch = .resetting) (ha : s.rx.active = false) :
    Settled (stepResetting s) := by
  obtain he | ⟨e, hg, hs, -, he⟩ := stepResetting_cases s <;> rw [he]
  · exact finishDone_settled h.units.same h.past nofun
  · have hin : inSession s.orch = true := by rw [ho]; rfl
    refine BaseInv.settled ⟨h.units.same, h.session.moves hin rfl nofun rfl rfl rfl, ?_, fun _ => ?_⟩ ha
    · have := h.past.rx.trans hg.later
      constructor <;> simp [hs, this]
    · simp [Timed, hs]

/-- One STEP (R132). -/
theorem Stepped.settled {s t : State} (h : Stepped s t) (hi : Settled s) : Settled t := by
  obtain ⟨hb, hp⟩ := hi
  cases h with
  | resumes c active caller run =>
    obtain ⟨hm, c', hc⟩ := hp active
    cases caller.symm.trans hc.caller
    exact run ▸ await_settled hb hm hc
  | answers run => exact Settled.aside ⟨hb, hp⟩ (run ▸ answer_aside s _)
  | resets idle orch run => exact run ▸ stepResetting_settled hb orch idle
  | holds u way idle run => exact (run ▸ (BaseInv.settled (way.base (hb.withUnitCall none)) idle).aside (answer_aside u _))
  | fails u way run =>
    have hu := way.base (hb.withUnitCall none)
    exact run ▸ finishDone_settled hu.units hu.past nofun
  | begins c x home action way demands run =>
    exact run ▸ await_settled (way.base (hb.withUnitCall none)) way.machine (way.awaited action.symm home (demands hb.units))

/-- Every instruction keeps the invariant. -/
theorem exec_registerInv {i : Instr} {s t : State} (hi : RegisterInv s) (h : exec i s = .next t) : RegisterInv t := by
  obtain ⟨hs, hover⟩ := registerInv_iff.1 hi
  rw [registerInv_iff]
  cases exec_executed h with
  | aside regs port => exact ⟨hs.aside regs, regs.overrun.trans hover⟩
  | unit op x way run punctual =>
    have waits : Awaited (.unit op) x := way.awaited (c := .unit op) rfl trivial trivial
    exact ⟨run ▸ await_settled (way.base (hs.base.withUnitCall _)) way.machine waits, punctual⟩
  | begins image addr eq =>
    subst eq
    obtain ⟨-, e, -, -, he, ht⟩ := execBeginUpload_next h
    refine ⟨execBeginUpload_settled hs h, ?_⟩
    obtain rfl | ⟨size, -, rfl⟩ := ht <;> exact he.trans hover
  | steps eq =>
    subst eq
    obtain ⟨hst, ho⟩ := exec_step_stepped h
    exact ⟨hst.settled hs, ho hover⟩

/-- What stands at the port and who acts when it is empty do not matter to the invariant. -/
theorem RegisterInv.aside {s t : State} (h : RegisterInv s) (ha : Aside s t) : RegisterInv t := by
  obtain ⟨hs, hover⟩ := registerInv_iff.1 h
  exact registerInv_iff.2 ⟨hs.aside ha, ha.overrun.trans hover⟩

/-- Settles O47: an instruction keeps the invariant, and so do the port and the environment's own turn. -/
theorem invariantKept : Obligations.InvariantKept := by
  intro s t hi h
  unfold step at h
  split at h
  · cases h
    exact hi.aside (idleTurn_aside s)
  · split at h
    · cases h
    · exact exec_registerInv (hi.aside (port_aside s _)) h

/-! ### Reset meets it -/

/-- Settles O48: after reset no RECV is pending and there is no session (R25; log 5). -/
theorem invariantAtReset : Obligations.InvariantAtReset :=
  registerInv_iff.2 ⟨BaseInv.settled ⟨⟨rfl, ⟨Nat.zero_le 8, rfl⟩, ⟨Nat.zero_le 10, nofun, nofun⟩, Nat.zero_le 3⟩,
    ⟨nofun, nofun, nofun, nofun, nofun, nofun⟩, ⟨Nat.le_refl 0, Nat.le_refl 0, Nat.le_refl 0⟩, nofun⟩ rfl, rfl⟩

/-! ### What every instruction leaves of the histories, the configuration and the port -/

theorem OnlyGrows.ofUnitCall {s t : State} {u : Option UnitOp} (h : OnlyGrows { s with unitCall := u } t) : OnlyGrows s t :=
  ⟨h.env, h.cfg, h.port⟩

theorem finishDone_onlyGrows (r : ResultCode) (s : State) : OnlyGrows s (finishDone r s) := ⟨finish_grow r s, rfl, rfl⟩

theorem Aside.onlyGrows {s t : State} (h : Aside s t) (hp : t.port = s.port) : OnlyGrows s t :=
  ⟨h.grows, (congrArg State.cfg h.regs :), hp⟩

theorem stepResetting_onlyGrows (s : State) : OnlyGrows s (stepResetting s) := by
  obtain he | ⟨e, hg, -, -, he⟩ := stepResetting_cases s <;> rw [he]
  · exact ⟨finish_grow .connectFailed { s with session := _ }, rfl, rfl⟩
  · exact ⟨hg, rfl, rfl⟩

theorem Stepped.onlyGrows {s t : State} (h : Stepped s t) : OnlyGrows s t := by
  cases h with
  | resumes c active caller run => exact run ▸ await_onlyGrows c s
  | answers run => exact run ▸ (answer_aside s _).onlyGrows rfl
  | resets idle orch run => exact run ▸ stepResetting_onlyGrows s
  | holds u way idle run => exact run ▸ way.grows.ofUnitCall.trans ((answer_aside u _).onlyGrows rfl)
  | fails u way run => exact run ▸ way.grows.ofUnitCall.trans (finishDone_onlyGrows _ u)
  | begins c x home action way demands run => exact run ▸ way.grows.ofUnitCall.trans (await_onlyGrows c x)

theorem exec_onlyGrows {i : Instr} {s t : State} (h : exec i s = .next t) : OnlyGrows s t := by
  cases exec_executed h with
  | aside regs port => exact regs.onlyGrows port
  | unit op x way run punctual => exact run ▸ way.grows.ofUnitCall.trans (await_onlyGrows _ x)
  | begins image addr eq =>
    subst eq
    obtain ⟨-, e, hg, -, -, rfl | ⟨size, -, rfl⟩⟩ := execBeginUpload_next h <;> exact ⟨hg, rfl, rfl⟩
  | steps eq =>
    subst eq
    exact (exec_step_stepped h).1.onlyGrows

/-- Settles O50: no register but the environment matters, and every interface call only adds to it (`EnvGrows`). -/
theorem historiesOnlyGrow : Obligations.HistoriesOnlyGrow := by
  intro i s t h
  obtain ⟨⟨htxs, hevents, hturns⟩, hcfg, hport⟩ := exec_onlyGrows h
  exact ⟨htxs, hevents, hturns, hcfg, hport⟩

/-! ### InProgress carries the share of blocks sent -/

/-- What InProgress carries is the share by the registers as they now are. -/
def TellsShare (s : State) : Prop := ∀ p, s.ret = .inProgress p → p = percent s

theorem inProgress_tellsShare (s : State) : TellsShare s.inProgress := fun _ h => (Ret.inProgress.inj h).symm

theorem answer_tellsShare {s : State} {p : Nat} (h : p = percent s) : TellsShare (s.answer (.inProgress p)) :=
  h ▸ inProgress_tellsShare s

theorem finishDone_tellsShare (r : ResultCode) (s : State) : TellsShare (finishDone r s) := nofun

theorem blockDone_tellsShare {s : State} (ho : s.orch = .uploading) : TellsShare (blockDone s) := by
  obtain ⟨e, n, -, -, heq⟩ := blockDone_eq s
  rw [heq]
  dsimp only
  split
  · exact finishDone_tellsShare _ _
  · exact answer_tellsShare (if_pos ho).symm

/-- The tails of the state actions (R135, R136, R138). -/
theorem deliver_tellsShare {c : Caller} (st : ResultCode) {s : State} (ho : c.In s.orch) :
    TellsShare (deliver c st s) := by
  cases c with
  | unit op => exact nofun
  | connecting =>
    change TellsShare (connectingTail st s)
    unfold connectingTail
    dsimp only
    split <;> exact inProgress_tellsShare _
  | erasing =>
    change TellsShare (erasingTail st s)
    unfold erasingTail
    dsimp only
    split
    · exact finishDone_tellsShare _ _
    · exact answer_tellsShare (by simp [percent, percentOf])
  | uploading =>
    change TellsShare (uploadingTail st s)
    unfold uploadingTail
    dsimp only
    split
    · exact finishDone_tellsShare _ _
    · exact blockDone_tellsShare ho

theorem await_tellsShare {c : Caller} {s : State} (ho : c.In s.orch) : TellsShare (await c s) := by
  apply await_any c s TellsShare
  · intro x n read hk he _ _
    exact inProgress_tellsShare x
  · intro x n read st hk he _ _ _
    exact deliver_tellsShare st (hk.f.orch ▸ ho)

theorem Stepped.tellsShare {s t : State} (h : Stepped s t) : TellsShare t := by
  cases h with
  | resumes c active caller run =>
    obtain ⟨-, ho, -⟩ := callerOf_eq_some_iff.1 caller
    exact run ▸ await_tellsShare ho
  | answers run => exact run ▸ nofun
  | resets idle orch run =>
    obtain he | ⟨e, -, -, -, he⟩ := stepResetting_cases s <;> rw [run, he]
    · exact finishDone_tellsShare _ _
    · exact answer_tellsShare rfl
  | holds u way idle run => exact run ▸ inProgress_tellsShare u
  | fails u way run => exact run ▸ finishDone_tellsShare _ u
  | begins c x home action way demands run => exact run ▸ await_tellsShare (way.orch ▸ home)

/-- R19, R117: a share of what has not all been sent is at most 100. -/
theorem percentOf_le {idx n : U32} (h : idx.toNat < nBlocks n) : percentOf idx n ≤ 100 :=
  Nat.div_le_of_le_mul (by rw [Nat.mul_comm]; exact Nat.mul_le_mul_right 100 h.le)

/-- Settles O52: InProgress carries `percent`, and by the invariant there is a block to send while `uploading`. -/
theorem percentIsAShare : Obligations.PercentIsAShare := by
  intro s t p hi h hp
  have ht := exec_registerInv hi h
  have share : p = percent t := (exec_step_stepped h).1.tellsShare p hp
  by_cases ho : t.orch = .uploading
  · have hpercent : percent t = percentOf t.session.blockIdx t.session.imageSize := if_pos ho
    rw [share, hpercent]
    exact ⟨percentOf_le (ht.block ho), fun _ => rfl, fun hn => absurd ho hn⟩
  · rw [share, percent_eq_zero ho]
    exact ⟨Nat.zero_le 100, fun he => absurd he ho, fun _ => rfl⟩

end Sys2Proof.Machine
end

section
/-! PROOFS. The decoder and the encoder of the three lanes (30_encoding.md R50, R51, R53, R65): what each operand reader
reads back and what it reads from, that decoding inverts encoding and the other way round, and the words written out. -/

namespace Sys2Proof

open Machine

/-! ### What a reader reads back -/

section Readers
variable {s p r : Bytes} {d : Instr × Bytes}

@[simp] theorem takeByte_cons (b : Byte) (k : Byte → Bytes → Decoded) : takeByte (b :: r) k = k b r := rfl

@[simp] theorem take16_le16 (v : U16) (k : U16 → Bytes → Decoded) : take16 (le16 v ++ r) k = k v r := by
  simp [le16, take16]

@[simp] theorem take32_le32 (v : U32) (k : U32 → Bytes → Decoded) : take32 (le32 v ++ r) k = k v r := by
  simp [le32, take32]

theorem takeN_append {n : Nat} (h : p.length = n) (k : Bytes → Bytes → Decoded) : takeN n (p ++ r) k = k p r := by
  subst h
  simp [takeN]

/-- R54. -/
theorem fitsBody_iff : Bytes.fitsBody p = true ↔ p.length ≤ 65535 := decide_eq_true_iff

/-- R54: a body is read by the 16 bits that hold its length. -/
theorem takeN_body (h : Bytes.fitsBody p = true) (k : Bytes → Bytes → Decoded) :
    takeN (p.length % 65536) (p ++ r) k = k p r :=
  takeN_append (Nat.mod_eq_of_lt (Nat.lt_succ_of_le (fitsBody_iff.1 h))).symm k

theorem takeCounted_counted (h : Bytes.countable p = true) (k : Bytes → Bytes → Decoded) :
    takeCounted (counted p ++ r) k = k p r := by
  simp only [Bytes.countable, decide_eq_true_eq] at h
  rw [takeCounted, counted, List.append_assoc, take32_le32]
  exact takeN_append (by simp; omega) k

@[simp] theorem takeBool_boolByte (b : Bool) (k : Bool → Bytes → Decoded) :
    takeBool (boolByte b :: r) k = k b r := by
  cases b <;> rfl

/-! ### What a reader reads from -/

theorem takeByte_eq_ok_iff {k : Byte → Bytes → Decoded} :
    takeByte s k = .ok d ↔ ∃ b r, s = b :: r ∧ k b r = .ok d := by
  cases s <;> simp [takeByte]

theorem take16_eq_ok_iff {k : U16 → Bytes → Decoded} :
    take16 s k = .ok d ↔ ∃ v r, s = le16 v ++ r ∧ k v r = .ok d := by
  constructor
  · intro h
    unfold take16 at h
    split at h
    next b0 b1 r => exact ⟨_, r, by rw [le16_word16]; rfl, h⟩
    next => cases h
  · rintro ⟨v, r, rfl, h⟩
    rwa [take16_le16]

theorem take32_eq_ok_iff {k : U32 → Bytes → Decoded} :
    take32 s k = .ok d ↔ ∃ v r, s = le32 v ++ r ∧ k v r = .ok d := by
  constructor
  · intro h
    unfold take32 at h
    split at h
    next b0 b1 b2 b3 r => exact ⟨_, r, by rw [le32_word32]; rfl, h⟩
    next => cases h
  · rintro ⟨v, r, rfl, h⟩
    rwa [take32_le32]

theorem takeN_eq_ok_iff {n : Nat} {k : Bytes → Bytes → Decoded} :
    takeN n s k = .ok d ↔ ∃ p r, s = p ++ r ∧ p.length = n ∧ k p r = .ok d := by
  constructor
  · intro h
    unfold takeN at h
    split at h
    · cases h
    · exact ⟨s.take n, s.drop n, by simp, by simp; omega, h⟩
  · rintro ⟨p, r, rfl, hp, h⟩
    rwa [takeN_append hp]

/-- R54: a body read by a 16-bit length fits that length. -/
theorem takeN_body_eq_ok_iff {n : U16} {k : Bytes → Bytes → Decoded} :
    takeN n.toNat s k = .ok d ↔
      ∃ p r, s = p ++ r ∧ n = BitVec.ofNat 16 p.length ∧ Bytes.fitsBody p = true ∧ k p r = .ok d := by
  rw [takeN_eq_ok_iff]
  have fits (p : Bytes) : p.length = n.toNat ↔ n = BitVec.ofNat 16 p.length ∧ Bytes.fitsBody p = true := by
    rw [fitsBody_iff, ← BitVec.toNat_inj, BitVec.toNat_ofNat]
    omega
  simp only [fits, and_assoc]

theorem takeCounted_eq_ok_iff {k : Bytes → Bytes → Decoded} :
    takeCounted s k = .ok d ↔ ∃ p r, s = counted p ++ r ∧ Bytes.countable p = true ∧ k p r = .ok d := by
  constructor
  · intro h
    obtain ⟨n, r, rfl, h⟩ := take32_eq_ok_iff.1 h
    obtain ⟨p, r, rfl, hp, h⟩ := takeN_eq_ok_iff.1 h
    have hn : n = BitVec.ofNat 32 p.length := by simp [hp]
    exact ⟨p, r, by rw [counted, hn, List.append_assoc], by simp [Bytes.countable, hp, n.isLt], h⟩
  · rintro ⟨p, r, rfl, hp, h⟩
    rwa [takeCounted_counted hp]

theorem takeBool_eq_ok_iff {k : Bool → Bytes → Decoded} :
    takeBool s k = .ok d ↔ ∃ b r, s = boolByte b :: r ∧ k b r = .ok d := by
  constructor
  · intro h
    obtain ⟨b, r, rfl, hk⟩ := takeByte_eq_ok_iff.1 h
    split at hk
    next hb => exact ⟨false, r, by rw [hb]; rfl, hk⟩
    next =>
      split at hk
      next hb => exact ⟨true, r, by rw [hb]; rfl, hk⟩
      next => cases hk
  · rintro ⟨b, r, rfl, h⟩
    rwa [takeBool_boolByte]

/-- A row that fixes some of what was read (R57 to R60) is read where that holds. -/
theorem guard_eq_ok_iff {c : Prop} [Decidable c] {x : Decoded} {e : DecodeError} :
    (if c then x else .error e) = .ok d ↔ c ∧ x = .ok d := by
  split <;> simp [*]

end Readers

/-! ### Headers and bodies (R53, R56) -/

/-- R53: the four fields of a request's header are read back. -/
theorem decodeHeader_request (op : Byte) (len : U16) (chk : U32) (r : Bytes) :
    decodeHeader (headerBytes 0x00#8 op len chk ++ r) = decodeRequest op len chk r := by
  simp [decodeHeader, headerBytes]

/-- R53, R56: the four fields of a response's header are read back. -/
theorem decodeHeader_response (op : Byte) (len : U16) (value : U32) (r : Bytes) :
    decodeHeader (headerBytes 0x01#8 op len value ++ r) = decodeResponse op len value r := by
  simp [decodeHeader, headerBytes]

/-- R56, R65: no row is more specific than RSP for this opcode and this `len`. -/
theorem isPlainResponse_iff {op : Byte} {body : Bytes} (h : Bytes.fitsBody body = true) :
    isPlainResponse op body.length = true ↔
      op ≠ 0x00#8 ∧ ∀ o ∈ [0x08#8, 0x02#8, 0x03#8, 0x04#8], ¬ (op = o ∧ BitVec.ofNat 16 body.length = 2#16) := by
  have hlen : BitVec.ofNat 16 body.length = 2#16 ↔ body.length = 2 := by
    rw [fitsBody_iff] at h
    simp only [← BitVec.toNat_inj, BitVec.toNat_ofNat]
    omega
  simp only [hlen, isPlainResponse, List.forall_mem_cons]
  simp
  tauto

/-- R56: RSP is read where no more specific row is. -/
theorem decodeResponse_plain {op : Byte} {body : Bytes} (hb : Bytes.fitsBody body = true)
    (h : isPlainResponse op body.length = true) (value : U32) (r : Bytes) :
    decodeResponse op (BitVec.ofNat 16 body.length) value (body ++ r) = .ok (.rsp op value body, r) := by
  obtain ⟨h0, h⟩ := (isPlainResponse_iff hb).1 h
  simp only [List.forall_mem_cons] at h
  obtain ⟨h8, h2, h3, h4, -⟩ := h
  rw [decodeResponse, if_neg h0, if_neg h8, if_neg h2, if_neg h3, if_neg h4, BitVec.toNat_ofNat, takeN_body hb]

/-! ### Decoding after encoding -/

/-- Settles O1, row by row: each operand reader reads its operand back, and the tests of R57 to R60 and R65 between
rows pass for a well-formed instruction. -/
theorem decodeAfterEncode : Obligations.DecodeAfterEncode := by
  intro i rest hwf
  cases i with
  | slipEnd | slipEscEnd | slipEscEsc => rfl
  | slipEscBad second =>
    simp only [Instr.wf, Bool.and_eq_true, bne_iff_ne] at hwf
    obtain ⟨h1, h2⟩ := hwf
    have hesc : slipESC ≠ slipEND := by decide
    simp [encode, decode, decodeWire, hesc, h1, h2]
  | slipLit v =>
    simp only [Instr.wf, Bool.and_eq_true, bne_iff_ne] at hwf
    obtain ⟨h1, h2⟩ := hwf
    simp [encode, decode, decodeWire, h1, h2]
  | syncReq =>
    simp [encode, decode, decodeHeader_request, decodeRequest, syncPayloadLen,
      takeN_append (length_syncPayload defaultConfig)]
  | flashBeginReq total address =>
    have haligned : address = alignDown address := by simpa [Instr.wf] using hwf
    simp [encode, decode, decodeHeader_request, decodeRequest, flashBeginBody, ← haligned]
  | flashDataReq chk8 idx data =>
    have hlen : data.length = blockSize := by simpa [Instr.wf] using hwf
    simp [encode, decode, decodeHeader_request, decodeRequest, flashDataBodyHeader, takeN_append hlen]
  | flashEndReq stay =>
    cases stay <;> simp [encode, decode, decodeHeader_request, decodeRequest, flashEndBody]
  | memBeginReq chk body | memEndReq chk body | memDataReq chk body | writeRegReq chk body | readRegReq chk body =>
    rw [Instr.wf] at hwf
    simp [encode, decode, headerAndBody, decodeHeader_request, decodeRequest, takeN_body hwf]
  | rsp op value body =>
    simp only [Instr.wf, Bool.and_eq_true] at hwf
    obtain ⟨hb, hplain⟩ := hwf
    simp [encode, decode, headerAndBody, decodeHeader_response, decodeResponse_plain hb hplain]
  | rspStray value body =>
    rw [Instr.wf] at hwf
    simp [encode, decode, headerAndBody, decodeHeader_response, decodeResponse, takeN_body hwf]
  | rspSync value b0 b1 | rspFlashBegin value b0 b1 | rspFlashData value b0 b1 | rspFlashEnd value b0 b1 =>
    simp [encode, decode, headerAndBody, decodeHeader_response, decodeResponse, takeReply]
  | slipEnc s | slipWrap s | slipRawwrap s | slipDecall s | chk s | parse s =>
    rw [Instr.wf] at hwf
    simp [encode, decode, decodeCall, takeCounted_counted hwf]
  | send op payload chk | cmd op payload chk timeout =>
    rw [Instr.wf] at hwf
    simp [encode, decode, decodeCall, takeN_body hwf]
  | beginUpload image addr =>
    rw [Instr.wf] at hwf
    simp [encode, decode, decodeCall, takeCounted_counted hwf]
  | slipDec | hdr dir op n chk | recv op timeout | sync timeout | fbegin address totalSize | fdata idx val mask
  | fend reboot | step =>
    simp [encode, decode, decodeCall]

/-! ### Encoding after decoding -/

/-- These bytes of the lane are the encoding of the well-formed i, and the rest. -/
def Encodes (lane : Lane) (i : Instr) (rest s : Bytes) : Prop :=
  i.wf = true ∧ (encode i).lane = lane ∧ s = (encode i).bytes ++ rest

section Rows
variable {dir op : Byte} {len : U16} {chk : U32} {s r rest : Bytes} {i : Instr}

/-- R51: a code is read from its raw bytes, and the least specific rows from what is none of the others (R65). -/
theorem decodeWire_encodes (h : decodeWire s = .ok (i, rest)) : Encodes .wire i rest s := by
  obtain ⟨b, r, rfl, hb⟩ := takeByte_eq_ok_iff.1 h
  split at hb
  next hend => cases hb; exact ⟨rfl, rfl, by rw [hend]; rfl⟩
  next hend =>
    split at hb
    next hesc =>
      obtain ⟨c, r, rfl, hc⟩ := takeByte_eq_ok_iff.1 hb
      split at hc
      next hescEnd => cases hc; exact ⟨rfl, rfl, by rw [hesc, hescEnd]; rfl⟩
      next hescEnd =>
        split at hc
        next hescEsc => cases hc; exact ⟨rfl, rfl, by rw [hesc, hescEsc]; rfl⟩
        next hescEsc => cases hc; exact ⟨by simp [Instr.wf, hescEnd, hescEsc], rfl, by rw [hesc]; rfl⟩
    next hesc => cases hb; exact ⟨by simp [Instr.wf, hend, hesc], rfl, rfl⟩

/-- A row whose body is as long as its header says, whatever it holds (R54). -/
theorem takeN_body_encodes {row : Bytes → Instr}
    (h : takeN len.toNat r (fun body r => .ok (row body, r)) = .ok (i, rest))
    (hwf : ∀ body, Bytes.fitsBody body = true → len = BitVec.ofNat 16 body.length → (row body).wf = true)
    (henc : ∀ body, encode (row body) = ⟨.header, headerAndBody dir op chk body⟩) :
    Encodes .header i rest (headerBytes dir op len chk ++ r) := by
  obtain ⟨body, r, rfl, hlen, hb, h⟩ := takeN_body_eq_ok_iff.1 h
  cases h
  exact ⟨hwf body hb hlen, by rw [henc], by simp [henc, headerAndBody, hlen]⟩

/-- A row whose body is the two bytes of a reply (R56). -/
theorem takeReply_encodes {rowOp : Byte} {row : Byte → Byte → Instr} (hrow : op = rowOp ∧ len = 2#16)
    (h : takeReply r (fun b0 b1 r => .ok (row b0 b1, r)) = .ok (i, rest)) (hwf : ∀ b0 b1, (row b0 b1).wf = true)
    (henc : ∀ b0 b1, encode (row b0 b1) = ⟨.header, headerAndBody dir rowOp chk [b0, b1]⟩) :
    Encodes .header i rest (headerBytes dir op len chk ++ r) := by
  obtain ⟨rfl, rfl⟩ := hrow
  simp only [takeReply, takeByte_eq_ok_iff] at h
  obtain ⟨b0, -, rfl, b1, r, rfl, h⟩ := h
  cases h
  exact ⟨hwf b0 b1, by rw [henc], by simp [henc, headerAndBody]⟩

/-- A row whose one operand is a counted byte string (log 11). -/
theorem takeCounted_encodes {ordinal : Byte} {row : Bytes → Instr}
    (h : takeCounted r (fun p r => .ok (row p, r)) = .ok (i, rest))
    (hwf : ∀ p, Bytes.countable p = true → (row p).wf = true)
    (henc : ∀ p, encode (row p) = ⟨.call, ordinal :: counted p⟩) : Encodes .call i rest (ordinal :: r) := by
  obtain ⟨p, r, rfl, hp, h⟩ := takeCounted_eq_ok_iff.1 h
  cases h
  exact ⟨hwf p hp, by rw [henc], by simp [henc]⟩

/-- R57 to R61: a request is read from its header and its body, what its row fixes of them included. -/
theorem decodeRequest_encodes (h : decodeRequest op len chk r = .ok (i, rest)) :
    Encodes .header i rest (headerBytes 0x00#8 op len chk ++ r) := by
  unfold decodeRequest at h
  split at h
  next hop =>
    simp only [guard_eq_ok_iff, takeN_eq_ok_iff] at h
    obtain ⟨⟨rfl, rfl⟩, payload, r, rfl, -, rfl, h⟩ := h
    cases h
    exact ⟨rfl, rfl, by simp [encode, hop]⟩
  split at h
  next hop =>
    simp only [guard_eq_ok_iff, take32_eq_ok_iff] at h
    obtain ⟨⟨rfl, rfl⟩, total, -, rfl, count, -, rfl, size, -, rfl, address, r, rfl, ⟨rfl, rfl, haligned⟩, h⟩ := h
    cases h
    exact ⟨by simpa [Instr.wf] using haligned, rfl, by simp [encode, flashBeginBody, hop, ← haligned]⟩
  split at h
  next hop =>
    simp only [guard_eq_ok_iff, take32_eq_ok_iff, takeN_eq_ok_iff] at h
    obtain ⟨⟨rfl, hchk⟩, size, -, rfl, idx, -, rfl, r0, -, rfl, r1, -, rfl, data, r, rfl, hlen, ⟨rfl, rfl, rfl⟩, h⟩ := h
    cases h
    exact ⟨by simp [Instr.wf, hlen], rfl, by simp [encode, flashDataBodyHeader, hop, ← hchk]⟩
  split at h
  next hop =>
    simp only [guard_eq_ok_iff, take32_eq_ok_iff] at h
    obtain ⟨⟨rfl, rfl⟩, flag, r, rfl, h⟩ := h
    split at h
    next hflag => cases h; exact ⟨rfl, rfl, by simp [encode, flashEndBody, hop, hflag]⟩
    next =>
      obtain ⟨rfl, h⟩ := guard_eq_ok_iff.1 h
      cases h
      exact ⟨rfl, rfl, by simp [encode, flashEndBody, hop]⟩
  split at h
  next hop => exact takeN_body_encodes h (fun _ hb _ => hb) (fun _ => hop ▸ rfl)
  split at h
  next hop => exact takeN_body_encodes h (fun _ hb _ => hb) (fun _ => hop ▸ rfl)
  split at h
  next hop => exact takeN_body_encodes h (fun _ hb _ => hb) (fun _ => hop ▸ rfl)
  split at h
  next hop => exact takeN_body_encodes h (fun _ hb _ => hb) (fun _ => hop ▸ rfl)
  obtain ⟨hop, h⟩ := guard_eq_ok_iff.1 h
  exact takeN_body_encodes h (fun _ hb _ => hb) (fun _ => hop ▸ rfl)

/-- R56: a response is read from its header and its body; RSP from one that is no more specific row's (R65). -/
theorem decodeResponse_encodes (h : decodeResponse op len chk r = .ok (i, rest)) :
    Encodes .header i rest (headerBytes 0x01#8 op len chk ++ r) := by
  unfold decodeResponse at h
  split_ifs at h with h0 h8 h2 h3 h4
  · exact takeN_body_encodes h (fun _ hb _ => hb) (fun _ => h0 ▸ rfl)
  · exact takeReply_encodes h8 h (fun _ _ => rfl) (fun _ _ => rfl)
  · exact takeReply_encodes h2 h (fun _ _ => rfl) (fun _ _ => rfl)
  · exact takeReply_encodes h3 h (fun _ _ => rfl) (fun _ _ => rfl)
  · exact takeReply_encodes h4 h (fun _ _ => rfl) (fun _ _ => rfl)
  · refine takeN_body_encodes h (fun body hb hlen => ?_) (fun _ => rfl)
    have hplain : isPlainResponse op body.length = true :=
      (isPlainResponse_iff hb).2 ⟨h0, by simp only [List.forall_mem_cons, ← hlen]; exact ⟨h8, h2, h3, h4, nofun⟩⟩
    simp [Instr.wf, hb, hplain]

/-- R53: a header, and what its direction makes of it. -/
theorem decodeHeader_encodes (h : decodeHeader s = .ok (i, rest)) : Encodes .header i rest s := by
  simp only [decodeHeader, takeByte_eq_ok_iff, take16_eq_ok_iff, take32_eq_ok_iff] at h
  obtain ⟨dir, -, rfl, op, -, rfl, len, -, rfl, chk, r, rfl, h⟩ := h
  have hbytes : dir :: op :: (le16 len ++ (le32 chk ++ r)) = headerBytes dir op len chk ++ r := by simp [headerBytes]
  rw [hbytes]
  split at h
  next hdir => exact hdir ▸ decodeRequest_encodes h
  next =>
    obtain ⟨rfl, h⟩ := guard_eq_ok_iff.1 h
    exact decodeResponse_encodes h

/-- R50: an operation is read from its ordinal and its operands (log 11). The cases follow the ordinals 0 to 16. -/
theorem decodeCall_encodes (h : decodeCall s = .ok (i, rest)) : Encodes .call i rest s := by
  obtain ⟨ordinal, r, rfl, hr⟩ := takeByte_eq_ok_iff.1 h
  clear h
  have hordinal : ordinal = BitVec.ofNat 8 ordinal.toNat := by simp
  generalize ordinal.toNat = n at hr hordinal
  subst hordinal
  split at hr
  · exact takeCounted_encodes hr (fun _ hp => hp) (fun _ => rfl)
  · exact takeCounted_encodes hr (fun _ hp => hp) (fun _ => rfl)
  · exact takeCounted_encodes hr (fun _ hp => hp) (fun _ => rfl)
  · cases hr; exact ⟨rfl, rfl, rfl⟩
  · exact takeCounted_encodes hr (fun _ hp => hp) (fun _ => rfl)
  · exact takeCounted_encodes hr (fun _ hp => hp) (fun _ => rfl)
  · simp only [takeByte_eq_ok_iff, take16_eq_ok_iff, take32_eq_ok_iff] at hr
    obtain ⟨dir, -, rfl, op, -, rfl, n, -, rfl, chk, r, rfl, hr⟩ := hr
    cases hr
    exact ⟨rfl, rfl, by simp [encode]⟩
  · simp only [takeByte_eq_ok_iff, take16_eq_ok_iff, takeN_body_eq_ok_iff, take32_eq_ok_iff] at hr
    obtain ⟨op, -, rfl, n, -, rfl, payload, -, rfl, rfl, hfits, chk, r, rfl, hr⟩ := hr
    cases hr
    exact ⟨hfits, rfl, by simp [encode]⟩
  · simp only [takeByte_eq_ok_iff, take32_eq_ok_iff] at hr
    obtain ⟨op, -, rfl, timeout, r, rfl, hr⟩ := hr
    cases hr
    exact ⟨rfl, rfl, by simp [encode]⟩
  · simp only [takeByte_eq_ok_iff, take16_eq_ok_iff, takeN_body_eq_ok_iff, take32_eq_ok_iff] at hr
    obtain ⟨op, -, rfl, n, -, rfl, payload, -, rfl, rfl, hfits, chk, -, rfl, timeout, r, rfl, hr⟩ := hr
    cases hr
    exact ⟨hfits, rfl, by simp [encode]⟩
  · exact takeCounted_encodes hr (fun _ hp => hp) (fun _ => rfl)
  · simp only [take32_eq_ok_iff] at hr
    obtain ⟨timeout, r, rfl, hr⟩ := hr
    cases hr
    exact ⟨rfl, rfl, by simp [encode]⟩
  · simp only [take32_eq_ok_iff] at hr
    obtain ⟨address, -, rfl, total, r, rfl, hr⟩ := hr
    cases hr
    exact ⟨rfl, rfl, by simp [encode]⟩
  · simp only [take32_eq_ok_iff, take16_eq_ok_iff] at hr
    obtain ⟨idx, -, rfl, val, -, rfl, mask, r, rfl, hr⟩ := hr
    cases hr
    exact ⟨rfl, rfl, by simp [encode]⟩
  · simp only [takeBool_eq_ok_iff] at hr
    obtain ⟨reboot, r, rfl, hr⟩ := hr
    cases hr
    exact ⟨rfl, rfl, rfl⟩
  · simp only [take32_eq_ok_iff, takeCounted_eq_ok_iff] at hr
    obtain ⟨size, -, rfl, data, -, rfl, hdata, address, r, rfl, hr⟩ := hr
    cases hr
    exact ⟨hdata, rfl, by simp [encode]⟩
  · cases hr; exact ⟨rfl, rfl, rfl⟩
  · cases hr

end Rows

/-- Settles O2, lane by lane: each row is read from its own bytes. -/
theorem encodeAfterDecode : Obligations.EncodeAfterDecode := by
  intro lane s rest i h
  cases lane with
  | call => exact decodeCall_encodes h
  | wire => exact decodeWire_encodes h
  | header => exact decodeHeader_encodes h

/-! ### Words written out -/

/-- A table word that is an instruction's encoding followed by zeros is read as that instruction (R65; log 10). -/
theorem decodeTableWord_of_encode {nbits w : Nat} {i : Instr} {pad : Bytes} (hwf : i.wf = true)
    (hlane : tableLane nbits w = (encode i).lane) (hbytes : tableBytes nbits w = (encode i).bytes ++ pad) :
    decodeTableWord nbits w = some i := by
  rw [decodeTableWord, hlane, hbytes, decodeAfterEncode i pad hwf]

/-- Settles O3: each word is its instruction's encoding, so decoding gives the instruction back. -/
theorem writtenWordsDecode : Obligations.WrittenWordsDecode :=
  ⟨decodeAfterEncode .slipEnd [] rfl, decodeAfterEncode .slipEscEnd [] rfl, decodeAfterEncode .slipEscEsc [] rfl,
    decodeAfterEncode (.slipEscBad 0xC0#8) [] rfl, decodeAfterEncode (.slipLit 0xDC#8) [] rfl,
    decodeAfterEncode .syncReq [] rfl, decodeAfterEncode (.flashBeginReq 1025#32 0x1000#32) [] rfl,
    decodeAfterEncode (.flashEndReq true) [] rfl, decodeAfterEncode (.rspSync 0x20120707#32 0x00#8 0x00#8) [] rfl,
    decodeAfterEncode (.rspStray 0#32 [0x00#8, 0x00#8]) [] rfl, decodeAfterEncode .step [] rfl,
    decodeTableWord_of_encode (pad := List.replicate (tablePad 0x240800) 0#8) rfl rfl rfl,
    decodeTableWord_of_encode (pad := List.replicate (tablePad 0xDCDB) 0#8) rfl rfl rfl⟩

end Sys2Proof
end

section
/-! PROOFS. What the transactions of the three lanes do (30_encoding.md): the step on a table word (R65), the codes and
frames of the peer that arrive (R51, R56, R62), what SLIP.DEC makes of a code (R74), the requests sent (R57 to R60). -/

namespace Sys2Proof.Machine

/-! ### The port -/

/-- What is left of a word stands before the others, unless nothing is left. -/
theorem pushRest_eq (lane : Lane) (rest : Bytes) (more : List PortWord) :
    pushRest lane rest more = if rest = [] then more else ⟨lane, rest⟩ :: more := by
  cases rest <;> simp [pushRest]

/-- A word that is not empty is the next one. -/
theorem nextWord_cons {bytes : Bytes} (h : bytes ≠ []) (lane : Lane) (more : List PortWord) :
    nextWord (⟨lane, bytes⟩ :: more) = some (lane, bytes, more) := by
  obtain ⟨b, bs, rfl⟩ := List.exists_cons_of_ne_nil h
  rfl

/-- A step on a word the decoder reads an instruction from. -/
theorem step_of_decode {s : State} {lane : Lane} {bytes rest : Bytes} {more : List PortWord} {i : Instr}
    (hport : s.port = ⟨lane, bytes⟩ :: more) (hbytes : bytes ≠ []) (h : decode lane bytes = .ok (i, rest)) :
    step s = exec i { s with port := if rest = [] then more else ⟨lane, rest⟩ :: more } := by
  simp only [step, hport, nextWord_cons hbytes, h, pushRest_eq]

/-- A table word is read as what the decoder reads from its bytes (R65; log 10). -/
theorem decodeTableWord_eq_some_iff {nbits w : Nat} {i : Instr} :
    decodeTableWord nbits w = some i ↔ ∃ rest, decode (tableLane nbits w) (tableBytes nbits w) = .ok (i, rest) := by
  unfold decodeTableWord
  split <;> simp_all

/-- The padding alone makes a table word's bytes more than none. -/
theorem tableBytes_ne_nil (nbits w : Nat) : tableBytes nbits w ≠ [] := by
  simp [tableBytes, tablePad]

/-- Settles O5: the table word is the port's next one. -/
theorem tableWordRunsNext : Obligations.TableWordRunsNext := by
  intro s nbits w i h
  obtain ⟨rest, h⟩ := decodeTableWord_eq_some_iff.1 h
  exact ⟨rest, h, step_of_decode rfl (tableBytes_ne_nil nbits w) h⟩

/-! ### What the peer sends (R31, R51, R56) -/

/-- Settles O12: each code's meaning is the arrival of its raw bytes. -/
theorem wireCodesArrive : Obligations.WireCodesArrive :=
  fun _ => ⟨rfl, rfl, rfl, fun _ => rfl, fun _ => rfl⟩

/-- A row that stands for the peer's frame puts it, stuffed, at the end of `RXQ` (R56, R62). -/
theorem receive_eq {s : State} {body : Bytes} (hl : legalConfig s.cfg = true) (hb : body.length ≤ 65535)
    (dir op : Byte) (chk : U32) :
    receive dir op chk body s = .next (s.arrive (slipWrapped (frameContent dir op chk body))) :=
  (whenLegal_eq hl _).trans (whenFits_eq hb _)

/-- Settles O19: the frame of each row is the peer's. -/
theorem peerFramesArrive : Obligations.PeerFramesArrive := by
  intro s v body b0 b1 op hl hb
  have arrives (dir op : Byte) := receive_eq hl hb dir op v
  have replies (op : Byte) := receive_eq hl (body := [b0, b1]) (by simp) s.cfg.dirResponse op v
  exact ⟨arrives _ _, arrives _ _, arrives _ _, arrives _ _, arrives _ _, arrives _ _, arrives _ _,
    replies _, replies _, replies _, replies _⟩

/-! ### What SLIP.DEC makes of a code (R51, R74) -/

/-- In a quiet environment SLIP.DEC reads one code from `RXQ`, answers what it means, and leaves nothing there. -/
theorem slipDecode_code {t : State} {code : Bytes} {o : DecOutcome} (hquiet : Quiet t) (hrxq : t.env.rxq = code ++ [])
    (hesc : t.rx.escPending = false) (hdec : ∃ u, slipDecode t = (o, u) ∧ u.rx = t.rx ∧ Got code t u) :
    ∃ u, exec .slipDec t = .next u ∧ u.ret = .outcome o ∧ u.env.rxq = [] ∧ u.rx.escPending = false := by
  obtain ⟨u, hu, hrx, hgot⟩ := hdec
  have hread : t.env.rxq = code ++ u.env.rxq := (hgot.env.noMore (by simp [NoMoreBytes, hquiet])).2
  refine ⟨u.answer (.outcome o), by simp [exec, execSlipDec, hu], rfl, ?_, by rw [State.answer_rx, hrx, hesc]⟩
  simpa [hrxq] using hread

/-- Settles O13: the code arrives in an empty `RXQ`, and SLIP.DEC reads it. -/
theorem wireCodesMean : Obligations.WireCodesMean := by
  refine ⟨fun s hquiet hrxq hesc i o hcode => ?_, rfl, rfl,
    fun v hend hesc => slipEncode_plain (by simpa [isPlainByte_iff] using ⟨hend, hesc⟩)⟩
  have arrived (code : Bytes) : (s.arrive code).env.rxq = code ++ [] := by simp [hrxq]
  have read (code : Bytes) := slipDecode_code (t := s.arrive code) (o := o) hquiet (arrived code) hesc
  rcases hcode with ⟨rfl, rfl⟩ | ⟨rfl, rfl⟩ | ⟨rfl, rfl⟩ | ⟨c, hc, hc', rfl, rfl⟩ | ⟨v, hv, hv', rfl, rfl⟩
  · exact ⟨_, (read [slipEND] (slipDecode_boundary hesc (arrived _))).imp fun _ h => ⟨rfl, h⟩⟩
  · exact ⟨_, (read _ (slipDecode_stuffed (b := slipEND) hesc (arrived _))).imp fun _ h => ⟨rfl, h⟩⟩
  · exact ⟨_, (read _ (slipDecode_stuffed (b := slipESC) hesc (arrived _))).imp fun _ h => ⟨rfl, h⟩⟩
  · exact ⟨_, (read [slipESC, c] (slipDecode_bad hesc (arrived _) hc hc')).imp fun _ h => ⟨rfl, h⟩⟩
  · have hplain : stuffByte v = [v] := stuffByte_plain ((isPlainByte_iff v).2 ⟨hv, hv'⟩)
    exact ⟨_, (read [v] (hplain ▸ slipDecode_stuffed hesc (arrived _))).imp fun _ h => ⟨rfl, h⟩⟩

/-! ### What the block transmits (R57 to R60) -/

/-- A request row that stands for its transmission writes what SEND writes, and changes no register (R83; log 9). -/
theorem transmit_writesFrame {i : Instr} {s : State} {op : Byte} {body : Bytes} {chk : U32}
    (hl : legalConfig s.cfg = true) (h : exec i s = transmit op body chk s) :
    WritesFrame i s (frameOnWire s.cfg op body chk) := by
  have hregs : SameButEnv s (sendFrame op body chk s) := sendFrame_env op body chk s
  exact ⟨_, h.trans (whenLegal_eq hl _), rfl, congrArg (fun t : State => { t with ret := s.ret }) hregs,
    sendFrame_exchanged op body chk s⟩

/-- R54: a check byte as a header's 32-bit check value. -/
theorem le32_zext32 (b : Byte) : le32 (zext32 b) = [b, 0#8, 0#8, 0#8] := by
  have high (k : Nat) (hk : 8 ≤ k) : (zext32 b).extractLsb' k 8 = 0#8 := by
    apply BitVec.eq_of_getLsbD_eq
    intro j hj
    simp [zext32, BitVec.getLsbD_of_ge b (k + j) (by omega)]
  simp [le32, high]

/-- R59: the header and the body of a FlashData request, written out. -/
theorem frameContent_flashData {data : Bytes} (h : data.length = 1024) (dir op chk8 : Byte) (idx : U32) :
    frameContent dir op (zext32 chk8) (flashDataBodyHeader idx ++ data) =
      [dir, op, 0x10#8, 0x04#8, chk8, 0x00#8, 0x00#8, 0x00#8] ++ le32 1024#32 ++ le32 idx ++ le32 0#32 ++ le32 0#32 ++
        data := by
  have hlen : le16 (BitVec.ofNat 16 (flashDataBodyHeader idx ++ data).length) = [0x10#8, 0x04#8] := by
    rw [List.length_append, length_flashDataBodyHeader, h]
    rfl
  rw [frameContent, hdrBytes, hlen, le32_zext32]
  simp [flashDataBodyHeader]

/-- Settles O18: the frames SEND writes are those of R57 to R60. -/
theorem requestRowsTransmit : Obligations.RequestRowsTransmit := by
  intro s hl
  refine ⟨?sync, fun total address => ?begin, fun chk8 idx data hdata => ?data, fun stay => ?fend⟩
  case sync => exact frame_sync s.cfg ▸ transmit_writesFrame hl rfl
  case begin => exact frame_begin hl address total ▸ transmit_writesFrame hl rfl
  case data =>
    rw [← frameContent_flashData hdata]
    refine ⟨fun hchk => ?_, fun hchk => ?_⟩
    · subst hchk
      change WritesFrame _ s (dataFrame s.cfg idx data)
      exact frame_data hl idx data ▸ transmit_writesFrame hl (if_pos ⟨rfl, hdata⟩)
    · have hlen : (flashDataBodyHeader idx ++ data).length ≤ 65535 := by simp [hdata]
      exact (if_neg fun h => hchk h.1).trans (receive_eq hl hlen _ _ _)
  case fend => exact frame_end hl stay ▸ transmit_writesFrame hl rfl

end Sys2Proof.Machine
end

section
/-! PROOFS. The Slip Codec (40_slip_codec.md): the encoder's output and its image (R70, R73), the wrapped frames (R71,
R72), SLIP.DEC on the transport (R74), SLIP.DECALL and its agreement with it (R75), the round trip (R76). -/

namespace Sys2Proof.Machine

/-! ### The encoder's output (R70) -/

/-- No byte is sent as a delimiter. -/
theorem delimiter_notMem_stuffByte (b : Byte) : slipEND ∉ stuffByte b := by
  rcases stuffByte_cases b with ⟨-, h⟩ | ⟨-, h⟩ | ⟨hb, -, h⟩ <;> rw [h]
  · decide
  · decide
  · simpa using Ne.symm hb

theorem delimiter_notMem_slipEncode (s : Bytes) : slipEND ∉ slipEncode s := by
  simp [slipEncode, delimiter_notMem_stuffByte]

/-- The delimiter and the escape byte take one byte more. -/
theorem length_stuffByte (b : Byte) :
    (stuffByte b).length = if b == slipEND || b == slipESC then 2 else 1 := by
  rcases stuffByte_cases b with ⟨rfl, h⟩ | ⟨rfl, h⟩ | ⟨hb, hb', h⟩ <;> rw [h]
  · rfl
  · rfl
  · simp [hb, hb']

theorem length_slipEncode (s : Bytes) :
    (slipEncode s).length = s.length + s.countP (fun b => b == slipEND || b == slipESC) := by
  induction s with
  | nil => rfl
  | cons b t ih =>
    rw [slipEncode_cons, List.length_append, length_stuffByte, ih, List.length_cons, List.countP_cons]
    split <;> omega

/-- Settles O6, by what each byte is sent as. -/
theorem slipEncEscapesEveryByte : Obligations.SlipEncEscapesEveryByte := by
  intro b s
  have hlen := length_slipEncode b
  have hcount := List.countP_le_length (p := fun x => x == slipEND || x == slipESC) (l := b)
  refine ⟨slipEncode b, rfl, rfl, delimiter_notMem_slipEncode b, hlen, by omega, by rintro rfl; rfl, fun h => ?_⟩
  refine slipEncode_plain (List.all_eq_true.2 fun x hx => ?_)
  rcases h x hx with rfl | rfl <;> rfl

/-! ### How raw bytes begin (R73, R75) -/

/-- Raw bytes are none, or a byte as the encoder sends it and more, or they begin with what the encoder never sends: a
delimiter, an escape byte with nothing after it, an escape byte and one it does not combine with. -/
theorem rawBytes_induction {P : Bytes → Prop} (nil : P []) (stuffed : ∀ b q, P q → P (stuffByte b ++ q))
    (boundary : ∀ q, P (slipEND :: q)) (truncated : P [slipESC])
    (bad : ∀ c q, c ≠ slipESCEND → c ≠ slipESCESC → P (slipESC :: c :: q)) : ∀ t, P t
  | [] => nil
  | [b] => by
    rcases stuffByte_cases b with ⟨rfl, -⟩ | ⟨rfl, -⟩ | ⟨-, -, h⟩
    · exact boundary []
    · exact truncated
    · simpa [h] using stuffed b [] nil
  | b :: c :: q => by
    rcases stuffByte_cases b with ⟨rfl, -⟩ | ⟨rfl, -⟩ | ⟨-, -, h⟩
    · exact boundary (c :: q)
    · by_cases hc : c = slipESCEND
      · exact hc ▸ stuffed slipEND q (rawBytes_induction nil stuffed boundary truncated bad q)
      by_cases hc' : c = slipESCESC
      · exact hc' ▸ stuffed slipESC q (rawBytes_induction nil stuffed boundary truncated bad q)
      exact bad c q hc hc'
    · have := stuffed b (c :: q) (rawBytes_induction nil stuffed boundary truncated bad (c :: q))
      rwa [h] at this

/-! ### SLIP.DECALL by how its operand begins (R75) -/

theorem slipDecodeAll_stuffed (b : Byte) (q : Bytes) :
    slipDecodeAll (stuffByte b ++ q) = DecodeAll.cons b (slipDecodeAll q) := by
  rcases stuffByte_cases b with ⟨rfl, h⟩ | ⟨rfl, h⟩ | ⟨hb, hb', h⟩ <;> rw [h]
  · exact slipDecodeAll_escEnd q
  · exact slipDecodeAll_escEsc q
  · exact slipDecodeAll_plain hb hb' q

@[simp] theorem slipDecodeAll_boundary (q : Bytes) : slipDecodeAll (slipEND :: q) = .frameBoundary := by
  cases q <;> simp [slipDecodeAll]

@[simp] theorem slipDecodeAll_truncated : slipDecodeAll [slipESC] = .truncated := by
  simp [slipDecodeAll, slipESC, slipEND]

theorem slipDecodeAll_bad {c : Byte} (h1 : c ≠ slipESCEND) (h2 : c ≠ slipESCESC) (q : Bytes) :
    slipDecodeAll (slipESC :: c :: q) = .badEscape := by
  rw [slipDecodeAll, if_neg (by decide), if_neg (by decide), if_neg h1, if_neg h2]

/-! ### The round trip (R76) -/

@[simp] theorem slipDecodeAll_slipEncode (b : Bytes) : slipDecodeAll (slipEncode b) = .decoded b := by
  induction b with
  | nil => exact slipDecodeAll_nil
  | cons x b ih => rw [slipEncode_cons, slipDecodeAll_stuffed, ih, DecodeAll.cons_decoded]

/-- A byte before a result is decoded only when the result is. -/
theorem DecodeAll.cons_eq_decoded {b : Byte} {r : DecodeAll} {out : Bytes} (h : DecodeAll.cons b r = .decoded out) :
    ∃ s, r = .decoded s ∧ out = b :: s := by
  cases r with
  | decoded s => exact ⟨s, rfl, (DecodeAll.decoded.inj h).symm⟩
  | frameBoundary | badEscape | truncated => cases h

/-- The decoder reads nothing but what the encoder writes. -/
theorem slipDecodeAll_eq_decoded_iff {t b : Bytes} : slipDecodeAll t = .decoded b ↔ slipEncode b = t := by
  refine ⟨fun h => ?_, fun h => h ▸ slipDecodeAll_slipEncode b⟩
  induction t using rawBytes_induction generalizing b with
  | nil => rw [slipDecodeAll_nil] at h; cases h; rfl
  | stuffed x q ih =>
    rw [slipDecodeAll_stuffed] at h
    obtain ⟨s, hq, rfl⟩ := DecodeAll.cons_eq_decoded h
    rw [slipEncode_cons, ih hq]
  | boundary q => rw [slipDecodeAll_boundary] at h; cases h
  | truncated => rw [slipDecodeAll_truncated] at h; cases h
  | bad c q h1 h2 => rw [slipDecodeAll_bad h1 h2] at h; cases h

/-- Settles O10: what decodes to b is the encoding of b, and nothing else. -/
theorem slipRoundTrip : Obligations.SlipRoundTrip := by
  refine ⟨fun b s => ?_, fun t ⟨b, hb⟩ => ⟨b, slipDecodeAll_eq_decoded_iff.2 hb, hb⟩,
    fun t hout b hb => hout ⟨b, slipDecodeAll_eq_decoded_iff.1 hb⟩⟩
  rw [← slipDecodeAll_slipEncode b]
  rfl

/-! ### The encoder's image (R73) -/

theorem slipEncode_injective : Function.Injective slipEncode := fun a b h =>
  DecodeAll.decoded.inj (by rw [← slipDecodeAll_slipEncode a, h, slipDecodeAll_slipEncode])

/-- R73 (b): no delimiter, and each escape byte followed by one it combines with. -/
def WellStuffed (t : Bytes) : Prop :=
  slipEND ∉ t ∧ ∀ k : Nat, t[k]? = some slipESC → t[k + 1]? = some slipESCEND ∨ t[k + 1]? = some slipESCESC

theorem wellStuffed_nil : WellStuffed [] := by simp [WellStuffed]

theorem wellStuffed_cons {b : Byte} {q : Bytes} : WellStuffed (b :: q) ↔
    b ≠ slipEND ∧ (b = slipESC → q[0]? = some slipESCEND ∨ q[0]? = some slipESCESC) ∧ WellStuffed q := by
  rw [WellStuffed, ← Nat.and_forall_add_one, WellStuffed, List.mem_cons, not_or]
  simp only [List.getElem?_cons_zero, List.getElem?_cons_succ, Option.some.injEq, ne_comm (a := b)]
  tauto

/-- A byte as the encoder sends it is well stuffed, whatever follows it. -/
theorem wellStuffed_stuffed {b : Byte} {q : Bytes} : WellStuffed (stuffByte b ++ q) ↔ WellStuffed q := by
  rcases stuffByte_cases b with ⟨-, h⟩ | ⟨-, h⟩ | ⟨hb, hb', h⟩ <;> rw [h]
  · simp [wellStuffed_cons, slipESC, slipEND, slipESCEND]
  · simp [wellStuffed_cons, slipESC, slipEND, slipESCESC]
  · simp [wellStuffed_cons, hb, hb']

theorem wellStuffed_slipEncode (b : Bytes) : WellStuffed (slipEncode b) := by
  induction b with
  | nil => exact wellStuffed_nil
  | cons x b ih => exact wellStuffed_stuffed.2 ih

theorem exists_slipEncode_of_wellStuffed {t : Bytes} (h : WellStuffed t) : ∃ b, slipEncode b = t := by
  induction t using rawBytes_induction with
  | nil => exact ⟨[], rfl⟩
  | stuffed x q ih =>
    obtain ⟨b, rfl⟩ := ih (wellStuffed_stuffed.1 h)
    exact ⟨x :: b, rfl⟩
  | boundary q => exact absurd rfl (wellStuffed_cons.1 h).1
  | truncated => simpa using (wellStuffed_cons.1 h).2.1 rfl
  | bad c q h1 h2 => simpa [h1, h2] using (wellStuffed_cons.1 h).2.1 rfl

/-- Settles O11, by the round trip and by how raw bytes begin. -/
theorem slipEncoderImage : Obligations.SlipEncoderImage :=
  ⟨fun _ _ h => slipEncode_injective h, slipEncode_append, fun _ =>
    ⟨fun ⟨b, hb⟩ => hb ▸ wellStuffed_slipEncode b, exists_slipEncode_of_wellStuffed⟩⟩

/-! ### Wrapped frames (R71, R72, R87) -/

/-- The delimiters are the only ones in a stuffed frame. -/
theorem count_delimiter_slipWrapped (s : Bytes) : (slipWrapped s).count slipEND = 2 := by
  simp [slipWrapped, List.count_eq_zero.2 (delimiter_notMem_slipEncode s)]

/-- PARSE accepts only what SLIP.DECALL decodes between the delimiters. -/
theorem slipDecodeAll_of_parsed {t : Bytes} {dir op : Byte} {chk : U32} {body : Bytes}
    (h : parseFrame (slipRawWrapped t) = .parsed dir op chk body) : ∃ s, slipDecodeAll t = .decoded s := by
  have hcontent : ((slipRawWrapped t).drop 1).take ((slipRawWrapped t).length - 2) = t := by simp [slipRawWrapped]
  rw [parseFrame, hcontent] at h
  cases hd : slipDecodeAll t with
  | decoded s => exact ⟨s, rfl⟩
  | frameBoundary | badEscape | truncated =>
    rw [hd] at h
    split at h <;> cases h

/-- Nothing of a legal configuration's Sync request needs stuffing (R57, U9). -/
theorem syncContent_plain {c : Config} (h : legalConfig c = true) :
    (frameContent c.dirRequest c.opcSync 0#32 (syncPayload c)).all isPlainByte = true := by
  obtain ⟨hdir, hop, hmarker, hfill⟩ := legalConfig_sync h
  have hlen : (le16 (BitVec.ofNat 16 36)).all isPlainByte = true := by decide
  have hchk : (le32 0#32).all isPlainByte = true := by decide
  have hpayload : (syncPayload c).all isPlainByte = true := by
    rw [syncPayload, List.all_append, hmarker, List.all_replicate, hfill]
    rfl
  rw [frameContent, hdrBytes, length_syncPayload]
  simp only [List.all_append, List.all_cons, List.all_nil, hdir, hop, hlen, hchk, hpayload, Bool.and_self]

theorem slipRawWrapped_sync {c : Config} (h : legalConfig c = true) :
    slipRawWrapped (frameContent c.dirRequest c.opcSync 0#32 (syncPayload c)) =
      slipWrapped (frameContent c.dirRequest c.opcSync 0#32 (syncPayload c)) := by
  rw [slipWrapped, slipEncode_plain (syncContent_plain h), slipRawWrapped]

/-- Settles O7: the encoding holds no delimiter, what holds one is no encoding, and R4 keeps both stuffed bytes out of the
Sync request. -/
theorem wrapAndRawwrapDelimit : Obligations.WrapAndRawwrapDelimit := by
  refine ⟨fun b s => ⟨_, rfl, rfl, count_delimiter_slipWrapped b⟩, fun b s => rfl, fun b hb dir op chk body h => ?parse,
    fun c => slipRawWrapped_sync, fun c hc => ?illegal⟩
  case parse =>
    obtain ⟨p, hp⟩ := slipDecodeAll_of_parsed h
    rw [← slipDecodeAll_eq_decoded_iff.1 hp] at hb
    exact delimiter_notMem_slipEncode p hb
  case illegal =>
    refine Bool.eq_false_iff.2 fun hl => ?_
    obtain ⟨-, hop, hmarker, hfill⟩ := legalConfig_sync hl
    rw [isPlainByte_iff] at hop hfill
    simp only [List.all_eq_true, isPlainByte_iff] at hmarker
    rcases hc with h | h | h | h | h | h
    · exact hop.1 h
    · exact hop.2 h
    · exact hfill.1 h
    · exact hfill.2 h
    · exact (hmarker _ h).1 rfl
    · exact (hmarker _ h).2 rfl

/-! ### SLIP.DEC by what stands in `RXQ` (R74) -/

/-- The state SLIP.DEC leaves: `esc_pending` and the environment, and every other register as it was. -/
def State.decoding (s : State) (esc : Bool) (e : Env) : State := { s with env := e, rx := { s.rx with escPending := esc } }

/-- Where `esc_pending` keeps its value, only the environment changes. -/
theorem State.decoding_same {s : State} {esc : Bool} (h : s.rx.escPending = esc) (e : Env) :
    s.decoding esc e = { s with env := e } := by
  rw [← h]
  rfl

/-- SLIP.DEC answers the decoder's outcome. -/
theorem exec_slipDec {s t : State} {o : DecOutcome} (h : slipDecode s = (o, t)) :
    exec .slipDec s = .next (t.answer (.outcome o)) := by simp [exec, execSlipDec, h]

theorem escapedOutcome_bad {b : Byte} (h1 : b ≠ slipESCEND) (h2 : b ≠ slipESCESC) : escapedOutcome b = .badEscape := by
  simp [escapedOutcome, h1, h2]

theorem decodeEscaped_none {s : State} (he : s.rx.escPending = true) (h : s.env.turn.rxq = []) :
    decodeEscaped s = (.escPending, s.decoding true s.env.rxByte.2) := by
  rw [State.decoding_same he]
  simp only [decodeEscaped, Env.rxByte_fst, h, List.head?_nil]

theorem decodeEscaped_some {s : State} {b : Byte} (h : s.env.turn.rxq.head? = some b) :
    decodeEscaped s = (escapedOutcome b, s.decoding false s.env.rxByte.2) := by
  simp only [decodeEscaped, Env.rxByte_fst, h]
  rfl

theorem slipDecode_escaped {s : State} (he : s.rx.escPending = true) : slipDecode s = decodeEscaped s := if_pos he

section NoEscape
variable {s : State} (he : s.rx.escPending = false)
include he

theorem slipDecode_none (h : s.env.turn.rxq = []) : slipDecode s = (.noData, s.decoding false s.env.rxByte.2) := by
  rw [State.decoding_same he]
  simp [slipDecode, he, h, -Env.turn_rxq]

theorem slipDecode_first {b : Byte} {o : DecOutcome} (h : s.env.turn.rxq.head? = some b)
    (ho : firstByteOutcome b = some o) : slipDecode s = (o, s.decoding false s.env.rxByte.2) := by
  rw [State.decoding_same he]
  simp [slipDecode, he, h, ho, -Env.turn_rxq]

/-- An escape byte leaves the rest to the byte after it. -/
theorem slipDecode_escape (h : s.env.turn.rxq.head? = some slipESC) :
    slipDecode s = decodeEscaped (s.decoding true s.env.rxByte.2) := by
  simp [slipDecode, he, h, -Env.turn_rxq, State.decoding]

end NoEscape

/-- The byte after an escape: none, one of the two it combines with, any other. -/
theorem exec_slipDec_escaped {s t : State} (he : t.rx.escPending = true) (hdec : slipDecode s = decodeEscaped t) :
    let answers := fun o esc => exec .slipDec s = .next ((t.decoding esc t.env.rxByte.2).answer (.outcome o))
    (t.env.turn.rxq = [] → answers .escPending true) ∧
    (t.env.turn.rxq.head? = some slipESCEND → answers (.byte slipEND) false) ∧
    (t.env.turn.rxq.head? = some slipESCESC → answers (.byte slipESC) false) ∧
    (∀ b, t.env.turn.rxq.head? = some b → b ≠ slipESCEND → b ≠ slipESCESC → answers .badEscape false) := by
  refine ⟨fun h => ?_, fun h => ?_, fun h => ?_, fun b h h1 h2 => ?_⟩ <;> refine exec_slipDec (hdec.trans ?_)
  · exact decodeEscaped_none he h
  · exact decodeEscaped_some h
  · exact decodeEscaped_some h
  · rw [decodeEscaped_some h, escapedOutcome_bad h1 h2]

/-- Settles O8: the first byte without a pending escape, and the byte after an escape, whether that has just been read or
was pending. -/
theorem slipDecOutcomes : Obligations.SlipDecOutcomes := by
  intro s q1 e1 q2 e2 after
  refine ⟨rfl, rfl, fun he => ⟨?none, ?boundary, ?plain, ?escape⟩, fun he => ?pending⟩
  case none => exact fun h => exec_slipDec (slipDecode_none he h)
  case boundary => exact fun h => exec_slipDec (slipDecode_first he h firstByteOutcome_end)
  case plain => exact fun r h h1 h2 => exec_slipDec (slipDecode_first he h (firstByteOutcome_plain h1 h2))
  case escape => exact fun h => exec_slipDec_escaped (t := s.decoding true e1) rfl (slipDecode_escape he h)
  case pending => exact exec_slipDec_escaped he (slipDecode_escaped he)

/-! ### SLIP.DEC called until it returns no byte (R75) -/

theorem decodeStream_byte {s t : State} {v : Byte} (h : slipDecode s = (.byte v, t)) (n : Nat) :
    decodeStream (n + 1) s = (v :: (decodeStream n t).1, (decodeStream n t).2) := by
  simp [decodeStream, h]

theorem decodeStream_last {s t : State} {o : DecOutcome} (h : slipDecode s = (o, t)) (ho : ∀ v, o ≠ .byte v) (n : Nat) :
    decodeStream n s = ([], o) := by
  cases n with
  | zero => simp [decodeStream, h]
  | succ n =>
    cases o with
    | byte v => exact absurd rfl (ho v)
    | noData | frameBoundary | escPending | badEscape => simp [decodeStream, h]

/-- R75: the outcome that corresponds to each result; the bytes are the same where all were decoded. -/
def DecodeAll.Matches (r : DecodeAll) (stream : Bytes × DecOutcome) : Prop :=
  match r with
  | .decoded out => stream = (out, .noData)
  | .truncated => stream.2 = .escPending
  | .frameBoundary => stream.2 = .frameBoundary
  | .badEscape => stream.2 = .badEscape

theorem DecodeAll.Matches.cons {r : DecodeAll} {stream : Bytes × DecOutcome} (h : r.Matches stream) (v : Byte) :
    (DecodeAll.cons v r).Matches (v :: stream.1, stream.2) := by
  cases r with
  | decoded out => obtain rfl : stream = (out, .noData) := h; rfl
  | truncated | frameBoundary | badEscape => exact h

/-- A quiet environment stays quiet, and what has not been read stays in `RXQ`. -/
theorem Got.quiet {read q : Bytes} {s t : State} (h : Got read s t) (hquiet : Quiet s) (hrxq : s.env.rxq = read ++ q) :
    Quiet t ∧ t.env.rxq = q := by
  obtain ⟨k, hscript, -⟩ := h.env.turns
  have hread := (h.env.noMore (by simp [NoMoreBytes, hquiet])).2
  exact ⟨by simp [Quiet, hscript, hquiet], (List.append_cancel_left (hrxq ▸ hread)).symm⟩

/-- As many calls as there are raw bytes are enough. -/
theorem decodeStream_matches {t : Bytes} {s : State} {n : Nat} (hquiet : Quiet s) (hesc : s.rx.escPending = false)
    (hrxq : s.env.rxq = t) (hn : t.length ≤ n) : (slipDecodeAll t).Matches (decodeStream n s) := by
  induction t using rawBytes_induction generalizing s n with
  | nil =>
    rw [slipDecodeAll_nil, decodeStream_last (slipDecode_none hesc (by rw [Env.turn_quiet _ hquiet, hrxq])) (by simp)]
    rfl
  | stuffed b q ih =>
    obtain ⟨t, hdec, hrx, hgot⟩ := slipDecode_stuffed hesc hrxq
    obtain ⟨hquiet', hrxq'⟩ := hgot.quiet hquiet hrxq
    have hpos : 0 < (stuffByte b).length := by rw [length_stuffByte]; split <;> decide
    rw [List.length_append] at hn
    obtain ⟨m, rfl⟩ : ∃ m, n = m + 1 := ⟨n - 1, by omega⟩
    rw [slipDecodeAll_stuffed, decodeStream_byte hdec]
    exact (ih hquiet' (hrx ▸ hesc) hrxq' (by omega)).cons b
  | boundary q =>
    obtain ⟨t, hdec, -⟩ := slipDecode_boundary hesc hrxq
    rw [slipDecodeAll_boundary, decodeStream_last hdec (by simp)]
    rfl
  | truncated =>
    have hdec := (slipDecode_escape hesc (by rw [Env.turn_quiet _ hquiet, hrxq]; rfl)).trans
      (decodeEscaped_none rfl (by simp [State.decoding, hrxq, hquiet]))
    rw [slipDecodeAll_truncated, decodeStream_last hdec (by simp)]
    rfl
  | bad c q h1 h2 =>
    obtain ⟨t, hdec, -⟩ := slipDecode_bad hesc hrxq h1 h2
    rw [slipDecodeAll_bad h1 h2, decodeStream_last hdec (by simp)]
    rfl

/-- Settles O9, by how the raw bytes begin. -/
theorem slipDecallAgreesWithSlipDec : Obligations.SlipDecallAgreesWithSlipDec :=
  ⟨fun _ _ => rfl, slipDecodeAll_nil, slipDecodeAll_boundary, slipDecodeAll_truncated, slipDecodeAll_escEnd,
    slipDecodeAll_escEsc, fun _ t h1 h2 => slipDecodeAll_bad h1 h2 t, fun _ t h1 h2 => slipDecodeAll_plain h1 h2 t,
    fun _ _ hquiet hesc hrxq => decodeStream_matches hquiet hesc hrxq le_rfl⟩

end Sys2Proof.Machine
end

section
/-! PROOFS. The Packet Protocol (41_packet_protocol.md), its operations that await nothing: the checksum (R80, R81), the
header (R82), SEND (R83), PARSE (R87). -/

namespace Sys2Proof.Machine

/-! ### The checksum (R80, R81) -/

/-- The order of the bytes does not matter. -/
theorem chkFold_perm {a b : Bytes} (h : a.Perm b) : chkFold a = chkFold b :=
  h.foldl_eq' (fun x _ y _ c => by rw [BitVec.xor_assoc, BitVec.xor_comm x y, BitVec.xor_assoc]) chkSeed

/-- A byte is XORed in, wherever it stands. -/
theorem chkFold_middle (a b : Bytes) (x : Byte) : chkFold (a ++ x :: b) = chkFold (a ++ b) ^^^ x := by
  rw [← chkFold_append_single]
  exact chkFold_perm (List.perm_middle.trans (List.perm_append_singleton x (a ++ b)).symm)

/-- Two equal bytes cancel. -/
theorem chkFold_cancel (a b c : Bytes) (x : Byte) : chkFold (a ++ [x] ++ b ++ [x] ++ c) = chkFold (a ++ b ++ c) := by
  have h : a ++ [x] ++ b ++ [x] ++ c = a ++ x :: (b ++ x :: c) := by simp
  rw [h, chkFold_middle, ← List.append_assoc, chkFold_middle, BitVec.xor_assoc, BitVec.xor_self, BitVec.xor_zero]

/-- Zeros change nothing. -/
theorem chkFold_zeros (a b : Bytes) (n : Nat) : chkFold (a ++ List.replicate n 0#8 ++ b) = chkFold (a ++ b) := by
  induction n with
  | zero => simp
  | succ n ih => rw [List.replicate_succ, List.append_assoc, List.cons_append, chkFold_middle, BitVec.xor_zero,
      ← List.append_assoc, ih]

/-- Settles O14: a byte is XORed in wherever it stands. -/
theorem chkFoldsFromTheSeed : Obligations.ChkFoldsFromTheSeed :=
  ⟨fun _ _ => rfl, rfl, chkFold_append_single, rfl, fun _ _ => chkFold_perm, chkFold_cancel, chkFold_zeros⟩

/-- A sequence by its bytes before, at and after an index. -/
theorem eq_take_byteAt_drop {s : Bytes} {k : Nat} (h : k < s.length) : s = s.take k ++ byteAt s k :: s.drop (k + 1) := by
  simp [byteAt, h]

/-- Sequences of one length that agree at every place but one agree before and after it. -/
theorem take_drop_eq_of_byteAt_eq {s s' : Bytes} {k : Nat} (hlen : s.length = s'.length)
    (h : ∀ j, j < s.length → j ≠ k → byteAt s j = byteAt s' j) :
    s.take k = s'.take k ∧ s.drop (k + 1) = s'.drop (k + 1) := by
  have same (j : Nat) (hj : j < s.length) (hk : j ≠ k) : s[j] = s'[j]'(hlen ▸ hj) := by
    simpa [byteAt, hj, hlen ▸ hj] using h j hj hk
  constructor
  · refine List.ext_getElem (by simp [hlen]) fun j h1 _ => ?_
    rw [List.length_take] at h1
    simpa using same j (by omega) (by omega)
  · refine List.ext_getElem (by simp [hlen]) fun j h1 _ => ?_
    rw [List.length_drop] at h1
    simpa using same (k + 1 + j) (by omega) (by omega)

/-- Settles O15: the checksums of two sequences x and y of one context differ by x and y. -/
theorem chkSeesOneByteChange : Obligations.ChkSeesOneByteChange := by
  intro s s' k hlen hk hne hsame
  obtain ⟨htake, hdrop⟩ := take_drop_eq_of_byteAt_eq hlen hsame
  have hs : chkFold s = chkFold (s.take k ++ s.drop (k + 1)) ^^^ byteAt s k :=
    (congrArg chkFold (eq_take_byteAt_drop hk)).trans (chkFold_middle _ _ _)
  have hs' : chkFold s' = chkFold (s.take k ++ s.drop (k + 1)) ^^^ byteAt s' k := by
    rw [htake, hdrop]
    exact (congrArg chkFold (eq_take_byteAt_drop (hlen ▸ hk))).trans (chkFold_middle _ _ _)
  rw [hs, hs']
  generalize chkFold (s.take k ++ s.drop (k + 1)) = c
  refine ⟨?_, fun h => hne ((BitVec.xor_right_inj _).1 h)⟩
  rw [BitVec.xor_comm c, BitVec.xor_assoc, ← BitVec.xor_assoc c, BitVec.xor_self, BitVec.zero_xor]

/-! ### The header (R82) -/

/-- R53: the length field of a header. -/
theorem getLe16_hdrBytes (dir op : Byte) (n : U16) (chk : U32) : getLe16 (hdrBytes dir op n chk) 2 = n := by
  simp [getLe16, hdrBytes, le16, le32, byteAt]

/-- R53: the check-value of a header. -/
theorem getLe32_hdrBytes (dir op : Byte) (n : U16) (chk : U32) : getLe32 (hdrBytes dir op n chk) 4 = chk := by
  simp [getLe32, hdrBytes, le16, le32, byteAt]

/-- Settles O16: the fields are read back from the eight bytes. -/
theorem hdrLaysOutTheHeader : Obligations.HdrLaysOutTheHeader := fun dir op n chk _ =>
  ⟨hdrBytes dir op n chk, rfl, rfl, getLe16_hdrBytes dir op n chk, getLe32_hdrBytes dir op n chk⟩

/-! ### SEND (R83) -/

/-- SEND in a legal configuration, of a payload that fits, is the transmission of its frame. -/
theorem exec_send {s : State} {payload : Bytes} (hb : payload.length ≤ 65535) (op : Byte) (chk : U32) :
    exec (.send op payload chk) s = transmit op payload chk s := congrArg (whenLegal s) (whenFits_eq hb _)

/-- The calls SEND makes: one `TxBlock`, or one `TxByte` a byte. -/
theorem sendFrame_events (op : Byte) (payload : Bytes) (chk : U32) (s : State) :
    (sendFrame op payload chk s).env.events = s.env.events ++
      (if op = s.cfg.opcSync then [.txBlock (frameOnWire s.cfg op payload chk)]
        else (frameOnWire s.cfg op payload chk).map Event.txByte) := by
  simp only [sendFrame, frameOnWire]
  split <;> rfl

/-- Settles O17: SEND transmits one frame, as the request rows do. -/
theorem sendWritesOneFrame : Obligations.SendWritesOneFrame := by
  intro s op payload chk hl hb n content f
  have hf : frameOnWire s.cfg op payload chk = f := by
    simp [f, content, n, frameOnWire, slipRawWrapped, slipWrapped, frameContent, hdrBytes, slipEND]
  have hexec : exec (.send op payload chk) s = .next ((sendFrame op payload chk s).answer .sent) :=
    (exec_send hb op chk).trans (whenLegal_eq hl _)
  refine ⟨hf ▸ transmit_writesFrame hl (exec_send hb op chk), fun t ht => ?_⟩
  cases hexec.symm.trans ht
  rw [State.answer_env, sendFrame_txs, sendFrame_events, hf, List.length_append]
  exact ⟨rfl, rfl⟩

/-! ### PARSE (R87) -/

/-- PARSE looks between the delimiters. -/
theorem content_slipRawWrapped (t : Bytes) :
    ((slipRawWrapped t).drop 1).take ((slipRawWrapped t).length - 2) = t := by simp [slipRawWrapped]

/-- PARSE's test of the delimiters. -/
theorem parseGuard_iff {f : Bytes} :
    (f.length < 2 ∨ byteAt f 0 ≠ slipEND ∨ byteAt f (f.length - 1) ≠ slipEND) ↔ ∀ t, f ≠ slipRawWrapped t := by
  constructor
  · rintro h t rfl
    simp [slipRawWrapped, byteAt] at h
  · intro h
    by_contra hc
    simp only [not_or, not_lt, not_not] at hc
    obtain ⟨hlen, hfirst, hlast⟩ := hc
    obtain ⟨a, q, rfl⟩ := List.exists_cons_of_length_pos (show 0 < f.length by omega)
    obtain ⟨t, b, rfl⟩ := (List.eq_nil_or_concat' q).resolve_left (by rintro rfl; simp at hlen)
    have ha : a = slipEND := hfirst
    have hb : b = slipEND := by simpa [byteAt] using hlast
    exact h t (by simp [slipRawWrapped, ha, hb])

theorem parseFrame_undelimited {f : Bytes} (h : ∀ t, f ≠ slipRawWrapped t) : parseFrame f = .slipFrameError :=
  if_pos (parseGuard_iff.2 h)

/-- What PARSE makes of what the bytes between the delimiters decode to (R87). -/
def parseDecoded : DecodeAll → ParseResult
  | .frameBoundary => .slipFrameError
  | .badEscape | .truncated => .slipDataError
  | .decoded p => if Whole p then .parsed (byteAt p 0) (byteAt p 1) (getLe32 p 4) (p.drop 8) else .slipFrameError

theorem parseFrame_slipRawWrapped (t : Bytes) : parseFrame (slipRawWrapped t) = parseDecoded (slipDecodeAll t) := by
  rw [parseFrame, if_neg fun h => parseGuard_iff.1 h t rfl, content_slipRawWrapped]
  cases slipDecodeAll t with
  | frameBoundary | badEscape | truncated => rfl
  | decoded p =>
    dsimp only [parseDecoded]
    by_cases h8 : p.length < 8
    · rw [if_pos h8, if_neg fun h => absurd h.1 (by omega)]
    · rw [if_neg h8]
      by_cases hlen : p.length = 8 + (getLe16 p 2).toNat
      · rw [if_neg (not_not.2 hlen), if_pos ⟨by omega, hlen⟩]
      · rw [if_pos hlen, if_neg fun h => hlen h.2]

theorem parseFrame_of_slipDecodeAll {t : Bytes} {r : DecodeAll} (h : slipDecodeAll t = r) :
    parseFrame (slipRawWrapped t) = parseDecoded r := h ▸ parseFrame_slipRawWrapped t

/-- A stuffed content is accepted when its length field fits it. -/
theorem parseFrame_slipWrapped (p : Bytes) : parseFrame (slipWrapped p) =
    if Whole p then .parsed (byteAt p 0) (byteAt p 1) (getLe32 p 4) (p.drop 8) else .slipFrameError :=
  parseFrame_of_slipDecodeAll (slipDecodeAll_slipEncode p)

/-- Whole contents are the header and body of their own fields (R52, R53). -/
theorem frameContent_of_whole {p : Bytes} (h : Whole p) :
    (p.drop 8).length ≤ 65535 ∧ p = frameContent (byteAt p 0) (byteAt p 1) (getLe32 p 4) (p.drop 8) := by
  obtain ⟨h8, hlen⟩ := h
  have hbody : (p.drop 8).length = (getLe16 p 2).toNat := by rw [List.length_drop]; omega
  have hlt := (getLe16 p 2).isLt
  refine ⟨by omega, ?_⟩
  rw [frameContent, hbody, BitVec.ofNat_toNat, BitVec.setWidth_eq, hdrBytes, getLe16, getLe32, le16_word16, le32_word32]
  match p, h8 with
  | b0 :: b1 :: b2 :: b3 :: b4 :: b5 :: b6 :: b7 :: q, _ => rfl

/-- The frame of its fields is what PARSE reads them from (R87). -/
theorem parseFrame_eq_parsed_iff {f : Bytes} {dir op : Byte} {chk : U32} {body : Bytes} :
    parseFrame f = .parsed dir op chk body ↔ body.length ≤ 65535 ∧ f = slipWrapped (frameContent dir op chk body) := by
  constructor
  · intro h
    by_cases hf : ∀ t, f ≠ slipRawWrapped t
    · cases (parseFrame_undelimited hf).symm.trans h
    simp only [not_forall, not_not] at hf
    obtain ⟨t, rfl⟩ := hf
    obtain ⟨p, hp⟩ := slipDecodeAll_of_parsed h
    obtain rfl := slipDecodeAll_eq_decoded_iff.1 hp
    change parseFrame (slipWrapped p) = _ at h
    rw [parseFrame_slipWrapped] at h
    split at h
    · rename_i hw
      cases h
      obtain ⟨hlen, hcontent⟩ := frameContent_of_whole hw
      exact ⟨hlen, congrArg slipWrapped hcontent⟩
    · cases h
  · rintro ⟨hb, rfl⟩
    obtain ⟨hw, hdir, hop, -, hchk⟩ := whole_content dir op chk body hb
    rw [parseFrame_slipWrapped, if_pos hw, hdir, hop, hchk, frameContent, List.drop_left' (length_hdrBytes ..)]

/-- Settles O26, by what SLIP.DECALL makes of the bytes between the delimiters. -/
theorem parseAcceptsExactlyFrames : Obligations.ParseAcceptsExactlyFrames :=
  ⟨fun _ _ => rfl, fun _ _ _ _ _ => parseFrame_eq_parsed_iff, fun _ => parseFrame_undelimited,
    fun _ => parseFrame_of_slipDecodeAll,
    fun _ h => h.elim (parseFrame_of_slipDecodeAll (r := .badEscape)) (parseFrame_of_slipDecodeAll (r := .truncated)),
    fun p hp => (parseFrame_slipWrapped p).trans (if_neg hp)⟩

end Sys2Proof.Machine
end

section
/-! PROOFS. The Packet Protocol (41_packet_protocol.md), its operations that end in a RECV and are called by themselves:
how RECV, CMD, FBEGIN and FEND begin, what they read, and how they return or suspend (R84 to R86, R110, R115, R132). -/

namespace Sys2Proof.Machine

/-! ### An operation called by itself (log 12) -/

/-- RECV and the commands: their one RECV's end is their own (R84, R86, R110, R115). -/
abbrev UnitOp.single (op : UnitOp) : Prop := op = .recv ∨ op = .cmd ∨ op = .fbegin ∨ op = .fend

/-- The code such an operation makes of its RECV's: the commands demand a body of two bytes (R86). -/
def UnitOp.code (op : UnitOp) (st : ResultCode) (bodyLen : U16) : ResultCode :=
  if op = .recv then st else replyStatus st bodyLen

theorem opContinue_single {op : UnitOp} (h : op.single) (st : ResultCode) (s : State) :
    opContinue op st s = .finished (op.code st s.rx.bodyLen) s := by
  rcases h with rfl | rfl | rfl | rfl <;> rfl

theorem resume_single {op : UnitOp} (h : op.single) (st : ResultCode) (s : State) :
    resume (.unit op) st s = unitReturn (op.code st s.rx.bodyLen) s := by
  simp only [resume, Caller.op, opContinue_single h]
  rfl

/-- The operation op, called by itself in s, has come to x: it wrote `sent` and read `read`, and no register outside the
receive machine has changed. -/
structure Calling (op : UnitOp) (sent read : Bytes) (s x : State) : Prop where
  regs : SameButRx { s with unitCall := some op } x
  env : Exchanged sent read s.env x.env

section Calling
variable {op : UnitOp} {sent read : Bytes} {s x : State}

theorem Calling.refl (h : s.unitCall = some op) : Calling op [] [] s s := ⟨by simp [SameButRx, ← h], .refl _⟩

theorem Calling.got {r : Bytes} {y : State} (h : Calling op sent read s x) (hg : Got r x y) :
    Calling op sent (read ++ r) s y := ⟨h.regs.trans hg.regs, h.env.read hg.env⟩

/-- It returns, and nothing waits any more. -/
theorem Calling.returned (h : Calling op sent read s x) (ha : x.rx.active = false) (st : ResultCode) :
    Returned st sent read s (unitReturn st x) :=
  ⟨rfl, ⟨ha, rfl⟩, congrArg (fun u : State => { u with ret := s.ret, unitCall := s.unitCall }) h.regs, h.env⟩

/-- It suspends, and its RECV waits. -/
theorem Calling.suspended (h : Calling op sent read s x) (ha : x.rx.active = true) :
    Suspended op sent read s x.inProgress := by
  obtain ⟨-, hsession, horch, -, -, -, -, -, -, -, -, hunit⟩ := h.regs.fields
  refine ⟨?_, ⟨ha, hunit⟩, congrArg (fun u : State => { u with ret := s.ret, unitCall := s.unitCall }) h.regs, h.env⟩
  rw [State.inProgress_ret, percent_congr (s := s) horch hsession]

/-- The RECV polled next ends, and the operation with it. -/
theorem Calling.await_ended {i : Instr} {r : Bytes} {st : ResultCode} {y : State} (h : Calling op sent read s x)
    (hop : op.single) (hexec : exec i s = .next (await (.unit op) x)) (hpoll : poll x = .ended st y) (hg : Got r x y) :
    ∃ t, exec i s = .next t ∧ t.rx = y.rx ∧ Returned (op.code st y.rx.bodyLen) sent (read ++ r) s t :=
  ⟨unitReturn (op.code st y.rx.bodyLen) y, by rw [hexec, Machine.await_ended hpoll, resume_single hop], rfl,
    (h.got hg).returned (poll_ended_inactive hpoll) _⟩

/-- The RECV polled next finds no byte to go on with, and the operation suspends. -/
theorem Calling.await_wait {i : Instr} {r : Bytes} {y : State} (h : Calling op sent read s x)
    (hexec : exec i s = .next (await (.unit op) x)) (hpoll : poll x = .wait y) (ha : y.rx.active = true) (hg : Got r x y) :
    ∃ t, exec i s = .next t ∧ t.rx = y.rx ∧ Suspended op sent (read ++ r) s t :=
  ⟨y.inProgress, by rw [hexec, await_eq, hpoll], rfl, (h.got hg).suspended ha⟩

end Calling

/-! ### How RECV and CMD begin (R84, R86) -/

/-- RECV called by itself, at its first poll. -/
def recvBegun (o : Byte) (T : U32) (s : State) : State := beginRecv o T { s with unitCall := some .recv }

/-- An operation that is one CMD, called by itself, at its first poll. -/
def cmdBegun (op : UnitOp) (o : Byte) (payload : Bytes) (chk T : U32) (s : State) : State :=
  beginCmd o payload chk T { s with unitCall := some op }

section Begin
variable {s : State} (o : Byte) (T : U32)

theorem recvBegun_calling (s : State) : Calling .recv [] [] s (recvBegun o T s) := ⟨rfl, beginRecv_exchanged o T _⟩

theorem cmdBegun_calling (op : UnitOp) (payload : Bytes) (chk : U32) (s : State) :
    Calling op (frameOnWire s.cfg o payload chk) [] s (cmdBegun op o payload chk T s) :=
  ⟨beginCmd_regs o payload chk T _, beginCmd_exchanged o payload chk T { s with unitCall := some op }⟩

theorem recvBegun_punctual (h : Punctual s s.env.now) :
    Punctual (recvBegun o T s) (recvBegun o T s).env.stamps.rx :=
  (beginRecv_starts o T { s with unitCall := some .recv }).punctual rfl (beginRecv_exchanged o T _) h

theorem cmdBegun_punctual (op : UnitOp) (payload : Bytes) (chk : U32) (h : Punctual s s.env.now) :
    Punctual (cmdBegun op o payload chk T s) (cmdBegun op o payload chk T s).env.stamps.rx :=
  (beginCmd_starts o payload chk T { s with unitCall := some op }).punctual
    (cmdBegun_calling o T op payload chk s).regs.fields.1 (beginCmd_exchanged o payload chk T _) h

theorem exec_recv (hl : legalConfig s.cfg = true) (hp : Punctual s s.env.now) :
    exec (.recv o T) s = .next (await (.unit .recv) (recvBegun o T s)) :=
  (whenLegal_eq hl _).trans (whenPunctual_eq (await_punctual (recvBegun_punctual o T hp)))

theorem runUnit_cmd (op : UnitOp) (payload : Bytes) (chk : U32) (hp : Punctual s s.env.now) :
    runUnit op (beginCmd o payload chk T) s = .next (await (.unit op) (cmdBegun op o payload chk T s)) :=
  whenPunctual_eq (await_punctual (cmdBegun_punctual o T op payload chk hp))

end Begin

/-- The instruction i, in s, is one CMD of the operation op (R86, R110, R115). -/
abbrev RunsCmd (i : Instr) (s : State) (op : UnitOp) (o : Byte) (payload : Bytes) (chk T : U32) : Prop :=
  exec i s = runUnit op (beginCmd o payload chk T) s

theorem runsCmd_cmd {s : State} {payload : Bytes} (hl : legalConfig s.cfg = true) (hb : payload.length ≤ 65535) (o : Byte)
    (chk T : U32) : RunsCmd (.cmd o payload chk T) s .cmd o payload chk T :=
  (whenLegal_eq hl _).trans (whenFits_eq hb _)

theorem runsCmd_fbegin {s : State} (hl : legalConfig s.cfg = true) (address totalSize : U32) :
    RunsCmd (.fbegin address totalSize) s .fbegin s.cfg.opcFlashBegin (flashBeginBody address totalSize) 0#32
      (eraseTimeout s.cfg totalSize) := whenLegal_eq hl _

theorem runsCmd_fend {s : State} (hl : legalConfig s.cfg = true) (reboot : Bool) :
    RunsCmd (.fend reboot) s .fend s.cfg.opcFlashEnd (flashEndBody (!reboot)) 0#32 s.cfg.tDefault := whenLegal_eq hl _

/-! ### A whole frame (R84 to R86) -/

/-- Settles O20: RECV skips what is no frame, and returns by the whole frame that follows. -/
theorem recvReadsOneFrame : Obligations.RecvReadsOneFrame := by
  intro s op timeout g rest r hl hslack hp hg hr hrxq
  have hc := recvBegun_calling op timeout s
  obtain ⟨z, hz⟩ := hc.env.rest (b := []) hrxq
  obtain ⟨t, hawait, hheld, htimeout, -, hgot, -⟩ := await_reply (.unit .recv) g r (recvBegun op timeout s) (rest ++ z)
    (begun_onTime op timeout _ hslack) (begun op timeout _) hg hr (by simpa using hz)
  refine ⟨unitReturn (headerCode s.cfg r.dir r.op op) t, ?_, (hc.got hgot).returned hheld.active _, hheld.state, hheld.esc,
    hheld.expected, htimeout, hheld.hdr, hheld.hdrIdx, hheld.len, hheld.idx, hheld.value, hheld.body⟩
  rw [exec_recv op timeout hl hp, hawait, resume_single (.inl rfl)]
  rfl

/-- A command of one CMD is answered by the first frame that comes, as CMD answers (R86). -/
theorem commandAnswered_of_runsCmd {i : Instr} {s : State} {op : UnitOp} {o : Byte} {payload : Bytes} {chk T : U32}
    (hop : op.single) (hcmd : op ≠ .recv) (h : RunsCmd i s op o payload chk T) :
    CommandAnswered i s o (frameOnWire s.cfg o payload chk) T := by
  intro g rest r hslack hp hg hr hrxq
  have hc := cmdBegun_calling o T op payload chk s
  obtain ⟨z, hz⟩ := hc.env.rest (b := []) hrxq
  obtain ⟨hbegun, hontime⟩ := begin_cmd_facts o payload chk T { s with unitCall := some op } hslack
  obtain ⟨t, hawait, hheld, htimeout, -, hgot, -⟩ := await_reply (.unit op) g r (cmdBegun op o payload chk T s) (rest ++ z)
    hontime hbegun hg hr (by simpa using hz)
  have hcfg : (cmdBegun op o payload chk T s).cfg = s.cfg := hc.regs.fields.1
  rw [hcfg] at hawait hheld
  have hcode : op.code (headerCode s.cfg r.dir r.op o) t.rx.bodyLen = r.code s.cfg o :=
    (if_neg hcmd).trans (held_code hheld s.cfg)
  refine ⟨unitReturn (r.code s.cfg o) t, ?_, (hc.got hgot).returned hheld.active _, hheld.value, hheld.len, hheld.expected,
    htimeout, hheld.body⟩
  rw [h, runUnit_cmd o T op payload chk hp, hawait, resume_single hop, ← hcode]
  rfl

/-- Settles O24: CMD is one CMD. -/
theorem cmdAnswered : Obligations.CmdAnswered := fun _ op _ chk timeout hl hb =>
  commandAnswered_of_runsCmd (.inr (.inl rfl)) (by decide) (runsCmd_cmd hl hb op chk timeout)

/-! ### Bytes before the start marker (R84, D13) -/

/-- They are dropped, and the RECV goes on waiting for the marker. -/
theorem await_skip (c : Caller) (g : Bytes) (s : State) (z : Bytes) (ht : OnTime s) (hs : s.rx.state = .awaitingStart)
    (hg : slipEND ∉ g) (hq : s.env.rxq = g ++ z) :
    ∃ t, await c s = await c t ∧ t.rx = s.rx ∧ Got g s t ∧ OnTime t := by
  induction g generalizing s z with
  | nil => exact ⟨s, rfl, rfl, .refl s, ht⟩
  | cons b g ih =>
    obtain ⟨hb, hg⟩ := List.ne_and_not_mem_of_not_mem_cons hg
    have hq' : s.atPoll.env.rxq = b :: (g ++ z ++ turnRx s.env.script) := by simp [hq]
    have hpoll : poll s = .again { s.atPoll with env := s.atPoll.env.rxByte.2 } := by
      rw [ht.poll, hs]
      simp only [pollStart, rxByte_some hq', if_neg hb.symm]
    have hgot : Got [b] s { s.atPoll with env := s.atPoll.env.rxByte.2 } :=
      ⟨rfl, (atPoll_exchanged s).read (Exchanged.rxByte hq')⟩
    obtain ⟨z', hz⟩ := hgot.env.rest (q := g ++ z) hq
    obtain ⟨t, h1, h2, h3, h4⟩ := ih _ (z ++ z') (ht.mono hgot rfl rfl) hs hg (by rw [hz, List.append_assoc])
    exact ⟨t, (await_again hpoll).trans h1, h2, hgot.trans h3, h4⟩

/-! ### The poll at which a frame breaks (R84) -/

theorem atPoll_got (s : State) : Got [] s s.atPoll := ⟨rfl, atPoll_exchanged s⟩

/-- RECV's exit reads nothing more. -/
theorem Got.endRecv {read : Bytes} {s t : State} (h : Got read s t) (st : ResultCode) :
    ∃ u, Machine.endRecv st t = .ended st u ∧ Got read s u := ⟨_, rfl, h.regs.trans rfl, h.env⟩

section LastPoll
variable {s : State} (ht : OnTime s)
include ht

/-- A delimiter inside a frame (D12). -/
theorem poll_boundary {q : Bytes} (hs : s.rx.state = .readingHeader ∨ s.rx.state = .readingBody)
    (he : s.rx.escPending = false) (hq : s.env.rxq = slipEND :: q) :
    ∃ t, poll s = .ended .slipFrameError t ∧ Got [slipEND] s t := by
  obtain ⟨t, hdec, -, hgot⟩ := slipDecode_boundary (s := s.atPoll) (q := q ++ turnRx s.env.script) he (by simp [hq])
  rw [poll_inside ht hs, pollDecoded, hdec]
  exact ((atPoll_got s).trans hgot).endRecv .slipFrameError

/-- An escape byte and one it does not combine with (D16). -/
theorem poll_badEscape {b : Byte} {q : Bytes} (hs : s.rx.state = .readingHeader ∨ s.rx.state = .readingBody)
    (he : s.rx.escPending = false) (hq : s.env.rxq = slipESC :: b :: q) (h1 : b ≠ slipESCEND) (h2 : b ≠ slipESCESC) :
    ∃ t, poll s = .ended .slipDataError t ∧ Got [slipESC, b] s t := by
  obtain ⟨t, hdec, -, hgot⟩ := slipDecode_bad (s := s.atPoll) (q := q ++ turnRx s.env.script) he (by simp [hq]) h1 h2
  rw [poll_inside ht hs, pollDecoded, hdec]
  exact ((atPoll_got s).trans hgot).endRecv .slipDataError

/-- Another byte than the end marker after a whole frame. -/
theorem poll_noEnd {b : Byte} {q : Bytes} (hs : s.rx.state = .awaitingEnd) (hq : s.env.rxq = b :: q) (hb : b ≠ slipEND) :
    ∃ t, poll s = .ended .slipFrameError t ∧ Got [b] s t := by
  have hq' : s.atPoll.env.rxq = b :: (q ++ turnRx s.env.script) := by simp [hq]
  have hgot : Got [b] s { s.atPoll with env := s.atPoll.env.rxByte.2 } :=
    ⟨rfl, (atPoll_exchanged s).read (Exchanged.rxByte hq')⟩
  rw [ht.poll, hs]
  simp only [pollEnd, rxByte_some hq', if_neg hb]
  exact hgot.endRecv .slipFrameError

end LastPoll

/-! ### The poll that finds no byte to go on with (R84, R132) -/

/-- The environment's turn brings nothing to an empty queue. -/
theorem turn_rxq_of_noMoreBytes {e : Env} (hn : NoMoreBytes e) (hq : e.rxq = []) : e.turn.rxq = [] := by
  rw [Env.turn_rxq, hq]
  cases h : e.script with
  | nil => rfl
  | cons a l =>
    rw [NoMoreBytes, h, List.flatMap_cons, List.append_eq_nil_iff] at hn
    exact hn.1

section Silent
variable {s : State} (ht : OnTime s) (hn : NoMoreBytes s.env) (he : s.rx.escPending = false)
include ht hn he

/-- The queue is empty. -/
theorem poll_empty (hq : s.env.rxq = []) (hs : s.rx.state ≠ .complete) :
    ∃ t, poll s = .wait t ∧ t.rx = s.rx ∧ Got [] s t := by
  obtain ⟨hn', hq'⟩ := (atPoll_exchanged s).noMore hn
  have hturn : s.atPoll.env.turn.rxq = [] := turn_rxq_of_noMoreBytes hn' (hq'.symm.trans hq)
  have hnone : s.atPoll.env.rxByte.1 = none := by rw [Env.rxByte_fst, hturn]; rfl
  have hdec : slipDecode s.atPoll = (.noData, { s.atPoll with env := s.atPoll.env.rxByte.2 }) :=
    (slipDecode_none (s := s.atPoll) he hturn).trans (by rw [State.decoding_same (s := s.atPoll) he])
  refine ⟨{ s.atPoll with env := s.atPoll.env.rxByte.2 }, ?_, rfl, rfl,
    (atPoll_exchanged s).read (Exchanged.rxNone hturn)⟩
  rw [ht.poll]
  cases h : s.rx.state with
  | awaitingStart => simp only [pollStart, hnone]
  | readingHeader | readingBody => simp only [pollDecoded, hdec]
  | awaitingEnd => simp only [pollEnd, hnone]
  | complete => exact absurd h hs

/-- The queue ends with an escape byte. -/
theorem poll_cutEscape (hq : s.env.rxq = [slipESC]) (hs : s.rx.state = .readingHeader ∨ s.rx.state = .readingBody) :
    ∃ t, poll s = .wait t ∧ t.rx = { s.rx with escPending := true } ∧ Got [slipESC] s t := by
  obtain ⟨hn', hq'⟩ := (atPoll_exchanged s).noMore hn
  have hread : Exchanged [] [slipESC] s.atPoll.env s.atPoll.env.rxByte.2 := Exchanged.rxByte (hq'.symm.trans hq)
  obtain ⟨hn'', hq''⟩ := hread.noMore hn'
  have hturn : s.atPoll.env.rxByte.2.turn.rxq = [] :=
    turn_rxq_of_noMoreBytes hn'' (List.append_cancel_left (hq''.symm.trans (hq'.symm.trans hq)))
  have hesc : s.atPoll.env.turn.rxq.head? = some slipESC := by rw [Env.turn_rxq, hq'']; rfl
  have hdec : slipDecode s.atPoll = (.escPending, s.atPoll.decoding true s.atPoll.env.rxByte.2.rxByte.2) :=
    (slipDecode_escape (s := s.atPoll) he hesc).trans (decodeEscaped_none rfl hturn)
  refine ⟨s.atPoll.decoding true s.atPoll.env.rxByte.2.rxByte.2, ?_, rfl, rfl,
    ((atPoll_exchanged s).read hread).read (Exchanged.rxNone hturn)⟩
  rw [poll_inside ht hs, pollDecoded, hdec]

end Silent

/-! ### Broken frames (R84) -/

/-- RECV inside a frame or at its end: it has read the start marker and the logical bytes p, and `tail` comes next. -/
structure Opened (o : Byte) (T : U32) (read p tail : Bytes) (s x : State) : Prop where
  exec : Machine.exec (.recv o T) s = .next (await (.unit .recv) x)
  calling : Calling .recv [] read s x
  content : At x.cfg.respBodyCap (recvBegun o T s).rx p x.rx
  onTime : OnTime x
  next : ∃ z, x.env.rxq = tail ++ z
  silent : NoMoreBytes s.env → NoMoreBytes x.env ∧ x.env.rxq = tail

theorem exists_opened {s : State} {T : U32} {g p tail : Bytes} (hl : legalConfig s.cfg = true)
    (hslack : slack s.env ≤ T.toNat) (hp : Punctual s s.env.now) (hg : slipEND ∉ g) (hP : Whole p ∨ Unfinished p)
    (hrxq : s.env.rxq = g ++ [slipEND] ++ slipEncode p ++ tail) (o : Byte) :
    ∃ x, Opened o T (g ++ [slipEND] ++ slipEncode p) p tail s x := by
  have hc := recvBegun_calling o T s
  obtain ⟨z, hz⟩ := hc.env.rest (b := []) hrxq
  obtain ⟨x, hawait, hat, hgot, hontime⟩ := await_open (.unit .recv) g p (recvBegun o T s) (tail ++ z)
    (begun_onTime o T _ hslack) (begun o T _) hg hP (by simpa using hz)
  have hread : g ++ slipEND :: slipEncode p = g ++ [slipEND] ++ slipEncode p := by simp
  rw [hread] at hgot
  have hx := hc.got hgot
  refine ⟨x, by rw [exec_recv o T hl hp, hawait], hx, by rw [hgot.regs.fields.1]; exact hat, hontime, hx.env.rest hrxq,
    fun hn => ?_⟩
  obtain ⟨hn', hrest⟩ := hx.env.noMore hn
  exact ⟨hn', (List.append_cancel_left (hrxq.symm.trans hrest)).symm⟩

section Opened
variable {o : Byte} {T : U32} {read p tail r : Bytes} {s x y : State} (h : Opened o T read p tail s x)
include h

theorem Opened.returned {st : ResultCode} (hpoll : poll x = .ended st y) (hgot : Got r x y) :
    ∃ t, Machine.exec (.recv o T) s = .next t ∧ Returned st [] (read ++ r) s t := by
  obtain ⟨t, hexec, -, ht⟩ := h.calling.await_ended (.inl rfl) h.exec hpoll hgot
  exact ⟨t, hexec, ht⟩

theorem Opened.suspended {esc : Bool} (hpoll : poll x = .wait y) (hy : y.rx = { x.rx with escPending := esc })
    (hgot : Got r x y) :
    ∃ t, Machine.exec (.recv o T) s = .next t ∧ Suspended .recv [] (read ++ r) s t ∧ t.rx.escPending = esc := by
  obtain ⟨t, hexec, hrx, ht⟩ := h.calling.await_wait h.exec hpoll (by rw [hy]; exact h.content.active) hgot
  exact ⟨t, hexec, ht, by rw [hrx, hy]⟩

/-- The bytes have run out. -/
theorem Opened.suspended_empty (htail : tail = []) (hn : NoMoreBytes s.env) (hs : x.rx.state ≠ .complete) :
    ∃ t, Machine.exec (.recv o T) s = .next t ∧ Suspended .recv [] read s t ∧ t.rx.escPending = false := by
  obtain ⟨hn', hrxq⟩ := h.silent hn
  obtain ⟨y, hpoll, hy, hgot⟩ := poll_empty h.onTime hn' h.content.esc (hrxq.trans htail) hs
  simpa using h.suspended hpoll (hy.trans (by rw [← h.content.esc])) hgot

end Opened

/-- No start marker comes: RECV drops what there is, and waits. -/
theorem recv_noStart {s : State} {T : U32} {g : Bytes} (hl : legalConfig s.cfg = true) (hslack : slack s.env ≤ T.toNat)
    (hp : Punctual s s.env.now) (hg : slipEND ∉ g) (hn : NoMoreBytes s.env) (hrxq : s.env.rxq = g) (o : Byte) :
    ∃ t, exec (.recv o T) s = .next t ∧ Suspended .recv [] g s t := by
  have hc := recvBegun_calling o T s
  obtain ⟨z, hz⟩ := hc.env.rest (b := []) hrxq
  obtain ⟨x, hawait, hrx, hgot, hontime⟩ := await_skip (.unit .recv) g (recvBegun o T s) z
    (begun_onTime o T _ hslack) rfl hg hz
  have hx : Calling .recv [] g s x := hc.got hgot
  obtain ⟨hn', hrest⟩ := hx.env.noMore hn
  have hempty : x.env.rxq = [] := by simpa using hrest.symm.trans hrxq
  have hstate : x.rx.state = .awaitingStart := by rw [hrx]; rfl
  obtain ⟨y, hpoll, hy, hgot'⟩ := poll_empty hontime hn' (by rw [hrx]; rfl) hempty (by rw [hstate]; decide)
  have hexec := (exec_recv o T hl hp).trans (congrArg _ hawait)
  obtain ⟨t, ht, -, hsuspended⟩ := hx.await_wait hexec hpoll (by rw [hy, hrx]; rfl) hgot'
  exact ⟨t, ht, by simpa using hsuspended⟩

/-- Settles O21, by what the poll at the break finds. -/
theorem recvOnBrokenFrames : Obligations.RecvOnBrokenFrames := by
  intro s op timeout g p tail hl hslack hp hg
  refine ⟨fun hn hrxq => recv_noStart hl hslack hp hg hn hrxq op, fun hrxq => ⟨fun hu => ?unfinished, fun hw => ?whole⟩⟩
  case unfinished =>
    obtain ⟨x, h⟩ := exists_opened hl hslack hp hg (.inr hu) hrxq op
    have hs : x.rx.state = .readingHeader ∨ x.rx.state = .readingBody := h.content.reading hu
    obtain ⟨z, hz⟩ := h.next
    refine ⟨fun rest htail => ?boundary, fun b rest htail h1 h2 => ?badEscape, fun hn htail => ?empty,
      fun hn htail => ?cutEscape⟩
    case boundary =>
      obtain ⟨y, hpoll, hgot⟩ := poll_boundary h.onTime (q := rest ++ z) hs h.content.esc (by rw [hz, htail]; rfl)
      exact h.returned hpoll hgot
    case badEscape =>
      obtain ⟨y, hpoll, hgot⟩ :=
        poll_badEscape h.onTime (q := rest ++ z) hs h.content.esc (by rw [hz, htail]; rfl) h1 h2
      exact h.returned hpoll hgot
    case empty => exact h.suspended_empty htail hn (by rcases hs with hs | hs <;> rw [hs] <;> decide)
    case cutEscape =>
      obtain ⟨hn', hrest⟩ := h.silent hn
      obtain ⟨y, hpoll, hy, hgot⟩ := poll_cutEscape h.onTime hn' h.content.esc (hrest.trans htail) hs
      exact h.suspended hpoll hy hgot
  case whole =>
    obtain ⟨x, h⟩ := exists_opened hl hslack hp hg (.inl hw) hrxq op
    have hs : x.rx.state = .awaitingEnd := h.content.awaitingEnd hw
    obtain ⟨z, hz⟩ := h.next
    refine ⟨fun b rest htail hb => ?noEnd, fun hn htail => ?empty⟩
    case noEnd =>
      obtain ⟨y, hpoll, hgot⟩ := poll_noEnd h.onTime (q := rest ++ z) hs (by rw [hz, htail]; rfl) hb
      exact h.returned hpoll hgot
    case empty =>
      obtain ⟨t, hexec, ht, -⟩ := h.suspended_empty htail hn (by rw [hs]; decide)
      exact ⟨t, hexec, ht⟩

/-! ### Late polls (R166) -/

/-- A late poll is the end of its RECV, before anything is read. -/
theorem poll_late {s : State} (h : Late s) : poll s = endRecv .timeout s.atPoll := by
  have ht : timedOut s.cfg.clkW s.env.turn.now s.rx.start s.rx.timeout = true := decide_eq_true h
  simp only [poll, Env.readClock_fst, State.atPoll_cfg, State.atPoll_rx, timedOut_mod, ht, if_true]

theorem UnitOp.code_timeout (op : UnitOp) (n : U16) : op.code .timeout n = .timeout := by
  rw [UnitOp.code, replyStatus_of_ne_success (by decide), ite_self]

/-- An operation called by itself is what STEP resumes. -/
theorem callerOf_single {s : State} {op : UnitOp} (h : s.unitCall = some op) (hop : op.single) :
    callerOf s = some (.unit op) := by
  rcases hop with rfl | rfl | rfl | rfl <;> simp [callerOf, h]

/-- Settles O23: the late poll ends the RECV, and the operation passes the code on. -/
theorem pendingRecvTimesOutFirst : Obligations.PendingRecvTimesOutFirst := by
  intro s op hl ha hunit hop hp hlate
  have hexec : exec .step s = .next (await (.unit op) s) :=
    (exec_step_resumed hl ha (callerOf_single hunit hop)).trans (whenPunctual_eq (await_punctual hp))
  obtain ⟨y, hend, hgot⟩ := (atPoll_got s).endRecv .timeout
  obtain ⟨t, hstep, -, ht⟩ := (Calling.refl hunit).await_ended hop hexec ((poll_late hlate).trans hend) hgot
  exact ⟨t, hstep, op.code_timeout _ ▸ ht⟩

/-! ### Whatever the environment does (R161, R163) -/

/-- The codes an operation can return (R161). -/
def UnitOp.codes (op : UnitOp) : List ResultCode := if op = .recv then recvCodes else .badReply :: recvCodes

theorem UnitOp.code_mem_codes {st : ResultCode} (h : st ∈ recvCodes) (op : UnitOp) (n : U16) : op.code st n ∈ op.codes := by
  unfold UnitOp.code UnitOp.codes
  split
  · exact h
  · exact reply_codes h n

/-- The operation op, called by itself in s, polls its RECV in x. -/
structure Polling (op : UnitOp) (frame : Bytes) (expected : Byte) (T : U32) (s x : State) : Prop where
  calling : ∃ read, Calling op frame read s x
  active : x.rx.active = true
  machine : receiverInv x.rx
  awaited : x.rx.expected = expected ∧ x.rx.timeout = T

/-- In t the operation has returned one of its codes or suspended. -/
def Ends (op : UnitOp) (frame : Bytes) (expected : Byte) (T : U32) (s t : State) : Prop :=
  ∃ read, t.rx.expected = expected ∧ t.rx.timeout = T ∧
    ((∃ st ∈ op.codes, Returned st frame read s t) ∨ Suspended op frame read s t)

section Polling
variable {op : UnitOp} {frame : Bytes} {expected : Byte} {T : U32} {s x : State}

/-- A poll adds what it reads, and changes nothing of what is awaited. -/
theorem Polling.poll (h : Polling op frame expected T s x) :
    (∃ read, Calling op frame read s (poll x).state) ∧
      (poll x).state.rx.expected = expected ∧ (poll x).state.rx.timeout = T := by
  obtain ⟨read, hc⟩ := h.calling
  have hr := poll_receives x
  obtain ⟨bs, hx, -⟩ := poll_exchanged x
  exact ⟨⟨_, hc.got ⟨hr.regs, hx⟩⟩, hr.call.expected.trans h.awaited.1, hr.call.timeout.trans h.awaited.2⟩

/-- The poll loop of such an operation ends well, wherever it stands. -/
theorem Polling.await (hop : op.single) (h : Polling op frame expected T s x) :
    Ends op frame expected T s (await (.unit op) x) := by
  refine await_induct (.unit op) (Polling op frame expected T s) (Ends op frame expected T s) ?wait ?again ?next ?last x h
  case wait =>
    intro x y hx hp
    obtain ⟨⟨read, hc⟩, hawaited⟩ := hx.poll
    rw [hp] at hc hawaited
    have ha : y.rx.active = true := ((poll_inv x hx.machine).1 y hp).2.trans hx.active
    exact ⟨read, hawaited.1, hawaited.2, .inr (hc.suspended ha)⟩
  case again =>
    intro x y hx hp
    obtain ⟨hc, hawaited⟩ := hx.poll
    obtain ⟨hmachine, ha⟩ := (poll_inv x hx.machine).2.1 y hp
    rw [hp] at hc hawaited
    exact ⟨hc, ha.trans hx.active, hmachine, hawaited⟩
  case next =>
    intro x y z st _ _ ho
    rw [Caller.op, opContinue_single hop] at ho
    cases ho
  case last =>
    intro x y z st st' hx hp ho
    rw [Caller.op, opContinue_single hop] at ho
    cases ho
    obtain ⟨⟨read, hc⟩, hawaited⟩ := hx.poll
    obtain ⟨hst, ha⟩ := (poll_inv x hx.machine).2.2 st y hp
    rw [hp] at hc hawaited
    exact ⟨read, hawaited.1, hawaited.2, .inl ⟨_, op.code_mem_codes hst _, hc.returned ha _⟩⟩

end Polling

/-- A RECV just begun is polled next. -/
theorem recvBegun_polling (o : Byte) (T : U32) (s : State) : Polling .recv [] o T s (recvBegun o T s) :=
  ⟨⟨[], recvBegun_calling o T s⟩, rfl, begun_inv (begun o T _) rfl, rfl, rfl⟩

theorem cmdBegun_polling (op : UnitOp) (o : Byte) (payload : Bytes) (chk T : U32) (s : State) :
    Polling op (frameOnWire s.cfg o payload chk) o T s (cmdBegun op o payload chk T s) :=
  ⟨⟨[], cmdBegun_calling o T op payload chk s⟩, rfl, begun_inv (begun o T _) rfl, rfl, rfl⟩

theorem exists_ends_of_runsCmd {i : Instr} {s : State} {op : UnitOp} {o : Byte} {payload : Bytes} {chk T : U32}
    (hop : op.single) (hp : Punctual s s.env.now) (h : RunsCmd i s op o payload chk T) :
    ∃ t, exec i s = .next t ∧ Ends op (frameOnWire s.cfg o payload chk) o T s t :=
  ⟨_, h.trans (runUnit_cmd o T op payload chk hp), (cmdBegun_polling op o payload chk T s).await hop⟩

/-- R110: FBEGIN's timeout by its size. -/
theorem eraseTimeout_eq (c : Config) (n : U32) : eraseTimeout c n = if n.toNat > 0 then c.tErase else c.tDefault := by
  have : n = 0#32 ↔ ¬ n.toNat > 0 := by rw [← BitVec.toNat_inj]; simp
  simp only [eraseTimeout, this, ite_not]

/-- Settles O27: each is a RECV or one CMD, and every poll keeps what is said of it. -/
theorem commandsComplete : Obligations.CommandsComplete := by
  intro s hl hp ends _
  have answers {i : Instr} {op : UnitOp} {frame : Bytes} {expected : Byte} {T : U32} {codes : List ResultCode}
      (hcodes : op.codes = codes) (h : ∃ t, exec i s = .next t ∧ Ends op frame expected T s t) :
      ends i op frame expected T codes := by
    subst hcodes
    obtain ⟨t, hexec, read, ht⟩ := h
    exact ⟨t, read, hexec, ht⟩
  refine ⟨fun op timeout => answers rfl ?recv, fun op payload chk timeout hb => answers rfl ?cmd,
    fun address totalSize => answers rfl ?fbegin, fun reboot => answers rfl ?fend⟩
  case recv => exact ⟨_, exec_recv op timeout hl hp, (recvBegun_polling op timeout s).await (.inl rfl)⟩
  case cmd => exact exists_ends_of_runsCmd (.inr (.inl rfl)) hp (runsCmd_cmd hl hb op chk timeout)
  case fbegin =>
    rw [← frame_begin hl, ← eraseTimeout_eq]
    exact exists_ends_of_runsCmd (.inr (.inr (.inl rfl))) hp (runsCmd_fbegin hl address totalSize)
  case fend =>
    rw [← frame_end hl]
    exact exists_ends_of_runsCmd (.inr (.inr (.inr rfl))) hp (runsCmd_fend hl reboot)

end Sys2Proof.Machine
end

section
/-! PROOFS. The Synchronizer (42_synchronizer.md): what SYNC makes of the n-th response (R100, R101), the flush (R102),
SYNC called by itself on responses that stand in `RXQ`, when its RECV is late (R103), and whatever the environment does
(R103, R104, R161). -/

namespace Sys2Proof.Machine

/-! ### The stages of SYNC (R100 to R102) -/

/-- SYNC has come from s to t: it wrote `sent` and read `read`, and no register but the synchronizer's and the receive
machine's has changed (R100, R104). -/
structure Syncs (sent read : Bytes) (s t : State) : Prop where
  regs : SameButSync s t
  env : Exchanged sent read s.env t.env

theorem Syncs.refl (s : State) : Syncs [] [] s s := ⟨.refl s, .refl _⟩

theorem Syncs.trans {a b d : Bytes} {s t u : State} (h : Syncs a b s t) (h' : Syncs [] d t u) : Syncs a (b ++ d) s u :=
  ⟨h.regs.trans h'.regs, h.env.read h'.env⟩

theorem Got.syncs {read : Bytes} {s t : State} (h : Got read s t) : Syncs [] read s t := ⟨.of h.regs, h.env⟩

/-- SYNC goes on to another RECV, its own registers rewritten. -/
theorem Syncs.beginRecv {a b : Bytes} {s t u : State} (h : Syncs a b s t) (o : Byte) (T : U32)
    (hu : SameButSync t u := by rfl) (he : u.env = t.env := by rfl) : Syncs a b s (beginRecv o T u) := by
  have h' : Syncs [] [] t (Machine.beginRecv o T u) :=
    ⟨hu.trans (.of (beginRecv_regs o T u)), he ▸ beginRecv_exchanged o T u⟩
  simpa using h.trans h'

/-- The response SYNC awaits is the one after n others, all before the flush (R100, R101). -/
def AwaitsNth (n : Nat) (s : State) : Prop :=
  match s.syncPhase with
  | .first => n = 0
  | .extra => n = s.syncExtra + 1
  | .flush | .idle => False

/-- The status SYNC takes from its RECV's code: R86's test of the length is the CMD's, and so the first response's alone
(R101, U18). -/
def nthStatus (n : Nat) (st : ResultCode) (bodyLen : U16) : ResultCode := if n = 0 then replyStatus st bodyLen else st

/-- n extra reads have been made (R100, R101). -/
def State.counted (s : State) (n : Nat) : State := { s with syncExtra := n, syncPhase := .extra }

theorem syncContinue_nth {n : Nat} {s : State} (h : AwaitsNth n s) (st : ResultCode) :
    syncContinue st s = syncDecide (nthStatus n st s.rx.bodyLen) (s.counted n) := by
  unfold AwaitsNth at h
  cases hp : s.syncPhase with
  | first =>
    obtain rfl : n = 0 := by simpa only [hp] using h
    simp only [syncContinue, hp, nthStatus, if_true, State.counted]
  | extra =>
    obtain rfl : n = s.syncExtra + 1 := by simpa only [hp] using h
    simp only [syncContinue, hp, nthStatus, Nat.succ_ne_zero, if_false, State.counted]
  | flush | idle => simp [hp] at h

/-- R101: a response that does not match is followed by another extra read, up to ten of them. -/
theorem syncDecide_mismatch {s : State} (h : s.syncExtra < 10) :
    syncDecide .responseHeaderError s = .again (beginRecv s.cfg.opcSync s.rx.timeout s) := by
  simp [syncDecide, extraReadDue, syncExtraReads, h]

/-- R102: a Success is followed by the flush. -/
theorem syncDecide_success (s : State) : syncDecide .success s =
    .again (beginRecv s.cfg.opcSync s.cfg.tDefault { s with syncStatus := .success, syncPhase := .flush }) := by
  simp [syncDecide, extraReadDue]

/-- R101: any other status ends SYNC, and so does the eleventh mismatch. -/
theorem syncDecide_failure {st : ResultCode} {s : State} (hst : st ≠ .success)
    (h : st = .responseHeaderError → 10 ≤ s.syncExtra) :
    syncDecide st s = .finished st { s with syncPhase := .idle } := by
  have hdue : extraReadDue st s.syncExtra = false := by
    by_cases he : st = .responseHeaderError
    · have hten : ¬ s.syncExtra < syncExtraReads := (h he).not_gt
      simp [extraReadDue, hten]
    · simp [extraReadDue, he]
  simp [syncDecide, hdue, hst]

/-- R102: the flush goes on by the test CMD makes of its response (R86). -/
theorem flushGoesOn_iff (st : ResultCode) (n : U16) : flushGoesOn st n = true ↔ replyStatus st n = .success := by
  by_cases h : st = .success
  · subst h
    by_cases hn : n = replyBodyLen <;> simp [flushGoesOn, hn]
  · simp [flushGoesOn, h]

/-! ### The codes of responses (R85, R86, R101) -/

/-- The status SYNC takes from a response read after n others. -/
def Reply.syncStatus (r : Reply) (c : Config) (n : Nat) : ResultCode :=
  if n = 0 then r.code c c.opcSync else headerCode c r.dir r.op c.opcSync

section Codes
variable {r : Reply} {c : Config}

theorem Reply.syncStatus_stray (h : ¬ r.answers c c.opcSync) (n : Nat) : r.syncStatus c n = .responseHeaderError := by
  simp only [Reply.syncStatus, Reply.code, headerCode, if_neg h, ite_self]

theorem Reply.syncStatus_found {n : Nat} (h : r.answers c c.opcSync) (hlen : n = 0 → r.body.length = 2) :
    r.syncStatus c n = .success := by
  unfold Reply.syncStatus
  split
  · rename_i hn
    exact (if_pos h).trans (if_pos (hlen hn))
  · exact if_pos h

theorem Reply.syncStatus_badReply (h : r.answers c c.opcSync) (hlen : r.body.length ≠ 2) :
    r.syncStatus c 0 = .badReply := (if_pos h).trans (if_neg hlen)

theorem Reply.code_eq_success_iff {op : Byte} : r.code c op = .success ↔ r.accepted c op := by
  unfold Reply.code
  by_cases h : r.answers c op
  · by_cases hlen : r.body.length = 2 <;> simp [Reply.accepted, h, hlen]
    exact h
  · simp [Reply.accepted, h]

end Codes

/-! ### One response -/

/-- A RECV of SYNC's has just begun, and the clock leaves it the time. -/
structure ReadsSync (s : State) : Prop where
  begun : Begun s
  onTime : OnTime s
  expected : s.rx.expected = s.cfg.opcSync

theorem readsSync_beginRecv {T : U32} {s : State} (h : slack s.env ≤ T.toNat) :
    ReadsSync (beginRecv s.cfg.opcSync T s) := ⟨begun _ T s, begun_onTime _ T s h, rfl⟩

/-- The limit of the RECV leaves the clock all its turns to come. -/
theorem ReadsSync.slack_le {s : State} (h : ReadsSync s) : slack s.env ≤ s.rx.timeout.toNat :=
  (Nat.le_add_left _ _).trans h.onTime

/-- SYNC's RECV, polled next in s, has read the response r in t. -/
structure HasRead (r : Reply) (s t : State) : Prop where
  active : t.rx.active = false
  timeout : t.rx.timeout = s.rx.timeout
  code : replyStatus (headerCode s.cfg r.dir r.op s.cfg.opcSync) t.rx.bodyLen = r.code s.cfg s.cfg.opcSync
  got : Got r.wire s t

theorem HasRead.cfg {r : Reply} {s t : State} (h : HasRead r s t) : t.cfg = s.cfg := h.got.regs.fields.1

/-- How an operation's continuation runs on: its next RECV is polled, or its code is delivered. -/
def OpStep.run (c : Caller) : OpStep → State
  | .again s => await c s
  | .finished st s => deliver c st s

section Responses
variable {c : Caller} (hc : c.op = .sync) {r : Reply} {s : State} {z : Bytes} (h : ReadsSync s)
include hc h

theorem await_syncReply (hr : r.sendable) (hq : s.env.rxq = r.wire ++ z) :
    ∃ t, HasRead r s t ∧ await c s = (syncContinue (headerCode s.cfg r.dir r.op s.cfg.opcSync) t).run c := by
  obtain ⟨t, hawait, hheld, htimeout, -, hgot, -⟩ := await_reply c [] r s z h.onTime h.begun nofun hr hq
  rw [h.expected] at hawait hheld
  refine ⟨t, ⟨hheld.active, htimeout, held_code hheld s.cfg, hgot⟩, ?_⟩
  rw [hawait, resume, hc]
  rfl

/-- Before the flush, SYNC goes on by the response's status. -/
theorem await_nth {n : Nat} (hn : AwaitsNth n s) (hr : r.sendable) (hq : s.env.rxq = r.wire ++ z) :
    ∃ t, HasRead r s t ∧ await c s = (syncDecide (r.syncStatus s.cfg n) (t.counted n)).run c := by
  obtain ⟨t, ht, hawait⟩ := await_syncReply hc h hr hq
  obtain ⟨-, -, -, hphase, hextra, -⟩ := ht.got.regs.fields
  have hnt : AwaitsNth n t := by simpa only [AwaitsNth, hphase, hextra] using hn
  have hstatus : nthStatus n (headerCode s.cfg r.dir r.op s.cfg.opcSync) t.rx.bodyLen = r.syncStatus s.cfg n := by
    simp only [nthStatus, Reply.syncStatus, ht.code]
  exact ⟨t, ht, by rw [hawait, syncContinue_nth hnt, hstatus]⟩

/-- R101: a response that does not match is read past. -/
theorem await_stray {n : Nat} (hn : AwaitsNth n s) (hlt : n < 10) (hr : r.sendable)
    (hno : ¬ r.answers s.cfg s.cfg.opcSync) (hq : s.env.rxq = r.wire ++ z) :
    ∃ t, await c s = await c t ∧ ReadsSync t ∧ AwaitsNth (n + 1) t ∧ Syncs [] r.wire s t := by
  obtain ⟨t, ht, hawait⟩ := await_nth hc h hn hr hq
  rw [Reply.syncStatus_stray hno, syncDecide_mismatch (s := t.counted n) hlt] at hawait
  have htime : slack t.env ≤ t.rx.timeout.toNat := by
    rw [ht.timeout]
    exact (slack_mono ht.got.env).trans h.slack_le
  exact ⟨_, hawait, readsSync_beginRecv (s := t.counted n) htime, rfl, ht.got.syncs.beginRecv _ _⟩

/-- SYNC has returned, with n extra reads counted (R100). -/
structure SyncEnded (n : Nat) (t : State) : Prop where
  phase : t.syncPhase = .idle
  extra : t.syncExtra = n
  active : t.rx.active = false

/-- R101: a status other than Success ends SYNC, unless it is a mismatch that an extra read follows. -/
theorem await_failure {n : Nat} {st : ResultCode} (hn : AwaitsNth n s) (hr : r.sendable)
    (hst : r.syncStatus s.cfg n = st) (hbad : st ≠ .success) (hlast : st = .responseHeaderError → 10 ≤ n)
    (hq : s.env.rxq = r.wire ++ z) :
    ∃ t, await c s = deliver c st t ∧ SyncEnded n t ∧ Syncs [] r.wire s t := by
  obtain ⟨t, ht, hawait⟩ := await_nth hc h hn hr hq
  rw [hst, syncDecide_failure (s := t.counted n) hbad hlast] at hawait
  exact ⟨_, hawait, ⟨rfl, rfl, ht.active⟩, ht.got.syncs.regs.trans rfl, ht.got.env⟩

end Responses

/-! ### The flush (R102) -/

/-- SYNC's registers when the response read after n others is the one it looks for (R102). -/
def State.found (s : State) (n : Nat) : State := { s.counted n with syncStatus := .success, syncPhase := .flush }

/-- SYNC has found its response after n others and reads on. -/
structure Flushing (n : Nat) (s : State) : Prop where
  reads : ReadsSync s
  phase : s.syncPhase = .flush
  extra : s.syncExtra = n
  status : s.syncStatus = .success
  time : slack s.env ≤ s.cfg.tDefault.toNat

section Flush
variable {c : Caller} (hc : c.op = .sync) {n : Nat} {r : Reply} {s : State} {z : Bytes}
include hc

/-- R101, R102: the response found begins the flush. -/
theorem await_found (h : ReadsSync s) (hn : AwaitsNth n s) (htime : slack s.env ≤ s.cfg.tDefault.toNat)
    (hr : r.sendable) (hyes : r.answers s.cfg s.cfg.opcSync) (hlen : n = 0 → r.body.length = 2)
    (hq : s.env.rxq = r.wire ++ z) :
    ∃ t, await c s = await c t ∧ Flushing n t ∧ Syncs [] r.wire s t := by
  obtain ⟨t, ht, hawait⟩ := await_nth hc h hn hr hq
  rw [Reply.syncStatus_found hyes hlen, syncDecide_success] at hawait
  have htime' : slack t.env ≤ t.cfg.tDefault.toNat := ht.cfg ▸ (slack_mono ht.got.env).trans htime
  exact ⟨_, hawait, ⟨readsSync_beginRecv (s := t.found n) htime', rfl, rfl, rfl,
    (slack_mono (beginRecv_exchanged _ _ (t.found n))).trans htime'⟩, ht.got.syncs.beginRecv _ _⟩

/-- In the flush, SYNC goes on by whether CMD would accept the response. -/
theorem Flushing.await (h : Flushing n s) (hr : r.sendable) (hq : s.env.rxq = r.wire ++ z) :
    ∃ t, HasRead r s t ∧ await c s = OpStep.run c
      (if r.accepted s.cfg s.cfg.opcSync then .again (Machine.beginRecv t.cfg.opcSync t.cfg.tDefault t)
        else .finished .success { t with syncPhase := .idle }) := by
  obtain ⟨t, ht, hawait⟩ := await_syncReply hc h.reads hr hq
  obtain ⟨-, -, -, hphase, -, hstatus, -⟩ := ht.got.regs.fields
  refine ⟨t, ht, hawait.trans ?_⟩
  simp only [syncContinue, hphase.trans h.phase, flushGoesOn_iff, ht.code, Reply.code_eq_success_iff,
    hstatus.trans h.status]

/-- R102: a two-byte Sync response is drained. -/
theorem Flushing.await_drained (h : Flushing n s) (hyes : r.accepted s.cfg s.cfg.opcSync)
    (hq : s.env.rxq = r.wire ++ z) :
    ∃ t, Machine.await c s = Machine.await c t ∧ Flushing n t ∧ Syncs [] r.wire s t := by
  have hr : r.sendable := by
    have := hyes.2
    simp only [Reply.sendable]
    omega
  obtain ⟨t, ht, hawait⟩ := h.await hc hr hq
  rw [if_pos hyes] at hawait
  obtain ⟨-, -, -, hphase, hextra, hstatus, -⟩ := ht.got.regs.fields
  have htime : slack t.env ≤ t.cfg.tDefault.toNat := ht.cfg ▸ (slack_mono ht.got.env).trans h.time
  have hsyncs := ht.got.syncs.beginRecv t.cfg.opcSync t.cfg.tDefault
  exact ⟨_, hawait, ⟨readsSync_beginRecv htime, hphase.trans h.phase, hextra.trans h.extra, hstatus.trans h.status,
    (slack_mono (beginRecv_exchanged _ _ t)).trans htime⟩, hsyncs⟩

/-- R102: any other frame ends the flush, and SYNC returns the Success it had. -/
theorem Flushing.await_last (h : Flushing n s) (hr : r.sendable) (hno : ¬ r.accepted s.cfg s.cfg.opcSync)
    (hq : s.env.rxq = r.wire ++ z) :
    ∃ t, Machine.await c s = deliver c .success t ∧ SyncEnded n t ∧ t.syncStatus = .success ∧
      Syncs [] r.wire s t := by
  obtain ⟨t, ht, hawait⟩ := h.await hc hr hq
  rw [if_neg hno] at hawait
  obtain ⟨-, -, -, -, hextra, hstatus, -⟩ := ht.got.regs.fields
  exact ⟨_, hawait, ⟨rfl, hextra.trans h.extra, ht.active⟩, hstatus.trans h.status, ht.got.syncs.regs.trans rfl,
    ht.got.env⟩

end Flush

/-! ### Many responses -/

section Many
variable {c : Caller} (hc : c.op = .sync)
include hc

/-- R101: up to ten responses that do not match are read past. -/
theorem await_strays (strays : List Reply) {n : Nat} {s : State} {z : Bytes} (h : ReadsSync s) (hn : AwaitsNth n s)
    (hlen : n + strays.length ≤ 10) (hno : ∀ r ∈ strays, r.sendable ∧ ¬ r.answers s.cfg s.cfg.opcSync)
    (hq : s.env.rxq = strays.flatMap Reply.wire ++ z) :
    ∃ t, await c s = await c t ∧ ReadsSync t ∧ AwaitsNth (n + strays.length) t ∧
      Syncs [] (strays.flatMap Reply.wire) s t := by
  induction strays generalizing n s z with
  | nil => exact ⟨s, rfl, h, hn, .refl s⟩
  | cons r rs ih =>
    rw [List.flatMap_cons, List.append_assoc] at hq
    rw [List.length_cons] at hlen
    obtain ⟨⟨hr, hne⟩, hrs⟩ := List.forall_mem_cons.1 hno
    obtain ⟨t, hawait, ht, hnt, hsyncs⟩ := await_stray hc h hn (by omega) hr hne hq
    obtain ⟨z', hz⟩ := hsyncs.env.rest hq
    rw [List.append_assoc] at hz
    rw [← hsyncs.regs.fields.1] at hrs
    obtain ⟨u, hawait', hu, hnu, hsyncs'⟩ := ih ht hnt (by omega) hrs hz
    have hcount : n + 1 + rs.length = n + (r :: rs).length := by rw [List.length_cons]; omega
    exact ⟨u, hawait.trans hawait', hu, hcount ▸ hnu, hsyncs.trans hsyncs'⟩

/-- R102: any number of two-byte Sync responses is drained. -/
theorem await_flushed (flushed : List Reply) {n : Nat} {s : State} {z : Bytes} (h : Flushing n s)
    (hyes : ∀ r ∈ flushed, r.accepted s.cfg s.cfg.opcSync) (hq : s.env.rxq = flushed.flatMap Reply.wire ++ z) :
    ∃ t, await c s = await c t ∧ Flushing n t ∧ Syncs [] (flushed.flatMap Reply.wire) s t := by
  induction flushed generalizing s z with
  | nil => exact ⟨s, rfl, h, .refl s⟩
  | cons r rs ih =>
    rw [List.flatMap_cons, List.append_assoc] at hq
    obtain ⟨hr, hrs⟩ := List.forall_mem_cons.1 hyes
    obtain ⟨t, hawait, ht, hsyncs⟩ := h.await_drained hc hr hq
    obtain ⟨z', hz⟩ := hsyncs.env.rest hq
    rw [List.append_assoc] at hz
    rw [← hsyncs.regs.fields.1] at hrs
    obtain ⟨u, hawait', hu, hsyncs'⟩ := ih ht hrs hz
    exact ⟨u, hawait.trans hawait', hu, hsyncs.trans hsyncs'⟩

/-- R101: the response is found behind the strays. -/
theorem await_response {strays : List Reply} {found : Reply} {s : State} {z : Bytes} (h : ReadsSync s)
    (hn : AwaitsNth 0 s) (htime : slack s.env ≤ s.cfg.tDefault.toNat) (hten : strays.length ≤ 10)
    (hstrays : ∀ r ∈ strays, r.sendable ∧ ¬ r.answers s.cfg s.cfg.opcSync) (hfound : found.sendable)
    (hyes : found.answers s.cfg s.cfg.opcSync) (hlen : strays = [] → found.body.length = 2)
    (hq : s.env.rxq = strays.flatMap Reply.wire ++ (found.wire ++ z)) :
    ∃ t, await c s = await c t ∧ Flushing strays.length t ∧ Syncs [] (strays.flatMap Reply.wire ++ found.wire) s t := by
  obtain ⟨t, hawait, ht, hnt, hst⟩ := await_strays hc strays h hn (by omega) hstrays hq
  rw [Nat.zero_add] at hnt
  obtain ⟨z', hz⟩ := hst.env.rest hq
  rw [List.append_assoc] at hz
  rw [← hst.regs.fields.1] at htime hyes
  obtain ⟨u, hawait', hu, htu⟩ := await_found hc ht hnt ((slack_mono hst.env).trans htime) hfound hyes
    (hlen ∘ List.length_eq_zero_iff.1) hz
  exact ⟨u, hawait.trans hawait', hu, hst.trans htu⟩

/-- R102: the whole flush, to the frame that ends it. -/
theorem Flushing.await_end {flushed : List Reply} {last : Reply} {n : Nat} {s : State} {z : Bytes} (h : Flushing n s)
    (hflushed : ∀ r ∈ flushed, r.accepted s.cfg s.cfg.opcSync) (hlast : last.sendable)
    (hno : ¬ last.accepted s.cfg s.cfg.opcSync) (hq : s.env.rxq = flushed.flatMap Reply.wire ++ (last.wire ++ z)) :
    ∃ t, Machine.await c s = deliver c .success t ∧ SyncEnded n t ∧ t.syncStatus = .success ∧
      Syncs [] (flushed.flatMap Reply.wire ++ last.wire) s t := by
  obtain ⟨t, hawait, ht, hst⟩ := await_flushed hc flushed h hflushed hq
  obtain ⟨z', hz⟩ := hst.env.rest hq
  rw [List.append_assoc] at hz
  rw [← hst.regs.fields.1] at hno
  obtain ⟨u, hawait', hend, hstatus, htu⟩ := ht.await_last hc hlast hno hz
  exact ⟨u, hawait.trans hawait', hend, hstatus, hst.trans htu⟩

/-- R101: the eleventh response that does not match ends the attempt. -/
theorem await_elevenStrays {strays : List Reply} {s : State} {z : Bytes} (h : ReadsSync s) (hn : AwaitsNth 0 s)
    (hlen : strays.length = 11) (hno : ∀ r ∈ strays, r.sendable ∧ ¬ r.answers s.cfg s.cfg.opcSync)
    (hq : s.env.rxq = strays.flatMap Reply.wire ++ z) :
    ∃ t, await c s = deliver c .responseHeaderError t ∧ SyncEnded 10 t ∧ Syncs [] (strays.flatMap Reply.wire) s t := by
  obtain rfl | ⟨ten, r, rfl⟩ := List.eq_nil_or_concat' strays
  · cases hlen
  · have hten : ten.length = 10 := by simpa using hlen
    obtain ⟨hstrays, hlast⟩ := List.forall_mem_append.1 hno
    obtain ⟨hr, hne⟩ := hlast r (List.mem_singleton_self r)
    simp only [List.flatMap_append, List.flatMap_singleton, List.append_assoc] at hq ⊢
    obtain ⟨t, hawait, ht, hnt, hst⟩ := await_strays hc ten h hn (by omega) hstrays hq
    rw [Nat.zero_add, hten] at hnt
    obtain ⟨z', hz⟩ := hst.env.rest hq
    rw [List.append_assoc] at hz
    rw [← hst.regs.fields.1] at hne
    obtain ⟨u, hawait', hu, htu⟩ :=
      await_failure hc ht hnt hr (Reply.syncStatus_stray hne 10) nofun (fun _ => le_rfl) hz
    exact ⟨u, hawait.trans hawait', hu, hst.trans htu⟩

end Many

/-! ### SYNC called by itself (log 12) -/

/-- SYNC called by itself, at its first poll. -/
def syncBegun (T : U32) (s : State) : State := beginSync T { s with unitCall := some .sync }

section Begin
variable {s : State} (T : U32)

theorem syncBegun_syncs (s : State) :
    Syncs (syncFrame s.cfg) [] { s with unitCall := some .sync } (syncBegun T s) := by
  obtain ⟨hregs, -, -, henv, -⟩ := beginSync_facts T { s with unitCall := some .sync }
  exact ⟨hregs, henv⟩

theorem syncBegun_readsSync (h : slack s.env ≤ T.toNat) : ReadsSync (syncBegun T s) := by
  obtain ⟨hbegun, hontime⟩ := begin_cmd_facts s.cfg.opcSync (syncPayload s.cfg) 0#32 T
    { s with unitCall := some .sync, syncPhase := .first } h
  exact ⟨hbegun, hontime, by rw [(syncBegun_syncs T s).regs.fields.1]; rfl⟩

theorem syncBegun_awaitsNth (s : State) : AwaitsNth 0 (syncBegun T s) := by
  obtain ⟨-, -, -, -, -, hphase, -⟩ := beginSync_facts T { s with unitCall := some .sync }
  rw [AwaitsNth, syncBegun, hphase]

theorem exec_sync (hl : legalConfig s.cfg = true) (hp : Punctual s s.env.now) :
    exec (.sync T) s = .next (await (.unit .sync) (syncBegun T s)) :=
  (whenLegal_eq hl _).trans (runUnit_eq (beginSync_starts T { s with unitCall := some .sync })
    (syncBegun_syncs T s).regs.fields.1 (syncBegun_syncs T s).env hp)

/-- What stood in `RXQ` is still first there. -/
theorem syncBegun_rxq {q : Bytes} (hq : s.env.rxq = q) : ∃ z, (syncBegun T s).env.rxq = q ++ z :=
  (syncBegun_syncs T s).env.rest (b := []) hq

/-- SYNC returns its code to the host (R100, R163). -/
theorem exec_sync_returned {st : ResultCode} {n : Nat} {read : Bytes} {t : State} (hl : legalConfig s.cfg = true)
    (hp : Punctual s s.env.now) (hawait : await (.unit .sync) (syncBegun T s) = deliver (.unit .sync) st t)
    (hend : SyncEnded n t) (hsyncs : Syncs [] read (syncBegun T s) t) :
    ∃ u, exec (.sync T) s = .next u ∧ u.ret = .code st ∧ u.syncPhase = .idle ∧ u.syncExtra = n ∧
      u.syncStatus = t.syncStatus ∧ u.rx.active = false ∧ Exchanged (syncFrame s.cfg) read s.env u.env :=
  ⟨deliver (.unit .sync) st t, by rw [exec_sync T hl hp, hawait], rfl, hend.phase, hend.extra, rfl, hend.active,
    ((syncBegun_syncs T s).trans hsyncs).env⟩

end Begin

/-- Settles O29: the response is found behind the strays, and the flush reads on to the frame that ends it. -/
theorem syncSucceedsPastStrays : Obligations.SyncSucceedsPastStrays := by
  intro s T strays flushed found last rest hl hslack hslack' hp hstrays hten hfound hyes hlen hflushed hlast hno read hrxq
  have hbegin := syncBegun_syncs T s
  have hcfg : (syncBegun T s).cfg = s.cfg := hbegin.regs.fields.1
  obtain ⟨z, hz⟩ := syncBegun_rxq T hrxq
  simp only [read, List.append_assoc] at hz
  rw [← hcfg] at hslack' hstrays hyes hflushed hno
  obtain ⟨t, hawait, ht, hst⟩ := await_response (c := .unit .sync) rfl (syncBegun_readsSync T hslack)
    (syncBegun_awaitsNth T s) ((slack_mono hbegin.env).trans hslack') hten hstrays hfound hyes hlen hz
  obtain ⟨z', hz'⟩ := hst.env.rest (hz.trans (List.append_assoc _ _ _).symm)
  simp only [List.append_assoc] at hz'
  rw [← hst.regs.fields.1] at hflushed hno
  obtain ⟨u, hawait', hend, hstatus, htu⟩ := ht.await_end (c := .unit .sync) rfl hflushed hlast hno hz'
  have hsyncs := hst.trans htu
  rw [← List.append_assoc] at hsyncs
  simpa only [hstatus] using exec_sync_returned T hl hp (hawait.trans hawait') hend hsyncs

/-- Settles O30, by the eleventh mismatch, and by the length R86 tests of the first response. -/
theorem syncFails : Obligations.SyncFails := by
  intro s T rest hl hslack hp
  have hcfg : (syncBegun T s).cfg = s.cfg := (syncBegun_syncs T s).regs.fields.1
  have hreads := syncBegun_readsSync T hslack
  have hnth := syncBegun_awaitsNth T s
  have returned {st : ResultCode} {n : Nat} {read : Bytes}
      (h : ∃ t, await (.unit .sync) (syncBegun T s) = deliver (.unit .sync) st t ∧ SyncEnded n t ∧
        Syncs [] read (syncBegun T s) t) :
      ∃ t, exec (.sync T) s = .next t ∧ t.ret = .code st ∧ t.syncPhase = .idle ∧ t.syncExtra = n ∧
        t.rx.active = false ∧ Exchanged (syncFrame s.cfg) read s.env t.env := by
    obtain ⟨t, hawait, hend, hsyncs⟩ := h
    obtain ⟨u, hexec, hret, hphase, hextra, -, hrest⟩ := exec_sync_returned T hl hp hawait hend hsyncs
    exact ⟨u, hexec, hret, hphase, hextra, hrest⟩
  refine ⟨fun strays hlen hno hrxq => returned ?strays, fun first hr hyes hlen hrxq => returned ?first⟩
  case strays =>
    obtain ⟨z, hz⟩ := syncBegun_rxq T hrxq
    rw [List.append_assoc] at hz
    exact await_elevenStrays rfl hreads hnth hlen (hcfg ▸ hno) hz
  case first =>
    obtain ⟨z, hz⟩ := syncBegun_rxq T hrxq
    rw [List.append_assoc] at hz
    exact await_failure rfl hreads hnth hr (Reply.syncStatus_badReply (hcfg ▸ hyes) hlen) nofun nofun hz

/-! ### Late polls (R102, R103) -/

/-- Before the flush a Timeout ends SYNC; in the flush it ends the flush. -/
theorem syncContinue_timeout {s : State} (h : s.syncPhase ≠ .idle) :
    ∃ n, syncContinue .timeout s = .finished (if s.syncPhase = .flush then s.syncStatus else .timeout)
        { s with syncExtra := n, syncPhase := .idle } ∧
      n = match s.syncPhase with | .first => 0 | .extra => s.syncExtra + 1 | _ => s.syncExtra := by
  have before {n : Nat} (hn : AwaitsNth n s) :
      syncContinue .timeout s = .finished .timeout { s with syncExtra := n, syncPhase := .idle } := by
    have hst : nthStatus n .timeout s.rx.bodyLen = .timeout := by
      rw [nthStatus, replyStatus_of_ne_success (by decide), ite_self]
    rw [syncContinue_nth hn, hst]
    exact syncDecide_failure (s := s.counted n) nofun nofun
  cases hp : s.syncPhase with
  | idle => exact absurd hp h
  | first => exact ⟨_, before (by rw [AwaitsNth, hp]), rfl⟩
  | extra => exact ⟨_, before (by rw [AwaitsNth, hp]), rfl⟩
  | flush =>
    refine ⟨_, ?_, rfl⟩
    simp [syncContinue, hp, flushGoesOn]

/-- Settles O31: the late poll ends the RECV, and the RECV's end the SYNC. -/
theorem pendingSyncTimesOut : Obligations.PendingSyncTimesOut := by
  intro s hl ha hunit hphase hp hlate
  have hcaller : callerOf s = some (.unit .sync) := callerOf_eq_some_iff.2 ⟨hunit, trivial, fun _ => hphase⟩
  have hexec : exec .step s = .next (await (.unit .sync) s) :=
    (exec_step_resumed hl ha hcaller).trans (whenPunctual_eq (await_punctual hp))
  obtain ⟨y, hend, hgot⟩ := (atPoll_got s).endRecv .timeout
  have hpoll := (poll_late hlate).trans hend
  have hoff : y.rx.active = false := poll_ended_inactive hpoll
  obtain ⟨-, -, -, hphase', hextra, hstatus, -⟩ := hgot.regs.fields
  rw [← hphase'] at hphase
  obtain ⟨n, hcontinue, hn⟩ := syncContinue_timeout hphase
  rw [hphase', hextra] at hn
  rw [hphase', hstatus] at hcontinue
  have hrun : await (.unit .sync) s = _ := (await_ended hpoll).trans (congrArg (OpStep.run (.unit .sync)) hcontinue)
  exact ⟨_, hexec.trans (congrArg _ hrun), rfl, rfl, hoff, rfl, rfl, hgot.env, hn⟩

/-! ### Whatever the environment does (R103, R104, R161) -/

/-- SYNC, called by itself in s, polls its RECV in x. -/
structure SyncPolling (T : U32) (s x : State) : Prop where
  syncs : ∃ read, Syncs (syncFrame s.cfg) read { s with unitCall := some .sync } x
  active : x.rx.active = true
  machine : receiverInv x.rx
  sync : SyncInv x
  limit : SyncLimit T x

/-- In t the SYNC called by itself in s has suspended or returned one of its codes, having sent its one request and
changed no other unit's register (R103, R104, R161, R171). -/
structure SyncEnds (T : U32) (s t : State) : Prop where
  env : ∃ read, Exchanged (syncFrame s.cfg) read s.env t.env
  regs : { t with rx := s.rx, env := s.env, ret := s.ret, unitCall := s.unitCall, syncPhase := s.syncPhase,
                  syncExtra := s.syncExtra, syncStatus := s.syncStatus } = s
  outcome :
    (t.ret = .inProgress (percent s) ∧ t.rx.active = true ∧ t.unitCall = some .sync ∧ t.syncPhase ≠ .idle ∧
      t.rx.expected = s.cfg.opcSync ∧ t.rx.timeout = if t.syncPhase = .flush then s.cfg.tDefault else T) ∨
    (t.rx.active = false ∧ t.unitCall = none ∧ t.syncPhase = .idle ∧ ∃ st ∈ syncCodes, t.ret = .code st)

/-- A SYNC suspended or returned has changed what a SYNC under way has, and the model's own two fields (log 12). -/
theorem SameButSync.answered {s x : State} {op : Option UnitOp} (h : SameButSync { s with unitCall := op } x) :
    { x with rx := s.rx, env := s.env, ret := s.ret, unitCall := s.unitCall, syncPhase := s.syncPhase,
             syncExtra := s.syncExtra, syncStatus := s.syncStatus } = s :=
  congrArg (fun u : State => { u with ret := s.ret, unitCall := s.unitCall }) h

section Polling
variable {T : U32} {s x : State}

/-- A poll adds what it reads, and changes nothing of the synchronizer's. -/
theorem SyncPolling.poll (h : SyncPolling T s x) :
    (∃ read, Syncs (syncFrame s.cfg) read { s with unitCall := some .sync } (poll x).state) ∧
      SyncInv (poll x).state ∧ SyncLimit T (poll x).state := by
  obtain ⟨read, hsyncs⟩ := h.syncs
  have hr := poll_receives x
  obtain ⟨bs, hx, -⟩ := poll_exchanged x
  obtain ⟨hcfg, -, -, hphase, hextra, hstatus, -⟩ := hr.regs.fields
  obtain ⟨h1, h2, h3⟩ := h.sync
  refine ⟨⟨_, hsyncs.trans (Got.syncs ⟨hr.regs, hx⟩)⟩, ?_, ?_⟩
  · constructor <;> simpa only [hphase, hextra, hstatus]
  · simpa only [SyncLimit, hcfg, hphase, hr.call.expected, hr.call.timeout] using h.limit

/-- SYNC's poll loop ends well, wherever it stands. -/
theorem SyncPolling.await (h : SyncPolling T s x) : SyncEnds T s (await (.unit .sync) x) := by
  refine await_induct (.unit .sync) (SyncPolling T s) (SyncEnds T s) ?wait ?again ?next ?last x h
  case wait =>
    intro x y hx hp
    obtain ⟨⟨read, hsyncs⟩, hinv, hlimit⟩ := hx.poll
    rw [hp] at hsyncs hinv hlimit
    have ha : y.rx.active = true := ((poll_inv x hx.machine).1 y hp).2.trans hx.active
    obtain ⟨hcfg, hsession, horch, -, -, -, -, -, hunit⟩ := hsyncs.regs.fields
    have hpercent : percent y = percent s := percent_congr horch hsession
    obtain ⟨hexpected, htimeout⟩ := hlimit
    rw [hcfg] at hexpected htimeout
    exact ⟨⟨read, hsyncs.env⟩, hsyncs.regs.answered,
      .inl ⟨congrArg Ret.inProgress hpercent, ha, hunit, hinv.phase, hexpected, htimeout⟩⟩
  case again =>
    intro x y hx hp
    obtain ⟨hsyncs, hinv, hlimit⟩ := hx.poll
    obtain ⟨hmachine, ha⟩ := (poll_inv x hx.machine).2.1 y hp
    rw [hp] at hsyncs hinv hlimit
    exact ⟨hsyncs, ha.trans hx.active, hmachine, hinv, hlimit⟩
  case next =>
    intro x y z st hx hp ho
    obtain ⟨⟨read, hsyncs⟩, hinv, hlimit⟩ := hx.poll
    rw [hp] at hsyncs hinv hlimit
    have hst := ((poll_inv x hx.machine).2.2 st y hp).1
    obtain ⟨hregs, hbegun, hlen, henv, hinv'⟩ := (syncContinue_spec hst hinv).1 z ho
    exact ⟨⟨_, hsyncs.trans ⟨hregs, henv⟩⟩, hbegun.active, begun_inv hbegun hlen, hinv', syncContinue_limit hlimit ho⟩
  case last =>
    intro x y z st st' hx hp ho
    obtain ⟨⟨read, hsyncs⟩, hinv, -⟩ := hx.poll
    rw [hp] at hsyncs hinv
    obtain ⟨hst, ha⟩ := (poll_inv x hx.machine).2.2 st y hp
    obtain ⟨hregs, henv, hrx, hphase, -, hcode⟩ := (syncContinue_spec hst hinv).2 st' z ho
    exact ⟨⟨read, henv ▸ hsyncs.env⟩, (hsyncs.regs.trans hregs).answered,
      .inr ⟨hrx ▸ ha, rfl, hphase, st', hcode, rfl⟩⟩

end Polling

theorem syncBegun_polling (T : U32) (s : State) : SyncPolling T s (syncBegun T s) := by
  obtain ⟨hregs, hbegun, hlen, henv, hinv, hphase, -, hexpected, htimeout⟩ :=
    beginSync_facts T { s with unitCall := some .sync }
  refine ⟨⟨[], hregs, henv⟩, hbegun.active, begun_inv hbegun hlen, hinv, ?_, ?_⟩
  · exact hexpected.trans (congrArg Config.opcSync hregs.fields.1.symm)
  · rw [syncBegun, hphase]
    exact htimeout

/-- Settles O28: every poll and every stage of SYNC keeps what is said of it. -/
theorem syncSendsOneRequest : Obligations.SyncSendsOneRequest := by
  intro s T hl hp
  obtain ⟨⟨read, henv⟩, hregs, houtcome⟩ := (syncBegun_polling T s).await
  exact ⟨_, read, exec_sync T hl hp, henv, hregs, houtcome⟩

end Sys2Proof.Machine
end

section
/-! PROOFS. The Flash Sequencer (43_flash_sequencer.md): FBEGIN and FEND by their requests and by what answers them
(R110, R111, R115), FDATA's attempts, whatever the environment does (R112, R114), the block it prepares (R113), and its
attempts on responses that stand in `RXQ`. -/

namespace Sys2Proof.Machine

/-! ### FBEGIN and FEND (R110, R111, R115) -/

/-- Settles O25: each is one CMD. -/
theorem fbeginAndFendAnswered : Obligations.FbeginAndFendAnswered := by
  intro s hl
  refine ⟨fun address totalSize => ?fbegin, fun reboot => ?fend⟩
  case fbegin =>
    rw [← frame_begin hl, ← eraseTimeout_eq]
    exact commandAnswered_of_runsCmd (.inr (.inr (.inl rfl))) (by decide) (runsCmd_fbegin hl address totalSize)
  case fend =>
    rw [← frame_end hl]
    exact commandAnswered_of_runsCmd (.inr (.inr (.inr rfl))) (by decide) (runsCmd_fend hl reboot)

/-- An operation that has returned or suspended has written its frame. -/
theorem Ends.txs {op : UnitOp} {frame : Bytes} {expected : Byte} {T : U32} {s t : State}
    (h : Ends op frame expected T s t) : t.env.txs = s.env.txs ++ frame := by
  obtain ⟨read, -, -, ⟨st, -, hreturned⟩ | hsuspended⟩ := h
  · exact hreturned.env.sent
  · exact hsuspended.env.sent

/-- R110, R117 (b): clearing the ten low bits rounds down to a multiple of 1024. -/
theorem and_not_0x3FF (a : U32) : a &&& ~~~0x3FF#32 = BitVec.ofNat 32 (a.toNat / 1024 * 1024) := by
  have hshift : a &&& ~~~0x3FF#32 = a >>> 10 <<< 10 := by
    ext i hi
    interval_cases i <;> simp
  rw [hshift]
  apply BitVec.eq_of_toNat_eq
  simp [Nat.shiftLeft_eq, Nat.shiftRight_eq_div_pow]

/-- Settles O32, by the request FBEGIN sends whatever answers it. -/
theorem flashBeginBlockCounts : Obligations.FlashBeginBlockCounts := by
  intro s address p hl hp hsize
  have hcount : BitVec.ofNat 32 (((BitVec.ofNat 32 p.1).toNat + 1023) / 1024) = BitVec.ofNat 32 p.2 := by
    revert p
    decide
  obtain ⟨t, hexec, hends⟩ := exists_ends_of_runsCmd (.inr (.inr (.inl rfl))) hp
    (runsCmd_fbegin hl address (BitVec.ofNat 32 p.1))
  refine ⟨t, hexec, hends.txs.trans ?_⟩
  rw [frame_begin hl, flashBeginFrame, hcount, and_not_0x3FF]

/-! ### FDATA's attempts (R112, R114) -/

/-- FDATA has come from s to t by n attempts more: it wrote n copies of the buffer's frame and read `read`, and no
register but `blk_attempt` and the receive machine's has changed. -/
structure Resends (n : Nat) (read : Bytes) (s t : State) : Prop where
  regs : SameButAtt s t
  attempts : t.blkAttempt = s.blkAttempt + n
  env : Exchanged (copies n (bufFrame s)) read s.env t.env

theorem SameButAtt.bufFrame_eq {s t : State} (h : SameButAtt s t) : bufFrame t = bufFrame s := (Kept.att h).buf

theorem copies_add (m n : Nat) (f : Bytes) : copies (m + n) f = copies m f ++ copies n f := by
  rw [copies, List.replicate_add, List.flatten_append, copies, copies]

theorem Resends.refl (s : State) : Resends 0 [] s s := ⟨.refl s, rfl, .refl _⟩

theorem Resends.trans {m n : Nat} {a b : Bytes} {s t u : State} (h : Resends m a s t) (h' : Resends n b t u) :
    Resends (m + n) (a ++ b) s u := by
  refine ⟨h.regs.trans h'.regs, by rw [h'.attempts, h.attempts, Nat.add_assoc], ?_⟩
  have hx := h'.env
  rw [h.regs.bufFrame_eq] at hx
  rw [copies_add]
  exact h.env.trans hx

theorem Resends.le {n : Nat} {read : Bytes} {s t : State} (h : Resends n read s t) : s.blkAttempt ≤ t.blkAttempt :=
  h.attempts ▸ Nat.le_add_right _ n

theorem Resends.sent {n : Nat} {read : Bytes} {s t : State} (h : Resends n read s t) :
    Exchanged (copies (t.blkAttempt - s.blkAttempt) (bufFrame s)) read s.env t.env := by
  rw [h.attempts, Nat.add_sub_cancel_left]
  exact h.env

/-- A RECV that reads sends nothing. -/
theorem Got.resends {read : Bytes} {s t : State} (h : Got read s t) : Resends 0 read s t :=
  ⟨.of h.regs, h.regs.fields.2.2.2.2.2.2.1, h.env⟩

theorem fdataAttempt_resends (s : State) : Resends 1 [] s (fdataAttempt s) := by
  obtain ⟨hregs, hattempt, -, -, henv, -⟩ := attempt_facts s
  exact ⟨hregs, hattempt, by rw [copies_one]; exact henv⟩

/-- Every attempt awaits the answer to its own request, for `T_BLOCK` (R112, R171). -/
def AwaitsData (c : Config) (rx : Receiver) : Prop := rx.expected = c.opcFlashData ∧ rx.timeout = c.tBlock

theorem fdataAttempt_awaitsData (s : State) : AwaitsData s.cfg (fdataAttempt s).rx := ⟨rfl, rfl⟩

/-- R114: FDATA returns a failure after the third attempt alone. -/
theorem fdataContinue_finished {st st' : ResultCode} {s t : State} (h : fdataContinue st s = .finished st' t) :
    t = s ∧ st' = replyStatus st s.rx.bodyLen ∧ (st' = .success ∨ 3 ≤ s.blkAttempt) := by
  unfold fdataContinue at h
  dsimp only at h
  split at h
  · cases h
  · rename_i hdue
    cases h
    refine ⟨rfl, rfl, or_iff_not_imp_left.2 fun hfail => Nat.not_lt.1 fun hlt => hdue ?_⟩
    simp [retryDue, blockAttempts, hfail, hlt]

/-! ### Whatever the environment does (R114, R161, R171) -/

/-- FDATA, under way in s, polls a RECV in x. -/
structure FdataPolling (s x : State) : Prop where
  resends : ∃ n read, Resends n read s x
  attempts : x.blkAttempt ≤ 3
  awaited : s.blkAttempt < x.blkAttempt → AwaitsData s.cfg x.rx
  active : x.rx.active = true
  machine : receiverInv x.rx

/-- The codes FDATA can return as a failure (R161). -/
def fdataFailures : List ResultCode := [.timeout, .badReply, .responseHeaderError, .slipFrameError, .slipDataError]

theorem replyStatus_mem_fdataFailures {st : ResultCode} (h : st ∈ recvCodes) {n : U16}
    (hne : replyStatus st n ≠ .success) : replyStatus st n ∈ fdataFailures := by
  have hcode := reply_codes h n
  simp only [recvCodes, fdataFailures, List.mem_cons, List.not_mem_nil, or_false] at hcode ⊢
  tauto

/-- In t the FDATA under way in s, called by itself, has suspended, or returned Success, or, after the third attempt, a
failure (R114). -/
structure FdataEnds (s t : State) : Prop where
  made : s.blkAttempt ≤ t.blkAttempt ∧ t.blkAttempt ≤ 3
  env : ∃ read, Exchanged (copies (t.blkAttempt - s.blkAttempt) (bufFrame s)) read s.env t.env
  regs : { t with rx := s.rx, env := s.env, ret := s.ret, unitCall := s.unitCall, blkAttempt := s.blkAttempt } = s
  awaited : s.blkAttempt < t.blkAttempt → AwaitsData s.cfg t.rx
  outcome :
    (t.ret = .inProgress (percent s) ∧ t.rx.active = true ∧ t.unitCall = s.unitCall) ∨
    (t.rx.active = false ∧ t.unitCall = none ∧
      (t.ret = .code .success ∨ t.blkAttempt = 3 ∧ ∃ st ∈ fdataFailures, t.ret = .code st))

/-- An FDATA suspended or returned has changed what an FDATA under way has, and the model's own two fields (log 12). -/
theorem SameButAtt.answered {s x : State} (h : SameButAtt s x) :
    { x with rx := s.rx, env := s.env, ret := s.ret, unitCall := s.unitCall, blkAttempt := s.blkAttempt } = s :=
  congrArg (fun u : State => { u with ret := s.ret, unitCall := s.unitCall }) h

section Polling
variable {s x : State}

theorem FdataPolling.here (hatt : s.blkAttempt ≤ 3) (ha : s.rx.active = true) (hm : receiverInv s.rx) :
    FdataPolling s s := ⟨⟨0, [], .refl s⟩, hatt, fun h => absurd h (lt_irrefl _), ha, hm⟩

/-- A poll adds what it reads, and changes nothing of the attempts. -/
theorem FdataPolling.poll (h : FdataPolling s x) :
    (∃ n read, Resends n read s (poll x).state) ∧ (poll x).state.blkAttempt ≤ 3 ∧
      (s.blkAttempt < (poll x).state.blkAttempt → AwaitsData s.cfg (poll x).state.rx) := by
  obtain ⟨n, read, hres⟩ := h.resends
  have hr := poll_receives x
  obtain ⟨bs, hx, -⟩ := poll_exchanged x
  have hatt : (Machine.poll x).state.blkAttempt = x.blkAttempt := hr.regs.fields.2.2.2.2.2.2.1
  refine ⟨⟨_, _, hres.trans (Got.resends ⟨hr.regs, hx⟩)⟩, hatt ▸ h.attempts, ?_⟩
  simpa only [AwaitsData, hatt, hr.call.expected, hr.call.timeout] using h.awaited

/-- FDATA's poll loop ends well, wherever it stands. -/
theorem FdataPolling.await (h : FdataPolling s x) : FdataEnds s (await (.unit .fdata) x) := by
  refine await_induct (.unit .fdata) (FdataPolling s) (FdataEnds s) ?wait ?again ?next ?last x h
  case wait =>
    intro x y hx hp
    obtain ⟨⟨n, read, hres⟩, hatt, hawaited⟩ := hx.poll
    rw [hp] at hres hatt hawaited
    have ha : y.rx.active = true := ((poll_inv x hx.machine).1 y hp).2.trans hx.active
    obtain ⟨-, hsession, horch, -, -, -, -, -, -, -, hunit⟩ := hres.regs.fields
    have hpercent : percent y = percent s := percent_congr horch hsession
    exact ⟨⟨hres.le, hatt⟩, ⟨read, hres.sent⟩, hres.regs.answered, hawaited,
      .inl ⟨congrArg Ret.inProgress hpercent, ha, hunit⟩⟩
  case again =>
    intro x y hx hp
    obtain ⟨hres, hatt, hawaited⟩ := hx.poll
    obtain ⟨hmachine, ha⟩ := (poll_inv x hx.machine).2.1 y hp
    rw [hp] at hres hatt hawaited
    exact ⟨hres, hatt, hawaited, ha.trans hx.active, hmachine⟩
  case next =>
    intro x y z st hx hp ho
    obtain ⟨⟨n, read, hres⟩, -, -⟩ := hx.poll
    rw [hp] at hres
    change fdataContinue st y = .again z at ho
    obtain ⟨hlt, e⟩ | e := fdataContinue_cases st y <;> rw [e] at ho <;> cases ho
    have hmore := fdataAttempt_resends y
    obtain ⟨-, -, hbegun, hlen, -⟩ := attempt_facts y
    exact ⟨⟨_, _, hres.trans hmore⟩, hmore.attempts ▸ hlt, fun _ => hres.regs.fields.1 ▸ fdataAttempt_awaitsData y,
      hbegun.active, begun_inv hbegun hlen⟩
  case last =>
    intro x y z st st' hx hp ho
    obtain ⟨⟨n, read, hres⟩, hatt, hawaited⟩ := hx.poll
    obtain ⟨hst, ha⟩ := (poll_inv x hx.machine).2.2 st y hp
    rw [hp] at hres hatt hawaited
    obtain ⟨rfl, rfl, hend⟩ := fdataContinue_finished ho
    refine ⟨⟨hres.le, hatt⟩, ⟨read, hres.sent⟩, hres.regs.answered, hawaited, .inr ⟨ha, rfl, ?_⟩⟩
    by_cases hcode : replyStatus st z.rx.bodyLen = .success
    · exact .inl (congrArg Ret.code hcode)
    · exact .inr ⟨hatt.antisymm (hend.resolve_left hcode), _, replyStatus_mem_fdataFailures hst hcode, rfl⟩

end Polling

/-! ### FDATA called by itself (R112; log 12) -/

/-- FDATA called by itself, its block prepared and no attempt made. -/
def fdataPrepared (idx : U32) (val mask : U16) (s : State) : State :=
  prepareBlock idx val mask { s with unitCall := some .fdata }

/-- FDATA called by itself, at its first poll. -/
def fdataBegun (idx : U32) (val mask : U16) (s : State) : State := fdataAttempt (fdataPrepared idx val mask s)

/-- The data of FDATA's block as they are sent. -/
abbrev sentData (idx : U32) (val mask : U16) (s : State) : Bytes :=
  patchedData s.cfg idx s.session.targetAddr val mask (blockData s.blk)

section Begin
variable {s : State} (idx : U32) (val mask : U16)

theorem bufFrame_fdataPrepared (hl : legalConfig s.cfg = true) (hm : Memory.wf s.blk = true) :
    bufFrame (fdataPrepared idx val mask s) = dataFrame s.cfg idx (sentData idx val mask s) := by
  obtain ⟨-, hchk, -, -, -, hbody, -⟩ := prepare_spec idx val mask { s with unitCall := some .fdata } hm _ rfl
  rw [bufFrame, fdataPrepared, hbody, hchk]
  exact frame_data hl idx _

theorem fdataBegun_resends (s : State) : Resends 1 [] (fdataPrepared idx val mask s) (fdataBegun idx val mask s) :=
  fdataAttempt_resends _

theorem exec_fdata (hl : legalConfig s.cfg = true) (hp : Punctual s s.env.now) :
    exec (.fdata idx val mask) s = .next (await (.unit .fdata) (fdataBegun idx val mask s)) :=
  (whenLegal_eq hl _).trans (runUnit_eq (beginFdata_starts idx val mask { s with unitCall := some .fdata })
    (beginFdata_fields idx val mask { s with unitCall := some .fdata }).1
    (fdataBegun_resends idx val mask s).env hp)

theorem fdataBegun_polling (s : State) : FdataPolling (fdataPrepared idx val mask s) (fdataBegun idx val mask s) := by
  have hres := fdataBegun_resends idx val mask s
  obtain ⟨-, -, hbegun, hlen, -⟩ := attempt_facts (fdataPrepared idx val mask s)
  exact ⟨⟨1, [], hres⟩, hres.attempts ▸ (by decide : 0 + 1 ≤ 3), fun _ => fdataAttempt_awaitsData _, hbegun.active,
    begun_inv hbegun hlen⟩

/-- FDATA called by itself ends well, and has made at least one attempt. -/
theorem exists_fdataEnds (hl : legalConfig s.cfg = true) (hp : Punctual s s.env.now) :
    ∃ t, exec (.fdata idx val mask) s = .next t ∧ FdataEnds (fdataPrepared idx val mask s) t ∧ 1 ≤ t.blkAttempt := by
  have hpolling := fdataBegun_polling idx val mask s
  have honward := FdataPolling.here hpolling.attempts hpolling.active hpolling.machine
  have hone : (fdataBegun idx val mask s).blkAttempt = 1 := (fdataBegun_resends idx val mask s).attempts
  exact ⟨_, exec_fdata idx val mask hl hp, hpolling.await, hone.ge.trans honward.await.made.1⟩

end Begin

/-- Settles O34: every poll and every attempt keeps what is said of them, from the first attempt on and from wherever
STEP resumes. -/
theorem fdataSendsTheSameFrame : Obligations.FdataSendsTheSameFrame := by
  refine ⟨fun s idx val mask hl hm hp => ?called, fun s hl hinv ha hunit hp => ?resumed⟩
  case called =>
    obtain ⟨t, hexec, ⟨⟨-, hthree⟩, ⟨read, henv⟩, -, hawaited, houtcome⟩, hone⟩ := exists_fdataEnds idx val mask hl hp
    rw [bufFrame_fdataPrepared idx val mask hl hm] at henv
    obtain ⟨hexpected, htimeout⟩ := hawaited hone
    exact ⟨t, read, hexec, hone, hthree, henv, hexpected, htimeout, houtcome⟩
  case resumed =>
    have hcaller : callerOf s = some (.unit .fdata) := callerOf_eq_some_iff.2 ⟨hunit, trivial, nofun⟩
    have hexec : exec .step s = .next (await (.unit .fdata) s) :=
      (exec_step_resumed hl ha hcaller).trans (whenPunctual_eq (await_punctual hp))
    obtain ⟨⟨hle, hthree⟩, ⟨read, henv⟩, hregs, hawaited, houtcome⟩ :=
      (FdataPolling.here hinv.attempts ha (hinv.pending ha)).await
    refine ⟨_, read, hexec, hle, hthree, hregs, henv, hawaited, ?_⟩
    obtain ⟨-, hactive, -⟩ | ⟨-, -, hsuccess | ⟨hlast, -⟩⟩ := houtcome
    · exact .inl hactive
    · exact .inr (.inl hsuccess)
    · exact .inr (.inr hlast)

/-! ### The block FDATA prepares (R112, R113) -/

/-- Byte a of a block's data as they are sent, from the buffer before the patch, R113 written out. -/
def patchedByte (c : Config) (idx targetAddr : U32) (val mask : U16) (m : Memory) (a : Nat) : Byte :=
  let old := fun a : Nat => Memory.read m (16 + a)
  let patched : Bool := idx == 0#32 && targetAddr == 0#32 && old 0 == c.imageMagic && mask != 0#16
  let v : U16 := old 3 ++ old 2
  let v' : U16 := (v &&& ~~~mask) ||| val
  if patched = true ∧ a = 2 then v'.extractLsb' 0 8 else if patched = true ∧ a = 3 then v'.extractLsb' 8 8 else old a

theorem byteAt_set (d : Bytes) (i : Nat) (b : Byte) {a : Nat} (ha : a < d.length) :
    byteAt (d.set i b) a = if a = i then b else byteAt d a := by
  simp only [byteAt, List.getD_eq_getElem?_getD, List.getElem?_set, eq_comm (a := a)]
  split
  · rename_i h
    simp [h, ha]
  · rfl

/-- The two accounts of the patch agree (R113). -/
theorem byteAt_patchedData (c : Config) (idx targetAddr : U32) (val mask : U16) {m : Memory} (hm : Memory.wf m = true)
    {a : Nat} (ha : a < 1024) :
    byteAt (patchedData c idx targetAddr val mask (blockData m)) a = patchedByte c idx targetAddr val mask m a := by
  have hold (i : Nat) (hi : i < 1024) : byteAt (blockData m) i = Memory.read m (16 + i) := byteAt_blockData hm i hi
  have hpatched : (idx == 0#32 && targetAddr == 0#32 && Memory.read m 16 == c.imageMagic && mask != 0#16) = true ↔
      idx = 0#32 ∧ targetAddr = 0#32 ∧ Memory.read m 16 = c.imageMagic ∧ mask ≠ 0#16 := by simp [and_assoc]
  have hlen : (blockData m).length = 1024 := length_blockData m
  simp only [patchedData, patchedByte, hold 0 (by decide), hold 2 (by decide), hold 3 (by decide), Nat.add_zero,
    hpatched]
  split
  · rename_i h
    rw [byteAt_set _ 3 _ (by simpa [hlen] using ha), byteAt_set _ 2 _ (by simpa [hlen] using ha), hold a ha]
    obtain rfl | h2 := eq_or_ne a 2
    · simp [h]
    · simp [h, h2]
  · rename_i h
    rw [if_neg (mt And.left h), if_neg (mt And.left h), hold a ha]

theorem map_patchedByte (c : Config) (idx targetAddr : U32) (val mask : U16) {m : Memory} (hm : Memory.wf m = true) :
    (List.range 1024).map (patchedByte c idx targetAddr val mask m) =
      patchedData c idx targetAddr val mask (blockData m) := by
  have hlen : (patchedData c idx targetAddr val mask (blockData m)).length = 1024 := by
    rw [length_patchedData, length_blockData]
  refine ext_byteAt (by simp [hlen]) fun a ha => ?_
  have ha : a < 1024 := by simpa using ha
  rw [byteAt_patchedData c idx targetAddr val mask hm ha]
  simp [byteAt, ha]

/-- Settles O33: the poll loop leaves the block as it was prepared. -/
theorem fdataPreparesTheBlock : Obligations.FdataPreparesTheBlock := by
  intro s idx val mask hl hm hp
  refine ⟨map_patchedByte s.cfg idx s.session.targetAddr val mask hm, ?_⟩
  obtain ⟨t, hexec, ⟨-, ⟨read, henv⟩, hregs, -, -⟩, -⟩ := exists_fdataEnds idx val mask hl hp
  obtain ⟨hwf, hchk, -, hread, -⟩ := prepare_spec idx val mask { s with unitCall := some .fdata } hm _ rfl
  have hblk : t.blk = (fdataPrepared idx val mask s).blk := (congrArg State.blk hregs :)
  have hchk8 : t.chk8 = (fdataPrepared idx val mask s).chk8 := (congrArg State.chk8 hregs :)
  refine ⟨t, hexec, ?chk8, fun a => ?read, hblk ▸ hwf, ?regs, henv.lines⟩
  case chk8 =>
    rw [hchk8, fdataPrepared, hchk]
    exact (congrArg chkFold (map_patchedByte s.cfg idx s.session.targetAddr val mask hm)).symm
  case read =>
    rw [hblk, fdataPrepared, hread]
    split
    · rfl
    · split
      · exact byteAt_patchedData s.cfg idx s.session.targetAddr val mask hm (by omega)
      · rfl
  case regs =>
    exact congrArg (fun u : State => { u with
      rx := s.rx, env := s.env, ret := s.ret, unitCall := s.unitCall, blk := s.blk, chk8 := s.chk8
      blkAttempt := s.blkAttempt }) hregs

/-! ### Responses that stand in `RXQ` (R112, R114) -/

/-- An attempt of FDATA's has just begun, and the clock leaves it, and any after it, the time. -/
structure ReadsData (s : State) : Prop where
  begun : Begun s
  onTime : OnTime s
  expected : s.rx.expected = s.cfg.opcFlashData
  time : slack s.env ≤ s.cfg.tBlock.toNat

theorem fdataAttempt_readsData {s : State} (h : slack s.env ≤ s.cfg.tBlock.toNat) : ReadsData (fdataAttempt s) := by
  have hres := fdataAttempt_resends s
  obtain ⟨-, -, hbegun, -, -, -, -, hontime⟩ := attempt_facts s
  have hcfg : (fdataAttempt s).cfg = s.cfg := hres.regs.fields.1
  exact ⟨hbegun, hontime h, hcfg ▸ rfl, hcfg ▸ (slack_mono hres.env).trans h⟩

section Responses
variable {c : Caller} (hc : c.op = .fdata) {r : Reply} {s : State} {z : Bytes} (h : ReadsData s)
include hc h

/-- FDATA goes on by the code CMD gives the response (R86, R114). -/
theorem await_dataReply (hr : r.sendable) (hq : s.env.rxq = r.wire ++ z) :
    ∃ t, t.rx.active = false ∧ Got r.wire s t ∧ await c s = OpStep.run c
      (if retryDue (r.code s.cfg s.cfg.opcFlashData) s.blkAttempt then .again (fdataAttempt t)
        else .finished (r.code s.cfg s.cfg.opcFlashData) t) := by
  obtain ⟨t, hawait, hheld, -, -, hgot, -⟩ := await_reply c [] r s z h.onTime h.begun nofun hr hq
  rw [h.expected] at hawait hheld
  have hatt : t.blkAttempt = s.blkAttempt := hgot.resends.attempts
  refine ⟨t, hheld.active, hgot, ?_⟩
  rw [← held_code hheld s.cfg, ← hatt, hawait, resume, hc]
  rfl

/-- R114: a failure costs one attempt, and another is made. -/
theorem await_dataFailure (hr : r.sendable) (hno : ¬ r.accepted s.cfg s.cfg.opcFlashData) (hlt : s.blkAttempt < 3)
    (hq : s.env.rxq = r.wire ++ z) :
    ∃ t, await c s = await c t ∧ ReadsData t ∧ Resends 1 r.wire s t := by
  obtain ⟨t, -, hgot, hawait⟩ := await_dataReply hc h hr hq
  have hdue : retryDue (r.code s.cfg s.cfg.opcFlashData) s.blkAttempt = true := by
    simp [retryDue, blockAttempts, hlt, Reply.code_eq_success_iff, hno]
  have htime : slack t.env ≤ t.cfg.tBlock.toNat := by
    rw [hgot.regs.fields.1]
    exact (slack_mono hgot.env).trans h.time
  rw [if_pos hdue] at hawait
  have hres := hgot.resends.trans (fdataAttempt_resends t)
  rw [List.append_nil] at hres
  exact ⟨fdataAttempt t, hawait, fdataAttempt_readsData htime, hres⟩

/-- R112, R114: an accepted response ends FDATA, and so does the third whatever it is. -/
theorem await_dataLast (hr : r.sendable) (hlast : r.accepted s.cfg s.cfg.opcFlashData ∨ s.blkAttempt = 3)
    (hq : s.env.rxq = r.wire ++ z) :
    ∃ t, await c s = deliver c (r.code s.cfg s.cfg.opcFlashData) t ∧ t.rx.active = false ∧ Resends 0 r.wire s t := by
  obtain ⟨t, hoff, hgot, hawait⟩ := await_dataReply hc h hr hq
  have hdue : ¬ retryDue (r.code s.cfg s.cfg.opcFlashData) s.blkAttempt = true := by
    rcases hlast with hyes | hthree
    · simp [retryDue, Reply.code_eq_success_iff.2 hyes]
    · simp [retryDue, blockAttempts, hthree]
  rw [if_neg hdue] at hawait
  exact ⟨t, hawait, hoff, hgot.resends⟩

end Responses

/-- R114: each of the failures costs one attempt. -/
theorem await_dataFailures {c : Caller} (hc : c.op = .fdata) (failed : List Reply) {s : State} {z : Bytes}
    (h : ReadsData s) (hno : ∀ f ∈ failed, f.sendable ∧ ¬ f.accepted s.cfg s.cfg.opcFlashData)
    (hlen : s.blkAttempt + failed.length ≤ 3) (hq : s.env.rxq = failed.flatMap Reply.wire ++ z) :
    ∃ t, await c s = await c t ∧ ReadsData t ∧ Resends failed.length (failed.flatMap Reply.wire) s t := by
  induction failed generalizing s z with
  | nil => exact ⟨s, rfl, h, .refl s⟩
  | cons r rs ih =>
    rw [List.flatMap_cons, List.append_assoc] at hq
    rw [List.length_cons] at hlen
    obtain ⟨⟨hr, hne⟩, hrs⟩ := List.forall_mem_cons.1 hno
    obtain ⟨t, hawait, ht, hres⟩ := await_dataFailure hc h hr hne (by omega) hq
    obtain ⟨z', hz⟩ := hres.env.rest hq
    rw [List.append_assoc] at hz
    rw [← hres.regs.fields.1] at hrs
    obtain ⟨u, hawait', hu, hres'⟩ := ih ht hrs (by have := hres.attempts; omega) hz
    have hall := hres.trans hres'
    rw [Nat.add_comm 1] at hall
    exact ⟨u, hawait.trans hawait', hu, hall⟩

/-- Settles O35: the failures are read past, and the next response is FDATA's answer. -/
theorem fdataAnswered : Obligations.FdataAnswered := by
  intro s idx val mask failed r rest hl hm hslack hp hfailed hlen hr hlast read hrxq
  have hbegun := fdataBegun_resends idx val mask s
  have hreads : ReadsData (fdataBegun idx val mask s) :=
    fdataAttempt_readsData (s := fdataPrepared idx val mask s) hslack
  have hone : (fdataBegun idx val mask s).blkAttempt = 1 := hbegun.attempts
  have hcfg : (fdataBegun idx val mask s).cfg = s.cfg := hbegun.regs.fields.1
  obtain ⟨z, hz⟩ := hbegun.env.rest (q := read ++ rest) hrxq
  simp only [read, List.append_assoc] at hz
  rw [← hcfg] at hfailed hlast
  obtain ⟨t, hawait, ht, hres⟩ := await_dataFailures (c := .unit .fdata) rfl failed hreads hfailed (by omega) hz
  obtain ⟨z', hz'⟩ := hres.env.rest hz
  simp only [List.append_assoc] at hz'
  have hcfg' : t.cfg = s.cfg := hres.regs.fields.1.trans hcfg
  have hlast' : r.accepted t.cfg t.cfg.opcFlashData ∨ t.blkAttempt = 3 := by
    rw [hres.regs.fields.1, hres.attempts, hone]
    exact hlast.imp_right fun h2 => by rw [h2]
  obtain ⟨u, hawait', hoff, hres'⟩ := await_dataLast (c := .unit .fdata) rfl ht hr hlast' hz'
  rw [hcfg'] at hawait'
  obtain ⟨-, hattempts, henv⟩ := (hbegun.trans hres).trans hres'
  have hcount : 1 + failed.length + 0 = failed.length + 1 := Nat.add_comm 1 _
  rw [hcount] at hattempts henv
  rw [bufFrame_fdataPrepared idx val mask hl hm] at henv
  refine ⟨deliver (.unit .fdata) (r.code s.cfg s.cfg.opcFlashData) u, ?_, rfl, ?_, hoff, rfl, henv⟩
  · rw [exec_fdata idx val mask hl hp, hawait, hawait']
  · exact hattempts.trans (Nat.zero_add _)

end Sys2Proof.Machine
end

section
/-! PROOFS. The frames that STEP sends (43_flash_sequencer.md R116, 44_orchestrator.md R140): what a poll loop adds to
`TXS`, and what each state action does. -/

namespace Sys2Proof.Machine

/-! ### The poll loop -/

/-- A poll loop sends more copies of FDATA's frame, or nothing (R114). -/
theorem await_txs (c : Caller) (s : State) : ∃ n, n ≤ 3 - s.blkAttempt ∧ (n ≠ 0 → c.op = .fdata) ∧
    (await c s).env.txs = s.env.txs ++ copies n (bufFrame s) := by
  refine await_any c s (fun t => ∃ n, n ≤ 3 - s.blkAttempt ∧ (n ≠ 0 → c.op = .fdata) ∧
    t.env.txs = s.env.txs ++ copies n (bufFrame s)) ?wait ?last
  case wait => exact fun x n read _ henv hn hop => ⟨n, hn, hop, henv.sent⟩
  case last => exact fun x n read st _ henv hn hop _ => ⟨n, hn, hop, (went_deliver c st x).txs.trans henv.sent⟩

/-- A poll loop of another operation than FDATA sends nothing. -/
theorem await_txs_of_ne {c : Caller} (h : c.op ≠ .fdata) (s : State) : (await c s).env.txs = s.env.txs := by
  obtain ⟨n, -, hop, htxs⟩ := await_txs c s
  obtain rfl : n = 0 := by
    by_contra hn
    exact h (hop hn)
  rw [htxs, copies_zero, List.append_nil]

/-- From e to f, one to three copies of one FlashData frame are sent. -/
def SendsData (c : Config) (e f : Env) : Prop :=
  ∃ n body chk, 1 ≤ n ∧ n ≤ 3 ∧ f.txs = e.txs ++ copies n (frameOnWire c c.opcFlashData body chk)

/-- STEP resumes: FDATA alone may send. -/
theorem await_sends (c : Caller) (s : State) :
    (await c s).env.txs = s.env.txs ∨ c.op = .fdata ∧ SendsData s.cfg s.env (await c s).env := by
  obtain ⟨n, hn, hop, htxs⟩ := await_txs c s
  obtain rfl | hpos := Nat.eq_zero_or_pos n
  · exact .inl (htxs.trans (List.append_nil _))
  · exact .inr ⟨hop hpos.ne', n, _, _, hpos, hn.trans (Nat.sub_le 3 _), htxs⟩

/-! ### The state actions (R134 to R138) -/

/-- R134: a reset sends nothing. -/
theorem stepResetting_txs (s : State) : (stepResetting s).env.txs = s.env.txs := by
  unfold stepResetting
  dsimp only
  split <;> simp [finishDone]

theorem beginSync_txs (T : U32) (s : State) : (beginSync T s).env.txs = s.env.txs ++ syncFrame s.cfg := by
  obtain ⟨-, -, -, hsync, -⟩ := beginSync_facts T s
  exact hsync.sent

/-- R135: one Sync request, if the intervals have passed. -/
theorem stepConnecting_txs (s : State) : (stepConnecting s).env.txs = s.env.txs ∨
    (stepConnecting s).env.txs = s.env.txs ++ syncFrame s.cfg := by
  unfold stepConnecting
  dsimp only
  split
  · exact .inr ((await_txs_of_ne (c := .connecting) (by decide) _).trans (beginSync_txs tSync _))
  · exact .inl rfl

/-- R136: one FlashBegin request for the erase size. -/
theorem stepErasing_txs {s t : State} (hl : legalConfig s.cfg = true) (h : stepErasing s = .next t) :
    ∃ es, eraseSize s.cfg s.session.imageSize s.session.targetAddr = some es ∧
      t.env.txs = s.env.txs ++ flashBeginFrame s.cfg s.session.targetAddr es := by
  unfold stepErasing at h
  split at h
  · cases h
  · rename_i es hes
    obtain ⟨rfl, -⟩ := whenPunctual_next h
    refine ⟨es, hes, (await_txs_of_ne (c := .erasing) (by decide) _).trans ?_⟩
    rw [← frame_begin hl]
    exact beginCmd_txs _ _ _ _ { s with unitCall := none }

/-- FDATA and what follows it, from its first attempt on. -/
theorem await_beginFdata_sends (idx : U32) (val mask : U16) (s : State) :
    SendsData s.cfg s.env (await .uploading (beginFdata idx val mask s)).env := by
  have hfirst : Resends 1 [] (prepareBlock idx val mask s) (beginFdata idx val mask s) := fdataAttempt_resends _
  obtain ⟨n, hn, -, htxs⟩ := await_txs .uploading (beginFdata idx val mask s)
  have hone : (beginFdata idx val mask s).blkAttempt = 1 := hfirst.attempts
  rw [hone] at hn
  have hsent : (await .uploading (beginFdata idx val mask s)).env.txs =
      s.env.txs ++ copies (1 + n) (bufFrame (prepareBlock idx val mask s)) := by
    rw [htxs, hfirst.env.sent, hfirst.regs.bufFrame_eq, copies_add, List.append_assoc]
    rfl
  exact ⟨1 + n, _, _, Nat.le_add_right 1 n, by omega, hsent⟩

/-- R138: the copies of one block's frame, or nothing. -/
theorem stepUploading_txs (s : State) : (stepUploading s).env.txs = s.env.txs ∨
    SendsData s.cfg s.env (stepUploading s).env := by
  unfold stepUploading
  dsimp only
  split
  · split
    · exact .inl rfl
    · right
      obtain ⟨n, body, chk, h⟩ := await_beginFdata_sends s.session.blockIdx s.cfg.parmVal s.cfg.parmMask _
      exact ⟨n, body, chk, h⟩
  · exact .inl rfl

/-- Settles O57, by what is pending and by the action of `orch_state`. -/
theorem stepSendsThreeKindsOfFrame : Obligations.StepSendsThreeKindsOfFrame := by
  intro s t h
  obtain ⟨hl, h⟩ := whenLegal_next h
  split at h
  · split at h
    · rename_i c hc
      obtain ⟨rfl, -⟩ := whenPunctual_next h
      obtain hsame | ⟨hop, hsends⟩ := await_sends c s
      · exact .inl hsame
      · refine .inr (.inr (.inr ⟨?_, hsends⟩))
        obtain ⟨hunit, hin, -⟩ := callerOf_eq_some_iff.1 hc
        cases c with
        | unit op => exact .inr (hunit.trans (congrArg some hop))
        | uploading => exact .inl hin
        | connecting | erasing => cases hop
    · cases h
  · split at h
    case h_1 =>
      unfold stepIdle at h
      split at h <;> cases h
      exact .inl rfl
    case h_2 =>
      cases h
      exact .inl (stepResetting_txs s)
    case h_3 ho =>
      obtain ⟨rfl, -⟩ := whenPunctual_next h
      exact (stepConnecting_txs s).imp_right fun hsync => .inl ⟨ho, hsync⟩
    case h_4 ho => exact .inr (.inr (.inl ⟨ho, stepErasing_txs hl h⟩))
    case h_5 ho =>
      obtain ⟨rfl, -⟩ := whenPunctual_next h
      exact (stepUploading_txs s).imp_right fun hdata => .inr (.inr ⟨.inl ho, hdata⟩)
    case h_6 =>
      cases h
      exact .inl rfl

end Sys2Proof.Machine
end

section
/-! PROOFS. That a RECV does not see how its bytes fall between the calls (44_orchestrator.md R130, R132): a poll does not
read the histories, and where it goes on without a byte more, it goes on so with more bytes behind. -/

namespace Sys2Proof.Machine

/-! ### The history a poll does not read (R20) -/

/-- Without the history of interface calls and the last return. -/
def State.blank (s : State) : State := { s with env := { s.env with events := [] }, ret := .nothing }

/-- Without the history of interface calls. -/
def State.unrecorded (s : State) : State := { s with env := { s.env with events := [] } }

/-- The same outcome, in another state. -/
def Poll.map (f : State → State) : Poll → Poll
  | .wait s => .wait (f s)
  | .again s => .again (f s)
  | .ended r s => .ended r (f s)

theorem decodeEscaped_blank (s : State) :
    (decodeEscaped s.blank).1 = (decodeEscaped s).1 ∧ (decodeEscaped s.blank).2.blank = (decodeEscaped s).2.blank := by
  have h : s.blank.env.rxByte.1 = s.env.rxByte.1 := rfl
  simp only [decodeEscaped, h]
  cases s.env.rxByte.1 <;> exact ⟨rfl, rfl⟩

theorem slipDecode_blank (s : State) :
    (slipDecode s.blank).1 = (slipDecode s).1 ∧ (slipDecode s.blank).2.blank = (slipDecode s).2.blank := by
  have h : s.blank.env.rxByte.1 = s.env.rxByte.1 := rfl
  have he : s.blank.rx.escPending = s.rx.escPending := rfl
  simp only [slipDecode, h, he]
  split
  · exact decodeEscaped_blank s
  · split
    · exact ⟨rfl, rfl⟩
    · split
      · exact ⟨rfl, rfl⟩
      · have h1 := decodeEscaped_blank { s.blank with env := s.blank.env.rxByte.2, rx := { s.blank.rx with escPending := true } }
        have h2 := decodeEscaped_blank { s with env := s.env.rxByte.2, rx := { s.rx with escPending := true } }
        exact ⟨h1.1.symm.trans h2.1, h1.2.symm.trans h2.2⟩

theorem endRecv_blank (r : ResultCode) {s t : State} (h : s.blank = t.blank) :
    (endRecv r s).map State.blank = (endRecv r t).map State.blank :=
  congrArg (fun u : State => Poll.ended r { u with rx := { u.rx with active := false } }) h

theorem pollStart_blank (s : State) : (pollStart s.blank).map State.blank = (pollStart s).map State.blank := by
  have h : s.blank.env.rxByte.1 = s.env.rxByte.1 := rfl
  simp only [pollStart, h]
  split
  · rfl
  · simp only [Poll.map]
    split <;> rfl

theorem pollEnd_blank (s : State) : (pollEnd s.blank).map State.blank = (pollEnd s).map State.blank := by
  have h : s.blank.env.rxByte.1 = s.env.rxByte.1 := rfl
  simp only [pollEnd, h]
  split
  · rfl
  · split <;> rfl

theorem pollDecoded_blank (store : Byte → Receiver → Receiver) (s : State) :
    (pollDecoded store s.blank).map State.blank = (pollDecoded store s).map State.blank := by
  obtain ⟨h1, h2⟩ := slipDecode_blank s
  simp only [pollDecoded, h1]
  split
  · exact congrArg Poll.wait h2
  · exact congrArg Poll.wait h2
  · exact endRecv_blank _ h2
  · exact endRecv_blank _ h2
  · rename_i c _
    exact congrArg (fun u : State => Poll.again { u with rx := store c u.rx }) h2

/-- A poll reads neither the history nor the last return (R84). -/
theorem poll_blank (s : State) : (poll s.blank).map State.blank = (poll s).map State.blank := by
  have ht : (s.blank.env.readClock s.blank.cfg.clkW).1 = (s.env.readClock s.cfg.clkW).1 := rfl
  have ha : s.blank.atPoll.blank = s.atPoll.blank := rfl
  have hc : s.blank.atPoll.cfg = s.atPoll.cfg := rfl
  have hr : s.blank.atPoll.rx = s.atPoll.rx := rfl
  simp only [poll, ht, hc, hr]
  split
  · exact endRecv_blank _ ha
  · split
    · rw [← pollStart_blank, ha, pollStart_blank]
    · rw [← pollDecoded_blank, ha, pollDecoded_blank]
    · rw [← pollDecoded_blank, ha, pollDecoded_blank]
    · rw [← pollEnd_blank, ha, pollEnd_blank]
    · exact endRecv_blank _ ha

/-! ### More bytes behind (R130) -/

/-- What SLIP.DEC makes of s with more bytes behind: the same, or, where it lacks a byte, what it makes of a state z with
these bytes behind that it has come to already. -/
def DecodesBehind (s : State) : Prop :=
  (¬ ((slipDecode s).1 = .noData ∨ (slipDecode s).1 = .escPending) ∧
    ∀ b, slipDecode (s.arrive b) = ((slipDecode s).1, (slipDecode s).2.arrive b)) ∨
  ((slipDecode s).1 = .noData ∨ (slipDecode s).1 = .escPending) ∧
    ∃ z : State, (slipDecode s).2.blank = z.blank ∧ ∀ b, slipDecode (s.arrive b) = slipDecode (z.arrive b)

section Quiet
variable {s : State} (hq : Quiet s)
include hq

theorem turn_of_quiet : s.env.turn = s.env := Env.turn_quiet _ hq

/-- Nothing is read from an empty queue. -/
theorem rxByte_empty (h : s.env.rxq = []) : { s with env := s.env.rxByte.2 }.blank = s.blank := by
  simp [State.blank, Env.rxByte, Env.record, turn_of_quiet hq, h]

/-- A byte that is there is read whatever stands behind it. -/
theorem rxByte_arrive (h : s.env.rxq ≠ []) (b : Bytes) :
    (s.arrive b).env.rxByte = (s.env.rxByte.1, s.env.rxByte.2.arrive b) := by
  obtain ⟨c, q, h⟩ := List.exists_cons_of_ne_nil h
  simp [Env.rxByte, Env.record, Env.arrive, Env.turn_quiet, hq, h]

theorem atPoll_arrive (b : Bytes) : (s.arrive b).atPoll = s.atPoll.arrive b := by
  simp [State.atPoll, State.arrive, Env.arrive, Env.readClock, Env.record, Env.tested, Env.turn_quiet, hq]

/-- With an escape byte read: the next byte decides, and if there is none, z is s. -/
theorem decodesBehind_escaped (he : s.rx.escPending = true) : DecodesBehind s := by
  have hb (b : Bytes) : slipDecode (s.arrive b) = decodeEscaped (s.arrive b) := slipDecode_escaped he
  simp only [DecodesBehind, hb, slipDecode_escaped he]
  by_cases hrxq : s.env.rxq = []
  · rw [decodeEscaped_none he ((turn_of_quiet hq).symm ▸ hrxq), State.decoding_same he]
    exact .inr ⟨.inr rfl, s, rxByte_empty hq hrxq, fun b => (hb b).symm⟩
  · obtain ⟨c, q, h⟩ := List.exists_cons_of_ne_nil hrxq
    refine .inl ⟨?_, fun b => ?_⟩ <;> simp only [decodeEscaped, rxByte_arrive hq hrxq, rxByte_some h]
    · simp only [escapedOutcome]
      split_ifs <;> simp
    · rfl

/-- Without one: the first byte decides, and an escape byte is read first. -/
theorem decodesBehind_unescaped (he : s.rx.escPending = false) : DecodesBehind s := by
  by_cases hrxq : s.env.rxq = []
  · refine .inr ⟨.inl ?_, s, ?_, fun b => rfl⟩ <;>
      rw [slipDecode_none he ((turn_of_quiet hq).symm ▸ hrxq), State.decoding_same he]
    exact rxByte_empty hq hrxq
  · obtain ⟨c, q, h⟩ := List.exists_cons_of_ne_nil hrxq
    have hhead : s.env.turn.rxq.head? = some c := by rw [turn_of_quiet hq, h]; rfl
    have hheads (b : Bytes) : (s.arrive b).env.turn.rxq.head? = some c := by
      rw [turn_of_quiet (s := s.arrive b) hq, State.arrive_env, Env.arrive_rxq, h]
      rfl
    cases ho : firstByteOutcome c with
    | some o =>
      rw [DecodesBehind, slipDecode_first he hhead ho]
      refine .inl ⟨?_, fun b => ?_⟩
      · unfold firstByteOutcome at ho
        split_ifs at ho <;> cases ho <;> simp
      · rw [slipDecode_first (s := s.arrive b) he (hheads b) ho, rxByte_arrive hq hrxq]
        rfl
    | none =>
      obtain rfl : c = slipESC := by
        by_contra hc
        by_cases hc' : c = slipEND <;> simp [firstByteOutcome, hc, hc'] at ho
      have hread : slipDecode s = slipDecode (s.decoding true s.env.rxByte.2) :=
        (slipDecode_escape he hhead).trans (slipDecode_escaped rfl).symm
      have hreads (b : Bytes) : slipDecode (s.arrive b) = slipDecode ((s.decoding true s.env.rxByte.2).arrive b) := by
        rw [slipDecode_escape (s := s.arrive b) he (hheads b), rxByte_arrive hq hrxq]
        exact (slipDecode_escaped rfl).symm
      have hz := decodesBehind_escaped (s := s.decoding true s.env.rxByte.2) (congrArg List.tail hq) rfl
      simpa only [DecodesBehind, ← hread, ← hreads] using hz

theorem decodesBehind : DecodesBehind s := by
  cases he : s.rx.escPending with
  | true => exact decodesBehind_escaped hq he
  | false => exact decodesBehind_unescaped hq he

end Quiet

/-- What a poll's case f makes of s with more bytes behind: the same, or, where it waits, what it makes of a state z with
these bytes behind that it has come to already. -/
def PollsBehind (f : State → Poll) (s : State) : Prop :=
  ((∀ y, f s ≠ .wait y) ∧ ∀ b, f (s.arrive b) = (f s).map fun t => t.arrive b) ∨
  ∃ y z : State, f s = .wait y ∧ y.rx.state = s.rx.state ∧ y.blank = z.blank ∧ ∀ b, f (s.arrive b) = f (z.arrive b)

section Quiet
variable {s : State} (hq : Quiet s)
include hq

theorem pollsBehind_pollStart : PollsBehind pollStart s := by
  by_cases hrxq : s.env.rxq = []
  · have hnone : s.env.rxByte.1 = none := by simp [turn_of_quiet hq, hrxq, -Env.turn_rxq]
    exact .inr ⟨{ s with env := s.env.rxByte.2 }, s, by simp only [pollStart, hnone], rfl, rxByte_empty hq hrxq, fun _ => rfl⟩
  · obtain ⟨c, q, h⟩ := List.exists_cons_of_ne_nil hrxq
    simp only [PollsBehind, pollStart, rxByte_arrive hq hrxq, rxByte_some h]
    refine .inl ⟨fun y => ?_, fun b => ?_⟩
    · nofun
    · simp only [Poll.map]
      split <;> rfl

theorem pollsBehind_pollEnd : PollsBehind pollEnd s := by
  by_cases hrxq : s.env.rxq = []
  · have hnone : s.env.rxByte.1 = none := by simp [turn_of_quiet hq, hrxq, -Env.turn_rxq]
    exact .inr ⟨{ s with env := s.env.rxByte.2 }, s, by simp only [pollEnd, hnone], rfl, rxByte_empty hq hrxq, fun _ => rfl⟩
  · obtain ⟨c, q, h⟩ := List.exists_cons_of_ne_nil hrxq
    simp only [PollsBehind, pollEnd, rxByte_arrive hq hrxq, rxByte_some h]
    refine .inl ⟨fun y => ?_, fun b => ?_⟩
    · split <;> nofun
    · split <;> rfl

theorem pollsBehind_pollDecoded (store : Byte → Receiver → Receiver) : PollsBehind (pollDecoded store) s := by
  obtain ⟨ho, hb⟩ | ⟨ho, z, hz, hb⟩ := decodesBehind hq
  · simp only [PollsBehind, pollDecoded, hb]
    refine .inl ⟨fun y => ?_, fun b => ?_⟩
    · split <;> simp_all [endRecv]
    · split <;> rfl
  · refine .inr ⟨(slipDecode s).2, z, ?_, by rw [slipDecode_rx], hz, fun b => by simp only [pollDecoded, hb]⟩
    rcases ho with ho | ho <;> simp only [pollDecoded, ho]

/-- A clock reading shows nothing new where `rx_start` has been tested at this time already. -/
theorem atPoll_blank (h : 2 ^ s.cfg.clkW ≤ s.env.now - s.env.stamps.rx → s.env.overrun = true) :
    s.atPoll.blank = s.blank := by
  simp [State.blank, State.atPoll, Env.readClock, Env.record, Env.turn_quiet, hq, Env.tested]
  exact h

/-- What a waiting poll leaves in a quiet environment: the clock has been read, and stands still. -/
theorem quiet_of_poll_wait {y : State} (h : poll s = .wait y) :
    Quiet y ∧ (2 ^ y.cfg.clkW ≤ y.env.now - y.env.stamps.rx → y.env.overrun = true) := by
  obtain ⟨read, hx, -⟩ := poll_exchanged s
  have hover := poll_overrun s
  have hw := poll_wait h
  rw [h] at hx hover
  obtain ⟨k, hscript, hnow, -⟩ := hx.turns
  simp only [hq, List.take_nil, List.map_nil, List.sum_nil, List.drop_nil, Nat.add_zero, Poll.state] at hscript hnow hover
  refine ⟨hscript, fun hlate => ?_⟩
  rw [hw.regs.fields.1, hw.stamps, hnow] at hlate
  simp [hover, turn_of_quiet hq, hlate]

/-- While the clock stands still, a RECV whose next poll is on time stays so. -/
theorem onTime_of_fresh (h : ¬ timedOut s.cfg.clkW s.env.turn.now s.rx.start s.rx.timeout = true) : OnTime s := by
  have hslack : slack s.env = 0 := by rw [slack, hq]; rfl
  simpa [timedOut, OnTime, hslack, turn_of_quiet hq] using h

end Quiet

/-- A poll sees more bytes behind only where it waits; then it comes to the same with them as the next poll does. -/
def SeesOnlyIfWaiting (s : State) : Prop :=
  ((∀ y, poll s ≠ .wait y) ∧ ∀ b, poll (s.arrive b) = (poll s).map fun t => t.arrive b) ∨
  ∃ y, poll s = .wait y ∧ ∀ b, (poll (s.arrive b)).map State.blank = (poll (y.arrive b)).map State.blank

/-- So it is for a poll on time, if it is so for its case f. -/
theorem seesOnlyIfWaiting_of_case {s : State} (hq : Quiet s) (ht : OnTime s) {f : State → Poll}
    (hpoll : ∀ u, OnTime u → u.rx.state = s.rx.state → u.cfg = s.cfg → poll u = f u.atPoll)
    (hblank : ∀ u : State, (f u.blank).map State.blank = (f u).map State.blank) (hf : PollsBehind f s.atPoll) :
    SeesOnlyIfWaiting s := by
  have hs : poll s = f s.atPoll := hpoll s ht rfl rfl
  have hb (b : Bytes) : poll (s.arrive b) = f (s.atPoll.arrive b) := by
    rw [hpoll (s.arrive b) ht rfl rfl, atPoll_arrive hq]
  obtain hf | ⟨y, z, hy, hstate, hyz, hf⟩ := hf
  · exact .inl ⟨fun y hy => hf.1 y (hs ▸ hy), fun b => by rw [hb, hf.2, hs]⟩
  · rw [← hs] at hy
    refine .inr ⟨y, hy, fun b => ?_⟩
    obtain ⟨hquiet, htested⟩ := quiet_of_poll_wait hq hy
    have hw := poll_wait hy
    obtain ⟨read, hx, -⟩ := poll_exchanged s
    rw [hy] at hx
    have hty : OnTime y := ht.mono ⟨hw.regs, hx⟩ hw.call.start hw.call.timeout
    rw [hb, hf, hpoll (y.arrive b) hty hstate hw.regs.fields.1, ← hblank (y.arrive b).atPoll,
      atPoll_blank (s := y.arrive b) hquiet htested, ← hblank (z.arrive b)]
    exact congrArg (fun u : State => (f (u.arrive b)).map State.blank) hyz.symm

theorem seesOnlyIfWaiting {s : State} (hq : Quiet s) : SeesOnlyIfWaiting s := by
  by_cases hlate : timedOut s.cfg.clkW s.env.turn.now s.rx.start s.rx.timeout = true
  · have hlates (b : Bytes) : timedOut s.cfg.clkW (s.arrive b).env.turn.now s.rx.start s.rx.timeout = true := hlate
    obtain ⟨y, hy, -⟩ := poll_timeout hlate
    refine .inl ⟨by simp [hy], fun b => ?_⟩
    simp only [poll, Env.readClock_fst, State.atPoll_cfg, State.atPoll_rx, timedOut_mod, hlate, hlates b, if_true,
      State.arrive_cfg, State.arrive_rx, atPoll_arrive hq]
    rfl
  · have hquiet : Quiet s.atPoll := congrArg List.tail hq
    have ht : OnTime s := onTime_of_fresh hq hlate
    cases hs : s.rx.state with
    | awaitingStart =>
      exact seesOnlyIfWaiting_of_case hq ht (fun u hu hst _ => by rw [hu.poll, hst, hs]) pollStart_blank
        (pollsBehind_pollStart hquiet)
    | readingHeader =>
      exact seesOnlyIfWaiting_of_case hq ht (fun u hu hst _ => by rw [hu.poll, hst, hs]) (pollDecoded_blank _)
        (pollsBehind_pollDecoded hquiet _)
    | readingBody =>
      exact seesOnlyIfWaiting_of_case hq ht (fun u hu hst hc => by rw [hu.poll, hst, hs, hc]) (pollDecoded_blank _)
        (pollsBehind_pollDecoded hquiet _)
    | awaitingEnd =>
      exact seesOnlyIfWaiting_of_case hq ht (fun u hu hst _ => by rw [hu.poll, hst, hs]) pollEnd_blank
        (pollsBehind_pollEnd hquiet)
    | complete =>
      exact seesOnlyIfWaiting_of_case hq ht (fun u hu hst _ => by rw [hu.poll, hst, hs])
        (fun _ => endRecv_blank _ rfl) (.inl ⟨by simp [endRecv], fun _ => rfl⟩)

/-! ### The poll loop of a RECV called by itself -/

theorem Poll.map_eq_wait {f : State → State} {p : Poll} {s : State} (h : p.map f = .wait s) :
    ∃ t, p = .wait t ∧ f t = s := by
  cases p <;> simp_all [Poll.map]

theorem Poll.map_eq_again {f : State → State} {p : Poll} {s : State} (h : p.map f = .again s) :
    ∃ t, p = .again t ∧ f t = s := by
  cases p <;> simp_all [Poll.map]

theorem Poll.map_eq_ended {f : State → State} {p : Poll} {s : State} {st : ResultCode} (h : p.map f = .ended st s) :
    ∃ t, p = .ended st t ∧ f t = s := by
  cases p <;> simp_all [Poll.map]

/-- Two polls come to the same, but for the histories and the last return. -/
def PollsAlike (s t : State) : Prop := (poll s).map State.blank = (poll t).map State.blank

theorem pollsAlike_of_blank {s t : State} (h : s.blank = t.blank) : PollsAlike s t := by
  rw [PollsAlike, ← poll_blank s, h, poll_blank t]

/-- A RECV whose polls come to the same ends in the same state, but for the histories. -/
theorem await_unrecorded {s t : State} (h : PollsAlike s t) :
    (await (.unit .recv) s).unrecorded = (await (.unit .recv) t).unrecorded := by
  apply await_induct (.unit .recv) (P := fun x => ∃ y, PollsAlike x y ∧ await (.unit .recv) y = await (.unit .recv) t)
    (Q := fun r => r.unrecorded = (await (.unit .recv) t).unrecorded) (h := ⟨t, h, rfl⟩)
  case hwait =>
    rintro x x' ⟨y, hxy, hy⟩ hx
    obtain ⟨y', hpoll, hb⟩ := Poll.map_eq_wait (hxy.symm.trans (by rw [hx]; rfl))
    rw [← hy, await_eq, hpoll]
    exact (congrArg (fun u : State => u.inProgress.unrecorded) hb.symm :)
  case hagain =>
    rintro x x' ⟨y, hxy, hy⟩ hx
    obtain ⟨y', hpoll, hb⟩ := Poll.map_eq_again (hxy.symm.trans (by rw [hx]; rfl))
    exact ⟨y', pollsAlike_of_blank hb.symm, (await_again hpoll).symm.trans hy⟩
  case hnext => 
    intro x x' x'' st _ _ hfin
    cases hfin
  case hlast =>
    rintro x x' x'' st st2 ⟨y, hxy, hy⟩ hx hfin
    obtain ⟨y', hpoll, hb⟩ := Poll.map_eq_ended (hxy.symm.trans (by rw [hx]; rfl))
    cases hfin
    rw [← hy, await_eq, hpoll]
    exact (congrArg (fun u : State => (unitReturn st u).unrecorded) hb.symm :)

/-- A RECV that waits goes on, with more bytes behind, as if they had been there at once. -/
theorem await_arrive {s : State} (hq : Quiet s) (b : Bytes) (h : (await (.unit .recv) s).rx.active = true) :
    (await (.unit .recv) (s.arrive b)).unrecorded = (await (.unit .recv) ((await (.unit .recv) s).arrive b)).unrecorded := by
  revert h
  apply await_induct (.unit .recv)
    (P := fun x => Quiet x ∧
      (await (.unit .recv) (s.arrive b)).unrecorded = (await (.unit .recv) (x.arrive b)).unrecorded)
    (Q := fun t => t.rx.active = true →
      (await (.unit .recv) (s.arrive b)).unrecorded = (await (.unit .recv) (t.arrive b)).unrecorded) (h := ⟨hq, rfl⟩)
  case hwait =>
    rintro x y ⟨hx, hs⟩ hy -
    obtain ⟨hno, -⟩ | ⟨y', hy', halike⟩ := seesOnlyIfWaiting hx
    · exact absurd hy (hno y)
    · obtain rfl : y' = y := by simpa using hy'.symm.trans hy
      exact (hs.trans (await_unrecorded (halike b))).trans (await_unrecorded (pollsAlike_of_blank rfl))
  case hagain =>
    rintro x y ⟨hx, hs⟩ hy
    obtain ⟨-, hsame⟩ | ⟨y', hy', -⟩ := seesOnlyIfWaiting hx
    · refine ⟨?_, hs.trans (congrArg State.unrecorded (await_again ((hsame b).trans (by rw [hy]; rfl))))⟩
      obtain ⟨read, hex, -⟩ := poll_exchanged x
      rw [hy] at hex
      obtain ⟨k, hscript, -⟩ := hex.turns
      exact hscript.trans (by rw [hx, List.drop_nil])
    · cases hy.symm.trans hy'
  case hnext =>
    intro x y z st _ _ hfin
    cases hfin
  case hlast =>
    rintro x y z st st2 - hy hfin hactive
    cases hfin
    exact absurd hactive (by simp [deliver, unitReturn, poll_ended_inactive hy])

/-- The operation that waits stays on record while its RECV is pending. -/
theorem await_unitCall {op : UnitOp} {s : State} (hs : s.unitCall = some op) :
    (await (.unit op) s).rx.active = true → (await (.unit op) s).unitCall = some op :=
  await_any (.unit op) s (fun t => t.rx.active = true → t.unitCall = some op)
    (fun _ _ _ hk _ _ _ _ => hk.f.unitCall.trans hs)
    (fun _ _ _ _ _ _ _ _ hx hactive => absurd hactive (by simp [deliver, unitReturn, hx]))

theorem recvBegun_arrive {s : State} (hq : Quiet s) (op : Byte) (timeout : U32) (b : Bytes) :
    recvBegun op timeout (s.arrive b) = (recvBegun op timeout s).arrive b := by
  simp [recvBegun, beginRecv, State.arrive, Env.arrive, Env.readClock, Env.record, Env.markRx, Env.turn_quiet, hq]

theorem await_cfg (c : Caller) (s : State) : (await c s).cfg = s.cfg :=
  await_any c s (fun t => t.cfg = s.cfg) (fun _ _ _ hk _ _ _ => hk.f.cfg)
    (fun x _ _ st hk _ _ _ _ => (went_deliver c st x).cfg.trans hk.f.cfg)

theorem State.eq_of_unrecorded {u v : State} (h : u.unrecorded = v.unrecorded) :
    v = { u with env := { u.env with events := v.env.events } } :=
  (congrArg (fun w : State => { w with env := { w.env with events := v.env.events } }) h).symm

/-- Settles O22: from where the first RECV waits, the one that finds all bytes at once polls like the resumed one. -/
theorem suspensionIsInvisible : Obligations.SuspensionIsInvisible := by
  rintro s t op timeout a b hl hq rfl hexec hactive
  obtain ⟨ht, hover⟩ := whenPunctual_next ((whenLegal_eq hl _).symm.trans hexec)
  change await (.unit .recv) (recvBegun op timeout s) = t at ht
  have hpunctual : Punctual (s.arrive b) s.env.now := by
    refine ⟨Bool.eq_false_of_not_eq_true fun h => ?_, by simp [State.arrive, Env.arrive, slack, hq]⟩
    rw [← ht, await_keeps_overrun (s := recvBegun op timeout s) (.unit .recv) h] at hover
    cases hover
  have hsame := await_arrive (s := recvBegun op timeout s) (congrArg List.tail hq) b (ht ▸ hactive)
  have hcaller : callerOf t = some (.unit .recv) :=
    callerOf_single (ht ▸ await_unitCall (s := recvBegun op timeout s) rfl (ht ▸ hactive)) (.inl rfl)
  have hcfg : t.cfg = s.cfg := ht ▸ await_cfg _ _
  rw [← recvBegun_arrive hq, ht] at hsame
  have hv := State.eq_of_unrecorded hsame
  refine ⟨_, _, exec_recv op timeout (s := s.arrive b) hl hpunctual, ?_, hv⟩
  refine (exec_step_resumed (s := t.arrive b) (hcfg ▸ hl) hactive hcaller).trans (whenPunctual_eq ?_)
  rw [hv]
  exact await_punctual (recvBegun_punctual op timeout hpunctual)

end Sys2Proof.Machine
end

section
/-! PROOFS. What one STEP runs, said once (44_orchestrator.md R132), and from it where `orch_state` goes (R140) and how
`done` is entered (R139). -/

namespace Sys2Proof.Machine

/-- What a STEP that answers a next state has run: the operation that waits, or the action of `orch_state` (R132). -/
inductive StepRuns (s t : State) : Prop where
  | resumes (c : Caller) (active : s.rx.active = true) (caller : callerOf s = some c) (run : t = await c s)
  | answers (idle : s.rx.active = false) (ended : s.orch = .idle ∨ s.orch = .done)
      (run : t = s.answer (.done s.session.result))
  | resets (idle : s.rx.active = false) (orch : s.orch = .resetting) (run : t = stepResetting s)
  | connects (idle : s.rx.active = false) (orch : s.orch = .connecting) (run : t = stepConnecting s)
  | erases (idle : s.rx.active = false) (orch : s.orch = .erasing) (es : U32)
      (size : eraseSize s.cfg s.session.imageSize s.session.targetAddr = some es)
      (run : t = await .erasing (beginFbegin s.session.targetAddr es { s with unitCall := none }))
  | uploads (idle : s.rx.active = false) (orch : s.orch = .uploading) (run : t = stepUploading s)

theorem exec_step_next {s t : State} (h : exec .step s = .next t) : legalConfig s.cfg = true ∧ StepRuns s t := by
  obtain ⟨hl, h⟩ := whenLegal_next h
  refine ⟨hl, ?_⟩
  split at h
  case isTrue ha =>
    split at h
    · rename_i c hc
      exact .resumes c ha hc (whenPunctual_next h).1.symm
    · cases h
  case isFalse ha =>
    replace ha : s.rx.active = false := by simpa using ha
    split at h
    case h_1 ho =>
      unfold stepIdle at h
      split at h <;> cases h
      exact .answers ha (.inl ho) rfl
    case h_2 ho => cases h; exact .resets ha ho rfl
    case h_3 ho => exact .connects ha ho (whenPunctual_next h).1.symm
    case h_4 ho =>
      unfold stepErasing at h
      split at h
      · cases h
      · rename_i es hes
        exact .erases ha ho es hes (whenPunctual_next h).1.symm
    case h_5 ho => exact .uploads ha ho (whenPunctual_next h).1.symm
    case h_6 ho => cases h; exact .answers ha (.inr ho) rfl

/-! ### Where a poll loop can end -/

/-- A poll loop waits, or its operation has returned to whoever called it; until then it has kept all but the receive
machine, the synchronizer and the attempt count, and has sent copies of the buffer's frame alone (R114, R132). -/
inductive Awaits (c : Caller) (s : State) (t : State) : Prop where
  | waits (x : State) (n : Nat) (read : Bytes) (kept : Kept s x)
      (env : Exchanged (copies n (bufFrame s)) read s.env x.env) (op : n ≠ 0 → c.op = .fdata) (run : t = x.inProgress)
  | ends (x : State) (n : Nat) (read : Bytes) (kept : Kept s x)
      (env : Exchanged (copies n (bufFrame s)) read s.env x.env) (op : n ≠ 0 → c.op = .fdata)
      (idle : x.rx.active = false) (st : ResultCode) (run : t = deliver c st x)

theorem await_awaits (c : Caller) (s : State) : Awaits c s (await c s) :=
  await_any c s (Awaits c s) (fun x n read hk hx _ hop => .waits x n read hk hx hop rfl)
    (fun x n read st hk hx _ hop hidle => .ends x n read hk hx hop hidle st rfl)

/-- The session has moved along an edge of R140's table or stayed, and `done` is what Finish leaves (R139). -/
structure Moves (s t : State) : Prop where
  edge : t.orch = s.orch ∨ stepEdge s.orch t.orch = true
  done : s.orch ≠ .done → t.orch = .done → DoneProps s.env t

/-- It has stayed. -/
theorem Moves.stays {s t : State} (h : t.orch = s.orch) : Moves s t :=
  ⟨.inl h, fun hs ht => absurd (h ▸ ht) hs⟩

/-- Finish, from a state whose row of the table has an edge to `done`. -/
theorem finishDone_moves {s x : State} (r : ResultCode) (he : stepEdge s.orch .done = true) (hg : EnvGrows s.env x.env) :
    Moves s (finishDone r x) :=
  ⟨.inr he, fun _ _ => (finish_done r x).mono hg⟩

/-- The edges of a caller's tail are edges of R140's table. -/
theorem Caller.In.stepEdge {c : Caller} {o o' : OrchState} (h : c.In o) (he : c.edge o' = true) :
    stepEdge o o' = true := by
  cases c with
  | unit op => cases he
  | connecting | erasing | uploading =>
    cases h
    cases o' <;> simp_all [Caller.edge, Machine.stepEdge]

/-- An operation awaited in the session's state moves it along that state's edges. -/
theorem await_moves {c : Caller} {s x : State} (hin : c.In s.orch) (ho : x.orch = s.orch)
    (hg : EnvGrows s.env x.env) : Moves s (await c x) := by
  obtain ⟨y, n, read, hk, -, -, hrun⟩ | ⟨y, n, read, hk, hx, -, -, st, hrun⟩ := await_awaits c x <;> rw [hrun]
  · exact .stays (hk.f.orch.trans ho)
  · have hy : y.orch = s.orch := hk.f.orch.trans ho
    have went := went_deliver c st y
    refine ⟨?_, fun hs ht => (went.done (hy ▸ hs) ht).mono (hg.trans (.ex hx))⟩
    exact went.orch.imp (·.trans hy) hin.stepEdge

/-- The clock is read at the gate of `connecting`, and both timestamps are tested (R135). -/
def State.atConnect (s : State) : State :=
  { s with
    env := ((s.env.readClock s.cfg.clkW).2.tested s.cfg.clkW s.env.stamps.attempt).tested s.cfg.clkW s.env.stamps.reset
    unitCall := none }

theorem stepConnecting_eq (s : State) :
    stepConnecting s =
      if connectGate s.cfg.clkW (s.env.turn.now % 2 ^ s.cfg.clkW) s.session.lastAttempt s.session.lastReset then
        await .connecting (beginSync tSync s.atConnect)
      else s.atConnect.answer (.inProgress 0) := rfl

theorem atConnect_exchanged (s : State) : Exchanged [] [] s.env s.atConnect.env :=
  (Exchanged.readClock s.cfg.clkW s.env).same _ _

theorem stepConnecting_moves {s : State} (ho : s.orch = .connecting) : Moves s (stepConnecting s) := by
  rw [stepConnecting_eq]
  split
  · have opens := beginSync_opens tSync s.atConnect
    exact await_moves (c := .connecting) ho opens.orch ((EnvGrows.ex (atConnect_exchanged s)).trans opens.grows.env)
  · exact .stays rfl

theorem StepRuns.moves {s t : State} (h : StepRuns s t) : Moves s t := by
  cases h with
  | resumes c _ caller run =>
    rw [run]
    exact await_moves (callerOf_eq_some_iff.1 caller).2.1 rfl (.refl _)
  | answers _ _ run => exact run ▸ .stays rfl
  | resets _ orch run =>
    rw [run]
    obtain h | ⟨e, -, -, -, h⟩ := stepResetting_cases s <;> rw [h]
    · exact finishDone_moves _ (orch ▸ rfl) (.refl _)
    · exact ⟨.inr (orch ▸ rfl), fun _ => nofun⟩
  | connects _ orch run => exact run ▸ stepConnecting_moves orch
  | erases _ orch es _ run =>
    rw [run]
    exact await_moves (c := .erasing) orch (beginCmd_regs _ _ _ _ _).fields.2.2.1
      (.ex (beginCmd_exchanged _ _ _ _ { s with unitCall := none }))
  | uploads _ orch run =>
    rw [run]
    obtain ⟨e, hg, -, h | h | ⟨got, -, h⟩⟩ := stepUploading_cases s <;> rw [h]
    · exact .stays rfl
    · exact finishDone_moves _ (orch ▸ rfl) hg
    · have opens := beginFdata_opens s.session.blockIdx s.cfg.parmVal s.cfg.parmMask
        { s with env := e, unitCall := none, blk := fillBlock got s.blk }
      exact await_moves (c := .uploading) orch opens.orch (hg.trans opens.grows.env)

/-- Settles O45: Finish is the one way into `done`. -/
theorem doneIsEnteredByFinish : Obligations.DoneIsEnteredByFinish := by
  intro s t h hs ht
  obtain ⟨valid, ret, active, phase, gpio, calls⟩ := (exec_step_next h).2.moves.done hs ht
  exact ⟨valid, ret, active, phase, gpio, calls⟩

theorem await_unit_orch (op : UnitOp) (x : State) : (await (.unit op) x).orch = x.orch := by
  obtain ⟨y, n, read, hk, -, -, hrun⟩ | ⟨y, n, read, hk, hx, -, -, st, hrun⟩ := await_awaits (.unit op) x <;> rw [hrun]
  · exact hk.f.orch
  · exact hk.f.orch

theorem execBeginUpload_orch {image : ImageSource} {addr : U32} {s t : State}
    (h : execBeginUpload image addr s = .next t) :
    (s.orch = .idle ∨ s.orch = .done) ∧ t.orch = if image.size = 0#32 then .idle else .resetting := by
  refine ⟨(execBeginUpload_next h).1, ?_⟩
  replace h := (whenLegal_next h).2
  split at h
  · dsimp only at h
    split at h <;> cases h
    · rw [if_pos ‹_›]; rfl
    · rw [if_neg ‹_›]; rfl
  · cases h

/-- Settles O46: by what each instruction can do; the host's two are looked at by themselves. -/
theorem orchestratorTakesTheEdges : Obligations.OrchestratorTakesTheEdges := by
  intro i s t h
  have others : (∀ image addr, i ≠ .beginUpload image addr) → i ≠ .step → t.orch = s.orch := by
    intro hb hs
    cases exec_executed h with
    | aside regs _ => rw [regs.regs]
    | unit op x way run _ => rw [run, await_unit_orch, way.orch]
    | begins image addr eq => exact absurd eq (hb image addr)
    | steps eq => exact absurd eq hs
  split
  · exact (exec_step_next h).2.moves.edge
  · exact execBeginUpload_orch h
  · exact others ‹_› ‹_›

end Sys2Proof.Machine
end

section
/-! PROOFS. The port (R11, R45, R130), the operations of the orchestrator that send nothing (44_orchestrator.md R131, R133,
R134), and the erase size (R137). -/

namespace Sys2Proof.Machine

/-! ### The port (log 4) -/

/-- Empty words are skipped. -/
theorem nextWord_append {empty : List PortWord} (h : ∀ w ∈ empty, w.bytes = []) (port : List PortWord) :
    nextWord (empty ++ port) = nextWord port := by
  induction empty with
  | nil => rfl
  | cons w ws ih =>
    obtain ⟨lane, bytes⟩ := w
    obtain rfl : bytes = [] := h _ List.mem_cons_self
    exact ih fun v hv => h v (List.mem_cons_of_mem _ hv)

/-- Settles O4: the first word that is not empty is decoded. -/
theorem stepRunsTheDecodedInstruction : Obligations.StepRunsTheDecodedInstruction := by
  have next {s : State} {empty more : List PortWord} {lane : Lane} {b : Byte} {bs : Bytes}
      (h : ∀ w ∈ empty, w.bytes = []) (hport : s.port = empty ++ ⟨lane, b :: bs⟩ :: more) :
      nextWord s.port = some (lane, b :: bs, more) := by rw [hport, nextWord_append h]; rfl
  refine ⟨fun s empty more lane b bs rest i h hport hd => ?_, fun s empty more lane b bs why h hport hd => ?_,
    fun s h => ?_⟩
  · simp only [step, next h hport, hd, pushRest_eq]
  · simp only [step, next h hport, hd]
  · have hnone : nextWord s.port = none := by rw [← List.append_nil s.port, nextWord_append h]; rfl
    simp only [step, hnone, idleTurn]

/-! ### BEGIN_UPLOAD and STEP where nothing is sent (R131, R133, R134) -/

section Legal
variable {s : State} (hl : legalConfig s.cfg = true)
include hl

/-- `ImgSize()` decides between R131's two cases. -/
theorem exec_beginUpload (image : ImageSource) (addr : U32) (ho : s.orch = .idle ∨ s.orch = .done) :
    exec (.beginUpload image addr) s =
      let e := { s.env.turn with img := image, events := s.env.events ++ [.imgSize image.size] }
      if image.size = 0#32 then .next ((rejectEmpty { s with env := e }).answer (.failed .emptyFile))
      else .next ((startSession image.size addr { s with env := e }).answer .started) := by
  have hmay : mayBegin s.orch = true := by simpa [mayBegin] using ho
  exact (whenLegal_eq hl _).trans (if_pos hmay)

theorem exec_step_idle (ha : s.rx.active = false) (ho : s.orch = .idle) : exec .step s = stepIdle s := by
  simp [exec, execStep, whenLegal_eq hl, ha, ho]

theorem exec_step_resetting (ha : s.rx.active = false) (ho : s.orch = .resetting) :
    exec .step s = .next (stepResetting s) := by
  simp [exec, execStep, whenLegal_eq hl, ha, ho]

theorem exec_step_done (ha : s.rx.active = false) (ho : s.orch = .done) :
    exec .step s = .next (s.answer (.done s.session.result)) := by
  simp [exec, execStep, whenLegal_eq hl, ha, ho]

end Legal

/-- Settles O36, by the size the image gives. -/
theorem beginUploadStartsASession : Obligations.BeginUploadStartsASession := by
  intro s image addr hl e
  refine ⟨fun ho => ⟨fun hsize => ?_, fun hsize => ?_⟩, fun ho => ?_⟩
  · exact (exec_beginUpload hl image addr ho).trans (if_pos hsize)
  · exact (exec_beginUpload hl image addr ho).trans (if_neg hsize)
  · exact execBeginUpload_inSession hl (by cases h : s.orch <;> simp_all [inSession]) image addr

/-- Settles O37, by STEP's two states without a session. -/
theorem stepOutsideASession : Obligations.StepOutsideASession := by
  intro s hl ha
  have valid (ho : s.orch = .idle) (hv : s.session.resultValid = true) :
      exec .step s = .next (s.answer (.done s.session.result)) :=
    (exec_step_idle hl ha ho).trans (if_pos hv)
  refine ⟨exec_step_done hl ha, valid, fun hi ho hv => ?_, fun ho hv => ?_⟩
  · rw [valid ho hv, hi.empty ho hv]
    rfl
  · rw [exec_step_idle hl ha ho, stepIdle, hv]
    rfl

/-- The state in which the list of baud rates is exhausted (R134). -/
theorem stepResetting_none {s : State} (h : s.cfg.baudList[baudIndex s.cfg (s.session.baudAttempt + 1#32)]? = none) :
    stepResetting s = finishDone .connectFailed
      { s with session := { s.session with baudAttempt := s.session.baudAttempt + 1#32 } } := by
  simp only [stepResetting, h]

/-- The re-opened transport, the lines in upload mode, the clock's reading (R134). -/
def Env.restarted (baud w : Nat) (e : Env) : Env :=
  ((e.reopen baud).gpioEnter.readClock w).2.markReset.markAttempt

theorem stepResetting_some {s : State} {baud : Nat}
    (h : s.cfg.baudList[baudIndex s.cfg (s.session.baudAttempt + 1#32)]? = some baud) :
    stepResetting s = ({ s with
      env := s.env.restarted baud s.cfg.clkW
      session := { s.session with
        baudAttempt := s.session.baudAttempt + 1#32, resetAttempt := 0#32
        lastReset := (s.env.restarted baud s.cfg.clkW).now % 2 ^ s.cfg.clkW
        lastAttempt := (s.env.restarted baud s.cfg.clkW).now % 2 ^ s.cfg.clkW }
      orch := .connecting } : State).answer (.inProgress 0) := by
  simp only [stepResetting, h]
  rfl

/-- Three calls; what the peer has sent before the transport is re-opened is discarded (R31, R35). -/
theorem restarted_calls (baud w : Nat) (e : Env) :
    (e.restarted baud w).rxq = ((e.script.drop 1).take 2).flatMap EnvAct.rx ∧
    (e.restarted baud w).script = e.script.drop 3 ∧
    (e.restarted baud w).events =
      e.events ++ [.reopen baud, .gpioEnter, .now ((e.restarted baud w).now % 2 ^ w)] := by
  refine ⟨?_, by simp [Env.restarted, Env.gpioEnter, Env.reopen, ← List.drop_one],
    by simp [Env.restarted]⟩
  obtain h | ⟨a, h⟩ | ⟨a, b, l, h⟩ : e.script.drop 1 = [] ∨ (∃ a, e.script.drop 1 = [a]) ∨
      ∃ a b l, e.script.drop 1 = a :: b :: l := by
    rcases e.script.drop 1 with _ | ⟨a, _ | ⟨b, l⟩⟩ <;> simp
  all_goals
    rw [List.drop_one] at h
    simp [Env.restarted, Env.gpioEnter, Env.reopen, h, turnRx]

/-- Settles O38, by whether the list holds the attempt's baud rate. -/
theorem stepInResetting : Obligations.StepInResetting := by
  intro s hl ha ho n k
  rw [exec_step_resetting hl ha ho]
  refine ⟨fun hk => ?_, fun baud hbaud => ?_⟩
  · have hrx : { s.rx with active := false } = s.rx := by rw [← ha]
    rw [stepResetting_none (List.getElem?_eq_none hk), finishDone, finish, hrx]
    rfl
  · obtain ⟨hrxq, hscript, hevents⟩ := restarted_calls baud s.cfg.clkW s.env
    exact ⟨_, rfl, by rw [stepResetting_some hbaud]; exact
      ⟨rfl, rfl, rfl, rfl, rfl, rfl, by simp [Env.restarted], rfl, hrxq, hscript, hevents⟩⟩

/-! ### The erase size (R137) -/

/-- R137 (a): the least multiple of the sector size that covers the image. -/
theorem eraseCover_least {sector : Nat} (h : 1 ≤ sector) (size : U32) :
    sector ∣ eraseCover sector size ∧ size.toNat ≤ eraseCover sector size ∧
      eraseCover sector size < size.toNat + sector := by
  have hdiv := Nat.div_add_mod (size.toNat + sector - 1) sector
  have hmod := Nat.mod_lt (size.toNat + sector - 1) h
  rw [Nat.mul_comm] at hdiv
  refine ⟨Nat.dvd_mul_left _ _, ?_, ?_⟩ <;> simp only [eraseCover, ceilDiv] <;> omega

/-- R137 (b) gives a 32-bit number. -/
theorem eraseRomWorkaround_lt (size addr : U32) : eraseRomWorkaround 4096 size addr < 2 ^ 32 := by
  have hsize := size.isLt
  have hnum : ceilDiv size.toNat 4096 ≤ 2 ^ 20 := by unfold ceilDiv; omega
  unfold eraseRomWorkaround
  generalize ceilDiv size.toNat 4096 = num at hnum
  dsimp only
  split_ifs <;> omega

/-- Settles O41, by the three functions. -/
theorem eraseSizeByTheConfiguration : Obligations.EraseSizeByTheConfiguration := by
  intro c size addr h1 h2
  refine ⟨fun hf => ⟨fun hfits => ?_, fun hover => eraseSize_eq_none hf hover h2⟩, fun hf hs => ?_, fun hf => ?_⟩
  · obtain ⟨hdvd, hle, hlt⟩ := eraseCover_least h1 size
    have heq : (BitVec.ofNat 32 (eraseCover c.sectorSize size)).toNat = eraseCover c.sectorSize size :=
      (BitVec.toNat_ofNat _ _).trans (Nat.mod_eq_of_lt (by omega))
    refine ⟨BitVec.ofNat 32 (eraseCover c.sectorSize size), ?_, by rwa [heq], by rwa [heq], by rwa [heq]⟩
    simp only [eraseSize, hf]
    exact if_pos (by omega)
  · intro num head
    refine ⟨BitVec.ofNat 32 (eraseRomWorkaround 4096 size addr), by simp only [eraseSize, hf, hs], ?_⟩
    exact (BitVec.toNat_ofNat _ _).trans (Nat.mod_eq_of_lt (eraseRomWorkaround_lt size addr))
  · exact ⟨Config.eraseSizeFn size addr, by simp only [eraseSize, hf]⟩

end Sys2Proof.Machine
end

section
/-! PROOFS. The gates of `connecting` and `uploading` (R135, R138) in time, and that STEP answers (R132; U2, U12, U15). -/

namespace Sys2Proof.Machine

/-- The clock has been read at the gate of a state action, which is in progress and not called by itself (R135, R138). -/
def State.gated (s : State) : State := { s with env := (s.env.readClock s.cfg.clkW).2, unitCall := none }

/-- `last_attempt` is tested at the gate of `uploading` (R138). -/
def State.atBlock (s : State) : State :=
  { s with env := (s.env.readClock s.cfg.clkW).2.tested s.cfg.clkW s.env.stamps.attempt, unitCall := none }

/-- The image's bytes of the session's next block (R138). -/
def State.blockBytes (s : State) : Bytes := (s.env.img.data.drop (s.session.blockIdx.toNat * blockSize)).take blockSize

/-- They have been read, and FDATA is to send them (R138). -/
def State.fetched (s : State) : State := { s with env := (s.env.imgRead (s.session.blockIdx.toNat * blockSize) blockSize).2 }

/-- They stand in the buffer, zero-padded (R138). -/
def State.filled (s : State) : State := { s.fetched with blk := fillBlock s.blockBytes s.blk }

theorem stepUploading_eq (s : State) :
    stepUploading s =
      if blockGate s.cfg.clkW (s.env.turn.now % 2 ^ s.cfg.clkW) s.session.lastAttempt then
        if s.blockBytes.length ≠ min blockSize (s.session.imageSize.toNat - s.session.blockIdx.toNat * blockSize) then
          finishDone .fileReadError s.atBlock.fetched
        else await .uploading (beginFdata s.session.blockIdx s.cfg.parmVal s.cfg.parmMask s.atBlock.filled)
      else s.atBlock.inProgress := rfl

theorem gated_exchanged (s : State) : Exchanged [] [] s.env s.gated.env := Exchanged.readClock s.cfg.clkW s.env

section Punctual
variable {s : State} {since : Nat}

/-- The clock's advance comes out of the slack. -/
theorem EnvGrows.slack {e f : Env} (h : EnvGrows e f) : f.now + slack f = e.now + slack e := by
  obtain ⟨-, -, k, hscript, hnow⟩ := h
  have hsum := congrArg (fun l => (l.map EnvAct.ms).sum) (List.take_append_drop k e.script)
  simp only [List.map_append, List.sum_append] at hsum
  simp only [Machine.slack, hscript]
  omega

/-- As time goes on, U12 is kept clear of. -/
theorem Punctual.later {t : State} (h : Punctual s since) (hg : EnvGrows s.env t.env)
    (hc : t.cfg = s.cfg) (ho : t.env.overrun = s.env.overrun) : Punctual t since := by
  obtain ⟨h1, h2⟩ := h
  have := hg.slack
  have := hg.later
  exact ⟨ho.trans h1, by rw [hc]; omega⟩

theorem gated_punctual (h : Punctual s since) : Punctual s.gated since := h.later (.ex (gated_exchanged s)) rfl rfl

/-- A test in time at a gate. -/
theorem tested_gate (h : Punctual s since) :
    (s.env.readClock s.cfg.clkW).2.tested s.cfg.clkW since = (s.env.readClock s.cfg.clkW).2 := by
  obtain ⟨-, h⟩ := gated_punctual h
  exact Env.tested_punctual _ _ _ (Nat.lt_of_le_of_lt (Nat.le_add_left _ _) h)

theorem atConnect_eq (ha : Punctual s s.env.stamps.attempt) (hr : Punctual s s.env.stamps.reset) :
    s.atConnect = s.gated := by
  simp only [State.atConnect, State.gated, tested_gate ha, tested_gate hr]

theorem atBlock_eq (ha : Punctual s s.env.stamps.attempt) : s.atBlock = s.gated := by
  simp only [State.atBlock, State.gated, tested_gate ha]

/-- STEP in `connecting`, in time (R135). -/
theorem exec_step_connecting_punctual (hl : legalConfig s.cfg = true) (hi : s.rx.active = false)
    (ho : s.orch = .connecting) (ha : Punctual s s.env.stamps.attempt) (hr : Punctual s s.env.stamps.reset) :
    exec .step s = .next (
      if connectGate s.cfg.clkW (s.env.turn.now % 2 ^ s.cfg.clkW) s.session.lastAttempt s.session.lastReset then
        await .connecting (beginSync tSync s.gated)
      else s.gated.answer (.inProgress 0)) := by
  have heq := stepConnecting_eq s
  rw [atConnect_eq ha hr] at heq
  rw [exec_step_connecting hl hi ho, heq]
  refine whenPunctual_eq ?_
  split
  · exact await_punctual ((beginSync_starts tSync s.gated).punctual (beginSync_facts tSync s.gated).1.fields.1
      (beginSync_facts tSync s.gated).2.2.2.1 (gated_punctual ha))
  · exact (gated_punctual ha).1

theorem fetched_punctual (h : Punctual s since) : Punctual s.gated.fetched since :=
  (gated_punctual h).later (grow_imgRead _ _ _) rfl rfl

theorem beginFdata_exchanged (idx : U32) (val mask : U16) (s : State) :
    Exchanged (bufFrame (prepareBlock idx val mask s)) [] s.env (beginFdata idx val mask s).env :=
  (attempt_facts (prepareBlock idx val mask s)).2.2.2.2.1

/-- STEP in `erasing`, in time (R136). -/
theorem exec_step_erasing_punctual (hl : legalConfig s.cfg = true) (hi : s.rx.active = false)
    (ho : s.orch = .erasing) {es : U32} (hes : eraseSize s.cfg s.session.imageSize s.session.targetAddr = some es)
    (hp : Punctual s since) :
    exec .step s = .next (await .erasing (beginFbegin s.session.targetAddr es { s with unitCall := none })) := by
  rw [exec_step_erasing hl hi ho, stepErasing, hes]
  have hstarts := beginCmd_starts s.cfg.opcFlashBegin (flashBeginBody s.session.targetAddr es) 0#32
    (eraseTimeout s.cfg es) { s with unitCall := none }
  exact whenPunctual_eq (await_punctual (hstarts.punctual (beginCmd_regs _ _ _ _ _).fields.1
    (beginCmd_exchanged _ _ _ _ _) hp))

/-- STEP in `uploading`, in time (R138). -/
theorem exec_step_uploading_punctual (hl : legalConfig s.cfg = true) (hi : s.rx.active = false)
    (ho : s.orch = .uploading) (ha : Punctual s s.env.stamps.attempt) :
    exec .step s = .next (
      if blockGate s.cfg.clkW (s.env.turn.now % 2 ^ s.cfg.clkW) s.session.lastAttempt then
        if s.blockBytes.length ≠ min blockSize (s.session.imageSize.toNat - s.session.blockIdx.toNat * blockSize) then
          finishDone .fileReadError s.gated.fetched
        else await .uploading (beginFdata s.session.blockIdx s.cfg.parmVal s.cfg.parmMask s.gated.filled)
      else s.gated.inProgress) := by
  have heq := stepUploading_eq s
  rw [atBlock_eq ha] at heq
  rw [exec_step_uploading hl hi ho, heq]
  refine whenPunctual_eq ?_
  split
  · split
    · exact (fetched_punctual ha).1
    · exact await_punctual ((beginFdata_starts _ _ _ s.gated.filled).punctual (beginFdata_fields _ _ _ _).1
        (beginFdata_exchanged _ _ _ _) (fetched_punctual ha))
  · exact (gated_punctual ha).1

/-- A STEP that resumes a pending RECV, in time (R132). -/
theorem exec_step_resumed_punctual (hl : legalConfig s.cfg = true) {c : Caller} (ha : s.rx.active = true)
    (hc : callerOf s = some c) (hp : Punctual s s.env.stamps.rx) : exec .step s = .next (await c s) :=
  (exec_step_resumed hl ha hc).trans (whenPunctual_eq (await_punctual hp))

end Punctual

/-- Settles O55, by what STEP has to do. -/
theorem stepCompletes : Obligations.StepCompletes := by
  intro s hl hi hidle herase hrx hattempt hreset hbegin
  by_cases ha : s.rx.active = true
  · obtain ⟨-, c, hc⟩ := hi.settled.pending ha
    exact ⟨_, exec_step_resumed_punctual hl ha hc.caller (hrx ha)⟩
  · replace ha : s.rx.active = false := by simpa using ha
    cases ho : s.orch with
    | idle =>
      have hv : s.session.resultValid = true := (hidle ho).resolve_right (by simp [ha])
      exact ⟨_, (exec_step_idle hl ha ho).trans (if_pos hv)⟩
    | resetting => exact ⟨_, exec_step_resetting hl ha ho⟩
    | connecting => exact ⟨_, exec_step_connecting_punctual hl ha ho (hattempt ha (.inl ho)) (hreset ha ho)⟩
    | erasing =>
      obtain ⟨es, hes⟩ := Option.ne_none_iff_exists'.1 (herase ho)
      exact ⟨_, exec_step_erasing_punctual hl ha ho hes (hbegin ha ho)⟩
    | uploading => exact ⟨_, exec_step_uploading_punctual hl ha ho (hattempt ha (.inr ho))⟩
    | done => exact ⟨_, exec_step_done hl ha ho⟩

end Sys2Proof.Machine
end

section
/-! PROOFS. STEP in `connecting` (44_orchestrator.md R135): what its SYNC comes to, whatever the environment does, and on the
frames that stand in `RXQ`. -/

namespace Sys2Proof.Machine

/-! ### A SYNC for whichever caller (R100 to R103) -/

/-- A SYNC that came from s waits in x for its RECV. -/
structure SyncGoing (T : U32) (sent : Bytes) (s x : State) : Prop where
  syncs : ∃ read, Syncs sent read s x
  active : x.rx.active = true
  machine : receiverInv x.rx
  sync : SyncInv x
  limit : SyncLimit T x

/-- What SYNC has come to when STEP answers: it waits, or it has returned one of its codes to its caller. -/
inductive SyncGoes (c : Caller) (T : U32) (sent : Bytes) (s t : State) : Prop where
  | waits (x : State) (going : SyncGoing T sent s x) (run : t = x.inProgress)
  | returns (x : State) (read : Bytes) (st : ResultCode) (syncs : Syncs sent read s x) (idle : x.rx.active = false)
      (phase : x.syncPhase = .idle) (code : st ∈ syncCodes) (run : t = deliver c st x)

section Going
variable {T : U32} {sent : Bytes} {s x : State}

/-- A poll adds what it reads, and changes nothing of the synchronizer's. -/
theorem SyncGoing.poll (h : SyncGoing T sent s x) :
    (∃ read, Syncs sent read s (poll x).state) ∧ SyncInv (poll x).state ∧ SyncLimit T (poll x).state := by
  obtain ⟨read, hsyncs⟩ := h.syncs
  have hr := poll_receives x
  obtain ⟨bs, hx, -⟩ := poll_exchanged x
  obtain ⟨hcfg, -, -, hphase, hextra, hstatus, -⟩ := hr.regs.fields
  obtain ⟨h1, h2, h3⟩ := h.sync
  refine ⟨⟨_, hsyncs.trans (Got.syncs ⟨hr.regs, hx⟩)⟩, ?_, ?_⟩
  · constructor <;> simpa only [hphase, hextra, hstatus]
  · simpa only [SyncLimit, hcfg, hphase, hr.call.expected, hr.call.timeout] using h.limit

theorem SyncGoing.await {c : Caller} (hc : c.op = .sync) (h : SyncGoing T sent s x) :
    SyncGoes c T sent s (await c x) := by
  refine await_induct c (SyncGoing T sent s) (SyncGoes c T sent s) ?wait ?again ?next ?last x h
  case wait =>
    intro x y hx hp
    obtain ⟨hsyncs, hinv, hlimit⟩ := hx.poll
    obtain ⟨hmachine, ha⟩ := (poll_inv x hx.machine).1 y hp
    rw [hp] at hsyncs hinv hlimit
    exact .waits y ⟨hsyncs, ha.trans hx.active, hmachine, hinv, hlimit⟩ rfl
  case again =>
    intro x y hx hp
    obtain ⟨hsyncs, hinv, hlimit⟩ := hx.poll
    obtain ⟨hmachine, ha⟩ := (poll_inv x hx.machine).2.1 y hp
    rw [hp] at hsyncs hinv hlimit
    exact ⟨hsyncs, ha.trans hx.active, hmachine, hinv, hlimit⟩
  case next =>
    intro x y z st hx hp ho
    obtain ⟨⟨read, hsyncs⟩, hinv, hlimit⟩ := hx.poll
    rw [hp] at hsyncs hinv hlimit
    rw [hc] at ho
    have hst := ((poll_inv x hx.machine).2.2 st y hp).1
    obtain ⟨hregs, hbegun, hlen, henv, hinv'⟩ := (syncContinue_spec hst hinv).1 z ho
    exact ⟨⟨_, hsyncs.trans ⟨hregs, henv⟩⟩, hbegun.active, begun_inv hbegun hlen, hinv', syncContinue_limit hlimit ho⟩
  case last =>
    intro x y z st st' hx hp ho
    obtain ⟨⟨read, hsyncs⟩, hinv, -⟩ := hx.poll
    rw [hp] at hsyncs hinv
    rw [hc] at ho
    obtain ⟨hst, ha⟩ := (poll_inv x hx.machine).2.2 st y hp
    obtain ⟨hregs, henv, hrx, hphase, -, hcode⟩ := (syncContinue_spec hst hinv).2 st' z ho
    exact .returns z read st' ⟨hsyncs.regs.trans hregs, henv ▸ hsyncs.env⟩ (hrx ▸ ha) hphase hcode rfl

end Going

/-- SYNC up to its first poll (R100). -/
theorem beginSync_syncs (T : U32) (s : State) : Syncs (syncFrame s.cfg) [] s (beginSync T s) := by
  obtain ⟨hregs, -, -, henv, -⟩ := beginSync_facts T s
  exact ⟨hregs, henv⟩

theorem beginSync_going (T : U32) (s : State) : SyncGoing T (syncFrame s.cfg) s (beginSync T s) := by
  obtain ⟨hregs, hbegun, hlen, henv, hinv, hphase, -, hexpected, htimeout⟩ := beginSync_facts T s
  refine ⟨⟨[], hregs, henv⟩, hbegun.active, begun_inv hbegun hlen, hinv, ?_, ?_⟩
  · exact hexpected.trans (congrArg Config.opcSync hregs.fields.1.symm)
  · rw [hphase]
    exact htimeout

theorem beginSync_readsSync {T : U32} {s : State} (h : slack s.env ≤ T.toNat) : ReadsSync (beginSync T s) := by
  obtain ⟨hbegun, hontime⟩ := begin_cmd_facts s.cfg.opcSync (syncPayload s.cfg) 0#32 T { s with syncPhase := .first } h
  exact ⟨hbegun, hontime, by rw [(beginSync_syncs T s).regs.fields.1]; rfl⟩

theorem beginSync_awaitsNth (T : U32) (s : State) : AwaitsNth 0 (beginSync T s) := by
  obtain ⟨-, -, -, -, -, hphase, -⟩ := beginSync_facts T s
  rw [AwaitsNth, hphase]

/-- A late poll ends the SYNC, and in the flush it ends the flush (R102, R103). -/
theorem await_late_sync {c : Caller} (hc : c.op = .sync) {s : State} (hphase : s.syncPhase ≠ .idle) (hlate : Late s) :
    ∃ x, await c s = deliver c (if s.syncPhase = .flush then s.syncStatus else .timeout) x ∧ x.rx.active = false ∧
      x.syncPhase = .idle ∧ Syncs [] [] s x := by
  obtain ⟨y, hend, hgot⟩ := (atPoll_got s).endRecv .timeout
  have hpoll := (poll_late hlate).trans hend
  have hoff : y.rx.active = false := poll_ended_inactive hpoll
  obtain ⟨-, -, -, hphase', -, hstatus, -⟩ := hgot.regs.fields
  obtain ⟨n, hcontinue, -⟩ := syncContinue_timeout (hphase'.symm ▸ hphase)
  rw [hphase'] at hcontinue
  rw [← hstatus]
  refine ⟨{ y with syncExtra := n, syncPhase := .idle }, (await_ended hpoll).trans ?_, hoff, rfl,
    hgot.syncs.regs.trans rfl, hgot.env⟩
  rw [resume, hc, show opContinue .sync .timeout y = _ from hcontinue]

/-! ### `connecting` after SYNC (R135) -/

/-- The clock is read when SYNC has returned (R135). -/
theorem connectingTail_env (st : ResultCode) (x : State) :
    (connectingTail st x).env = (x.env.readClock x.cfg.clkW).2.markAttempt := by
  by_cases h : st = .success
  · subst h; rfl
  · exact (connectingTail_fail h).2.2.2.2.1

/-- It changes what R135 says, and the return. -/
theorem connectingTail_regs (st : ResultCode) (x : State) :
    { connectingTail st x with session := x.session, orch := x.orch, env := x.env, ret := x.ret } = x := by
  unfold connectingTail
  dsimp only
  split
  · rfl
  · split <;> rfl

theorem connectingTail_success (x : State) :
    connectingTail .success x = ({ x with
      env := (x.env.readClock x.cfg.clkW).2.markAttempt, orch := .erasing
      session := { x.session with lastAttempt := (x.env.readClock x.cfg.clkW).1 } } : State).answer (.inProgress 0) := rfl

/-- No percentage is told (R19). -/
theorem connectingTail_ret {x : State} (ho : x.orch = .connecting) (st : ResultCode) :
    (connectingTail st x).ret = .inProgress 0 := by
  by_cases h : st = .success
  · subst h; rfl
  · obtain ⟨-, -, hret, -⟩ := connectingTail_fail (t := x) h
    rw [hret, percent_eq_zero]
    split <;> simp [ho]

section Tail
variable {sent read : Bytes} {s x : State} (ho : s.orch = .connecting) (h : Syncs sent read { s with unitCall := none } x)
include ho h

theorem connectingTail_step (st : ResultCode) : ConnectingStep sent read s (connectingTail st x) := by
  obtain ⟨hcfg, hsession, horch, -, -, -, -, hret, hunit⟩ := h.regs.fields
  refine ⟨?_, ?_, connectingTail_ret (horch.trans ho) st, ?_⟩
  · exact (congrArg (fun u : State => { u with
        session := s.session, orch := s.orch, syncPhase := s.syncPhase, syncExtra := s.syncExtra
        syncStatus := s.syncStatus, rx := s.rx, env := s.env, ret := s.ret, unitCall := s.unitCall })
      (connectingTail_regs st x)).trans
      (congrArg (fun u : State => { u with
        session := s.session, orch := s.orch, ret := s.ret, unitCall := s.unitCall }) h.regs)
  · rw [connectingTail_env]
    have hclock : Exchanged [] [] x.env (x.env.readClock x.cfg.clkW).2.markAttempt :=
      (Exchanged.readClock x.cfg.clkW x.env).same _ _
    simpa using h.env.read hclock
  · exact (congrArg State.unitCall (connectingTail_regs st x)).trans hunit

omit ho in
theorem connectingTail_passed (hidle : x.rx.active = false) (hphase : x.syncPhase = .idle) :
    SyncPassed s (connectingTail .success x) := by
  obtain ⟨hcfg, hsession, -⟩ := h.regs.fields
  exact ⟨hidle, hphase, rfl, by rw [connectingTail_success]; simp [State.answer, hsession, hcfg]⟩

theorem connectingTail_counted {st : ResultCode} (hst : st ≠ .success) (hidle : x.rx.active = false)
    (hphase : x.syncPhase = .idle) : SyncCounted s (connectingTail st x) := by
  obtain ⟨hcfg, hsession, horch, -⟩ := h.regs.fields
  obtain ⟨hs, ho', -, hrx, henv, hphase', -⟩ := connectingTail_fail (t := x) hst
  refine ⟨hrx ▸ hidle, hphase'.trans hphase, ?_, ?_⟩
  · rw [ho', hsession, hcfg, horch, ho]
  · rw [hs, hsession, hcfg, henv]
    simp

/-- SYNC's return to STEP, whatever its code (R135). -/
theorem connectingTail_ended (st : ResultCode) (hidle : x.rx.active = false) (hphase : x.syncPhase = .idle) :
    SyncPassed s (connectingTail st x) ∨ SyncCounted s (connectingTail st x) := by
  by_cases hst : st = .success
  · exact .inl (hst ▸ connectingTail_passed h hidle hphase)
  · exact .inr (connectingTail_counted ho h hst hidle hphase)

end Tail

/-- STEP in `connecting` with a SYNC under way: pending, passed or counted (R135). -/
theorem SyncGoes.step {sent : Bytes} {s t : State} (ho : s.orch = .connecting)
    (h : SyncGoes .connecting tSync sent { s with unitCall := none } t) :
    ∃ read, ConnectingStep sent read s t ∧ (SyncPending s t ∨ SyncPassed s t ∨ SyncCounted s t) := by
  cases h with
  | waits x going run =>
    subst run
    obtain ⟨read, hsyncs⟩ := going.syncs
    obtain ⟨hcfg, hsession, horch, -, -, -, -, -, hunit⟩ := hsyncs.regs.fields
    obtain ⟨hexpected, htimeout⟩ := going.limit
    have hx : x.orch = .connecting := horch.trans ho
    refine ⟨read, ⟨?_, hsyncs.env, ?_, hunit⟩, .inl ⟨going.active, going.sync.phase, hx, hsession, ?_, ?_⟩⟩
    · exact congrArg (fun u : State => { u with
        session := s.session, orch := s.orch, ret := s.ret, unitCall := s.unitCall }) hsyncs.regs
    · exact congrArg Ret.inProgress (percent_eq_zero (hx ▸ nofun))
    · exact hexpected.trans (hcfg ▸ rfl)
    · exact htimeout.trans (hcfg ▸ rfl)
  | returns x read st syncs idle phase _ run =>
    exact ⟨read, run ▸ connectingTail_step ho syncs st, .inr (run ▸ connectingTail_ended ho syncs st idle phase)⟩

/-! ### The action of `connecting` (R135) -/

/-- The gate's clock reading, before SYNC begins. -/
theorem gated_syncs (s : State) : Syncs [] [] { s with unitCall := none } s.gated := ⟨rfl, gated_exchanged s⟩

theorem Syncs.afterGate {sent read : Bytes} {s x : State} (h : Syncs sent read s.gated x) :
    Syncs sent read { s with unitCall := none } x :=
  ⟨(gated_syncs s).regs.trans h.regs, by simpa using (gated_syncs s).env.trans h.env⟩

theorem SyncGoing.afterGate {T : U32} {sent : Bytes} {s x : State} (h : SyncGoing T sent s.gated x) :
    SyncGoing T sent { s with unitCall := none } x := by
  obtain ⟨read, hsyncs⟩ := h.syncs
  exact ⟨⟨read, hsyncs.afterGate⟩, h.active, h.machine, h.sync, h.limit⟩

theorem connectGate_iff (w t lastAttempt lastReset : Nat) :
    connectGate w (t % 2 ^ w) lastAttempt lastReset = true ↔
      50 ≤ elapsed w t lastAttempt ∧ 500 ≤ elapsed w t lastReset := by
  simp [connectGate, intervalMet, connectInterval, resetSettle]

/-- STEP in `connecting` begins a SYNC: both intervals have passed, and U12 is kept clear of (R135). -/
structure Connects (s : State) : Prop where
  legal : legalConfig s.cfg = true
  orch : s.orch = .connecting
  idle : s.rx.active = false
  gate : 50 ≤ elapsed s.cfg.clkW s.env.turn.now s.session.lastAttempt ∧
    500 ≤ elapsed s.cfg.clkW s.env.turn.now s.session.lastReset
  attempt : Punctual s s.env.stamps.attempt
  reset : Punctual s s.env.stamps.reset

/-- Its SYNC at the first poll. -/
def State.connecting (s : State) : State := beginSync tSync s.gated

section Connects
variable {s : State} (h : Connects s)
include h

theorem Connects.exec : exec .step s = .next (await .connecting s.connecting) := by
  rw [exec_step_connecting_punctual h.legal h.idle h.orch h.attempt h.reset,
    if_pos ((connectGate_iff _ _ _ _).2 h.gate)]
  rfl

omit h in
theorem connecting_syncs (s : State) : Syncs (syncFrame s.cfg) [] { s with unitCall := none } s.connecting :=
  (beginSync_syncs tSync s.gated).afterGate

omit h in
theorem connecting_cfg (s : State) : s.connecting.cfg = s.cfg := (connecting_syncs s).regs.fields.1

omit h in
/-- What stood in `RXQ` is still first there. -/
theorem connecting_rxq {q : Bytes} (hq : s.env.rxq = q) : ∃ z, s.connecting.env.rxq = q ++ z :=
  (connecting_syncs s).env.rest (b := []) hq

omit h in
theorem connecting_readsSync (hslack : slack s.env ≤ 5000) : ReadsSync s.connecting :=
  beginSync_readsSync ((slack_mono (gated_exchanged s)).trans hslack)

omit h in
theorem connecting_awaitsNth (s : State) : AwaitsNth 0 s.connecting := beginSync_awaitsNth _ _

/-- SYNC fails in this STEP (R135). -/
theorem Connects.fails {st : ResultCode} {n : Nat} {read : Bytes} (hst : st ≠ .success)
    (hrun : ∃ x, await .connecting s.connecting = deliver .connecting st x ∧ SyncEnded n x ∧
      Syncs [] read s.connecting x) :
    ∃ t, Machine.exec .step s = .next t ∧ ConnectingStep (syncFrame s.cfg) read s t ∧ SyncCounted s t := by
  obtain ⟨x, hawait, hend, hsyncs⟩ := hrun
  have hx := (connecting_syncs s).trans hsyncs
  exact ⟨_, h.exec.trans (congrArg _ hawait), connectingTail_step h.orch hx st,
    connectingTail_counted h.orch hx hst hend.active hend.phase⟩

end Connects

/-- Who waits for the RECV of a session's SYNC (R132). -/
theorem callerOf_connecting {s : State} (ho : s.orch = .connecting) (hu : s.unitCall = none)
    (hphase : s.syncPhase ≠ .idle) : callerOf s = some .connecting :=
  callerOf_eq_some_iff.2 ⟨hu, ho, fun _ => hphase⟩

/-- The registers of a SYNC that an earlier STEP left pending, in a state that meets the invariant. -/
theorem RegisterInv.syncGoing {s : State} (hi : RegisterInv s) (ho : s.orch = .connecting) (ha : s.rx.active = true)
    (hu : s.unitCall = none) : SyncGoing tSync [] { s with unitCall := none } s := by
  have hbase : ({ s with unitCall := none } : State) = s := by rw [← hu]
  have hphase : s.syncPhase ≠ .idle := by
    intro hp
    exact hi.caller ha (by simp [callerOf, hu, ho, hp])
  have hlimit := hi.limit ha hu
  rw [ho] at hlimit
  rw [hbase]
  exact ⟨⟨[], .refl s⟩, ha, hi.pending ha, ⟨hphase, fun _ => hi.extraReads, hi.flushed⟩, hlimit⟩

/-- Settles O39, by the gate, by what any SYNC comes to, and by the frames that end one. -/
theorem stepInConnecting : Obligations.StepInConnecting := by
  intro s hl ho now gate
  refine ⟨fun ha hattempt hreset => ⟨fun hgate => ?early, fun hgate => ?runs, ?passes⟩, fun ha hu hi hp => ⟨?resumes, ?late⟩⟩
  case early =>
    rw [exec_step_connecting_punctual hl ha ho hattempt hreset, if_neg (hgate ∘ (connectGate_iff _ _ _ _).1)]
    rfl
  case runs =>
    have h : Connects s := ⟨hl, ho, ha, hgate, hattempt, hreset⟩
    obtain ⟨read, hstep⟩ := ((beginSync_going tSync s.gated).afterGate.await (c := .connecting) rfl).step ho
    exact ⟨_, read, h.exec, hstep⟩
  case passes =>
    intro hgate found last rest hslack hslack' hfound hlast hno hrxq
    have h : Connects s := ⟨hl, ho, ha, hgate, hattempt, hreset⟩
    obtain ⟨z, hz⟩ := connecting_rxq hrxq
    rw [List.append_assoc, List.append_assoc] at hz
    have hcfg := connecting_cfg s
    rw [← hcfg] at hslack' hfound hno
    have hsendable : found.sendable := (Nat.le_of_eq hfound.2).trans (by decide)
    obtain ⟨y, hawait, hflushing, hsyncs⟩ := await_response (c := .connecting) (strays := []) rfl
      (connecting_readsSync hslack) (connecting_awaitsNth s) ((slack_mono (connecting_syncs s).env).trans hslack')
      (Nat.zero_le _) nofun hsendable hfound.1 (fun _ => hfound.2) hz
    obtain ⟨z', hz'⟩ := hsyncs.env.rest (q := last.wire ++ (rest ++ z)) hz
    rw [List.append_assoc] at hz'
    rw [← hsyncs.regs.fields.1] at hno
    obtain ⟨x, hawait', hend, -, hsyncs'⟩ := hflushing.await_end (c := .connecting) (flushed := []) rfl nofun hlast hno hz'
    have hx := (connecting_syncs s).trans (hsyncs.trans hsyncs')
    exact ⟨_, h.exec.trans (congrArg _ (hawait.trans hawait')), connectingTail_step ho hx .success,
      connectingTail_passed hx hend.active hend.phase⟩
  case resumes =>
    obtain ⟨read, hstep⟩ := ((hi.syncGoing ho ha hu).await (c := .connecting) rfl).step ho
    exact ⟨_, read, exec_step_resumed_punctual hl ha
      (callerOf_connecting ho hu (hi.syncGoing ho ha hu).sync.phase) hp, hstep⟩
  case late =>
    intro hflush hlate
    have hphase : s.syncPhase ≠ .idle := by rw [hflush]; decide
    obtain ⟨x, hawait, hidle, hx, hsyncs⟩ := await_late_sync (c := .connecting) rfl hphase hlate
    rw [if_pos hflush, hi.flushed hflush] at hawait
    have hbase : ({ s with unitCall := none } : State) = s := by rw [← hu]
    rw [← hbase] at hsyncs
    refine ⟨_, (exec_step_resumed_punctual hl ha (callerOf_connecting ho hu hphase) hp).trans (congrArg _ hawait),
      connectingTail_step ho hsyncs .success, connectingTail_passed hsyncs hidle hx⟩

/-! ### Frames that break (R84, R101) -/

section Broken
variable {c : Caller} (hc : c.op = .sync)
include hc

/-- Before the flush, a RECV that ends with an error of its frame ends the SYNC (R101). -/
theorem await_brokenFrame {n : Nat} {x y : State} {st : ResultCode} {read : Bytes} (hn : AwaitsNth n x)
    (hst : st = .slipFrameError ∨ st = .slipDataError) (hpoll : poll x = .ended st y) (hgot : Got read x y) :
    ∃ t, await c x = deliver c st t ∧ SyncEnded n t ∧ Syncs [] read x t := by
  obtain ⟨-, -, -, hphase, hextra, -⟩ := hgot.regs.fields
  have hny : AwaitsNth n y := by simpa only [AwaitsNth, hphase, hextra] using hn
  have hbad : st ≠ .success ∧ st ≠ .responseHeaderError := by rcases hst with rfl | rfl <;> decide
  have hstatus : nthStatus n st y.rx.bodyLen = st := by
    rw [nthStatus, replyStatus_of_ne_success hbad.1, ite_self]
  have hcontinue : opContinue .sync st y = .finished st { y.counted n with syncPhase := .idle } := by
    refine (syncContinue_nth hny st).trans ?_
    rw [hstatus]
    exact syncDecide_failure hbad.1 (fun he => absurd he hbad.2)
  have hoff : y.rx.active = false := poll_ended_inactive hpoll
  refine ⟨{ y.counted n with syncPhase := .idle }, ?_, ⟨rfl, rfl, hoff⟩, hgot.syncs.regs.trans rfl, hgot.env⟩
  rw [await_ended hpoll, resume, hc, hcontinue]

end Broken

section Connects
variable {s : State} (h : Connects s) (hslack : slack s.env ≤ 5000)
include h hslack

/-- The first frame of the attempt breaks after the logical bytes p, which `tail` follows. -/
theorem Connects.fails_broken {g p tail broken : Bytes} (hg : slipEND ∉ g) (hp : Whole p ∨ Unfinished p)
    (hrxq : s.env.rxq = g ++ [slipEND] ++ slipEncode p ++ tail)
    (hbreak : ∀ (x : State) (z : Bytes), OnTime x → At x.cfg.respBodyCap s.connecting.rx p x.rx → x.env.rxq = tail ++ z →
      ∃ st y, (st = .slipFrameError ∨ st = .slipDataError) ∧ poll x = .ended st y ∧ Got broken x y) :
    ∃ t, Machine.exec .step s = .next t ∧
      ConnectingStep (syncFrame s.cfg) (g ++ [slipEND] ++ slipEncode p ++ broken) s t ∧ SyncCounted s t := by
  obtain ⟨z, hz⟩ := connecting_rxq hrxq
  obtain ⟨hbegun, hontime, -⟩ := connecting_readsSync hslack
  obtain ⟨x, hawait, hat, hgot, hx⟩ := await_open .connecting g p s.connecting (tail ++ z) hontime hbegun hg hp
    (by simpa using hz)
  obtain ⟨z', hz'⟩ := hgot.env.rest (q := tail ++ z) (by simpa using hz)
  obtain ⟨st, y, hst, hpoll, hgot'⟩ := hbreak x (z ++ z') hx (hgot.regs.fields.1 ▸ hat) (by simpa using hz')
  obtain ⟨-, -, -, hphase, hextra, -⟩ := hgot.regs.fields
  have hn : AwaitsNth 0 x := by simpa only [AwaitsNth, hphase, hextra] using connecting_awaitsNth s
  obtain ⟨t, hawait', hend, hsyncs⟩ := await_brokenFrame (c := .connecting) rfl hn hst hpoll hgot'
  have hread : g ++ slipEND :: slipEncode p = g ++ [slipEND] ++ slipEncode p := by simp
  rw [hread] at hgot
  exact h.fails (by rcases hst with rfl | rfl <;> decide) ⟨t, hawait.trans hawait', hend, hgot.syncs.trans hsyncs⟩

end Connects

/-- Settles O40, by each way the attempt fails. -/
theorem failedSyncIsCounted : Obligations.FailedSyncIsCounted := by
  intro s hl ho
  refine ⟨?runs, fun ha hu hphase hp hlate => ?late⟩
  case runs =>
    intro ha hgate hgate' hattempt hreset hslack fails
    have h : Connects s := ⟨hl, ho, ha, ⟨hgate, hgate'⟩, hattempt, hreset⟩
    have hcfg := connecting_cfg s
    have hreads := connecting_readsSync hslack
    have hn := connecting_awaitsNth s
    refine ⟨fun r rest hr hyes hlen hrxq => ?length, fun strays rest hlen hno hrxq => ?strays,
      fun g p tail hg hrxq => ⟨fun rest hu htail => ?boundary, fun b rest hu htail h1 h2 => ?badEscape,
        fun b rest hw htail hb => ?noEnd⟩⟩
    case length =>
      obtain ⟨z, hz⟩ := connecting_rxq hrxq
      rw [List.append_assoc] at hz
      exact h.fails (st := .badReply) nofun (await_failure (c := .connecting) rfl hreads hn hr
        (Reply.syncStatus_badReply (hcfg ▸ hyes) hlen) nofun nofun hz)
    case strays =>
      obtain ⟨z, hz⟩ := connecting_rxq hrxq
      rw [List.append_assoc] at hz
      exact h.fails (st := .responseHeaderError) nofun (await_elevenStrays (c := .connecting) rfl hreads hn hlen (hcfg ▸ hno) hz)
    case boundary =>
      refine h.fails_broken hslack hg (.inr hu) hrxq fun x z hx hat hz => ?_
      obtain ⟨y, hpoll, hgot⟩ := poll_boundary hx (hat.reading hu) hat.esc (hz.trans (by rw [htail]; rfl))
      exact ⟨_, y, .inl rfl, hpoll, hgot⟩
    case badEscape =>
      refine h.fails_broken hslack hg (.inr hu) hrxq fun x z hx hat hz => ?_
      obtain ⟨y, hpoll, hgot⟩ := poll_badEscape hx (hat.reading hu) hat.esc (hz.trans (by rw [htail]; rfl)) h1 h2
      exact ⟨_, y, .inr rfl, hpoll, hgot⟩
    case noEnd =>
      refine h.fails_broken hslack hg (.inl hw) hrxq fun x z hx hat hz => ?_
      obtain ⟨y, hpoll, hgot⟩ := poll_noEnd hx (hat.awaitingEnd hw) (hz.trans (by rw [htail]; rfl)) hb
      exact ⟨_, y, .inl rfl, hpoll, hgot⟩
  case late =>
    have hidle : s.syncPhase ≠ .idle ∧ s.syncPhase ≠ .flush := by rcases hphase with h | h <;> rw [h] <;> decide
    obtain ⟨x, hawait, hoff, hx, hsyncs⟩ := await_late_sync (c := .connecting) rfl hidle.1 hlate
    rw [if_neg hidle.2] at hawait
    have hbase : ({ s with unitCall := none } : State) = s := by rw [← hu]
    rw [← hbase] at hsyncs
    exact ⟨_, (exec_step_resumed_punctual hl ha (callerOf_connecting ho hu hidle.1) hp).trans (congrArg _ hawait),
      connectingTail_step ho hsyncs .timeout, connectingTail_counted ho hsyncs nofun hoff hx⟩

end Sys2Proof.Machine
end

section
/-! PROOFS. STEP in `erasing` (44_orchestrator.md R136): what its FBEGIN comes to, whatever the environment does, on an answer
that stands in `RXQ`, and on a late poll. -/

namespace Sys2Proof.Machine

/-! ### FBEGIN for `erasing` (R110, R136) -/

/-- FBEGIN has come from s to x: it wrote `sent` and read `read`, and no register outside the receive machine has
changed. -/
structure Commands (sent read : Bytes) (s x : State) : Prop where
  regs : SameButRx s x
  env : Exchanged sent read s.env x.env

theorem Commands.got {sent read r : Bytes} {s x y : State} (h : Commands sent read s x) (hg : Got r x y) :
    Commands sent (read ++ r) s y := ⟨h.regs.trans hg.regs, h.env.read hg.env⟩

/-- The session's FBEGIN, from s, waits in x for its RECV. -/
structure EraseGoing (sent : Bytes) (expected : Byte) (T : U32) (s x : State) : Prop where
  commands : ∃ read, Commands sent read s x
  active : x.rx.active = true
  machine : receiverInv x.rx
  expects : x.rx.expected = expected
  limit : x.rx.timeout = T

/-- What FBEGIN has come to when STEP answers: it waits, or it has returned one of CMD's codes to `erasing`. -/
inductive EraseGoes (sent : Bytes) (expected : Byte) (T : U32) (s t : State) : Prop where
  | waits (x : State) (going : EraseGoing sent expected T s x) (run : t = x.inProgress)
  | returns (x : State) (read : Bytes) (st : ResultCode) (commands : Commands sent read s x)
      (idle : x.rx.active = false) (code : st ∈ UnitOp.fbegin.codes) (run : t = erasingTail st x)

section Going
variable {sent : Bytes} {expected : Byte} {T : U32} {s x : State}

/-- A poll adds what it reads, and changes nothing of what is awaited. -/
theorem EraseGoing.poll (h : EraseGoing sent expected T s x) :
    (∃ read, Commands sent read s (poll x).state) ∧
      (poll x).state.rx.expected = expected ∧ (poll x).state.rx.timeout = T := by
  obtain ⟨read, hc⟩ := h.commands
  have hr := poll_receives x
  obtain ⟨bs, hx, -⟩ := poll_exchanged x
  exact ⟨⟨_, hc.got ⟨hr.regs, hx⟩⟩, hr.call.expected.trans h.expects, hr.call.timeout.trans h.limit⟩

theorem EraseGoing.await (h : EraseGoing sent expected T s x) : EraseGoes sent expected T s (await .erasing x) := by
  refine await_induct .erasing (EraseGoing sent expected T s) (EraseGoes sent expected T s) ?wait ?again ?next ?last x h
  case wait =>
    intro x y hx hp
    obtain ⟨hc, hexpects, hlimit⟩ := hx.poll
    obtain ⟨hmachine, ha⟩ := (poll_inv x hx.machine).1 y hp
    rw [hp] at hc hexpects hlimit
    exact .waits y ⟨hc, ha.trans hx.active, hmachine, hexpects, hlimit⟩ rfl
  case again =>
    intro x y hx hp
    obtain ⟨hc, hexpects, hlimit⟩ := hx.poll
    obtain ⟨hmachine, ha⟩ := (poll_inv x hx.machine).2.1 y hp
    rw [hp] at hc hexpects hlimit
    exact ⟨hc, ha.trans hx.active, hmachine, hexpects, hlimit⟩
  case next =>
    intro x y z st _ _ ho
    cases ho
  case last =>
    intro x y z st st' hx hp ho
    cases ho
    obtain ⟨⟨read, hc⟩, -⟩ := hx.poll
    obtain ⟨hst, ha⟩ := (poll_inv x hx.machine).2.2 st y hp
    rw [hp] at hc
    exact .returns y read _ hc ha (UnitOp.code_mem_codes hst .fbegin _) rfl

end Going

/-- STEP's FBEGIN at its first poll (R136). -/
def State.erasing (s : State) (es : U32) : State := beginFbegin s.session.targetAddr es { s with unitCall := none }

section Begin
variable {s : State} (hl : legalConfig s.cfg = true) (es : U32)
include hl

theorem erasing_commands :
    Commands (flashBeginFrame s.cfg s.session.targetAddr es) [] { s with unitCall := none } (s.erasing es) :=
  ⟨beginCmd_regs _ _ _ _ _, frame_begin hl _ _ ▸ beginCmd_exchanged _ _ _ _ { s with unitCall := none }⟩

theorem erasing_going :
    EraseGoing (flashBeginFrame s.cfg s.session.targetAddr es) s.cfg.opcFlashBegin (eraseTimeout s.cfg es)
      { s with unitCall := none } (s.erasing es) :=
  ⟨⟨[], erasing_commands hl es⟩, rfl, begun_inv (begun _ _ _) rfl, rfl, rfl⟩

end Begin

/-! ### `erasing` after FBEGIN (R136, R139) -/

theorem erasingTail_success (x : State) :
    erasingTail .success x =
      ({ x with session := { x.session with result := .success, blockIdx := 0#32 }, orch := .uploading } : State).answer
        (.inProgress 0) := rfl

theorem erasingTail_failure {st : ResultCode} (h : st ≠ .success) (x : State) :
    erasingTail st x = finishDone st { x with session := { x.session with result := st } } := if_pos h

theorem erasingTail_txs (st : ResultCode) (x : State) : (erasingTail st x).env.txs = x.env.txs :=
  (went_deliver .erasing st x).txs

/-- FBEGIN's return to STEP, whatever its code. -/
theorem erasingTail_ended {sent read : Bytes} {s x : State} (h : Commands sent read { s with unitCall := none } x)
    (hidle : x.rx.active = false) (st : ResultCode) : EraseEnded st s (erasingTail st x) := by
  obtain ⟨hbaud, hgpio, himg⟩ := h.env.lines
  obtain ⟨hcfg, hsession, horch, hphase, hextra, hstatus, hatt, hblk, hchk, hport, -, hunit⟩ := h.regs.fields
  have hregs := congrArg (fun u : State => { u with
    session := s.session, orch := s.orch, syncPhase := s.syncPhase, ret := s.ret, unitCall := s.unitCall }) h.regs
  by_cases hst : st = .success
  · subst hst
    rw [erasingTail_success]
    exact ⟨hidle, hunit, hregs, himg, hbaud,
      fun _ => ⟨rfl, rfl, hgpio, hphase, by simp only [State.answer, hsession]⟩, fun hne => absurd rfl hne⟩
  · rw [erasingTail_failure hst]
    exact ⟨rfl, hunit, hregs, himg, hbaud, fun he => absurd he hst,
      fun _ => ⟨rfl, rfl, rfl, rfl, by simp only [finishDone, finish, State.answer, hsession]⟩⟩

/-- A whole answer ends FBEGIN with the code CMD gives it (R86, R136). -/
theorem await_eraseReply {g : Bytes} {r : Reply} {s : State} {z : Bytes} (ht : OnTime s) (hb : Begun s) (hg : slipEND ∉ g)
    (hr : r.sendable) (hq : s.env.rxq = g ++ r.wire ++ z) :
    ∃ x, await .erasing s = erasingTail (r.code s.cfg s.rx.expected) x ∧ x.rx.active = false ∧ Got (g ++ r.wire) s x := by
  obtain ⟨x, hawait, hheld, -, -, hgot, -⟩ := await_reply .erasing g r s z ht hb hg hr hq
  exact ⟨x, hawait.trans (congrArg (erasingTail · x) (held_code hheld s.cfg)), hheld.active, hgot⟩

/-- STEP in `erasing` with an FBEGIN under way: pending, or ended with one of CMD's codes (R136, R171). -/
theorem EraseGoes.step {sent : Bytes} {expected : Byte} {T : U32} {s t : State} (ho : s.orch = .erasing)
    (h : EraseGoes sent expected T { s with unitCall := none } t) :
    t.env.txs = s.env.txs ++ sent ∧
      ((t.rx.active = true ∧ t.orch = .erasing ∧ t.session = s.session ∧ t.ret = .inProgress 0 ∧ t.unitCall = none ∧
          t.rx.expected = expected ∧ t.rx.timeout = T) ∨
        ∃ st ∈ UnitOp.fbegin.codes, EraseEnded st s t) := by
  cases h with
  | waits x going run =>
    subst run
    obtain ⟨read, hregs, henv⟩ := going.commands
    obtain ⟨-, hsession, horch, -, -, -, -, -, -, -, -, hunit⟩ := hregs.fields
    have hx : x.orch = .erasing := horch.trans ho
    exact ⟨henv.sent, .inl ⟨going.active, hx, hsession, congrArg Ret.inProgress (percent_eq_zero (hx ▸ nofun)), hunit,
      going.expects, going.limit⟩⟩
  | returns x read st commands idle code run =>
    subst run
    exact ⟨(erasingTail_txs st x).trans commands.env.sent, .inr ⟨st, code, erasingTail_ended commands idle st⟩⟩

/-- Who waits for the RECV of a session's FBEGIN (R132). -/
theorem callerOf_erasing {s : State} (ho : s.orch = .erasing) (hu : s.unitCall = none) :
    callerOf s = some .erasing := by simp [callerOf, hu, ho]

/-- A RECV that waits for its start marker is as it began (R84). -/
theorem Waiting.begun {s : State} (h : Waiting s) : Begun s := ⟨h.active, h.state, h.counts.1, h.counts.2, h.escape⟩

/-- Nothing has been sent or read yet by the STEP that resumes. -/
theorem Got.commands {read : Bytes} {s x : State} (hu : s.unitCall = none) (h : Got read s x) :
    Commands [] read { s with unitCall := none } x := by
  have hbase : ({ s with unitCall := none } : State) = s := by rw [← hu]
  rw [hbase]
  exact ⟨h.regs, h.env⟩

/-- Settles O42, by what any FBEGIN comes to, by the answer, and by the late poll. -/
theorem stepInErasing : Obligations.StepInErasing := by
  intro s hl ho
  refine ⟨?begins, fun ha hu hp => ?resumes⟩
  case begins =>
    intro es ha hes hp limit sent
    have hlimit : eraseTimeout s.cfg es = limit := eraseTimeout_eq s.cfg es
    have hexec := exec_step_erasing_punctual hl ha ho hes hp
    have hbegin := erasing_commands hl es
    refine ⟨?any, fun g rest r hslack hg hr hrxq => ?answered⟩
    case any =>
      obtain ⟨htxs, h⟩ := (erasing_going hl es).await.step ho
      refine ⟨_, hexec, htxs, h.imp (fun h => hlimit ▸ h) ?_⟩
      rintro ⟨st, hst, hend⟩
      exact ⟨st, (by decide : ∀ st ∈ UnitOp.fbegin.codes, st ∈ [ResultCode.success, .timeout, .badReply,
        .responseHeaderError, .slipFrameError, .slipDataError]) st hst, hend⟩
    case answered =>
      obtain ⟨z, hz⟩ := hbegin.env.rest (b := []) (q := g ++ r.wire ++ rest) hrxq
      have hcfg : (s.erasing es).cfg = s.cfg := hbegin.regs.fields.1
      obtain ⟨hbegun, hontime⟩ := begin_cmd_facts s.cfg.opcFlashBegin (flashBeginBody s.session.targetAddr es) 0#32
        (eraseTimeout s.cfg es) { s with unitCall := none } (hlimit ▸ hslack)
      obtain ⟨x, hawait, hidle, hgot⟩ := await_eraseReply (s := s.erasing es) hontime hbegun hg hr
        (by simpa only [List.append_assoc] using hz)
      have hx := hbegin.got hgot
      rw [hcfg] at hawait
      exact ⟨_, hexec.trans (congrArg _ hawait), (erasingTail_txs _ x).trans hx.env.sent, erasingTail_ended hx hidle _⟩
  case resumes =>
    have hexec := exec_step_resumed_punctual hl ha (callerOf_erasing ho hu) hp
    refine ⟨fun g rest r hw ht hg hr hrxq => ?answered, fun hlate => ?late⟩
    case answered =>
      obtain ⟨x, hawait, hidle, hgot⟩ := await_eraseReply ht hw.begun hg hr hrxq
      have hx := hgot.commands hu
      exact ⟨_, hexec.trans (congrArg _ hawait), (erasingTail_txs _ x).trans (hgot.env.sent.trans (List.append_nil _)),
        erasingTail_ended hx hidle _⟩
    case late =>
      obtain ⟨y, hend, hgot⟩ := (atPoll_got s).endRecv .timeout
      have hpoll := (poll_late hlate).trans hend
      have hcode : replyStatus .timeout y.rx.bodyLen = .timeout := replyStatus_of_ne_success (by decide) _
      have hawait : await .erasing s = erasingTail .timeout y :=
        (await_ended hpoll).trans (congrArg (erasingTail · y) hcode)
      have henv : y.env = s.atPoll.env := by cases hend; rfl
      refine ⟨_, hexec.trans (congrArg _ hawait), erasingTail_ended (hgot.commands hu) (poll_ended_inactive hpoll) _, ?_⟩
      rw [erasingTail_failure (by decide)]
      simp [finishDone, finish, State.answer, henv]

end Sys2Proof.Machine
end

section
/-! PROOFS. STEP in `uploading` (44_orchestrator.md R138): the block it sends, and what FDATA's return makes of the session. -/

namespace Sys2Proof.Machine

/-! ### `uploading` after FDATA (R138, R139) -/

/-- FDATA is under way in y for the STEP that began in s, or has just returned: the session is as it was, and no report has
been made. -/
structure SendsBlock (s y : State) : Prop where
  cfg : y.cfg = s.cfg
  session : y.session = s.session
  orch : y.orch = .uploading
  unitCall : y.unitCall = none
  gpio : y.env.gpio = s.env.gpio
  calls : ∃ calls, y.env.events = s.env.events ++ calls ∧ ∀ ev ∈ calls, ev.isProgress = false

/-- `last_attempt` and `result` are written when FDATA has returned (R138). -/
def State.returned (y : State) (st : ResultCode) : State :=
  { y with
    env := (y.env.readClock y.cfg.clkW).2.markAttempt
    session := { y.session with lastAttempt := (y.env.readClock y.cfg.clkW).1, result := st } }

theorem uploadingTail_success (y : State) : uploadingTail .success y = blockDone (y.returned .success) := rfl

theorem uploadingTail_failure {st : ResultCode} (h : st ≠ .success) (y : State) :
    uploadingTail st y = finishDone st (y.returned st) := if_pos h

/-- The percentage after the next block (R138). -/
def State.nextPercent (s : State) : Nat := percentOf (s.session.blockIdx + 1#32) s.session.imageSize

/-- The index has advanced, and the report is made at its granularity (R138). -/
def State.reported (s : State) : State :=
  { s with
    env := if s.session.nextReport.toNat ≤ s.nextPercent then s.env.progress s.nextPercent else s.env
    session := { s.session with
      blockIdx := s.session.blockIdx + 1#32
      nextReport := if s.session.nextReport.toNat ≤ s.nextPercent then
        s.session.nextReport + BitVec.ofNat 32 s.cfg.pctStep else s.session.nextReport } }

theorem blockDone_eq_reported (s : State) :
    blockDone s =
      if (s.session.blockIdx + 1#32).toNat = nBlocks s.session.imageSize then finishDone .success s.reported
      else s.reported.answer (.inProgress s.nextPercent) := by
  by_cases h : s.session.nextReport.toNat ≤ s.nextPercent
  · have h' : percentOf (s.session.blockIdx + 1#32) s.session.imageSize ≥ s.session.nextReport.toNat := h
    simp only [blockDone, State.reported, if_pos h, if_pos h']
    rfl
  · have h' : ¬ percentOf (s.session.blockIdx + 1#32) s.session.imageSize ≥ s.session.nextReport.toNat := h
    simp only [blockDone, State.reported, if_neg h, if_neg h']
    rfl

/-- It changes the session, and what the end of the session changes. -/
theorem uploadingTail_regs (st : ResultCode) (y : State) :
    { uploadingTail st y with
      session := y.session, orch := y.orch, env := y.env, ret := y.ret, rx := y.rx, syncPhase := y.syncPhase } = y := by
  by_cases h : st = .success
  · subst h
    rw [uploadingTail_success, blockDone_eq_reported]
    split <;> rfl
  · rw [uploadingTail_failure h]
    rfl

theorem uploadingTail_txs (st : ResultCode) (y : State) : (uploadingTail st y).env.txs = y.env.txs :=
  (went_deliver .uploading st y).txs

section Returned
variable {s y : State} (h : SendsBlock s y)
include h

/-- FDATA has failed (R114, R138). -/
theorem SendsBlock.failed {st : ResultCode} (hst : st ≠ .success) (hatt : y.blkAttempt = 3) :
    BlockFailed st s (uploadingTail st y) := by
  obtain ⟨calls, hcalls, -⟩ := h.calls
  rw [uploadingTail_failure hst]
  refine ⟨rfl, h.unitCall, hatt, rfl, rfl, rfl, ?_, calls, ?_⟩
  · simp only [finishDone, finish, State.answer, State.returned, h.session]
  · simp [finishDone, finish, State.answer, State.returned, hcalls]

omit h in
/-- The next index does not wrap (R117). -/
theorem toNat_nextBlock {idx n : U32} (hk : idx.toNat < nBlocks n) : (idx + 1#32).toNat = idx.toNat + 1 := by
  have := n.isLt
  simp only [nBlocks, ceilDiv, blockSize] at hk
  bv_omega

/-- What stands in the registers when the report is made, or not (R138). -/
theorem SendsBlock.reported :
    let u := (y.returned .success).reported
    let due := s.session.nextReport.toNat ≤ s.nextPercent
    u.orch = .uploading ∧ u.rx.active = y.rx.active ∧ u.unitCall = none ∧ u.env.gpio = s.env.gpio ∧
    u.session = { s.session with
      lastAttempt := u.session.lastAttempt, result := .success, blockIdx := s.session.blockIdx + 1#32
      nextReport := if due then s.session.nextReport + BitVec.ofNat 32 s.cfg.pctStep else s.session.nextReport } ∧
    ∃ calls, u.env.events = s.env.events ++ calls ++ [.now u.session.lastAttempt] ++
      (if due then [.progress s.nextPercent] else []) ∧ ∀ ev ∈ calls, ev.isProgress = false := by
  obtain ⟨calls, hcalls, hnone⟩ := h.calls
  refine ⟨h.orch, rfl, h.unitCall, ?_, ?_, calls, ?_, hnone⟩
  · rw [← h.gpio, State.reported]
    split <;> rfl
  · simp only [State.reported, State.returned, State.nextPercent, h.session, h.cfg]
    rfl
  · simp only [State.reported, State.returned, State.nextPercent, h.session]
    by_cases hdue : s.session.nextReport.toNat ≤ percentOf (s.session.blockIdx + 1#32) s.session.imageSize <;>
      simp [hdue, hcalls]

/-- FDATA has succeeded: the report is due or not, and the block was the last or not. -/
theorem SendsBlock.sent (hoff : y.rx.active = false) (hk : s.session.blockIdx.toNat < nBlocks s.session.imageSize) :
    BlockSent s (uploadingTail .success y) := by
  have hidx := toNat_nextBlock hk
  have hp : 100 * (s.session.blockIdx.toNat + 1) / nBlocks s.session.imageSize = s.nextPercent := by
    rw [State.nextPercent, percentOf, hidx]
  have hblocks : (s.session.imageSize.toNat + 1023) / 1024 = nBlocks s.session.imageSize := rfl
  have hpercent : (y.returned .success).nextPercent = s.nextPercent := by
    simp only [State.nextPercent, State.returned, h.session]
  have hnext : (y.returned .success).session.blockIdx + 1#32 = s.session.blockIdx + 1#32 := by
    simp only [State.returned, h.session]
  have hsize : (y.returned .success).session.imageSize = s.session.imageSize := by
    simp only [State.returned, h.session]
  rw [uploadingTail_success, blockDone_eq_reported, hnext, hidx, hsize, hpercent]
  obtain ⟨horch, hidle, hunit, hgpio, hsession, calls, hcalls, hnone⟩ := h.reported
  generalize (y.returned .success).reported = u at *
  simp only [BlockSent, hblocks, hp]
  split
  · rename_i hlast
    simp only [hlast, lt_irrefl, false_implies, true_implies, true_and]
    refine ⟨rfl, hunit, ?_, ⟨calls, ?_, hnone⟩, rfl, rfl, rfl⟩
    · simp only [finishDone, finish, State.answer]
      rw [hsession]
    · simp [finishDone, finish, State.answer, hcalls]
  · rename_i hlast
    refine ⟨hidle.trans hoff, hunit, hsession, ⟨calls, ?_, hnone⟩, fun _ => ⟨horch, rfl, hgpio⟩, fun he => absurd he hlast⟩
    simpa [State.answer] using hcalls

end Returned

/-! ### The block of a STEP (R138) -/

section ImgRead
variable (off n : Nat) (e : Env)

@[simp] theorem Env.imgRead_events :
    (e.imgRead off n).2.events = e.events ++ [.imgRead off n ((e.img.data.drop off).take n).length] := rfl

@[simp] theorem Env.imgRead_rxq : (e.imgRead off n).2.rxq = e.turn.rxq := rfl

@[simp] theorem Env.imgRead_script : (e.imgRead off n).2.script = e.turn.script := rfl

end ImgRead

/-- The image's bytes of the block, zero-padded (R138). -/
def State.padded (s : State) : Bytes := s.blockBytes ++ List.replicate (blockSize - s.blockBytes.length) 0#8

/-- The block's data as they are sent (R112, R113). -/
def State.sentBlock (s : State) : Bytes :=
  patchedData s.cfg s.session.blockIdx s.session.targetAddr s.cfg.parmVal s.cfg.parmMask s.padded

/-- FDATA's block is prepared, and no attempt made. -/
def State.prepared (s : State) : State := prepareBlock s.session.blockIdx s.cfg.parmVal s.cfg.parmMask s.gated.filled

/-- FDATA at its first poll. -/
def State.uploading (s : State) : State := fdataAttempt s.prepared

theorem length_blockBytes_le (s : State) : s.blockBytes.length ≤ blockSize := List.length_take_le _ _

theorem length_padded (s : State) : s.padded.length = blockSize := by
  rw [State.padded, List.length_append, List.length_replicate, Nat.add_sub_cancel' (length_blockBytes_le s)]

section Filled
variable {s : State} (hm : Memory.wf s.blk = true)
include hm

theorem filled_wf : Memory.wf s.gated.filled.blk = true := fillBlock_wf (length_blockBytes_le s) hm

/-- The buffer's data are the padded bytes. -/
theorem blockData_filled : blockData s.gated.filled.blk = s.padded := by
  have hread := Memory.readBytes_writeBytes (a := blkData) (bs := s.padded) hm (by rw [length_padded]; decide)
  rwa [length_padded] at hread

theorem prepared_spec :
    Memory.wf s.prepared.blk = true ∧ s.prepared.chk8 = chkFold s.sentBlock ∧ s.prepared.blkAttempt = 0 ∧
      blockData s.prepared.blk = s.sentBlock ∧
      (legalConfig s.cfg = true → bufFrame s.prepared = dataFrame s.cfg s.session.blockIdx s.sentBlock) := by
  have hdata : s.sentBlock = patchedData s.cfg s.session.blockIdx s.session.targetAddr s.cfg.parmVal s.cfg.parmMask
      (blockData s.gated.filled.blk) := by rw [blockData_filled hm]; rfl
  obtain ⟨hwf, hchk, hatt, -, -, hbody, hdata'⟩ :=
    prepare_spec s.session.blockIdx s.cfg.parmVal s.cfg.parmMask s.gated.filled (filled_wf hm) s.sentBlock hdata
  refine ⟨hwf, hchk, hatt, hdata', fun hl => ?_⟩
  rw [bufFrame, State.prepared, hbody, hchk]
  exact frame_data hl _ _

end Filled

theorem SendsBlock.refl {s : State} (ho : s.orch = .uploading) (hu : s.unitCall = none) : SendsBlock s s :=
  ⟨rfl, rfl, ho, hu, rfl, [], (List.append_nil _).symm, nofun⟩

theorem isProgress_of_exchanges {ev : Event} (h : ev.exchanges = true) : ev.isProgress = false := by
  cases ev <;> simp_all [Event.exchanges, Event.isProgress]

/-- Attempts, and what they read, change nothing of it (R114). -/
theorem SendsBlock.resends {s x y : State} {n : Nat} {read : Bytes} (h : SendsBlock s x) (hr : Resends n read x y) :
    SendsBlock s y := by
  obtain ⟨hcfg, hsession, horch, -, -, -, -, -, -, -, hunit⟩ := hr.regs.fields
  obtain ⟨calls, hcalls, hnone⟩ := h.calls
  obtain ⟨E, hE, -, -, hexchanges⟩ := hr.env.calls
  refine ⟨hcfg.trans h.cfg, hsession.trans h.session, horch.trans h.orch, hunit.trans h.unitCall,
    hr.env.lines.2.1.trans h.gpio, calls ++ E, by rw [hE, hcalls, List.append_assoc], fun ev hev => ?_⟩
  rcases List.mem_append.1 hev with hev | hev
  · exact hnone ev hev
  · exact isProgress_of_exchanges (hexchanges ev hev)

theorem prepared_sendsBlock {s : State} (ho : s.orch = .uploading) : SendsBlock s s.prepared :=
  ⟨rfl, rfl, ho, rfl, rfl, [.now (s.env.turn.now % 2 ^ s.cfg.clkW),
    .imgRead (s.session.blockIdx.toNat * blockSize) blockSize s.blockBytes.length], by
      simp [State.prepared, prepareBlock, State.filled, State.fetched, State.gated, State.blockBytes], by simp [Event.isProgress]⟩

/-- STEP in `uploading` sends a block: the interval has passed, the image's bytes are complete, U12 is kept clear of, and
the clock leaves every attempt its time (R138). -/
structure Uploads (s : State) : Prop where
  legal : legalConfig s.cfg = true
  orch : s.orch = .uploading
  idle : s.rx.active = false
  wf : Memory.wf s.blk = true
  attempt : Punctual s s.env.stamps.attempt
  gate : 15 ≤ elapsed s.cfg.clkW s.env.turn.now s.session.lastAttempt
  whole : s.blockBytes.length = min blockSize (s.session.imageSize.toNat - s.session.blockIdx.toNat * blockSize)
  time : slack s.env ≤ s.cfg.tBlock.toNat

theorem blockGate_iff (w t lastAttempt : Nat) :
    blockGate w (t % 2 ^ w) lastAttempt = true ↔ 15 ≤ elapsed w t lastAttempt := by
  simp [blockGate, intervalMet, blockInterval]

/-- The peer's bytes that wait or come are there after another turn (R31). -/
theorem noMoreBytes_turn {e : Env} (h : NoMoreBytes e) : NoMoreBytes e.turn := by
  cases hs : e.script with
  | nil => simp [NoMoreBytes, hs]
  | cons a l =>
    rw [NoMoreBytes, hs, List.flatMap_cons, List.append_eq_nil_iff] at h
    simpa [NoMoreBytes, hs] using h.2

section Uploads
variable {s : State} (h : Uploads s)
include h

theorem Uploads.exec : exec .step s = .next (await .uploading s.uploading) := by
  rw [exec_step_uploading_punctual h.legal h.idle h.orch h.attempt, if_pos ((blockGate_iff _ _ _).2 h.gate),
    if_neg (not_not.2 h.whole)]
  rfl

theorem Uploads.readsData : ReadsData s.uploading := by
  refine fdataAttempt_readsData (s := s.prepared) (le_trans ?_ h.time)
  have hg := (EnvGrows.ex (gated_exchanged s)).trans
    (grow_imgRead (s.session.blockIdx.toNat * blockSize) blockSize s.gated.env)
  have hslack := hg.slack
  have hlater := hg.later
  change slack (s.gated.env.imgRead (s.session.blockIdx.toNat * blockSize) blockSize).2 ≤ _
  omega

omit h in
theorem uploading_resends (s : State) : Resends 1 [] s.prepared s.uploading := fdataAttempt_resends _

omit h in
/-- What stood in `RXQ` is still first there. -/
theorem uploading_rxq {q : Bytes} (hq : s.env.rxq = q) : ∃ z, s.uploading.env.rxq = q ++ z := by
  obtain ⟨z, hz⟩ := (gated_exchanged s).rest (b := []) hq
  have hread : s.prepared.env.rxq = q ++ (z ++ turnRx s.gated.env.script) := by
    simp [State.prepared, prepareBlock, State.filled, State.fetched, hz]
  obtain ⟨z', hz'⟩ := (uploading_resends s).env.rest (b := []) hread
  exact ⟨_, hz'.trans (List.append_assoc _ _ _)⟩

omit h in
/-- Nothing stands in `RXQ`, and nothing comes. -/
theorem uploading_silent (hq : s.env.rxq = []) (hn : NoMoreBytes s.env) :
    s.uploading.env.rxq = [] ∧ NoMoreBytes s.uploading.env := by
  obtain ⟨hn', hq'⟩ := (gated_exchanged s).noMore hn
  have hempty : s.prepared.env.rxq = [] := turn_rxq_of_noMoreBytes hn' (hq'.symm.trans hq)
  obtain ⟨hn'', hq''⟩ := (uploading_resends s).env.noMore (show NoMoreBytes s.prepared.env from noMoreBytes_turn hn')
  exact ⟨hq''.symm.trans hempty, hn''⟩

/-- The attempts made so far, on the wire. -/
theorem Uploads.txs {n : Nat} {read : Bytes} {y : State} (hr : Resends n read s.prepared y) :
    y.env.txs = s.env.txs ++ copies n (dataFrame s.cfg s.session.blockIdx s.sentBlock) := by
  rw [← (prepared_spec h.wf).2.2.2.2 h.legal, hr.env.sent]
  rfl

/-- One attempt has been made, and what is in the buffer is what has been sent. -/
theorem Uploads.sent_once {read : Bytes} {y t : State} (hr : Resends 1 read s.prepared y) (hblk : t.blk = y.blk)
    (hchk : t.chk8 = y.chk8) (hatt : t.blkAttempt = y.blkAttempt) (htxs : t.env.txs = y.env.txs) :
    t.blkAttempt = 1 ∧ t.env.txs = s.env.txs ++ dataFrame s.cfg s.session.blockIdx s.sentBlock ∧
      blockData t.blk = s.sentBlock ∧ t.chk8 = chkFold s.sentBlock ∧ Memory.wf t.blk = true := by
  obtain ⟨hwf, hsum, hzero, hdata, -⟩ := prepared_spec h.wf
  obtain ⟨-, -, -, -, -, -, hblk', hchk', -⟩ := hr.regs.fields
  refine ⟨?_, ?_, ?_, ?_, ?_⟩
  · rw [hatt, hr.attempts, hzero]
  · rw [htxs, h.txs hr, copies_one]
  · rw [hblk, hblk', hdata]
  · rw [hchk, hchk', hsum]
  · rw [hblk, hblk', hwf]

end Uploads

/-- Who waits for the RECV of a session's FDATA (R132). -/
theorem callerOf_uploading {s : State} (ho : s.orch = .uploading) (hu : s.unitCall = none) :
    callerOf s = some .uploading := by simp [callerOf, hu, ho]

/-- The registers FDATA's return keeps. -/
theorem uploadingTail_keeps (st : ResultCode) (y : State) :
    (uploadingTail st y).blk = y.blk ∧ (uploadingTail st y).chk8 = y.chk8 ∧
      (uploadingTail st y).blkAttempt = y.blkAttempt := by
  have h := uploadingTail_regs st y
  exact ⟨(congrArg State.blk h :), (congrArg State.chk8 h :), (congrArg State.blkAttempt h :)⟩

/-- An accepted answer ends a pending FDATA (R112). -/
theorem await_dataAccepted {r : Reply} {s : State} {z : Bytes} (ht : OnTime s) (hb : Begun s)
    (hyes : r.accepted s.cfg s.rx.expected) (hq : s.env.rxq = r.wire ++ z) :
    ∃ y, await .uploading s = uploadingTail .success y ∧ y.rx.active = false ∧ Got r.wire s y := by
  have hr : r.sendable := (Nat.le_of_eq hyes.2).trans (by decide)
  obtain ⟨y, hawait, hheld, -, -, hgot, -⟩ := await_reply .uploading [] r s z ht hb nofun hr hq
  have hcode := (held_code hheld s.cfg).trans (Reply.code_eq_success_iff.2 hyes)
  have hcontinue : fdataContinue (headerCode s.cfg r.dir r.op s.rx.expected) y = .finished .success y := by
    simp [fdataContinue, hcode, retryDue]
  exact ⟨y, hawait.trans (congrArg (OpStep.run .uploading) hcontinue), hheld.active, hgot⟩

/-- Settles O44, by the answer that stands in `RXQ`, by the silence, and by the answer to an earlier STEP's attempt. -/
theorem stepInUploadingSendsTheBlock : Obligations.StepInUploadingSendsTheBlock := by
  intro s hl ho hk
  refine ⟨?begins, ?resumes⟩
  case begins =>
    intro ha hwf hattempt hgate off got hwhole htime data sends
    have h : Uploads s := ⟨hl, ho, ha, hwf, hattempt, hgate, hwhole, htime⟩
    have hone := uploading_resends s
    refine ⟨fun r rest hyes hrxq => ?answered, fun hrxq hn => ?silent⟩
    case answered =>
      obtain ⟨z, hz⟩ := uploading_rxq hrxq
      rw [List.append_assoc] at hz
      have hcfg : s.uploading.cfg = s.cfg := hone.regs.fields.1
      obtain ⟨y, hawait, hoff, hgot⟩ := await_dataAccepted h.readsData.onTime h.readsData.begun
        (by rw [h.readsData.expected, hcfg]; exact hyes) hz
      have hy := hone.trans hgot.resends
      obtain ⟨hblk, hchk, hatt⟩ := uploadingTail_keeps .success y
      exact ⟨_, h.exec.trans (congrArg _ hawait), h.sent_once hy hblk hchk hatt (uploadingTail_txs .success y),
        ((prepared_sendsBlock ho).resends hy).sent hoff hk⟩
    case silent =>
      obtain ⟨hempty, hn'⟩ := uploading_silent hrxq hn
      have hb := h.readsData.begun
      obtain ⟨y, hpoll, hrx, hgot⟩ := poll_empty h.readsData.onTime hn' hb.esc hempty (by rw [hb.state]; decide)
      have hy := hone.trans hgot.resends
      have hsends := (prepared_sendsBlock ho).resends hy
      refine ⟨y.inProgress, ?_, h.sent_once hy rfl rfl rfl rfl, ?_, hsends.unitCall, hsends.orch, hsends.session, ?_, ?_, ?_⟩
      · rw [h.exec, await_eq, hpoll]
      · exact hrx ▸ hb.active
      · exact congrArg Ret.inProgress (percent_congr (hsends.orch.trans ho.symm) hsends.session)
      · exact hrx ▸ rfl
      · exact hrx ▸ rfl
  case resumes =>
    intro ha hu hp hw ht r rest hyes hrxq
    obtain ⟨y, hawait, hoff, hgot⟩ := await_dataAccepted ht hw.begun hyes hrxq
    obtain ⟨hblk, hchk, hatt⟩ := uploadingTail_keeps .success y
    obtain ⟨-, -, -, -, -, -, hblk', hchk', -⟩ := hgot.resends.regs.fields
    exact ⟨_, (exec_step_resumed_punctual hl ha (callerOf_uploading ho hu) hp).trans (congrArg _ hawait),
      (uploadingTail_txs .success y).trans (hgot.env.sent.trans (List.append_nil _)), hblk.trans hblk', hchk.trans hchk',
      hatt.trans hgot.resends.attempts, ((SendsBlock.refl ho hu).resends hgot.resends).sent hoff hk⟩

/-- A late poll of FDATA's, before its third attempt, costs one attempt; after it, FDATA has failed (R114, R166). -/
theorem await_late_data {s : State} (hlate : Late s) :
    ∃ y, y.rx.active = false ∧ Got [] s y ∧ await .uploading s =
      if s.blkAttempt < 3 then await .uploading (fdataAttempt y) else uploadingTail .timeout y := by
  obtain ⟨y, hend, hgot⟩ := (atPoll_got s).endRecv .timeout
  have hpoll := (poll_late hlate).trans hend
  have hatt : y.blkAttempt = s.blkAttempt := hgot.resends.attempts
  have hcontinue : fdataContinue .timeout y =
      if s.blkAttempt < 3 then .again (fdataAttempt y) else .finished .timeout y := by
    simp [fdataContinue, retryDue, blockAttempts, hatt]
  refine ⟨y, poll_ended_inactive hpoll, hgot, ?_⟩
  refine ((await_ended hpoll).trans (congrArg (OpStep.run .uploading) hcontinue)).trans ?_
  split <;> rfl

/-- Settles O43, by the interval, by the image, by three failures, and by a late poll before or after the third attempt. -/
theorem stepInUploadingWaitsOrFails : Obligations.StepInUploadingWaitsOrFails := by
  intro s hl ho now off got want
  refine ⟨fun ha hattempt => ⟨fun hgate => ?early, fun hgate hshort => ?short, ?fails⟩, fun ha hu hp hlate => ?late⟩
  case early =>
    rw [exec_step_uploading_punctual hl ha ho hattempt, if_neg (fun hmet => hgate.not_ge ((blockGate_iff _ _ _).1 hmet))]
    exact congrArg (fun p => Host.Outcome.next { s.gated with ret := .inProgress p }) (if_pos ho)
  case short =>
    have hexec : exec .step s = .next (finishDone .fileReadError s.gated.fetched) := by
      rw [exec_step_uploading_punctual hl ha ho hattempt, if_pos ((blockGate_iff _ _ _).2 hgate)]
      exact congrArg _ (if_pos hshort)
    refine ⟨_, hexec, rfl, rfl, rfl, ?_, rfl, rfl, ?_⟩ <;>
      simp [finishDone, finish, State.answer, State.fetched, State.gated, now, off, got, blockSize]
  case fails =>
    intro hgate hwhole hwf htime f1 f2 f3 rest hno hrxq
    have h : Uploads s := ⟨hl, ho, ha, hwf, hattempt, hgate, hwhole, htime⟩
    have hbegun := uploading_resends s
    have hone : s.uploading.blkAttempt = 1 := hbegun.attempts.trans (by rw [(prepared_spec hwf).2.2.1])
    have hcfg : s.uploading.cfg = s.cfg := hbegun.regs.fields.1
    obtain ⟨z, hz⟩ := uploading_rxq hrxq
    obtain ⟨hfirst, hlast⟩ := (List.forall_mem_append (l₁ := [f1, f2]) (l₂ := [f3])).1 hno
    obtain ⟨hr3, hno3⟩ := hlast f3 (List.mem_singleton_self f3)
    obtain ⟨x, hawait, hx, hres⟩ := await_dataFailures (c := .uploading) rfl [f1, f2] h.readsData
      (hcfg ▸ hfirst) (by simp [hone]) (z := f3.wire ++ (rest ++ z)) (by simpa using hz)
    obtain ⟨z', hz'⟩ := hres.env.rest (b := [f1, f2].flatMap Reply.wire) (q := f3.wire ++ (rest ++ z)) (by simpa using hz)
    have hthree : x.blkAttempt = 3 := by rw [hres.attempts, hone]; rfl
    obtain ⟨y, hawait', hoff, hres'⟩ := await_dataLast (c := .uploading) rfl hx hr3 (.inr hthree)
      (hz'.trans (List.append_assoc _ _ _))
    have hxcfg : x.cfg = s.cfg := hres.regs.fields.1.trans hcfg
    rw [hxcfg] at hawait'
    have hy := (hbegun.trans hres).trans hres'
    have hfail : f3.code s.cfg s.cfg.opcFlashData ≠ .success := fun he => hno3 (Reply.code_eq_success_iff.1 he)
    exact ⟨_, h.exec.trans (congrArg _ (hawait.trans hawait')),
      ((prepared_sendsBlock ho).resends hy).failed hfail (hres'.attempts.trans hthree),
      (uploadingTail_txs _ y).trans (h.txs hy)⟩
  case late =>
    obtain ⟨y, hoff, hgot, hawait⟩ := await_late_data hlate
    have hexec := exec_step_resumed_punctual hl ha (callerOf_uploading ho hu) hp
    refine ⟨fun hlt hrxq hn htime => ?again, fun hthree => ?last⟩
    case again =>
      rw [if_pos hlt] at hawait
      have hmore := fdataAttempt_resends y
      have hcfg : y.cfg = s.cfg := hgot.regs.fields.1
      have hreads : ReadsData (fdataAttempt y) := fdataAttempt_readsData (hcfg ▸ (slack_mono hgot.env).trans htime)
      obtain ⟨hn', hempty⟩ := (hgot.resends.trans hmore).env.noMore hn
      have hb := hreads.begun
      obtain ⟨x, hpoll, hrx, hgot'⟩ := poll_empty hreads.onTime hn' hb.esc (hempty.symm.trans hrxq)
        (by rw [hb.state]; decide)
      have hx := (hgot.resends.trans hmore).trans hgot'.resends
      have hsends := (SendsBlock.refl ho hu).resends hx
      obtain ⟨-, -, -, -, -, -, hblk, hchk, -⟩ := hx.regs.fields
      refine ⟨x.inProgress, ?_, hrx ▸ hb.active, hsends.orch, hsends.session, ?_, hx.attempts, hblk, hchk, ?_, ?_, ?_⟩
      · rw [hexec, hawait, await_eq, hpoll]
      · exact congrArg Ret.inProgress (percent_congr (hsends.orch.trans ho.symm) hsends.session)
      · exact hrx ▸ congrArg Config.opcFlashData hcfg
      · exact hrx ▸ congrArg Config.tBlock hcfg
      · simpa [copies_one, bufFrame] using hx.env
    case last =>
      rw [if_neg (by omega)] at hawait
      have hy := (SendsBlock.refl ho hu).resends hgot.resends
      exact ⟨_, hexec.trans (congrArg _ hawait), hy.failed (by decide) (hgot.resends.attempts.trans hthree),
        (uploadingTail_txs _ y).trans (hgot.env.sent.trans (List.append_nil _))⟩

end Sys2Proof.Machine
end

section
/-! PROOFS. One STEP of a session, whatever the environment does (44_orchestrator.md R132 to R139), and what every STEP
of it keeps. -/

namespace Sys2Proof.Machine

/-- A session whose pending RECV, if there is one, is its own: what BEGIN_UPLOAD leaves, and every STEP keeps (R131). -/
structure Running (x : State) : Prop where
  inv : RegisterInv x
  mine : x.rx.active = true → x.unitCall = none

/-- A test that has not come too late has changed nothing (U12). -/
theorem tested_of_overrun {w since : Nat} {e : Env} (h : (e.tested w since).overrun = false) : e.tested w since = e := by
  refine Env.tested_punctual _ _ _ ?_
  simp only [Env.tested_overrun, Bool.or_eq_false_iff, decide_eq_false_iff_not] at h
  exact Nat.lt_of_not_le h.2

theorem atConnect_of_overrun {s : State} (h : s.atConnect.env.overrun = false) : s.atConnect = s.gated := by
  have hreset := tested_of_overrun h
  have hfirst : ((s.env.readClock s.cfg.clkW).2.tested s.cfg.clkW s.env.stamps.attempt).overrun = false :=
    hreset ▸ show (Env.tested _ _ _).overrun = false from h
  have hattempt := tested_of_overrun hfirst
  exact congrArg (fun e : Env => ({ s with env := e, unitCall := none } : State)) (hreset.trans hattempt)

theorem atBlock_of_overrun {s : State} (h : s.atBlock.env.overrun = false) : s.atBlock = s.gated := by
  simp only [State.atBlock, State.gated, tested_of_overrun h]

/-- A poll loop that tests nothing too late began so. -/
theorem overrun_of_await {c : Caller} {s : State} (h : (await c s).env.overrun = false) : s.env.overrun = false := by
  by_contra hover
  rw [await_keeps_overrun c (Bool.eq_true_of_not_eq_false hover)] at h
  cases h

section Step
variable {x y : State} (hover : y.env.overrun = false)
include hover

/-- `connecting` where STEP answers (R135). -/
theorem stepConnecting_answered (h : y = stepConnecting x) :
    y = x.gated.answer (.inProgress 0) ∨ y = await .connecting x.connecting := by
  rw [stepConnecting_eq] at h
  split at h <;> subst h
  · have hstart := overrun_of_await hover
    rw [(beginSync_starts tSync x.atConnect).overrun] at hstart
    exact .inr (by rw [atConnect_of_overrun hstart]; rfl)
  · exact .inl (by rw [atConnect_of_overrun (s := x) hover])

/-- `uploading` where STEP answers (R138). -/
theorem stepUploading_answered (h : y = stepUploading x) :
    y = x.gated.inProgress ∨ y = finishDone .fileReadError x.gated.fetched ∨ y = await .uploading x.uploading := by
  rw [stepUploading_eq] at h
  split at h
  · split at h <;> subst h
    · exact .inr (.inl (by rw [atBlock_of_overrun (s := x) hover]))
    · have hstart := overrun_of_await hover
      rw [(beginFdata_starts _ _ _ _).overrun] at hstart
      exact .inr (.inr (by rw [atBlock_of_overrun (s := x) hstart]; rfl))
  · subst h
    exact .inl (by rw [atBlock_of_overrun (s := x) hover])

end Step

theorem exec_step_legal {x y : State} (h : exec .step x = .next y) : legalConfig x.cfg = true := (exec_step_next h).1

/-- The RECV that STEP resumes is the session's. -/
theorem Running.resumes {x : State} {c : Caller} (hx : Running x) (ha : x.rx.active = true) (hc : callerOf x = some c) :
    c.unitCall = none ∧ c.In x.orch := by
  obtain ⟨hu, hin, -⟩ := callerOf_eq_some_iff.1 hc
  exact ⟨hu.symm.trans (hx.mine ha), hin⟩

/-- Nothing is pending where no operation runs. -/
theorem Running.idle {x : State} (hx : Running x) (ho : x.orch = .resetting ∨ x.orch = .done) : x.rx.active = false := by
  by_contra ha
  replace ha : x.rx.active = true := by simpa using ha
  refine hx.inv.caller ha ?_
  rcases ho with ho | ho <;> simp [callerOf, hx.mine ha, ho]

section Running
variable {x y : State} (hx : Running x) (h : exec .step x = .next y)
include hx h

theorem Running.punctual : y.env.overrun = false := (exec_registerInv hx.inv h).punctual.1

theorem Running.resetting (ho : x.orch = .resetting) : y = stepResetting x := by
  have ha := hx.idle (.inl ho)
  rw [exec_step_resetting (exec_step_legal h) ha ho] at h
  cases h
  rfl

theorem Running.over (ho : x.orch = .done) : y = x.answer (.done x.session.result) := by
  have ha := hx.idle (.inr ho)
  rw [exec_step_done (exec_step_legal h) ha ho] at h
  cases h
  rfl

/-- STEP in `connecting`: too early, or a SYNC is begun or resumed (R135). -/
theorem Running.connecting (ho : x.orch = .connecting) :
    (x.rx.active = false ∧ y = x.gated.answer (.inProgress 0)) ∨
    ∃ read, ConnectingStep (if x.rx.active then [] else syncFrame x.cfg) read x y ∧
      (SyncPending x y ∨ SyncPassed x y ∨ SyncCounted x y) := by
  have hover := hx.punctual h
  cases (exec_step_next h).2 with
  | resumes c ha hc run =>
    obtain ⟨hunit, hin⟩ := hx.resumes ha hc
    obtain rfl : c = .connecting := by cases c <;> simp_all [Caller.unitCall, Caller.In]
    rw [run, if_pos ha]
    exact .inr (((hx.inv.syncGoing ho ha (hx.mine ha)).await (c := .connecting) rfl).step ho)
  | connects ha _ run =>
    obtain rfl | rfl := stepConnecting_answered hover run
    · exact .inl ⟨ha, rfl⟩
    · rw [ha]
      exact .inr (((beginSync_going tSync x.gated).afterGate.await (c := .connecting) rfl).step ho)
  | answers _ ended => rcases ended with h | h <;> cases ho.symm.trans h
  | resets _ h | erases _ h | uploads _ h => cases ho.symm.trans h

/-- STEP in `erasing`: an FBEGIN is begun or resumed (R136). -/
theorem Running.erasing (ho : x.orch = .erasing) :
    ∃ es, eraseSize x.cfg x.session.imageSize x.session.targetAddr = some es ∧
      y.env.txs = x.env.txs ++ (if x.rx.active then [] else flashBeginFrame x.cfg x.session.targetAddr es) ∧
      ((y.rx.active = true ∧ y.orch = .erasing ∧ y.session = x.session ∧ y.ret = .inProgress 0 ∧ y.unitCall = none ∧
          y.rx.expected = x.cfg.opcFlashBegin ∧
          y.rx.timeout = if es.toNat > 0 then x.cfg.tErase else x.cfg.tDefault) ∨
        ∃ st ∈ UnitOp.fbegin.codes, EraseEnded st x y) := by
  cases (exec_step_next h).2 with
  | resumes c ha hc run =>
    obtain ⟨hunit, hin⟩ := hx.resumes ha hc
    obtain rfl : c = .erasing := by cases c <;> simp_all [Caller.unitCall, Caller.In]
    have hlimit := hx.inv.limit ha (hx.mine ha)
    rw [ho] at hlimit
    obtain ⟨hexpected, es, hes, htimeout⟩ := hlimit
    have hgoing : EraseGoing [] x.cfg.opcFlashBegin (if es.toNat > 0 then x.cfg.tErase else x.cfg.tDefault)
        { x with unitCall := none } x :=
      ⟨⟨[], (Got.refl x).commands (hx.mine ha)⟩, ha, hx.inv.pending ha, hexpected, htimeout⟩
    refine ⟨es, hes, ?_⟩
    rw [run, if_pos ha]
    exact hgoing.await.step ho
  | erases ha _ es hes run =>
    refine ⟨es, hes, ?_⟩
    rw [run, ha, ← eraseTimeout_eq]
    exact (erasing_going (exec_step_legal h) es).await.step ho
  | answers _ ended => rcases ended with h | h <;> cases ho.symm.trans h
  | resets _ h | connects _ h | uploads _ h => cases ho.symm.trans h

end Running

/-! ### FDATA for `uploading` (R112, R114, R138) -/

/-- What FDATA, which came from b, has come to when STEP answers: it waits, or it has returned Success or, after the third
attempt, a failure. -/
inductive DataGoes (b t : State) : Prop where
  | waits (x : State) (going : FdataPolling b x) (run : t = x.inProgress)
  | returns (x : State) (n : Nat) (read : Bytes) (st : ResultCode) (resends : Resends n read b x)
      (attempts : x.blkAttempt ≤ 3) (idle : x.rx.active = false)
      (code : st = .success ∨ x.blkAttempt = 3 ∧ st ∈ fdataFailures) (run : t = uploadingTail st x)

theorem fdataPolling_await {b x : State} (h : FdataPolling b x) : DataGoes b (await .uploading x) := by
  refine await_induct .uploading (FdataPolling b) (DataGoes b) ?wait ?again ?next ?last x h
  case wait =>
    intro x y hx hp
    obtain ⟨hres, hatt, hawaited⟩ := hx.poll
    obtain ⟨hmachine, ha⟩ := (poll_inv x hx.machine).1 y hp
    rw [hp] at hres hatt hawaited
    exact .waits y ⟨hres, hatt, hawaited, ha.trans hx.active, hmachine⟩ rfl
  case again =>
    intro x y hx hp
    obtain ⟨hres, hatt, hawaited⟩ := hx.poll
    obtain ⟨hmachine, ha⟩ := (poll_inv x hx.machine).2.1 y hp
    rw [hp] at hres hatt hawaited
    exact ⟨hres, hatt, hawaited, ha.trans hx.active, hmachine⟩
  case next =>
    intro x y z st hx hp ho
    obtain ⟨⟨n, read, hres⟩, -, -⟩ := hx.poll
    rw [hp] at hres
    change fdataContinue st y = .again z at ho
    obtain ⟨hlt, e⟩ | e := fdataContinue_cases st y <;> rw [e] at ho <;> cases ho
    have hmore := fdataAttempt_resends y
    obtain ⟨-, -, hbegun, hlen, -⟩ := attempt_facts y
    exact ⟨⟨_, _, hres.trans hmore⟩, hmore.attempts ▸ hlt, fun _ => hres.regs.fields.1 ▸ fdataAttempt_awaitsData y,
      hbegun.active, begun_inv hbegun hlen⟩
  case last =>
    intro x y z st st' hx hp ho
    obtain ⟨⟨n, read, hres⟩, hatt, -⟩ := hx.poll
    obtain ⟨hst, ha⟩ := (poll_inv x hx.machine).2.2 st y hp
    rw [hp] at hres hatt
    obtain ⟨rfl, rfl, hend⟩ := fdataContinue_finished ho
    refine .returns z n read _ hres hatt ha (or_iff_not_imp_left.2 fun hcode => ?_) rfl
    exact ⟨hatt.antisymm (hend.resolve_left hcode), replyStatus_mem_fdataFailures hst hcode⟩

/-- STEP's FDATA is at its first attempt. -/
theorem uploading_blkAttempt {s : State} (hm : Memory.wf s.blk = true) : s.uploading.blkAttempt = 1 :=
  (uploading_resends s).attempts.trans (by rw [(prepared_spec hm).2.2.1])

/-- STEP's FDATA at its first poll. -/
theorem uploading_polling {s : State} (hm : Memory.wf s.blk = true) : FdataPolling s.uploading s.uploading := by
  obtain ⟨-, -, hbegun, hlen, -⟩ := attempt_facts s.prepared
  exact .here (uploading_blkAttempt hm ▸ by decide) hbegun.active (begun_inv hbegun hlen)

/-- STEP in `uploading`: too early, or no block, or an FDATA is begun or resumed (R138). -/
theorem Running.uploading {x y : State} (hx : Running x) (h : exec .step x = .next y) (ho : x.orch = .uploading) :
    (x.rx.active = false ∧ (y = x.gated.inProgress ∨ y = finishDone .fileReadError x.gated.fetched)) ∨
    DataGoes (if x.rx.active then x else x.uploading) y := by
  cases (exec_step_next h).2 with
  | resumes c ha hc run =>
    obtain ⟨hunit, hin⟩ := hx.resumes ha hc
    obtain rfl : c = .uploading := by cases c <;> simp_all [Caller.unitCall, Caller.In]
    rw [run, if_pos ha]
    exact .inr (fdataPolling_await (.here hx.inv.attempts ha (hx.inv.pending ha)))
  | uploads ha _ run =>
    obtain rfl | rfl | rfl := stepUploading_answered (hx.punctual h) run
    · exact .inl ⟨ha, .inl rfl⟩
    · exact .inl ⟨ha, .inr rfl⟩
    · rw [ha]
      exact .inr (fdataPolling_await (uploading_polling hx.inv.buffer))
  | answers _ ended => rcases ended with h | h <;> cases ho.symm.trans h
  | resets _ h | connects _ h | erases _ h => cases ho.symm.trans h

/-! ### What every STEP of a session keeps -/

/-- No tail of a state action calls an operation by itself (log 12). -/
theorem deliver_unitCall (c : Caller) (st : ResultCode) {x : State} (hx : x.unitCall = none) :
    (deliver c st x).unitCall = none := by
  cases c with
  | unit op => rfl
  | connecting => exact (congrArg State.unitCall (connectingTail_regs st x) :).trans hx
  | erasing =>
    change (erasingTail st x).unitCall = none
    unfold erasingTail
    dsimp only
    split <;> exact hx
  | uploading => exact (congrArg State.unitCall (uploadingTail_regs st x) :).trans hx

theorem await_mine (c : Caller) {s : State} (hs : s.unitCall = none) : (await c s).unitCall = none := by
  obtain ⟨x, n, read, hk, -, -, hrun⟩ | ⟨x, n, read, hk, -, -, -, st, hrun⟩ := await_awaits c s <;> rw [hrun]
  · exact hk.f.unitCall.trans hs
  · exact deliver_unitCall c st (hk.f.unitCall.trans hs)

theorem Running.next {x y : State} (hx : Running x) (h : exec .step x = .next y) : Running y := by
  refine ⟨exec_registerInv hx.inv h, fun ha => ?_⟩
  cases (exec_step_next h).2 with
  | resumes c hax _ run => exact run ▸ await_mine c (hx.mine hax)
  | answers hidle _ run =>
    rw [run] at ha
    exact absurd (ha.symm.trans hidle) (by decide)
  | resets hidle _ run =>
    rw [run] at ha
    obtain h | ⟨e, -, -, -, h⟩ := stepResetting_cases x <;> rw [h] at ha
    · cases ha
    · exact absurd (ha.symm.trans hidle) (by decide)
  | connects _ _ run =>
    rw [run, stepConnecting_eq]
    split
    · exact await_mine .connecting (beginSync_facts tSync x.atConnect).1.fields.2.2.2.2.2.2.2.2
    · rfl
  | erases _ _ es _ run => exact run ▸ await_mine .erasing (beginCmd_regs _ _ _ _ _).fields.2.2.2.2.2.2.2.2.2.2.2
  | uploads _ _ run =>
    obtain ⟨e, -, -, h | h | ⟨got, -, h⟩⟩ := stepUploading_cases x <;> rw [run, h]
    · rfl
    · rfl
    · exact await_mine .uploading (beginFdata_fields _ _ _ _).2.2.2.2.2.2.2.2

/-- What holds at first and is kept by every STEP holds after any number of them. -/
theorem runSteps_induct {P : State → Prop} (hstep : ∀ x y, P x → exec .step x = .next y → P y) {n : Nat} {s t : State}
    (hs : P s) (h : runSteps n s = some t) : P t := by
  induction n generalizing s with
  | zero => exact Option.some.inj h ▸ hs
  | succ n ih =>
    unfold runSteps at h
    split at h
    · exact ih (hstep _ _ hs ‹_›) h
    · cases h

end Sys2Proof.Machine
end

section
/-! PROOFS. The retry budget (44_orchestrator.md R134, R135, R141): what a session has reset and sent while it has not
been answered. -/

namespace Sys2Proof.Machine

/-! ### A STEP in `uploading`, by what it does to the session (R138) -/

/-- The codes that end a session in `uploading` without Success (R138). -/
def uploadFailures : List ResultCode := .fileReadError :: fdataFailures

theorem Running.sendsBlock {x : State} (hx : Running x) (ho : x.orch = .uploading) :
    SendsBlock x (if x.rx.active then x else x.uploading) := by
  split
  next ha => exact .refl ho (hx.mine ha)
  next => exact (prepared_sendsBlock ho).resends (uploading_resends x)

/-- It waits, or has ended the session with a failure, or goes on with an FDATA, which is pending or has succeeded. -/
theorem Running.uploading_cases {x y : State} (hx : Running x) (h : exec .step x = .next y) (ho : x.orch = .uploading) :
    (x.rx.active = false ∧ y = x.gated.inProgress) ∨ (y.orch = .done ∧ y.session.result ∈ uploadFailures) ∨
    ∃ z n read, Resends n read (if x.rx.active then x else x.uploading) z ∧ z.blkAttempt ≤ 3 ∧
      (z.rx.active = true ∧ y = z.inProgress ∨ y = uploadingTail .success z ∧ BlockSent x y) := by
  obtain ⟨ha, rfl | rfl⟩ | hgoes := hx.uploading h ho
  · exact .inl ⟨ha, rfl⟩
  · exact .inr (.inl ⟨rfl, List.mem_cons_self⟩)
  cases hgoes with
  | waits z going run =>
    obtain ⟨n, read, hres⟩ := going.resends
    exact .inr (.inr ⟨z, n, read, hres, going.attempts, .inl ⟨going.active, run⟩⟩)
  | returns z n read st hres hatt hidle hcode run =>
    have hz := (hx.sendsBlock ho).resends hres
    by_cases hst : st = .success
    · subst hst
      exact .inr (.inr ⟨z, n, read, hres, hatt, .inr ⟨run, run ▸ hz.sent hidle (hx.inv.block ho)⟩⟩)
    · obtain ⟨hlast, hmem⟩ := hcode.resolve_left hst
      obtain ⟨-, -, -, horch, -, -, hsession, -⟩ := run ▸ hz.failed hst hlast
      exact .inr (.inl ⟨horch, by rw [hsession]; exact List.mem_cons_of_mem _ hmem⟩)

/-! ### Resets in the history (R35) -/

/-- From e to f the transport has been re-opened k times. -/
def Reopens (k : Nat) (e f : Env) : Prop := ∃ E, f.events = e.events ++ E ∧ E.countP Event.isReopen = k

theorem Reopens.refl (e : Env) : Reopens 0 e e := ⟨[], (List.append_nil _).symm, rfl⟩

theorem Reopens.trans {k l : Nat} {e f g : Env} (h : Reopens k e f) (h' : Reopens l f g) : Reopens (k + l) e g := by
  obtain ⟨E, hE, rfl⟩ := h
  obtain ⟨F, hF, rfl⟩ := h'
  exact ⟨E ++ F, by rw [hF, hE, List.append_assoc], List.countP_append⟩

theorem Exchanged.reopens {a b : Bytes} {e f : Env} (h : Exchanged a b e f) : Reopens 0 e f := by
  obtain ⟨E, hE, -, -, hexchanges⟩ := h.calls
  refine ⟨E, hE, List.countP_eq_zero.2 fun ev hev => ?_⟩
  have := hexchanges ev hev
  cases ev <;> simp_all [Event.exchanges, Event.isReopen]

theorem restarted_reopens (baud w : Nat) (e : Env) : Reopens 1 e (e.restarted baud w) :=
  ⟨_, (restarted_calls baud w e).2.2, rfl⟩

theorem finish_reopens (r : ResultCode) (x : State) : Reopens 0 x.env (finishDone r x).env :=
  ⟨[.imgRelease, .gpioLeave], by simp [finishDone, finish, State.answer], rfl⟩

/-! ### The budget (R141) -/

/-- The resets the list of baud rates allows (R134). -/
def resetsAllowed (c : Config) : Nat := c.baudList.length * c.retriesPerBaud

/-- k resets have been made since s, and n Sync requests sent, and nothing else. -/
structure Tried (k n : Nat) (s x : State) : Prop where
  reopens : Reopens k s.env x.env
  txs : x.env.txs = s.env.txs ++ copies n (syncFrame s.cfg)

theorem Tried.more {k l m n : Nat} {s x y : State} (h : Tried k m s x) (hre : Reopens l x.env y.env)
    (htxs : y.env.txs = x.env.txs ++ copies n (syncFrame s.cfg)) : Tried (k + l) (m + n) s y :=
  ⟨h.reopens.trans hre, by rw [htxs, h.txs, List.append_assoc, copies_add]⟩

theorem Tried.step {k m : Nat} {s x y : State} (h : Tried k m s x) (hre : Reopens 0 x.env y.env)
    (htxs : y.env.txs = x.env.txs) : Tried k m s y :=
  h.more (l := 0) (n := 0) hre (by rw [htxs, copies_zero, List.append_nil])

/-- What a session that began in s has spent of its budget in x: with k resets counted, all the requests each allows;
with one more under way, those of the attempts that have failed since, and of the pending one; at the end the whole
budget; of a session that has been answered nothing is said. -/
inductive Budget (s x : State) : Prop where
  | resetting (k : Nat) (orch : x.orch = .resetting) (count : x.session.baudAttempt.toNat = k)
      (le : k ≤ resetsAllowed s.cfg) (tried : Tried k (k * s.cfg.retriesPerReset) s x)
  | connecting (k j : Nat) (orch : x.orch = .connecting) (count : x.session.baudAttempt.toNat = k + 1)
      (lt : k < resetsAllowed s.cfg) (failed : x.session.resetAttempt.toNat = j) (left : j < s.cfg.retriesPerReset)
      (tried : Tried (k + 1) (k * s.cfg.retriesPerReset + j + if x.rx.active then 1 else 0) s x)
  | failed (orch : x.orch = .done)
      (tried : Tried (resetsAllowed s.cfg) (resetsAllowed s.cfg * s.cfg.retriesPerReset) s x)
  | answered (orch : x.orch = .erasing ∨ x.orch = .uploading ∨ x.orch = .done ∧ x.session.result ≠ .connectFailed)

/-- R134: the list is exhausted exactly after the resets it allows. -/
theorem baudIndex_lt_iff {c : Config} (hl : legalConfig c = true) {n : U32} {k : Nat} (hn : n.toNat = k + 1) :
    baudIndex c n < c.baudList.length ↔ k < resetsAllowed c := by
  obtain ⟨-, -, -, hpos, -⟩ := (legalConfig_iff c).1 hl
  rw [baudIndex, hn, Nat.add_sub_cancel, Nat.div_lt_iff_lt_mul hpos]
  rfl

/-- FBEGIN never returns ConnectFailed (R161). -/
theorem connectFailed_not_mem_codes : .connectFailed ∉ UnitOp.fbegin.codes := by decide

theorem connectFailed_not_mem_uploadFailures : .connectFailed ∉ uploadFailures := by decide

section Budget
variable {s x y : State} (hx : Running x) (hcfg : x.cfg = s.cfg) (h : exec .step x = .next y)
include hx hcfg h

theorem budget_resetting {k : Nat} (hresets : resetsAllowed s.cfg < 2 ^ 32 - 1) (ho : x.orch = .resetting)
    (hcount : x.session.baudAttempt.toNat = k) (hle : k ≤ resetsAllowed s.cfg)
    (htried : Tried k (k * s.cfg.retriesPerReset) s x) : Budget s y := by
  have hl := hcfg ▸ exec_step_legal h
  have hnext : (x.session.baudAttempt + 1#32).toNat = k + 1 := by bv_omega
  have hindex := baudIndex_lt_iff hl hnext
  rw [hx.resetting h ho]
  cases hbaud : x.cfg.baudList[baudIndex x.cfg (x.session.baudAttempt + 1#32)]? with
  | none =>
    have hk : k = resetsAllowed s.cfg := by
      rw [hcfg, List.getElem?_eq_none_iff, ← Nat.not_lt, hindex] at hbaud
      omega
    subst hk
    rw [stepResetting_none hbaud]
    exact .failed rfl (htried.step (finish_reopens .connectFailed x) rfl)
  | some baud =>
    have hk : k < resetsAllowed s.cfg := by
      rw [hcfg] at hbaud
      exact hindex.1 (List.getElem?_eq_some_iff.1 hbaud).1
    obtain ⟨-, -, -, -, hpos, -⟩ := (legalConfig_iff s.cfg).1 hl
    rw [stepResetting_some hbaud]
    refine .connecting k 0 rfl hnext hk rfl hpos ?_
    rw [if_neg (by simpa [State.answer] using hx.idle (.inl ho))]
    exact htried.more (n := 0) (restarted_reopens _ _ _) (List.append_nil _).symm

/-- A SYNC begun or resumed has sent the request of its attempt once (R57, R135). -/
theorem budget_connecting {k j : Nat} (hretries : s.cfg.retriesPerReset < 2 ^ 32) (ho : x.orch = .connecting)
    (hcount : x.session.baudAttempt.toNat = k + 1) (hlt : k < resetsAllowed s.cfg)
    (hfailed : x.session.resetAttempt.toNat = j) (hleft : j < s.cfg.retriesPerReset)
    (htried : Tried (k + 1) (k * s.cfg.retriesPerReset + j + if x.rx.active then 1 else 0) s x) : Budget s y := by
  obtain ⟨ha, rfl⟩ | ⟨read, hstep, hcase⟩ := hx.connecting h ho
  · exact .connecting k j ho hcount hlt hfailed hleft (htried.step (gated_exchanged x).reopens rfl)
  have hsent : y.env.txs = x.env.txs ++ copies (if x.rx.active then 0 else 1) (syncFrame s.cfg) := by
    rw [hstep.env.sent, hcfg]
    cases x.rx.active <;> simp [copies_zero, copies_one]
  replace htried : Tried (k + 1) (k * s.cfg.retriesPerReset + j + 1) s y := by
    have := htried.more hstep.env.reopens hsent
    convert this using 1
    cases x.rx.active <;> rfl
  obtain ⟨ha, -, horch, hsession, -, -⟩ | ⟨-, -, horch, -⟩ | ⟨ha, -, horch, hsession⟩ := hcase
  · refine .connecting k j horch (hsession ▸ hcount) hlt (hsession ▸ hfailed) hleft ?_
    rwa [if_pos ha]
  · exact .answered (.inl horch)
  · have hnext : (x.session.resetAttempt + 1#32).toNat = j + 1 := by bv_omega
    rw [hnext, hcfg] at horch
    split at horch
    next hlast =>
      refine .resetting (k + 1) horch (by rw [hsession]; exact hcount) hlt ?_
      have hall : (k + 1) * s.cfg.retriesPerReset = k * s.cfg.retriesPerReset + j + 1 := by
        rw [Nat.succ_mul]
        omega
      exact hall ▸ htried
    next hmore =>
      refine .connecting k (j + 1) horch (by rw [hsession]; exact hcount) hlt (by rw [hsession]; exact hnext)
        (Nat.lt_of_not_le hmore) ?_
      rw [if_neg (by simp [ha])]
      exact htried

omit hcfg in
theorem erasing_answered (ho : x.orch = .erasing) : Budget s y := by
  obtain ⟨es, -, -, ⟨-, horch, -⟩ | ⟨st, hst, -, -, -, -, -, hsuccess, hfailure⟩⟩ := hx.erasing h ho
  · exact .answered (.inl horch)
  · by_cases hcode : st = .success
    · exact .answered (.inr (.inl (hsuccess hcode).1))
    · obtain ⟨horch, -, -, -, hsession⟩ := hfailure hcode
      refine .answered (.inr (.inr ⟨horch, fun hfailed => ?_⟩))
      rw [hsession] at hfailed
      exact connectFailed_not_mem_codes (hfailed ▸ hst)

omit hcfg in
theorem uploading_answered (ho : x.orch = .uploading) : Budget s y := by
  obtain ⟨-, rfl⟩ | ⟨horch, hmem⟩ | ⟨z, n, read, hres, -, ⟨-, rfl⟩ | ⟨-, hsent⟩⟩ := hx.uploading_cases h ho
  · exact .answered (.inr (.inl ho))
  · refine .answered (.inr (.inr ⟨horch, fun hfailed => ?_⟩))
    exact connectFailed_not_mem_uploadFailures (hfailed ▸ hmem)
  · exact .answered (.inr (.inl ((hx.sendsBlock ho).resends hres).orch))
  · obtain ⟨-, -, hsession, -, hmore, hlast⟩ := hsent
    obtain hlt | heq := Nat.lt_or_eq_of_le (Nat.succ_le_of_lt (hx.inv.block ho))
    · exact .answered (.inr (.inl (hmore hlt).1))
    · exact .answered (.inr (.inr ⟨(hlast heq).1, by rw [hsession]; nofun⟩))

theorem Budget.next (hresets : resetsAllowed s.cfg < 2 ^ 32 - 1) (hretries : s.cfg.retriesPerReset < 2 ^ 32)
    (hb : Budget s x) : Budget s y := by
  cases hb with
  | resetting k ho hcount hle htried => exact budget_resetting hx hcfg h hresets ho hcount hle htried
  | connecting k j ho hcount hlt hfailed hleft htried =>
    exact budget_connecting hx hcfg h hretries ho hcount hlt hfailed hleft htried
  | failed ho htried =>
    rw [hx.over h ho]
    exact .failed ho ⟨htried.reopens, htried.txs⟩
  | answered ho =>
    obtain ho | ho | ⟨ho, hresult⟩ := ho
    · exact erasing_answered hx h ho
    · exact uploading_answered hx h ho
    · rw [hx.over h ho]
      exact .answered (.inr (.inr ⟨ho, hresult⟩))

end Budget

/-- Settles O58: every STEP keeps the account of what has been spent. -/
theorem retryBudgetIsExact : Obligations.RetryBudgetIsExact := by
  intro s t n hl hinv ho ha hzero hresets hretries hrun hdone hresult
  have hfirst : Budget s s :=
    .resetting 0 ho (by rw [hzero]; rfl) (Nat.zero_le _) ⟨.refl _, by rw [Nat.zero_mul, copies_zero, List.append_nil]⟩
  obtain ⟨-, -, hbudget⟩ : Running t ∧ t.cfg = s.cfg ∧ Budget s t := by
    refine runSteps_induct (P := fun x => Running x ∧ x.cfg = s.cfg ∧ Budget s x) ?_
      ⟨⟨hinv, fun h => absurd (h.symm.trans ha) (by decide)⟩, rfl, hfirst⟩ hrun
    rintro x y ⟨hx, hcfg, hbudget⟩ hstep
    exact ⟨hx.next hstep, (exec_onlyGrows hstep).cfg.trans hcfg, hbudget.next hx hcfg hstep hresets hretries⟩
  cases hbudget with
  | failed _ htried =>
    obtain ⟨E, hE, hcount⟩ := htried.reopens
    exact ⟨by rw [hE, List.drop_left]; exact hcount, htried.txs⟩
  | answered hend =>
    rcases hend with h | h | ⟨-, h⟩
    · cases h.symm.trans hdone
    · cases h.symm.trans hdone
    · exact absurd hresult h
  | resetting _ h => cases h.symm.trans hdone
  | connecting _ _ h => cases h.symm.trans hdone

end Sys2Proof.Machine
end

section
/-! PROOFS. What a session that ends with Success has written (44_orchestrator.md R135, R136, R138). -/

namespace Sys2Proof.Machine

/-! ### The image and the operands of BEGIN_UPLOAD stay (R131) -/

/-- The configuration, the image, its size and the target address have stayed. -/
structure SameImage (s t : State) : Prop where
  cfg : t.cfg = s.cfg
  img : t.env.img = s.env.img
  size : t.session.imageSize = s.session.imageSize
  target : t.session.targetAddr = s.session.targetAddr

theorem SameImage.trans {s t u : State} (h : SameImage s t) (h' : SameImage t u) : SameImage s u :=
  ⟨h'.cfg.trans h.cfg, h'.img.trans h.img, h'.size.trans h.size, h'.target.trans h.target⟩

theorem SameImage.of_session {s t : State} (hcfg : t.cfg = s.cfg) (himg : t.env.img = s.env.img)
    (hsession : t.session = s.session) : SameImage s t := ⟨hcfg, himg, hsession ▸ rfl, hsession ▸ rfl⟩

theorem finishDone_sameImage (r : ResultCode) (s : State) : SameImage s (finishDone r s) := ⟨rfl, rfl, rfl, rfl⟩

theorem blockDone_sameImage (s : State) : SameImage s (blockDone s) := by
  have hreported : SameImage s s.reported := by
    refine ⟨rfl, ?_, rfl, rfl⟩
    rw [State.reported]
    split <;> rfl
  rw [blockDone_eq_reported]
  split
  · exact hreported.trans (finishDone_sameImage _ _)
  · exact hreported.trans ⟨rfl, rfl, rfl, rfl⟩

/-- The tails of the state actions write other session registers alone (R135, R136, R138). -/
theorem deliver_sameImage (c : Caller) (st : ResultCode) (s : State) : SameImage s (deliver c st s) := by
  cases c with
  | unit op => exact ⟨rfl, rfl, rfl, rfl⟩
  | connecting =>
    change SameImage s (connectingTail st s)
    unfold connectingTail
    dsimp only
    split
    · exact ⟨rfl, rfl, rfl, rfl⟩
    · split <;> exact ⟨rfl, rfl, rfl, rfl⟩
  | erasing =>
    change SameImage s (erasingTail st s)
    unfold erasingTail
    dsimp only
    split <;> exact ⟨rfl, rfl, rfl, rfl⟩
  | uploading =>
    have hreturned : SameImage s (s.returned st) := ⟨rfl, rfl, rfl, rfl⟩
    change SameImage s (uploadingTail st s)
    by_cases hst : st = .success
    · subst hst
      exact hreturned.trans (blockDone_sameImage _)
    · rw [uploadingTail_failure hst]
      exact hreturned.trans (finishDone_sameImage _ _)

theorem await_sameImage (c : Caller) (s : State) : SameImage s (await c s) := by
  have kept {x : State} {sent read : Bytes} (hk : Kept s x) (hx : Exchanged sent read s.env x.env) : SameImage s x :=
    .of_session hk.f.cfg hx.lines.2.2 hk.f.session
  obtain ⟨x, n, read, hk, hx, -, hrun⟩ | ⟨x, n, read, hk, hx, -, -, st, hrun⟩ := await_awaits c s <;> rw [hrun]
  · exact (kept hk hx).trans ⟨rfl, rfl, rfl, rfl⟩
  · exact (kept hk hx).trans (deliver_sameImage c st x)

theorem beginFdata_sameImage (idx : U32) (val mask : U16) (s : State) : SameImage s (beginFdata idx val mask s) :=
  have fields := beginFdata_fields idx val mask s
  .of_session fields.1 (fdataAttempt_resends (prepareBlock idx val mask s)).env.lines.2.2 fields.2.1

theorem exec_step_sameImage {x y : State} (h : exec .step x = .next y) : SameImage x y := by
  cases (exec_step_next h).2 with
  | resumes c _ _ run => exact run ▸ await_sameImage c x
  | answers _ _ run => exact run ▸ ⟨rfl, rfl, rfl, rfl⟩
  | resets _ _ run =>
    rw [run]
    cases hbaud : x.cfg.baudList[baudIndex x.cfg (x.session.baudAttempt + 1#32)]? with
    | none =>
      rw [stepResetting_none hbaud]
      exact ⟨rfl, rfl, rfl, rfl⟩
    | some baud =>
      rw [stepResetting_some hbaud]
      exact ⟨rfl, rfl, rfl, rfl⟩
  | connects _ _ run =>
    have hgate : SameImage x x.atConnect := ⟨rfl, rfl, rfl, rfl⟩
    obtain ⟨hregs, -, -, hx, -⟩ := beginSync_facts tSync x.atConnect
    rw [run, stepConnecting_eq]
    split
    · refine (hgate.trans ?_).trans (await_sameImage .connecting _)
      exact .of_session hregs.fields.1 hx.lines.2.2 hregs.fields.2.1
    · exact hgate.trans ⟨rfl, rfl, rfl, rfl⟩
  | erases _ _ es _ run =>
    rw [run]
    refine SameImage.trans ?_ (await_sameImage .erasing _)
    have fields := (beginCmd_regs x.cfg.opcFlashBegin (flashBeginBody x.session.targetAddr es) 0#32
      (eraseTimeout x.cfg es) { x with unitCall := none }).fields
    exact .of_session fields.1 (beginCmd_lines _ _ _ _ _).2.2 fields.2.1
  | uploads _ _ run =>
    have hgate : SameImage x x.atBlock := ⟨rfl, rfl, rfl, rfl⟩
    rw [run, stepUploading_eq]
    split
    · split
      · exact ⟨rfl, rfl, rfl, rfl⟩
      · have hfilled : SameImage x x.atBlock.filled := ⟨rfl, rfl, rfl, rfl⟩
        exact (hfilled.trans (beginFdata_sameImage _ _ _ _)).trans (await_sameImage .uploading _)
    · exact hgate.trans ⟨rfl, rfl, rfl, rfl⟩

/-! ### What stands on the wire (R142) -/

/-- The FlashData frame of the image's block k, zero-padded and patched (R112, R113, R138). -/
def blockFrame (s : State) (k : Nat) : Bytes :=
  dataFrame s.cfg (BitVec.ofNat 32 k)
    (patchedData s.cfg (BitVec.ofNat 32 k) s.session.targetAddr s.cfg.parmVal s.cfg.parmMask (imageBlock s.env.img k))

/-- The first n blocks, the k-th in `attempts k` copies. -/
def blockFrames (s : State) (attempts : Nat → Nat) (n : Nat) : Bytes :=
  (List.range n).flatMap fun k => copies (attempts k) (blockFrame s k)

/-- Since s the session has written Sync requests, FlashBegin for the erase size, n blocks, each one to three times, and
then `rest`. -/
def WroteBlocks (n : Nat) (rest : Bytes) (s t : State) : Prop :=
  ∃ (syncs : Nat) (es : U32) (attempts : Nat → Nat), 1 ≤ syncs ∧
    eraseSize s.cfg s.session.imageSize s.session.targetAddr = some es ∧ (∀ k, 1 ≤ attempts k ∧ attempts k ≤ 3) ∧
    t.env.txs = s.env.txs ++ copies syncs (syncFrame s.cfg) ++ flashBeginFrame s.cfg s.session.targetAddr es ++
      blockFrames s attempts n ++ rest

section WroteBlocks
variable {n : Nat} {s t u : State}

theorem WroteBlocks.more {rest sent : Bytes} (h : WroteBlocks n rest s t) (htxs : u.env.txs = t.env.txs ++ sent) :
    WroteBlocks n (rest ++ sent) s u := by
  obtain ⟨syncs, es, attempts, hpos, hsize, hattempts, ht⟩ := h
  exact ⟨syncs, es, attempts, hpos, hsize, hattempts, by rw [htxs, ht, List.append_assoc]⟩

theorem WroteBlocks.same {rest : Bytes} (h : WroteBlocks n rest s t) (htxs : u.env.txs = t.env.txs) :
    WroteBlocks n rest s u :=
  List.append_nil rest ▸ h.more (htxs.trans (List.append_nil _).symm)

/-- The last block's copies are counted with the others. -/
theorem blockFrames_update (attempts : Nat → Nat) (a : Nat) :
    blockFrames s (Function.update attempts n a) (n + 1) = blockFrames s attempts n ++ copies a (blockFrame s n) := by
  rw [blockFrames, List.range_succ, List.flatMap_append, List.flatMap_singleton, Function.update_self, blockFrames]
  congr 1
  refine List.flatMap_congr fun k hk => ?_
  rw [Function.update_of_ne (List.mem_range.1 hk).ne]

theorem WroteBlocks.next {a : Nat} (h : WroteBlocks n (copies a (blockFrame s n)) s t) (hpos : 1 ≤ a) (hle : a ≤ 3) :
    WroteBlocks (n + 1) [] s t := by
  obtain ⟨syncs, es, attempts, hsyncs, hsize, hattempts, ht⟩ := h
  refine ⟨syncs, es, Function.update attempts n a, hsyncs, hsize, fun k => ?_, ?_⟩
  · by_cases hk : k = n
    · subst hk
      rw [Function.update_self]
      exact ⟨hpos, hle⟩
    · rw [Function.update_of_ne hk]
      exact hattempts k
  · rw [blockFrames_update, ht]
    simp only [List.append_assoc, List.append_nil]

end WroteBlocks

/-- The block in x's buffer is the session's next one; it has been sent as often as `blk_attempt` says (R112, R114). -/
structure SendingBlock (s x : State) : Prop where
  attempted : 1 ≤ x.blkAttempt
  frame : bufFrame x = blockFrame s x.session.blockIdx.toNat
  wrote : WroteBlocks x.session.blockIdx.toNat (copies x.blkAttempt (bufFrame x)) s x

/-- Another attempt, and what it reads, change nothing of that (R114). -/
theorem SendingBlock.resends {s x y : State} {n : Nat} {read : Bytes} (h : SendingBlock s x) (hr : Resends n read x y) :
    SendingBlock s y := by
  obtain ⟨-, hsession, -⟩ := hr.regs.fields
  refine ⟨h.attempted.trans hr.le, ?_, ?_⟩
  · rw [hr.regs.bufFrame_eq, hsession, h.frame]
  · rw [hr.regs.bufFrame_eq, hsession, hr.attempts, copies_add]
    exact h.wrote.more hr.env.sent

/-- What a session that began in s has written in x, by where it has come to; of one that has failed nothing is said. -/
inductive Written (s x : State) : Prop where
  | syncs (m : Nat) (orch : x.orch = .resetting ∨ x.orch = .connecting) (pending : x.rx.active = true → 1 ≤ m)
      (txs : x.env.txs = s.env.txs ++ copies m (syncFrame s.cfg))
  | erase (m : Nat) (orch : x.orch = .erasing) (pos : 1 ≤ m)
      (txs : ∀ es, eraseSize s.cfg s.session.imageSize s.session.targetAddr = some es →
        x.env.txs = s.env.txs ++ copies m (syncFrame s.cfg) ++
          if x.rx.active then flashBeginFrame s.cfg s.session.targetAddr es else [])
  | blocks (orch : x.orch = .uploading) (sending : x.rx.active = true → SendingBlock s x)
      (wrote : x.rx.active = false → WroteBlocks x.session.blockIdx.toNat [] s x)
  | finished (orch : x.orch = .done)
      (wrote : x.session.result = .success → WroteBlocks (nBlocks s.session.imageSize) [] s x)

section FirstAttempt
variable {s x : State} (hl : legalConfig x.cfg = true) (hm : Memory.wf x.blk = true) (hsame : SameImage s x)
include hl hm hsame

/-- The block of a STEP, padded and patched, is the image's (R138). -/
theorem bufFrame_uploading : bufFrame x.uploading = blockFrame s x.session.blockIdx.toNat := by
  obtain ⟨-, -, -, -, hframe⟩ := prepared_spec hm
  rw [(uploading_resends x).regs.bufFrame_eq, hframe hl, blockFrame, ← hsame.cfg, ← hsame.target, ← hsame.img,
    BitVec.ofNat_toNat, BitVec.setWidth_eq]
  rfl

/-- STEP sends the session's next block for the first time. -/
theorem uploading_sending (hwrote : WroteBlocks x.session.blockIdx.toNat [] s x) : SendingBlock s x.uploading := by
  have hres := uploading_resends x
  have hone := uploading_blkAttempt hm
  obtain ⟨-, hsession, -⟩ := hres.regs.fields
  replace hsession : x.uploading.session = x.session := hsession
  refine ⟨hone.ge, by rw [bufFrame_uploading hl hm hsame, hsession], ?_⟩
  rw [hone, hsession, hres.regs.bufFrame_eq]
  exact hwrote.more (sent := copies 1 (bufFrame x.prepared)) hres.env.sent

end FirstAttempt

section Written
variable {s x y : State} (hx : Running x) (hsame : SameImage s x) (h : exec .step x = .next y)

include hx h in
theorem written_resetting {m : Nat} (ho : x.orch = .resetting)
    (htxs : x.env.txs = s.env.txs ++ copies m (syncFrame s.cfg)) : Written s y := by
  have ha := hx.idle (.inl ho)
  rw [hx.resetting h ho]
  cases hbaud : x.cfg.baudList[baudIndex x.cfg (x.session.baudAttempt + 1#32)]? with
  | none =>
    rw [stepResetting_none hbaud]
    exact .finished rfl nofun
  | some baud =>
    rw [stepResetting_some hbaud]
    exact .syncs m (.inr rfl) (fun hactive => absurd (hactive.symm.trans ha) (by decide)) htxs

include hx hsame h in
theorem written_connecting {m : Nat} (ho : x.orch = .connecting) (hpending : x.rx.active = true → 1 ≤ m)
    (htxs : x.env.txs = s.env.txs ++ copies m (syncFrame s.cfg)) : Written s y := by
  obtain ⟨-, rfl⟩ | ⟨read, hstep, hcase⟩ := hx.connecting h ho
  · exact .syncs m (.inr ho) hpending htxs
  obtain ⟨m', hpos, htxs'⟩ : ∃ m', 1 ≤ m' ∧ y.env.txs = s.env.txs ++ copies m' (syncFrame s.cfg) := by
    have hsent := hstep.env.sent
    by_cases ha : x.rx.active = true
    · exact ⟨m, hpending ha, by rw [hsent, if_pos ha, htxs, List.append_nil]⟩
    · exact ⟨m + 1, Nat.le_add_left _ _, by rw [hsent, if_neg ha, htxs, hsame.cfg, copies_succ, List.append_assoc]⟩
  obtain ⟨-, -, horch, -⟩ | ⟨ha, -, horch, -⟩ | ⟨-, -, horch, -⟩ := hcase
  · exact .syncs m' (.inr horch) (fun _ => hpos) htxs'
  · exact .erase m' horch hpos fun es _ => by simp [ha, htxs']
  · refine .syncs m' ?_ (fun _ => hpos) htxs'
    split at horch
    · exact .inl horch
    · exact .inr horch

include hx hsame h in
theorem written_erasing {m : Nat} (ho : x.orch = .erasing) (hpos : 1 ≤ m)
    (htxs : ∀ es, eraseSize s.cfg s.session.imageSize s.session.targetAddr = some es →
      x.env.txs = s.env.txs ++ copies m (syncFrame s.cfg) ++
        if x.rx.active then flashBeginFrame s.cfg s.session.targetAddr es else []) : Written s y := by
  obtain ⟨es, hes, hsent, hcase⟩ := hx.erasing h ho
  rw [hsame.cfg, hsame.size, hsame.target] at hes
  have hwrote : y.env.txs =
      s.env.txs ++ copies m (syncFrame s.cfg) ++ flashBeginFrame s.cfg s.session.targetAddr es := by
    rw [hsent, htxs es hes, hsame.cfg, hsame.target]
    cases x.rx.active <;> simp
  obtain ⟨ha, horch, -⟩ | ⟨st, -, hidle, -, -, -, -, hsuccess, hfailure⟩ := hcase
  · refine .erase m horch hpos fun es' hes' => ?_
    obtain rfl : es = es' := Option.some.inj (hes.symm.trans hes')
    rw [if_pos ha, hwrote]
  · by_cases hst : st = .success
    · obtain ⟨horch, -, -, -, hsession⟩ := hsuccess hst
      refine .blocks horch (fun ha => absurd (ha.symm.trans hidle) (by decide)) fun _ => ?_
      rw [hsession]
      exact ⟨m, es, fun _ => 1, hpos, hes, fun _ => ⟨le_rfl, (by decide : 1 ≤ 3)⟩, by simpa [blockFrames] using hwrote⟩
    · obtain ⟨horch, -, -, -, hsession⟩ := hfailure hst
      exact .finished horch fun hresult => absurd (by rw [hsession] at hresult; exact hresult) hst

include hx hsame h in
theorem written_uploading (ho : x.orch = .uploading) (hsending : x.rx.active = true → SendingBlock s x)
    (hwrote : x.rx.active = false → WroteBlocks x.session.blockIdx.toNat [] s x) : Written s y := by
  have hbase : SendingBlock s (if x.rx.active then x else x.uploading) := by
    split
    next ha => exact hsending ha
    next ha => exact uploading_sending (exec_step_legal h) hx.inv.buffer hsame (hwrote (by simpa using ha))
  obtain ⟨-, rfl⟩ | ⟨horch, hmem⟩ | ⟨z, n, read, hres, hatt, hcase⟩ := hx.uploading_cases h ho
  · exact .blocks ho (fun ha => ⟨(hsending ha).attempted, (hsending ha).frame, (hsending ha).wrote.same rfl⟩)
      fun ha => (hwrote ha).same rfl
  · exact .finished horch fun hresult => absurd (hresult ▸ hmem) (by decide)
  have hz := hbase.resends hres
  have hsends := (hx.sendsBlock ho).resends hres
  obtain ⟨ha, rfl⟩ | ⟨rfl, hsent⟩ := hcase
  · exact .blocks hsends.orch (fun _ => ⟨hz.attempted, hz.frame, hz.wrote.same rfl⟩)
      fun hidle => absurd (hidle.symm.trans ha) (by decide)
  · have hnext : WroteBlocks (x.session.blockIdx.toNat + 1) [] s (uploadingTail .success z) := by
      have hblock := hz.wrote.same (uploadingTail_txs .success z)
      rw [hz.frame, hsends.session] at hblock
      exact hblock.next hz.attempted hatt
    obtain ⟨hidle, -, hsession, -, hmore, hlast⟩ := hsent
    have hlt := hx.inv.block ho
    obtain hlt' | heq := Nat.lt_or_eq_of_le (Nat.succ_le_of_lt hlt)
    · refine .blocks (hmore hlt').1 (fun ha => absurd (ha.symm.trans hidle) (by decide)) fun _ => ?_
      rw [hsession, toNat_nextBlock hlt]
      exact hnext
    · refine .finished (hlast heq).1 fun _ => ?_
      rw [← hsame.size, ← heq]
      exact hnext

include hx hsame h in
theorem Written.next (hw : Written s x) : Written s y := by
  cases hw with
  | syncs m ho hpending htxs =>
    rcases ho with ho | ho
    · exact written_resetting hx h ho htxs
    · exact written_connecting hx hsame h ho hpending htxs
  | erase m ho hpos htxs => exact written_erasing hx hsame h ho hpos htxs
  | blocks ho hsending hwrote => exact written_uploading hx hsame h ho hsending hwrote
  | finished ho hwrote =>
    rw [hx.over h ho]
    exact .finished ho hwrote

end Written

/-- Settles O59: every STEP keeps the account of what has been written. -/
theorem successfulSessionOnTheWire : Obligations.SuccessfulSessionOnTheWire := by
  intro s t n hl hinv ho ha hrun hdone hresult
  have hidle (hactive : s.rx.active = true) : False := Bool.false_ne_true (ha.symm.trans hactive)
  obtain ⟨-, -, hwritten⟩ : Running t ∧ SameImage s t ∧ Written s t := by
    refine runSteps_induct (P := fun x => Running x ∧ SameImage s x ∧ Written s x) ?_
      ⟨⟨hinv, fun h => (hidle h).elim⟩, ⟨rfl, rfl, rfl, rfl⟩,
        .syncs 0 (.inl ho) (fun h => (hidle h).elim) (List.append_nil _).symm⟩ hrun
    rintro x y ⟨hx, hsame, hw⟩ hstep
    exact ⟨hx.next hstep, hsame.trans (exec_step_sameImage hstep), hw.next hx hsame hstep⟩
  cases hwritten with
  | finished _ hwrote =>
    obtain ⟨syncs, es, attempts, hpos, hsize, hattempts, htxs⟩ := hwrote hresult
    exact ⟨syncs, es, attempts, hpos, hsize, hattempts, htxs.trans (List.append_nil _)⟩
  | syncs _ h => rcases h with h | h <;> cases h.symm.trans hdone
  | erase _ h => cases h.symm.trans hdone
  | blocks h => cases h.symm.trans hdone

end Sys2Proof.Machine
end

section
/-! PROOFS. What stays and what is told when an operation ends (60_exceptions.md): who alone writes the registers of the
session, the lines, the image and the buffer (R170), that SlipStateError is never returned (R160, R161), and elapsed time
(R174). -/

namespace Sys2Proof.Machine

/-! ### What an operation leaves alone (R17, R35 to R37, R170) -/

/-- The session registers and the lines have stayed, and, unless `prepares`, the buffer and its checksum. -/
structure Spares (prepares : Prop) (s t : State) : Prop where
  session : t.session = s.session
  lines : SameLines s.env t.env
  buffer : ¬ prepares → t.blk = s.blk ∧ t.chk8 = s.chk8

section Spares
variable {prepares : Prop} {s t u : State}

theorem Spares.trans (h : Spares prepares s t) (h' : Spares prepares t u) : Spares prepares s u := by
  refine ⟨h'.session.trans h.session, h.lines.trans h'.lines, fun hp => ?_⟩
  obtain ⟨hblk, hchk8⟩ := h.buffer hp
  obtain ⟨hblk', hchk8'⟩ := h'.buffer hp
  exact ⟨hblk'.trans hblk, hchk8'.trans hchk8⟩

theorem Spares.prepares_of_written (h : Spares prepares s t) (hw : t.blk ≠ s.blk ∨ t.chk8 ≠ s.chk8) :
    prepares := by
  by_contra hp
  obtain ⟨hblk, hchk8⟩ := h.buffer hp
  exact hw.elim (· hblk) (· hchk8)

/-- The return register belongs to no unit. -/
theorem answer_spares (s : State) (r : Ret) : Spares prepares s (s.answer r) :=
  ⟨rfl, .refl _, fun _ => ⟨rfl, rfl⟩⟩

theorem Kept.spares (h : Kept s t) (hl : SameLines s.env t.env) : Spares prepares s t :=
  ⟨h.f.session, hl, fun _ => ⟨h.f.blk, h.f.chk8⟩⟩

theorem Receives.spares (h : Receives s t) : Spares prepares s t := (Kept.rx h.regs).spares h.lines

theorem sendFrame_spares (op : Byte) (payload : Bytes) (chk : U32) (s : State) :
    Spares prepares s (sendFrame op payload chk s) :=
  (Kept.rx (sendFrame_env op payload chk s).toRx).spares (sendFrame_lines op payload chk s)

theorem beginCmd_spares (op : Byte) (payload : Bytes) (chk timeout : U32) (s : State) :
    Spares prepares s (beginCmd op payload chk timeout s) :=
  (Kept.rx (beginCmd_regs op payload chk timeout s)).spares (beginCmd_lines op payload chk timeout s)

theorem beginSync_spares (timeout : U32) (s : State) : Spares prepares s (beginSync timeout s) :=
  have facts := beginSync_facts timeout s
  (Kept.sync facts.1).spares facts.2.2.2.1.lines

/-- FDATA's beginning is the one that prepares the buffer (R112). -/
theorem beginFdata_spares (hp : prepares) (idx : U32) (val mask : U16) (s : State) :
    Spares prepares s (beginFdata idx val mask s) :=
  ⟨(beginFdata_fields idx val mask s).2.1, (beginFdata_exchanged idx val mask s).lines, fun h => absurd hp h⟩

/-- An operation called by itself goes on and returns without touching what a session owns (log 12). -/
theorem await_unit_spares (op : UnitOp) (s : State) : Spares prepares s (await (.unit op) s) := by
  obtain ⟨x, n, read, hk, hx, -, hrun⟩ | ⟨x, n, read, hk, hx, -, -, st, hrun⟩ := await_awaits (.unit op) s <;>
    rw [hrun]
  · exact (hk.spares hx.lines).trans (answer_spares x _)
  · exact (hk.spares hx.lines).trans ⟨rfl, .refl _, fun _ => ⟨rfl, rfl⟩⟩

end Spares

/-! ### What each instruction runs, with what it spares and what it returns -/

/-- The result code a return carries. -/
def Ret.resultCode : Ret → Option ResultCode
  | .code r | .failed r | .done r => some r
  | _ => none

/-- i is FDATA, which patches the block in the buffer and takes its checksum (R112). -/
abbrev PreparesBlock (i : Instr) : Prop := ∃ idx val mask, i = .fdata idx val mask

/-- What i runs, by the registers it spares, where `Executed` speaks of the invariant: an instruction of the codec, a
frame or a pure operation returns no result code; an operation called by itself comes to its RECV; or i is one of the
host's two (R50, R168). -/
inductive Runs (i : Instr) (s t : State) : Prop where
  | codeless (spares : Spares (PreparesBlock i) s t) (ret : t.ret = s.ret ∨ t.ret.resultCode = none)
  | unit (op : UnitOp) (x : State) (spares : Spares (PreparesBlock i) s x)
      (way : Opens op { s with unitCall := some op } x) (run : t = await (.unit op) x)
  | begins (image : ImageSource) (addr : U32) (eq : i = .beginUpload image addr)
  | steps (eq : i = .step)

section Runs
variable {i : Instr} {s t : State}

theorem Runs.ofUnit {op : UnitOp} {start : State → State} (h : runUnit op start s = .next t)
    (hw : Opens op { s with unitCall := some op } (start { s with unitCall := some op }))
    (hs : Spares (PreparesBlock i) { s with unitCall := some op } (start { s with unitCall := some op })) : Runs i s t :=
  .unit op _ ⟨hs.session, hs.lines, hs.buffer⟩ hw (whenPunctual_next h).1.symm

/-- The peer's bytes arrive (R31). -/
theorem runs_arrive (s : State) (bs : Bytes) : Runs i s (s.arrive bs) :=
  .codeless ⟨rfl, ⟨rfl, rfl, rfl⟩, fun _ => ⟨rfl, rfl⟩⟩ (.inl rfl)

/-- A value that is no result code is returned. -/
theorem runs_answer (h : Spares (PreparesBlock i) s t) {r : Ret} (hr : r.resultCode = none) : Runs i s (t.answer r) :=
  .codeless (h.trans (answer_spares t r)) (.inr hr)

/-- A request row (R57 to R60). -/
theorem runs_transmit {op : Byte} {body : Bytes} {chk : U32} (h : transmit op body chk s = .next t) : Runs i s t := by
  cases (whenLegal_next h).2
  exact runs_answer (sendFrame_spares op body chk s) rfl

/-- A frame of the peer (R56, R62). -/
theorem runs_receive {dir op : Byte} {body : Bytes} {chk : U32} (h : receive dir op chk body s = .next t) :
    Runs i s t := by
  cases (whenFits_next (whenLegal_next h).2).2
  exact runs_arrive s _

theorem exec_runs (h : exec i s = .next t) : Runs i s t := by
  have same : Spares (PreparesBlock i) s s := ⟨rfl, .refl _, fun _ => ⟨rfl, rfl⟩⟩
  cases i with
  | slipEnd | slipEscEnd | slipEscEsc | slipEscBad _ | slipLit _ => cases h; exact runs_arrive s _
  | syncReq | flashBeginReq _ _ | flashEndReq _ => exact runs_transmit h
  | flashDataReq chk8 idx data =>
    change execFlashDataReq chk8 idx data s = .next t at h
    unfold execFlashDataReq at h
    split at h
    · exact runs_transmit h
    · exact runs_receive h
  | memBeginReq _ _ | memEndReq _ _ | memDataReq _ _ | writeRegReq _ _ | readRegReq _ _ | rsp _ _ _ | rspStray _ _
  | rspSync _ _ _ | rspFlashBegin _ _ _ | rspFlashData _ _ _ | rspFlashEnd _ _ _ => exact runs_receive h
  | slipEnc _ | slipWrap _ | slipRawwrap _ | slipDecall _ | chk _ | hdr _ _ _ _ | parse _ =>
    cases h
    exact runs_answer same rfl
  | slipDec =>
    cases h
    exact runs_answer (slipDecode_receives s).spares rfl
  | send op payload chk =>
    cases (whenFits_next (whenLegal_next h).2).2
    exact runs_answer (sendFrame_spares op payload chk s) rfl
  | recv op timeout =>
    exact .ofUnit (whenLegal_next h).2 ((Prepared.refl _).opens op timeout nofun)
      ((Kept.rx (beginRecv_regs op timeout _)).spares (beginRecv_lines op timeout _))
  | cmd op payload chk timeout =>
    exact .ofUnit (whenFits_next (whenLegal_next h).2).2 ((Prepared.refl _).opensCmd op payload chk timeout nofun)
      (beginCmd_spares op payload chk timeout _)
  | sync timeout => exact .ofUnit (whenLegal_next h).2 (beginSync_opens timeout _) (beginSync_spares timeout _)
  | fbegin _ _ | fend _ =>
    exact .ofUnit (whenLegal_next h).2 ((Prepared.refl _).opensCmd _ _ _ _ nofun) (beginCmd_spares _ _ _ _ _)
  | fdata idx val mask =>
    exact .ofUnit (whenLegal_next h).2 (beginFdata_opens idx val mask _)
      (beginFdata_spares ⟨idx, val, mask, rfl⟩ idx val mask _)
  | beginUpload image addr => exact .begins image addr rfl
  | step => exact .steps rfl

/-- Every instruction but the host's two spares what a session owns (R170). -/
theorem exec_spares (h : exec i s = .next t) :
    Spares (PreparesBlock i) s t ∨ (∃ image addr, i = .beginUpload image addr) ∨ i = .step := by
  cases exec_runs h with
  | codeless spares _ => exact .inl spares
  | unit op x spares _ run => exact .inl (run ▸ spares.trans (await_unit_spares op x))
  | begins image addr eq => exact .inr (.inl ⟨image, addr, eq⟩)
  | steps eq => exact .inr (.inr eq)

end Runs

/-! ### Who alone writes (R170) -/

/-- R131: BEGIN_UPLOAD makes one call, `ImgSize()`, and leaves the baud rate, the lines and the buffer alone. -/
theorem execBeginUpload_keeps {image : ImageSource} {addr : U32} {s t : State}
    (h : execBeginUpload image addr s = .next t) :
    t.env.baud = s.env.baud ∧ t.env.gpio = s.env.gpio ∧ t.blk = s.blk ∧ t.chk8 = s.chk8 := by
  replace h := (whenLegal_next h).2
  split at h
  · dsimp only at h
    split at h <;> cases h <;> exact ⟨rfl, rfl, rfl, rfl⟩
  · cases h

/-- The baud rate and the lines have changed at most where R134 and R139 have them changed: in `resetting`, and the lines
on entering `done` too. -/
structure SwitchesLines (s t : State) : Prop where
  baud : t.env.baud ≠ s.env.baud → s.orch = .resetting
  gpio : t.env.gpio ≠ s.env.gpio → s.orch = .resetting ∨ s.orch ≠ .done ∧ t.orch = .done

section SwitchesLines
variable {s t x : State}

theorem SameLines.switches (h : SameLines s.env t.env) : SwitchesLines s t :=
  have ⟨hbaud, hgpio, _⟩ := h
  ⟨fun hw => absurd hbaud hw, fun hw => absurd hgpio hw⟩

/-- Finish, in a session (R139). -/
theorem finishDone_switches (r : ResultCode) (ho : s.orch ≠ .done) (hl : SameLines s.env x.env) :
    SwitchesLines s (finishDone r x) :=
  ⟨fun hb => absurd hl.1 hb, fun _ => .inr ⟨ho, rfl⟩⟩

/-- A caller whose tail can end the session waits in a session. -/
theorem Caller.In.ne_done {c : Caller} {o : OrchState} (h : c.In o) (he : c.edge .done = true) : o ≠ .done := by
  cases c with
  | unit op | connecting => cases he
  | erasing | uploading => cases h; exact nofun

theorem await_switches {c : Caller} (hin : c.In s.orch) (hl : SameLines s.env x.env) :
    SwitchesLines s (await c x) := by
  obtain ⟨y, n, read, hk, hx, -, hrun⟩ | ⟨y, n, read, hk, hx, -, -, st, hrun⟩ := await_awaits c x <;> rw [hrun]
  · exact SameLines.switches (hl.trans hx.lines)
  · have hlines := hl.trans hx.lines
    have went := went_deliver c st y
    refine ⟨fun hb => absurd (went.baud.trans hlines.1) hb, fun hg => ?_⟩
    obtain hgpio | ⟨hdone, hedge⟩ := went.gpio
    · exact absurd (hgpio.trans hlines.2.1) hg
    · exact .inr ⟨hin.ne_done hedge, hdone⟩

theorem StepRuns.switches (h : StepRuns s t) : SwitchesLines s t := by
  cases h with
  | resumes c _ caller run => exact run ▸ await_switches (callerOf_eq_some_iff.1 caller).2.1 (.refl _)
  | answers _ _ run => exact run ▸ SameLines.switches (.refl _)
  | resets _ orch _ => exact ⟨fun _ => orch, fun _ => .inl orch⟩
  | connects _ orch run =>
    rw [run, stepConnecting_eq]
    split
    · obtain ⟨-, -, -, hx, -⟩ := beginSync_facts tSync s.atConnect
      exact await_switches (c := .connecting) orch ((atConnect_exchanged s).trans hx).lines
    · exact SameLines.switches (atConnect_exchanged s).lines
  | erases _ orch es _ run =>
    rw [run]
    exact await_switches (c := .erasing) orch (beginCmd_lines _ _ _ _ _)
  | uploads _ orch run =>
    rw [run, stepUploading_eq]
    split
    · split
      · exact finishDone_switches _ (orch ▸ nofun) ⟨rfl, rfl, rfl⟩
      · have hfilled : SameLines s.env s.atBlock.filled.env := ⟨rfl, rfl, rfl⟩
        exact await_switches (c := .uploading) orch (hfilled.trans (beginFdata_exchanged _ _ _ _).lines)
    · exact SameLines.switches ⟨rfl, rfl, rfl⟩

end SwitchesLines

/-- Settles O51: STEP and BEGIN_UPLOAD by what they run; every other instruction spares what is not its own. -/
theorem ownersAloneWrite : Obligations.OwnersAloneWrite := by
  intro i s t h
  obtain hs | ⟨image, addr, rfl⟩ | rfl := exec_spares h
  · obtain ⟨hbaud, hgpio, himg⟩ := hs.lines
    exact ⟨fun hw => absurd hs.session hw, fun hw => absurd hbaud hw, fun hw => absurd hgpio hw,
      fun hw => absurd himg hw, fun hw => .inr (hs.prepares_of_written hw)⟩
  · obtain ⟨hbaud, hgpio, hblk, hchk8⟩ := execBeginUpload_keeps h
    exact ⟨fun _ => .inr ⟨image, addr, rfl⟩, fun hw => absurd hbaud hw, fun hw => absurd hgpio hw,
      fun _ => ⟨image, addr, rfl⟩, fun hw => (hw.elim (· hblk) (· hchk8)).elim⟩
  · have hs := (exec_step_next h).2.switches
    exact ⟨fun _ => .inl rfl, fun hw => ⟨rfl, hs.baud hw⟩, fun hw => ⟨rfl, hs.gpio hw⟩,
      fun hw => absurd (exec_step_sameImage h).img hw, fun _ => .inl rfl⟩

/-! ### SlipStateError is never returned (R160, R161; U3) -/

/-- The return carries another result code than SlipStateError, or none. -/
def NoStateError (s : State) : Prop := s.ret.resultCode ≠ some .slipStateError

theorem inProgress_noStateError (s : State) : NoStateError s.inProgress := nofun

theorem finishDone_noStateError {r : ResultCode} (hr : r ≠ .slipStateError) (s : State) :
    NoStateError (finishDone r s) := fun h => hr (Option.some.inj h)

/-- The tails return the operation's code, Success, or a percentage (R135, R136, R138). -/
theorem deliver_noStateError {st : ResultCode} (hst : st ≠ .slipStateError) (c : Caller) (s : State) :
    NoStateError (deliver c st s) := by
  by_cases hsuccess : st = .success
  · subst hsuccess
    cases c with
    | unit _ | connecting | erasing => exact nofun
    | uploading =>
      change NoStateError (blockDone (s.returned .success))
      rw [blockDone_eq_reported]
      split <;> exact nofun
  · cases c with
    | unit _ => exact fun h => hst (Option.some.inj h)
    | connecting =>
      obtain ⟨-, -, hret, -⟩ := connectingTail_fail (t := s) hsuccess
      change (connectingTail st s).ret.resultCode ≠ _
      rw [hret]
      exact nofun
    | erasing =>
      change NoStateError (erasingTail st s)
      exact erasingTail_failure hsuccess s ▸ finishDone_noStateError hst _
    | uploading =>
      change NoStateError (uploadingTail st s)
      exact uploadingTail_failure hsuccess s ▸ finishDone_noStateError hst _

/-- The registers of a RECV that op awaits: no poll finds `complete`, which alone raises SlipStateError (R84; U3). -/
structure Receiving (op : UnitOp) (s : State) : Prop where
  units : UnitsInv s
  machine : receiverInv s.rx
  phase : op = .sync → s.syncPhase ≠ .idle

section Receiving
variable {op : UnitOp} {s x y : State}

theorem Opens.receiving (h : Opens op s x) (hs : UnitsInv s) : Receiving op x := ⟨h.units hs, h.machine, h.phase⟩

theorem Settled.receiving (h : Settled s) (ha : s.rx.active = true) {c : Caller} (hc : callerOf s = some c) :
    Receiving c.op s := ⟨h.base.units, (h.pending ha).1, (callerOf_eq_some_iff.1 hc).2.2⟩

/-- A poll keeps the ranges and the phase. -/
theorem Receiving.poll {p : Poll} (h : Receiving op x) (hp : Machine.poll x = p) :
    UnitsInv p.state ∧ (op = .sync → p.state.syncPhase ≠ .idle) := by
  subst hp
  have r := poll_receives x
  refine ⟨h.units.receives r (poll_inRange h.units.receiver h.machine), ?_⟩
  rw [r.regs.fields.2.2.2.1]
  exact h.phase

theorem Receiving.await {c : Caller} (h : Receiving c.op x) : NoStateError (await c x) := by
  apply await_induct c (P := Receiving c.op) (Q := NoStateError) (h := h)
  · intro x y _ _
    exact inProgress_noStateError y
  · intro x y hx hp
    obtain ⟨hunits, hphase⟩ := hx.poll hp
    exact ⟨hunits, ((poll_inv x hx.machine).2.1 y hp).1, hphase⟩
  · intro x y z st hx hp hnext
    exact (opContinue_opens hnext).receiving (hx.poll hp).1
  · intro x y z st st' hx hp hlast
    obtain ⟨hunits, hphase⟩ := hx.poll hp
    have hst := ((poll_inv x hx.machine).2.2 st y hp).1
    exact deliver_noStateError (opContinue_finished hunits hst hphase hlast).2 c z

end Receiving

/-- One STEP (R132): the result of a session that is over is not SlipStateError by the invariant. -/
theorem Stepped.noStateError {s t : State} (h : Stepped s t) (hs : Settled s) : NoStateError t := by
  have hunits : UnitsInv { s with unitCall := none } := hs.base.units.same
  cases h with
  | resumes c active caller run => exact run ▸ (hs.receiving active caller).await
  | answers run => exact run ▸ fun he => hs.base.session.codes (Option.some.inj he)
  | resets _ _ run =>
    obtain he | ⟨e, -, -, -, he⟩ := stepResetting_cases s <;> rw [run, he]
    · exact finishDone_noStateError (r := .connectFailed) nofun _
    · exact nofun
  | holds u _ _ run => exact run ▸ inProgress_noStateError u
  | fails u _ run => exact run ▸ finishDone_noStateError (r := .fileReadError) nofun u
  | begins c x _ _ way _ run => exact run ▸ (way.receiving hunits).await

/-- What an instruction newly returns is not SlipStateError. -/
theorem exec_noStateError {i : Instr} {s t : State} (hi : RegisterInv s) (h : exec i s = .next t) :
    t.ret = s.ret ∨ NoStateError t := by
  have hs := hi.settled
  cases exec_runs h with
  | codeless _ ret => exact ret.imp_right fun hnone he => by rw [hnone] at he; cases he
  | unit op x _ way run => exact .inr (run ▸ Receiving.await (c := .unit op) (way.receiving hs.base.units.same))
  | begins image addr eq =>
    subst eq
    obtain ⟨-, e, -, -, -, rfl | ⟨size, -, rfl⟩⟩ := execBeginUpload_next h <;> exact .inr nofun
  | steps eq =>
    subst eq
    exact .inr ((exec_step_stepped h).1.noStateError hs)

/-- Settles O56: no RECV the invariant allows finds `complete`, and no other place raises SlipStateError. -/
theorem slipStateErrorIsUnreachable : Obligations.SlipStateErrorIsUnreachable := by
  intro i s t hi h hret
  have hnone : NoStateError t := (exec_noStateError hi h).resolve_left hret
  exact ⟨fun he => hnone (congrArg Ret.resultCode he), fun he => hnone (congrArg Ret.resultCode he)⟩

/-! ### Elapsed time (R174) -/

theorem elapsed_toNat (w : Nat) (t t0 : BitVec w) : elapsed w t.toNat t0.toNat = (t - t0).toNat := by
  rw [elapsed, Nat.mod_eq_of_lt t0.isLt, BitVec.toNat_sub, Nat.add_comm]

theorem timedOut_iff (w t t0 : Nat) (limit : U32) : timedOut w t t0 limit = true ↔ limit.toNat < elapsed w t t0 :=
  decide_eq_true_iff

theorem intervalMet_iff (w t t0 limit : Nat) : intervalMet w t t0 limit = true ↔ limit ≤ elapsed w t t0 :=
  decide_eq_true_iff

/-- Settles O53: a reading modulo 2^`CLK_W` loses nothing that is below it. -/
theorem elapsedIsModular : Obligations.ElapsedIsModular :=
  ⟨elapsed_toNat, fun w t0 n hn => by rw [elapsed_mod, elapsed_true w t0 n hn], timedOut_iff, intervalMet_iff,
    fun _ _ => ⟨rfl, rfl⟩⟩

end Sys2Proof.Machine
end

section
/-! PROOFS. Reset (70_reset_and_hazards.md R190), and that a session reads nothing an earlier one has left in the
registers (R192, 44_orchestrator.md R131): two machines that differ in such registers alone take every STEP alike. -/

namespace Sys2Proof.Machine

/-- Settles O49: the values R190 gives are those the model starts with. -/
theorem resetValues : Obligations.ResetValues := ⟨rfl, rfl, rfl, rfl, rfl, rfl, rfl, rfl⟩

/-! ### The registers that are written before they are read, while a RECV is pending -/

/-- The receive registers rx with the header, the body and the value that stand in `left`. -/
def Receiver.over (rx left : Receiver) : Receiver :=
  { rx with hdr := left.hdr, respBody := left.respBody, respValue := left.respValue }

/-- s, which awaits a RECV, with what z holds in the registers that are written before they are read (R84, R100,
R112). -/
def State.waitingOver (s z : State) : State :=
  { s with
    rx := s.rx.over z.rx, syncExtra := z.syncExtra, syncStatus := z.syncStatus, blk := z.blk, chk8 := z.chk8
    port := z.port }

/-- As much of the header as has been received is the same (R84). -/
def SameHeader (rx left : Receiver) : Prop := left.hdr.toList.take rx.hdrIdx = rx.hdr.toList.take rx.hdrIdx

/-- What a session in s has written of those registers, and still reads, stands in z too. -/
structure Unread (s z : State) : Prop where
  header : SameHeader s.rx z.rx
  extra : s.orch = .connecting → s.syncPhase = .extra → z.syncExtra = s.syncExtra
  status : s.orch = .connecting → s.syncPhase = .flush → z.syncStatus = s.syncStatus
  block : s.orch = .uploading → blockBody z.blk = blockBody s.blk ∧ z.chk8 = s.chk8
  buffers : Memory.wf s.blk = true ∧ Memory.wf z.blk = true
  mine : s.unitCall = none

/-! ### A header byte, a body byte (R84) -/

/-- A byte is stored alike over what stood in the registers, and the header received so far stays the same. -/
def StoresOver (store : Receiver → Receiver) (rx left : Receiver) : Prop :=
  store (rx.over left) = (store rx).over (store (rx.over left)) ∧ SameHeader (store rx) (store (rx.over left))

section Store
variable {rx left : Receiver}

theorem eq_of_take_eight {u v : Vector Byte 8} (h : u.toList.take 8 = v.toList.take 8) : u = v := by
  rw [List.take_of_length_le (by simp), List.take_of_length_le (by simp)] at h
  exact Vector.toList_inj.1 h

/-- All of the header has been received. -/
theorem SameHeader.whole (h : SameHeader rx left) (hi : rx.hdrIdx = 8) : left.hdr = rx.hdr := by
  rw [SameHeader, hi] at h
  exact eq_of_take_eight h

/-- The same byte is set where the received part of the header ends. -/
theorem SameHeader.set (h : SameHeader rx left) (c : Byte) :
    (left.hdr.setIfInBounds rx.hdrIdx c).toList.take (rx.hdrIdx + 1) =
      (rx.hdr.setIfInBounds rx.hdrIdx c).toList.take (rx.hdrIdx + 1) := by
  rw [Vector.toList_setIfInBounds, Vector.toList_setIfInBounds, List.take_add_one, List.take_add_one,
    List.take_set_of_le (Nat.le_refl _), List.take_set_of_le (Nat.le_refl _), show _ = _ from h]
  simp [List.getElem?_set]

theorem storeHeaderByte_over (h : SameHeader rx left) (c : Byte) : StoresOver (storeHeaderByte c) rx left := by
  have hset := h.set c
  by_cases hi : rx.hdrIdx + 1 = hdrLen
  · have hwhole := eq_of_take_eight (hi ▸ hset)
    simp only [StoresOver, SameHeader, storeHeaderByte, Receiver.over, hi, if_true, hwhole, and_self]
  · simp only [StoresOver, SameHeader, storeHeaderByte, Receiver.over, hi, if_false, hset, and_self]

theorem storeBodyByte_over (h : SameHeader rx left) (cap : Nat) (c : Byte) : StoresOver (storeBodyByte cap c) rx left :=
  ⟨rfl, h⟩

end Store

/-! ### One poll (R84) -/

/-- f comes to the same over what z holds, with another z perhaps, which agrees again with what has been written. -/
def PollsOver (f : State → Poll) (s z : State) : Prop :=
  ∃ z', f (s.waitingOver z) = (f s).map (·.waitingOver z') ∧ Unread (f s).state z'

/-- SLIP.DEC reads none of these registers (R74). -/
theorem decodeEscaped_over (s z : State) :
    decodeEscaped (s.waitingOver z) = ((decodeEscaped s).1, (decodeEscaped s).2.waitingOver z) := by
  have hread : (s.waitingOver z).env.rxByte = s.env.rxByte := rfl
  simp only [decodeEscaped, hread]
  cases s.env.rxByte.1 <;> rfl

theorem slipDecode_over (s z : State) :
    slipDecode (s.waitingOver z) = ((slipDecode s).1, (slipDecode s).2.waitingOver z) := by
  have hread : (s.waitingOver z).env.rxByte = s.env.rxByte := rfl
  have hesc : (s.waitingOver z).rx.escPending = s.rx.escPending := rfl
  simp only [slipDecode, hread, hesc]
  split
  · exact decodeEscaped_over s z
  · split
    · rfl
    · split
      · rfl
      · exact decodeEscaped_over { s with env := s.env.rxByte.2, rx := { s.rx with escPending := true } } z

/-- A poll's case over `rx_state`, where the time allows it (R84). -/
def pollCase (st : RxState) (s : State) : Poll :=
  match st with
  | .awaitingStart => pollStart s
  | .readingHeader => pollDecoded storeHeaderByte s
  | .readingBody => pollDecoded (storeBodyByte s.cfg.respBodyCap) s
  | .awaitingEnd => pollEnd s
  | .complete => endRecv .slipStateError s

theorem poll_eq_pollCase (s : State) :
    poll s =
      if timedOut s.cfg.clkW (s.env.readClock s.cfg.clkW).1 s.rx.start s.rx.timeout then endRecv .timeout s.atPoll
      else pollCase s.rx.state s.atPoll := rfl

section Poll
variable {s t z : State} (h : Unread s z)
include h

/-- Steps of the receive machine leave the other registers as they were. -/
theorem Unread.receives (hr : Receives s t) (hh : SameHeader t.rx z.rx) : Unread t z := by
  obtain ⟨-, -, horch, hphase, hextra, hstatus, -, hblk, hchk8, -, -, hunit⟩ := hr.regs.fields
  exact ⟨hh, by rw [horch, hphase, hextra]; exact h.extra, by rw [horch, hphase, hstatus]; exact h.status,
    by rw [horch, hblk, hchk8]; exact h.block, by rw [hblk]; exact h.buffers, hunit.trans h.mine⟩

theorem endRecv_over (r : ResultCode) : PollsOver (endRecv r) s z :=
  ⟨z, rfl, h.receives (endRecv_receives (.refl s) r) h.header⟩

theorem pollDecoded_over {store : Byte → Receiver → Receiver}
    (hs : ∀ c b, StoresOver (store c) { s.rx with escPending := b } z.rx) : PollsOver (pollDecoded store) s z := by
  have hrx := slipDecode_rx s
  have hu : Unread (slipDecode s).2 z := by
    refine h.receives (slipDecode_receives s) ?_
    rw [hrx]
    exact h.header
  simp only [PollsOver, pollDecoded, slipDecode_over]
  split
  · exact ⟨z, rfl, hu⟩
  · exact ⟨z, rfl, hu⟩
  · exact endRecv_over hu .slipFrameError
  · exact endRecv_over hu .slipDataError
  · rename_i c _
    obtain ⟨hstore, hheader⟩ := hs c (slipDecode s).2.rx.escPending
    rw [← hrx] at hstore hheader
    refine ⟨{ z with rx := store c ((slipDecode s).2.rx.over z.rx) }, ?_, ?_⟩
    · exact congrArg (fun rx => Poll.again { (slipDecode s).2.waitingOver z with rx := rx }) hstore
    · exact ⟨hheader, hu.extra, hu.status, hu.block, hu.buffers, hu.mine⟩

theorem pollStart_over : PollsOver pollStart s z := by
  have hread : (s.waitingOver z).env.rxByte = s.env.rxByte := rfl
  have hu : Unread { s with env := s.env.rxByte.2 } z := h.receives (rxByte_receives s) h.header
  simp only [PollsOver, pollStart, hread]
  split
  · exact ⟨z, rfl, hu⟩
  · split
    · exact ⟨z, rfl, ⟨hu.header, hu.extra, hu.status, hu.block, hu.buffers, hu.mine⟩⟩
    · exact ⟨z, rfl, hu⟩

/-- The header is validated when all of it has been received (R85). -/
theorem pollEnd_over (hi : s.rx.hdrIdx = 8) : PollsOver pollEnd s z := by
  have hread : (s.waitingOver z).env.rxByte = s.env.rxByte := rfl
  have hhdr : (s.waitingOver z).rx.hdr = s.rx.hdr := h.header.whole hi
  have haccepted : headerAccepted (s.waitingOver z).cfg (s.waitingOver z).rx.hdr (s.waitingOver z).rx.expected =
      headerAccepted s.cfg s.rx.hdr s.rx.expected := by rw [hhdr]; rfl
  have hu : Unread { s with env := s.env.rxByte.2 } z := h.receives (rxByte_receives s) h.header
  have hcomplete : Unread { s with env := s.env.rxByte.2, rx := { s.rx with state := .complete } } z :=
    ⟨h.header, h.extra, h.status, h.block, h.buffers, h.mine⟩
  simp only [PollsOver, pollEnd, hread, haccepted]
  split
  · exact ⟨z, rfl, hu⟩
  · split
    · exact endRecv_over hcomplete _
    · exact endRecv_over hu .slipFrameError

/-- A poll reads no register that has not been written since its RECV began (R84, R85). -/
theorem poll_over (hm : receiverInv s.rx) : PollsOver poll s z := by
  have hu : Unread s.atPoll z := h.receives (atPoll_receives s) h.header
  have hpoll : (s.waitingOver z).atPoll = s.atPoll.waitingOver z := rfl
  have htimed : timedOut (s.waitingOver z).cfg.clkW ((s.waitingOver z).env.readClock (s.waitingOver z).cfg.clkW).1
      (s.waitingOver z).rx.start (s.waitingOver z).rx.timeout =
    timedOut s.cfg.clkW (s.env.readClock s.cfg.clkW).1 s.rx.start s.rx.timeout := rfl
  have hstate : (s.waitingOver z).rx.state = s.rx.state := rfl
  simp only [PollsOver, poll_eq_pollCase, htimed, hpoll, hstate]
  split
  · exact endRecv_over hu .timeout
  · cases hs : s.rx.state with
    | awaitingStart => exact pollStart_over hu
    | readingHeader =>
      exact pollDecoded_over hu fun c b => storeHeaderByte_over (rx := { s.atPoll.rx with escPending := b }) hu.header c
    | readingBody =>
      exact pollDecoded_over hu fun c b => storeBodyByte_over (rx := { s.atPoll.rx with escPending := b }) hu.header _ c
    | awaitingEnd =>
      simp only [receiverInv, hs] at hm
      exact pollEnd_over hu hm.1
    | complete => exact endRecv_over hu .slipStateError

end Poll

/-! ### The operation that awaits the RECV (R100 to R102, R112, R114) -/

/-- The state it goes on in, or returns in. -/
def OpStep.state : OpStep → State
  | .again s => s
  | .finished _ s => s

/-- The same way on, in another state. -/
def OpStep.map (f : State → State) : OpStep → OpStep
  | .again s => .again (f s)
  | .finished r s => .finished r (f s)

/-- An operation goes on alike over what z holds, with another z perhaps, which agrees again with what has been
written. -/
def GoesOver (f : State → OpStep) (s z : State) : Prop :=
  ∃ z', f (s.waitingOver z) = (f s).map (·.waitingOver z') ∧ Unread (f s).state z'

/-- CMD's request is the same, and its RECV begins (R86). -/
theorem beginCmd_over (s z : State) (op : Byte) (payload : Bytes) (chk timeout : U32) :
    beginCmd op payload chk timeout (s.waitingOver z) = (beginCmd op payload chk timeout s).waitingOver z := by
  have hcfg : (s.waitingOver z).cfg = s.cfg := rfl
  simp only [beginCmd, sendFrame, hcfg]
  split <;> rfl

section Operation
variable {s z : State} (h : Unread s z)
include h

/-- Another RECV begins, and no header byte has been received (R84). -/
theorem Unread.beginRecv (op : Byte) (timeout : U32) : Unread (beginRecv op timeout s) z :=
  ⟨rfl, h.extra, h.status, h.block, h.buffers, h.mine⟩

/-- SYNC has returned: none of its registers is read any more (R100). -/
theorem Unread.leaveSync : Unread { s with syncPhase := .idle } z :=
  ⟨h.header, fun _ => nofun, fun _ => nofun, h.block, h.buffers, h.mine⟩

/-- R101: `sync_extra` decides, which has been written. -/
theorem syncDecide_over (ho : s.orch = .connecting) (hp : s.syncPhase = .extra) (st : ResultCode) :
    GoesOver (syncDecide st) s z := by
  have hdue : extraReadDue st (s.waitingOver z).syncExtra = extraReadDue st s.syncExtra :=
    congrArg (extraReadDue st) (h.extra ho hp)
  simp only [GoesOver, syncDecide, hdue]
  split
  · exact ⟨z, rfl, h.beginRecv _ _⟩
  · split
    · have hflush : Unread { s with syncStatus := st, syncPhase := .flush } { z with syncStatus := st } :=
        ⟨h.header, nofun, fun _ _ => rfl, h.block, h.buffers, h.mine⟩
      exact ⟨{ z with syncStatus := st }, rfl, hflush.beginRecv _ _⟩
    · exact ⟨z, rfl, h.leaveSync⟩

/-- R100 to R102: each phase writes what the next one reads. -/
theorem syncContinue_over (ho : s.orch = .connecting) (st : ResultCode) : GoesOver (syncContinue st) s z := by
  have hphase : (s.waitingOver z).syncPhase = s.syncPhase := rfl
  have hlen : (s.waitingOver z).rx.bodyLen = s.rx.bodyLen := rfl
  cases hp : s.syncPhase <;> simp only [GoesOver, syncContinue, hphase, hp, hlen]
  case idle => exact ⟨z, rfl, h⟩
  case first =>
    have hnext : Unread { s with syncExtra := 0, syncPhase := .extra } { z with syncExtra := 0 } :=
      ⟨h.header, fun _ _ => rfl, nofun, h.block, h.buffers, h.mine⟩
    exact syncDecide_over hnext ho rfl _
  case extra =>
    have hnext : Unread { s with syncExtra := s.syncExtra + 1, syncPhase := .extra }
        { z with syncExtra := z.syncExtra + 1 } :=
      ⟨h.header, fun _ _ => congrArg (· + 1) (h.extra ho hp), nofun, h.block, h.buffers, h.mine⟩
    exact syncDecide_over hnext ho rfl st
  case flush =>
    split
    · exact ⟨z, rfl, h.beginRecv _ _⟩
    · exact ⟨z, congrArg (OpStep.finished · _) (h.status ho hp), h.leaveSync⟩

/-- R114: another attempt sends the block, which has been written. -/
theorem fdataAttempt_over (ho : s.orch = .uploading) :
    fdataAttempt (s.waitingOver z) = (fdataAttempt s).waitingOver z ∧ Unread (fdataAttempt s) z := by
  obtain ⟨hbody, hchk⟩ := h.block ho
  have hsent := beginCmd_over { s with blkAttempt := s.blkAttempt + 1 } z s.cfg.opcFlashData (blockBody z.blk)
    (zext32 z.chk8) s.cfg.tBlock
  refine ⟨hsent.trans (by rw [hbody, hchk]; rfl), ?_⟩
  simp only [fdataAttempt, beginCmd, sendFrame]
  split <;> exact ⟨rfl, h.extra, h.status, h.block, h.buffers, h.mine⟩

/-- A session's operation goes on alike when its RECV has returned (R163). -/
theorem opContinue_over {c : Caller} (hc : c.unitCall = none) (hin : c.In s.orch) (st : ResultCode) :
    GoesOver (opContinue c.op st) s z := by
  cases c with
  | unit op => cases hc
  | connecting => exact syncContinue_over h hin st
  | erasing => exact ⟨z, rfl, h⟩
  | uploading =>
    obtain ⟨hattempt, hnext⟩ := fdataAttempt_over h hin
    have hdue : retryDue (replyStatus st (s.waitingOver z).rx.bodyLen) (s.waitingOver z).blkAttempt =
        retryDue (replyStatus st s.rx.bodyLen) s.blkAttempt := rfl
    simp only [GoesOver, Caller.op, opContinue, fdataContinue, hdue, hattempt]
    split
    · exact ⟨z, rfl, hnext⟩
    · exact ⟨z, rfl, h⟩

end Operation

/-! ### The tails of the state actions (R135, R136, R138) -/

/-- They read the session and the clock alone. -/
theorem deliver_over (c : Caller) (st : ResultCode) (s z : State) :
    deliver c st (s.waitingOver z) = (deliver c st s).waitingOver z := by
  cases c with
  | unit op => rfl
  | connecting =>
    simp only [deliver, connectingTail, apply_ite State.inProgress, apply_ite (State.waitingOver · z)]
    rfl
  | erasing =>
    simp only [deliver, erasingTail, apply_ite (State.waitingOver · z)]
    rfl
  | uploading =>
    by_cases hst : st = .success
    · subst hst
      simp only [deliver, uploadingTail_success, blockDone_eq_reported, apply_ite (State.waitingOver · z)]
      rfl
    · simp only [deliver, uploadingTail_failure hst]
      rfl

/-- They begin no RECV. -/
theorem deliver_idle (c : Caller) (st : ResultCode) {s : State} (h : s.rx.active = false) :
    (deliver c st s).rx.active = false := by
  cases c with
  | unit op => exact h
  | connecting => exact (congrArg (·.rx.active) (connectingTail_regs st s) :).trans h
  | erasing =>
    simp only [deliver, erasingTail]
    split
    · rfl
    · exact h
  | uploading =>
    by_cases hst : st = .success
    · subst hst
      simp only [deliver, uploadingTail_success, blockDone_eq_reported]
      split
      · rfl
      · exact h
    · simp only [deliver, uploadingTail_failure hst]
      rfl

/-! ### Two machines in one session (R131, R132, R192) -/

/-- s, which awaits no RECV, with what z holds in the registers that are written before they are read (R131, R134). -/
def State.restingOver (s z : State) : State :=
  { s with
    session := { s.session with lastAttempt := z.session.lastAttempt, lastReset := z.session.lastReset }
    rx := z.rx, syncExtra := z.syncExtra, syncStatus := z.syncStatus, blk := z.blk, chk8 := z.chk8, port := z.port }

/-- The states of the session past `resetting`, which has taken the timestamps (R134). -/
abbrev OrchState.pastReset (o : OrchState) : Prop := o = .connecting ∨ o = .erasing ∨ o = .uploading

theorem Caller.In.pastReset {c : Caller} {o : OrchState} (hin : c.In o) (hc : c.unitCall = none) : o.pastReset := by
  cases c with
  | unit op => cases hc
  | connecting => exact .inl hin
  | erasing => exact .inr (.inl hin)
  | uploading => exact .inr (.inr hin)

/-- No RECV is pending, and the timestamps a session in s reads stand in z too. -/
structure Rests (s z : State) : Prop where
  idle : s.rx.active = false ∧ z.rx.active = false
  times : s.orch.pastReset →
    z.session.lastAttempt = s.session.lastAttempt ∧ z.session.lastReset = s.session.lastReset
  buffers : Memory.wf s.blk = true ∧ Memory.wf z.blk = true
  mine : s.unitCall = none

/-- Two machines in one session, which differ in registers alone that are written before they are read. -/
inductive Alike (s : State) : State → Prop where
  | rests (z : State) (rests : Rests s z) : Alike s (s.restingOver z)
  | waits (z : State) (active : s.rx.active = true) (machine : receiverInv s.rx) (unread : Unread s z) :
      Alike s (s.waitingOver z)

/-- Two calls come to states alike, or stop for one reason. -/
inductive AnswersAlike : Host.Outcome State Fault Refusal → Host.Outcome State Fault Refusal → Prop where
  | next {t t' : State} (h : Alike t t') : AnswersAlike (.next t) (.next t')
  | fault (r : Fault) : AnswersAlike (.fault r) (.fault r)
  | refused (r : Refusal) : AnswersAlike (.refused r) (.refused r)

section Alike
variable {s s' z : State}

/-- What the host and the environment see of the two (R19, R20). -/
theorem Alike.seen (h : Alike s s') :
    s'.ret = s.ret ∧ s'.env = s.env ∧ s'.orch = s.orch ∧ s'.session.result = s.session.result := by
  cases h <;> exact ⟨rfl, rfl, rfl, rfl⟩

theorem whenPunctual_alike (h : Alike s s') : AnswersAlike (whenPunctual s) (whenPunctual s') := by
  obtain ⟨-, henv, -⟩ := h.seen
  simp only [whenPunctual, henv]
  split
  · exact .refused _
  · exact .next h

/-- An operation has returned to the state action that called it. -/
theorem deliver_alike (c : Caller) (st : ResultCode) (h : Unread s z) (hi : s.rx.active = false) :
    Alike (deliver c st s) (deliver c st (s.waitingOver z)) := by
  have hidle := deliver_idle c st hi
  have hblk := (went_deliver c st s).blk
  rw [deliver_over]
  exact .rests ((deliver c st s).waitingOver z)
    ⟨⟨hidle, hidle⟩, fun _ => ⟨rfl, rfl⟩, ⟨hblk ▸ h.buffers.1, h.buffers.2⟩, deliver_unitCall c st h.mine⟩

/-- The poll loop takes the same way, poll by poll (R84, R132). -/
theorem pollLoop_alike {c : Caller} (hc : c.unitCall = none) (n : Nat) (hin : c.In s.orch) (h : Unread s z)
    (ha : s.rx.active = true) (hm : receiverInv s.rx) : Alike (pollLoop n c s) (pollLoop n c (s.waitingOver z)) := by
  induction n generalizing s z with
  | zero => exact .waits z ha hm ⟨h.header, h.extra, h.status, h.block, h.buffers, h.mine⟩
  | succ n ih =>
    obtain ⟨z₁, hpoll, hu⟩ := poll_over h hm
    obtain ⟨hwait, hagain, hended⟩ := poll_inv s hm
    obtain ⟨-, -, horch, -⟩ := (poll_receives s).regs.fields
    simp only [pollLoop, hpoll]
    cases hp : poll s with
    | wait x =>
      obtain ⟨hmachine, hactive⟩ := hwait x hp
      rw [hp] at hu
      exact .waits z₁ (hactive.trans ha) hmachine ⟨hu.header, hu.extra, hu.status, hu.block, hu.buffers, hu.mine⟩
    | again x =>
      obtain ⟨hmachine, hactive⟩ := hagain x hp
      rw [hp] at hu horch
      exact ih (horch ▸ hin) hu (hactive.trans ha) hmachine
    | ended st x =>
      obtain ⟨-, hidle⟩ := hended st x hp
      rw [hp] at hu horch
      replace hu : Unread x z₁ := hu
      replace horch : x.orch = s.orch := horch
      obtain ⟨z₂, hgoes, hu'⟩ := opContinue_over hu hc (horch ▸ hin) st
      simp only [Poll.map]
      rw [hgoes]
      cases ho : opContinue c.op st x with
      | again y =>
        obtain ⟨hkept, hstarts, -⟩ := (opContinue_any c.op st x).1 y ho
        rw [ho] at hu'
        exact ih (hkept.f.orch.trans horch ▸ hin) hu' hstarts.active (opContinue_opens ho).machine
      | finished st' y =>
        obtain ⟨-, -, hrx, -⟩ := (opContinue_any c.op st x).2 st' y ho
        rw [ho] at hu'
        exact deliver_alike c st' hu' (hrx ▸ hidle)

/-- So do the operation that awaits the RECV and the state action that called it (R132). -/
theorem await_alike {c : Caller} (hc : c.unitCall = none) (hin : c.In s.orch) (h : Unread s z)
    (ha : s.rx.active = true) (hm : receiverInv s.rx) : Alike (await c s) (await c (s.waitingOver z)) :=
  pollLoop_alike hc (pollBudget s) hin h ha hm

end Alike

/-! ### One STEP where no RECV is pending (R133 to R139) -/

/-- FDATA prepares the same block from the same data (R112). -/
theorem prepareBlock_same {s t : State} (idx : U32) (val mask : U16) (hs : Memory.wf s.blk = true)
    (ht : Memory.wf t.blk = true) (hc : t.cfg = s.cfg) (ha : t.session.targetAddr = s.session.targetAddr)
    (hd : blockData t.blk = blockData s.blk) :
    blockBody (prepareBlock idx val mask t).blk = blockBody (prepareBlock idx val mask s).blk ∧
      (prepareBlock idx val mask t).chk8 = (prepareBlock idx val mask s).chk8 := by
  obtain ⟨-, hchk, -, -, -, hbody, -⟩ := prepare_spec idx val mask s hs _ rfl
  obtain ⟨-, hchk', -, -, -, hbody', -⟩ := prepare_spec idx val mask t ht _ rfl
  rw [hchk, hchk', hbody, hbody', hc, ha, hd]
  exact ⟨rfl, rfl⟩

section Rests
variable {s z : State} (h : Rests s z)
include h

/-- Nothing is done but to answer. -/
theorem Rests.answer (r : Ret) : Alike (s.answer r) ((s.restingOver z).answer r) :=
  .rests z ⟨h.idle, h.times, h.buffers, h.mine⟩

/-- Finish, whatever the timestamps hold (R139). -/
theorem Rests.finishDone (r : ResultCode) : Alike (finishDone r s) (finishDone r (s.restingOver z)) :=
  .rests { z with rx := { z.rx with active := false } } ⟨⟨rfl, rfl⟩, nofun, h.buffers, h.mine⟩

/-- STEP in `resetting` takes both timestamps, or ends the session (R134). -/
theorem Rests.stepResetting : Alike (stepResetting s) (stepResetting (s.restingOver z)) := by
  have hlist : (s.restingOver z).cfg.baudList[baudIndex (s.restingOver z).cfg
      ((s.restingOver z).session.baudAttempt + 1#32)]? =
    s.cfg.baudList[baudIndex s.cfg (s.session.baudAttempt + 1#32)]? := rfl
  cases hbaud : s.cfg.baudList[baudIndex s.cfg (s.session.baudAttempt + 1#32)]? with
  | none =>
    rw [stepResetting_none hbaud, stepResetting_none (hlist.trans hbaud)]
    exact .rests { z with rx := { z.rx with active := false } } ⟨⟨rfl, rfl⟩, nofun, h.buffers, h.mine⟩
  | some baud =>
    rw [stepResetting_some hbaud, stepResetting_some (hlist.trans hbaud)]
    exact .rests { z with session := { z.session with lastAttempt := _, lastReset := _ } }
      ⟨h.idle, fun _ => ⟨rfl, rfl⟩, h.buffers, h.mine⟩

/-- A state action sends its request and awaits the answer: what its RECV does not overwrite, it does not read. -/
theorem Rests.await_beginCmd {c : Caller} (hc : c.unitCall = none) (hin : c.In s.orch)
    (hp : s.orch = .connecting → s.syncPhase = .first)
    (hb : s.orch = .uploading → blockBody z.blk = blockBody s.blk ∧ z.chk8 = s.chk8)
    (op : Byte) (payload : Bytes) (chk timeout : U32) :
    Alike (await c (beginCmd op payload chk timeout s))
      (await c (beginCmd op payload chk timeout (s.restingOver z))) := by
  obtain ⟨hattempt, hreset⟩ := h.times (hin.pastReset hc)
  have hbegun : beginCmd op payload chk timeout (s.restingOver z) =
      (beginCmd op payload chk timeout s).waitingOver z := by
    simp only [beginCmd, sendFrame, State.restingOver, hattempt, hreset]
    split <;> rfl
  obtain ⟨-, -, horch, -⟩ := (beginCmd_regs op payload chk timeout s).fields
  have hunread : Unread (beginCmd op payload chk timeout s) z := by
    simp only [beginCmd, sendFrame]
    split <;>
      exact ⟨rfl, fun ho he => (nomatch (hp ho).symm.trans he), fun ho he => (nomatch (hp ho).symm.trans he), hb,
        h.buffers, h.mine⟩
  rw [hbegun]
  exact await_alike hc (horch ▸ hin) hunread rfl ⟨rfl, rfl, rfl⟩

/-- STEP in `connecting` (R135). -/
theorem Rests.stepConnecting (ho : s.orch = .connecting) :
    Alike (stepConnecting s) (stepConnecting (s.restingOver z)) := by
  obtain ⟨hattempt, hreset⟩ := h.times (.inl ho)
  have hgate : connectGate (s.restingOver z).cfg.clkW ((s.restingOver z).env.turn.now % 2 ^ (s.restingOver z).cfg.clkW)
      (s.restingOver z).session.lastAttempt (s.restingOver z).session.lastReset =
    connectGate s.cfg.clkW (s.env.turn.now % 2 ^ s.cfg.clkW) s.session.lastAttempt s.session.lastReset := by
    rw [← hattempt, ← hreset]; rfl
  have hat : Rests s.atConnect z := ⟨h.idle, h.times, h.buffers, rfl⟩
  have hfirst : Rests { s.atConnect with syncPhase := .first } z := ⟨h.idle, h.times, h.buffers, rfl⟩
  simp only [stepConnecting_eq, hgate]
  split
  · exact hfirst.await_beginCmd (c := .connecting) rfl ho (fun _ => rfl) (fun hup => nomatch ho.symm.trans hup)
      _ _ _ _
  · exact hat.answer _

/-- STEP in `erasing` (R136). -/
theorem Rests.stepErasing (ho : s.orch = .erasing) : AnswersAlike (stepErasing s) (stepErasing (s.restingOver z)) := by
  have hsize : eraseSize (s.restingOver z).cfg (s.restingOver z).session.imageSize
      (s.restingOver z).session.targetAddr =
    eraseSize s.cfg s.session.imageSize s.session.targetAddr := rfl
  have hfree : Rests { s with unitCall := none } z := ⟨h.idle, h.times, h.buffers, rfl⟩
  simp only [Machine.stepErasing, hsize]
  split
  · exact .refused _
  · exact whenPunctual_alike (hfree.await_beginCmd (c := .erasing) rfl ho (fun hco => nomatch ho.symm.trans hco)
      (fun hup => nomatch ho.symm.trans hup) _ _ _ _)

/-- FDATA's first attempt, when the same block stands in both buffers (R112). -/
theorem Rests.await_fdataAttempt (ho : s.orch = .uploading)
    (hb : blockBody z.blk = blockBody s.blk ∧ z.chk8 = s.chk8) :
    Alike (await .uploading (fdataAttempt s)) (await .uploading (fdataAttempt (s.restingOver z))) := by
  obtain ⟨hbody, hchk⟩ := hb
  have hcount : Rests { s with blkAttempt := s.blkAttempt + 1 } z := ⟨h.idle, h.times, h.buffers, h.mine⟩
  have hsent : fdataAttempt (s.restingOver z) =
    beginCmd s.cfg.opcFlashData (blockBody s.blk) (zext32 s.chk8) s.cfg.tBlock
      ({ s with blkAttempt := s.blkAttempt + 1 }.restingOver z) := by
    rw [← hbody, ← hchk]
    rfl
  rw [hsent]
  exact hcount.await_beginCmd (c := .uploading) rfl ho (fun hco => nomatch ho.symm.trans hco)
    (fun _ => ⟨hbody, hchk⟩) _ _ _ _

/-- FDATA of a STEP: whatever the buffer held, the block fills its data and FDATA its header (R112, R138). -/
theorem Rests.await_beginFdata (ho : s.orch = .uploading) :
    Alike (await .uploading (beginFdata s.session.blockIdx s.cfg.parmVal s.cfg.parmMask s.atBlock.filled))
      (await .uploading
        (beginFdata s.session.blockIdx s.cfg.parmVal s.cfg.parmMask (s.restingOver z).atBlock.filled)) := by
  obtain ⟨hblk, hblk'⟩ := h.buffers
  have hwf : Memory.wf s.atBlock.filled.blk = true := filled_wf hblk
  have hwf' : Memory.wf (s.restingOver z).atBlock.filled.blk = true := filled_wf (s := s.restingOver z) hblk'
  have hdata : blockData (s.restingOver z).atBlock.filled.blk = blockData s.atBlock.filled.blk :=
    (blockData_filled (s := s.restingOver z) hblk').trans (blockData_filled hblk).symm
  obtain ⟨hprepared, -⟩ := prepare_spec s.session.blockIdx s.cfg.parmVal s.cfg.parmMask _ hwf _ rfl
  obtain ⟨hprepared', -⟩ := prepare_spec s.session.blockIdx s.cfg.parmVal s.cfg.parmMask _ hwf' _ rfl
  have hrests : Rests (prepareBlock s.session.blockIdx s.cfg.parmVal s.cfg.parmMask s.atBlock.filled)
      (prepareBlock s.session.blockIdx s.cfg.parmVal s.cfg.parmMask (s.restingOver z).atBlock.filled) :=
    ⟨h.idle, h.times, ⟨hprepared, hprepared'⟩, rfl⟩
  exact hrests.await_fdataAttempt ho (prepareBlock_same _ _ _ hwf hwf' rfl rfl hdata)

/-- STEP in `uploading` (R138). -/
theorem Rests.stepUploading (ho : s.orch = .uploading) :
    Alike (stepUploading s) (stepUploading (s.restingOver z)) := by
  obtain ⟨hattempt, -⟩ := h.times (.inr (.inr ho))
  have hgate : blockGate (s.restingOver z).cfg.clkW ((s.restingOver z).env.turn.now % 2 ^ (s.restingOver z).cfg.clkW)
      (s.restingOver z).session.lastAttempt =
    blockGate s.cfg.clkW (s.env.turn.now % 2 ^ s.cfg.clkW) s.session.lastAttempt := by rw [← hattempt]; rfl
  have hbytes : (s.restingOver z).blockBytes = s.blockBytes := rfl
  have hsize : (s.restingOver z).session.imageSize.toNat - (s.restingOver z).session.blockIdx.toNat * blockSize =
    s.session.imageSize.toNat - s.session.blockIdx.toNat * blockSize := rfl
  have hat : Rests s.atBlock z := ⟨h.idle, h.times, h.buffers, rfl⟩
  have hfetched : Rests s.atBlock.fetched z := ⟨h.idle, h.times, h.buffers, rfl⟩
  simp only [stepUploading_eq, hgate, hbytes, hsize]
  split
  · split
    · exact hfetched.finishDone _
    · exact h.await_beginFdata ho
  · exact hat.answer _

end Rests

/-! ### STEP after STEP (R132, R192) -/

section Steps
variable {s s' z : State}

/-- Outside R4's constraints STEP is refused (U9). -/
theorem exec_step_illegal (hl : ¬ legalConfig s.cfg = true) : exec .step s = .refused .illegalConfiguration :=
  whenLegal_illegal (Bool.eq_false_of_not_eq_true hl) _

/-- A RECV is pending and nothing waits for it (log 18). -/
theorem exec_step_orphan (hl : legalConfig s.cfg = true) (ha : s.rx.active = true) (hc : callerOf s = none) :
    exec .step s = .fault .orphanReceive := by
  simp [exec, execStep, whenLegal_eq hl, ha, hc]

/-- The action of the session's state (R133 to R139). -/
theorem Rests.step (h : Rests s z) : AnswersAlike (exec .step s) (exec .step (s.restingOver z)) := by
  by_cases hl : legalConfig s.cfg = true
  case neg =>
    rw [exec_step_illegal hl, exec_step_illegal (s := s.restingOver z) hl]
    exact .refused _
  obtain ⟨hi, hi'⟩ := h.idle
  have hl' : legalConfig (s.restingOver z).cfg = true := hl
  have ho' : (s.restingOver z).orch = s.orch := rfl
  cases ho : s.orch <;> rw [ho] at ho'
  case idle =>
    rw [exec_step_idle hl hi ho, exec_step_idle hl' hi' ho']
    have hvalid : (s.restingOver z).session.resultValid = s.session.resultValid := rfl
    simp only [stepIdle, hvalid]
    split
    · exact .next (h.answer _)
    · exact .refused _
  case resetting =>
    rw [exec_step_resetting hl hi ho, exec_step_resetting hl' hi' ho']
    exact .next h.stepResetting
  case connecting =>
    rw [exec_step_connecting hl hi ho, exec_step_connecting hl' hi' ho']
    exact whenPunctual_alike (h.stepConnecting ho)
  case erasing =>
    rw [exec_step_erasing hl hi ho, exec_step_erasing hl' hi' ho']
    exact h.stepErasing ho
  case uploading =>
    rw [exec_step_uploading hl hi ho, exec_step_uploading hl' hi' ho']
    exact whenPunctual_alike (h.stepUploading ho)
  case done =>
    rw [exec_step_done hl hi ho, exec_step_done hl' hi' ho']
    exact .next (h.answer _)

/-- The RECV that is pending is resumed for the operation that waits, or none waits (R132). -/
theorem Unread.step (h : Unread s z) (ha : s.rx.active = true) (hm : receiverInv s.rx) :
    AnswersAlike (exec .step s) (exec .step (s.waitingOver z)) := by
  by_cases hl : legalConfig s.cfg = true
  case neg =>
    rw [exec_step_illegal hl, exec_step_illegal (s := s.waitingOver z) hl]
    exact .refused _
  have hcaller : callerOf (s.waitingOver z) = callerOf s := rfl
  cases hc : callerOf s with
  | some c =>
    obtain ⟨hunit, hin, -⟩ := callerOf_eq_some_iff.1 hc
    rw [exec_step_resumed hl ha hc, exec_step_resumed (s := s.waitingOver z) hl ha (hcaller.trans hc)]
    exact whenPunctual_alike (await_alike (hunit.symm.trans h.mine) hin h ha hm)
  | none =>
    rw [exec_step_orphan hl ha hc, exec_step_orphan (s := s.waitingOver z) hl ha (hcaller.trans hc)]
    exact .fault _

/-- One STEP of two machines in one session. -/
theorem Alike.step (h : Alike s s') : AnswersAlike (exec .step s) (exec .step s') := by
  cases h with
  | rests z rests => exact rests.step
  | waits z active machine unread => exact unread.step active machine

/-- Any number of them. -/
theorem Alike.runSteps (h : Alike s s') (n : Nat) :
    (runSteps n s).map (fun u => (u.ret, u.env, u.orch, u.session.result)) =
      (runSteps n s').map (fun u => (u.ret, u.env, u.orch, u.session.result)) := by
  induction n generalizing s s' with
  | zero =>
    obtain ⟨hret, henv, horch, hresult⟩ := h.seen
    simp only [runSteps_zero, Option.map_some, hret, henv, horch, hresult]
  | succ n ih =>
    have hstep := h.step
    simp only [Machine.runSteps]
    generalize exec .step s = o, exec .step s' = o' at hstep
    cases hstep with
    | next ht => exact ih ht
    | fault r | refused r => rfl

/-- What BEGIN_UPLOAD leaves, whatever has stood in the registers (R131). -/
theorem beginUpload_started {image : ImageSource} {addr : U32} {s t : State} (hi : image.size ≠ 0#32)
    (h : exec (.beginUpload image addr) s = .next t) :
    t = (startSession image.size addr { s with
      env := { s.env.turn with img := image, events := s.env.events ++ [.imgSize image.size] } }).answer .started := by
  have hl := (whenLegal_next h).1
  obtain ⟨ho, -⟩ := execBeginUpload_next h
  have hbegun := (exec_beginUpload hl image addr ho).trans (if_neg hi)
  exact Host.Outcome.next.inj (h.symm.trans hbegun)

end Steps

/-- Settles O60: BEGIN_UPLOAD leaves two such machines alike, and every STEP keeps them so. -/
theorem secondSessionIsAFirst : Obligations.SecondSessionIsAFirst := by
  intro s s' t t' image addr n hm hm' hc he hi ht ht'
  have hbegun := beginUpload_started hi ht
  have hbegun' := beginUpload_started hi ht'
  have hrests : Rests t t' := by
    subst hbegun hbegun'
    exact ⟨⟨rfl, rfl⟩, nofun, ⟨hm, hm'⟩, rfl⟩
  have hover : t' = t.restingOver t' := by
    subst hbegun hbegun'
    simp only [startSession, State.answer, State.restingOver, hc, he]
  rw [hover]
  exact (Alike.rests t' hrests).runSteps n

end Sys2Proof.Machine
end
